-- ==== Sys2Proof/Word.lean ====
section
/-! DEFINITION. The widths of spec/00_scope.md (0.6, 0.8): bytes, addresses, lines, sequences, epochs, contexts. -/

namespace Sys2Proof

/-- One byte. -/
abbrev Byte := BitVec 8

/-- A 40-bit byte address in the persistent memory space (00_scope.md 0.6). -/
abbrev Addr := BitVec 40

/-- A line address: a 40-bit address with its low 6 bits dropped (00_scope.md 0.6). -/
abbrev Line := BitVec 34

/-- A log sequence or an anchor generation: 32 bits, arithmetic modulo 2^32 (00_scope.md 0.7). -/
abbrev Seq := BitVec 32

/-- An epoch number: 24 bits, arithmetic modulo 2^24 (00_scope.md 0.7). -/
abbrev Epoch := BitVec 24

/-- A journal context, 0 to 3 (00_scope.md 0.6). -/
abbrev Ctx := Fin 4

/-- One value for each of the four contexts. -/
structure Quad (α : Type) where
  c0 : α
  c1 : α
  c2 : α
  c3 : α
deriving DecidableEq, Repr

namespace Quad

/-- The same value for every context. -/
def all {α : Type} (x : α) : Quad α := ⟨x, x, x, x⟩

/-- The value of context `c`. -/
def get {α : Type} (q : Quad α) (c : Ctx) : α :=
  match c with
  | 0 => q.c0
  | 1 => q.c1
  | 2 => q.c2
  | 3 => q.c3

/-- `q` with the value of context `c` replaced. -/
def set {α : Type} (q : Quad α) (c : Ctx) (x : α) : Quad α :=
  match c with
  | 0 => { q with c0 := x }
  | 1 => { q with c1 := x }
  | 2 => { q with c2 := x }
  | 3 => { q with c3 := x }

/-- The four values, each passed through `f`. -/
def map {α β : Type} (f : α → β) (q : Quad α) : Quad β := ⟨f q.c0, f q.c1, f q.c2, f q.c3⟩

end Quad

end Sys2Proof
end

