-- ==== Sys2Proof/Config.lean ====
section
/-! DEFINITION. The free values: what the spec leaves open. None has a body, so no proof can see what it is. -/

namespace Sys2Proof

/-- The order in which several contexts' procedures move on when ONE event lets more than one of them: the spec
gives none (log entry 7). Applied to the counter `State.free`; the number selects a permutation. -/
opaque Config.procedureOrder : Nat → Nat

/-- Which anchor copy is current when both are valid and their generations differ by exactly 2^31, so that neither
difference is positive (R54, log entry 8): true for copy 1. Applied to the generations of copies 0 and 1. -/
opaque Config.halfwayGeneration : Seq → Seq → Bool

/-- Which of two next epochs is the greater when they differ by exactly 2^23, so that neither difference is positive
(R107, log entry 9): true for the second. -/
opaque Config.halfwayEpoch : Epoch → Epoch → Bool

end Sys2Proof
end

