-- ==== Sys2Proof/Syntax.lean ====
section
/-! DEFINITION. The commands: one constructor of `Instr` for each row of spec/opcode_table.json, with its operands. -/

namespace Sys2Proof

/-- What an upstream request does, with the fields its kind decides (R133). -/
inductive Access where
  | read
  /-- One enable and one byte per byte of the length; the optional journal tag. -/
  | write (enables : List Bool) (data : List Byte) (journalTag : Option Ctx)
deriving DecidableEq, Repr

/-- A request on the upstream link (R133). -/
structure UpRequest where
  tag     : BitVec 6
  address : Addr
  /-- A number of bytes as carried on the link. -/
  length  : Nat
  access  : Access
deriving DecidableEq, Repr

/-- The memory controller's answer to a downstream transaction (R147). A DONE answer to a READ carries data; the
operand's bytes stand for themselves followed by zero bytes, cut to the transaction's length (log entry 6). -/
inductive Answer where
  | done (data : List Byte)
  | error
deriving DecidableEq, Repr

/-- A command as the management link decodes it from a frame (R172, R186). -/
inductive FrameCommand where
  | nop
  | status
  | get (item index : Byte)
  | set (item index : Byte) (value : BitVec 64)
  | attach (mode : Byte)
  | detach
  | openEpoch (ctx : Byte)
  | commit (ctx : Byte)
  | abort (ctx : Byte)
  | popEvent
  | clearOverrun
  | softReset
deriving DecidableEq, Repr

/-- The bytes that MALFORMED_FRAME carries. -/
inductive FramePart where
  /-- The frame's whole bytes; MCS_N rises. -/
  | ended (bytes : List Byte)
  /-- The whole bytes clocked so far; MCS_N is still low, so no command is taken yet (R170, R174, log entry 14). -/
  | begun (bytes : List Byte)
deriving DecidableEq, Repr

/-- The commands of the block: the rows of spec/opcode_table.json. In the management rows `extra` is the number of
bytes the frame clocks beyond those its command needs (R172). -/
inductive Instr where
  /-- NOP (R175). -/
  | nop (extra : Nat)
  /-- STATUS (R175). -/
  | status (extra : Nat)
  /-- GET (R177). -/
  | get (item index : Byte) (extra : Nat)
  /-- SET of an item that has no row of its own (R177). -/
  | set (item index : Byte) (value : BitVec 64) (extra : Nat)
  /-- SET_REGION: SET of item REGION (R121). -/
  | setRegion (index : Byte) (value : BitVec 64) (extra : Nat)
  /-- SET_QUOTA: SET of item QUOTA (R13). -/
  | setQuota (index : Byte) (value : BitVec 64) (extra : Nat)
  /-- SET_WATERMARK: SET of item WATERMARK (R49). -/
  | setWatermark (index : Byte) (value : BitVec 64) (extra : Nat)
  /-- SET_EVENT_MASK: SET of item EVENT_MASK (R165). -/
  | setEventMask (index : Byte) (value : BitVec 64) (extra : Nat)
  /-- ATTACH_FORMAT: ATTACH whose mode byte is 01H, or names no mode (R101, R102, log entry 15). -/
  | attachFormat (mode : Byte) (extra : Nat)
  /-- ATTACH_RESUME: ATTACH whose mode byte is 02H (R103). -/
  | attachResume (extra : Nat)
  /-- DETACH (R110). -/
  | detach (extra : Nat)
  /-- OPEN (R5). -/
  | openEpoch (ctx : Byte) (extra : Nat)
  /-- COMMIT (R7). -/
  | commit (ctx : Byte) (extra : Nat)
  /-- ABORT (R8). -/
  | abort (ctx : Byte) (extra : Nat)
  /-- POP_EVENT (R163). -/
  | popEvent (extra : Nat)
  /-- CLEAR_OVERRUN (R164). -/
  | clearOverrun (extra : Nat)
  /-- SOFT_RESET (R179). -/
  | softReset (extra : Nat)
  /-- MALFORMED_FRAME (R172), or the part of a frame clocked before another event (R174, log entry 14). -/
  | malformedFrame (frame : FramePart)
  /-- POWER_ON_RESET: RST_N is asserted (R182). -/
  | powerOnReset
  /-- RST_N_RELEASE (R182). -/
  | rstRelease
  /-- PFAIL_N_ASSERTED (R114). -/
  | pfailAsserted
  /-- UPSTREAM_REQUEST: a request arrives on the link, or none does; the intake takes the link's oldest (R136,
  log entry 11). -/
  | upstreamRequest (arrival : Option UpRequest)
  /-- HEAD_RECLASSIFIED (R139). -/
  | headReclassified
  /-- RELEASE (R71). -/
  | release
  /-- CAPTURE_READ_HANDED (R66). -/
  | captureReadHanded
  /-- GRANT (R152). -/
  | grant
  /-- STRAIGHT_ANSWER (R140). -/
  | straightAnswer (tag : BitVec 4) (answer : Answer)
  /-- FORWARDED_ENTRY_ANSWER (R72). -/
  | forwardedEntryAnswer (tag : BitVec 4) (answer : Answer)
  /-- CAPTURE_READ_ANSWER (R67). -/
  | captureReadAnswer (tag : BitVec 4) (answer : Answer)
  /-- APPEND_TAKE (R44). The rules decide which request is taken: the row has no operand of its own. -/
  | appendTake (operand : Unit)
  /-- APPEND_ANSWER (R46). -/
  | appendAnswer (tag : BitVec 4) (answer : Answer)
  /-- RECLAMATION_ANCHOR_WRITE (R51). -/
  | reclamationAnchorWrite
  /-- ANCHOR_WRITE_ANSWER (R53). -/
  | anchorWriteAnswer (tag : BitVec 4) (answer : Answer)
  /-- RESTORE_READ_ANSWER (R91). -/
  | restoreReadAnswer (tag : BitVec 4) (answer : Answer)
  /-- RESTORE_WRITE_ANSWER (R92). -/
  | restoreWriteAnswer (tag : BitVec 4) (answer : Answer)
  /-- SCAN_READ_ANSWER (R104). -/
  | scanReadAnswer (tag : BitVec 4) (answer : Answer)
  /-- SCAN_WRITE_ANSWER (R106). -/
  | scanWriteAnswer (tag : BitVec 4) (answer : Answer)
  /-- STRAY_ANSWER (R147). -/
  | strayAnswer (tag : BitVec 4) (answer : Answer)
  /-- CLEAN_ANCHOR_WRITE (R111). -/
  | cleanAnchorWrite
  /-- FINAL_DRAIN_ANCHOR_WRITE (R116). -/
  | finalDrainAnchorWrite
  /-- DRAINED (R118). -/
  | drained
  /-- VOLATILE_RESET (R181). -/
  | volatileReset
  /-- PFAIL_N_DEASSERTED (R114). -/
  | pfailDeasserted
deriving DecidableEq, Repr

end Sys2Proof
end

