-- ==== Sys2Proof/Decode.lean ====
section
/-! DEFINITION. Reading commands: the rows of spec/opcode_table.json that give bits (none does), and the frames of the
management link (R170 to R172, R186) with their encoder. -/

namespace Sys2Proof

/-- The command a word spells by the table's bits. No row of spec/opcode_table.json gives bits, so no word does. -/
def decodeTableWord (_nbits _w : Nat) : Option Instr := none

/-- The most significant byte first value of a list of bytes, as the link shifts it (R186). -/
def valueMsbFirst (bytes : List Byte) : Nat := bytes.foldl (fun acc b => acc * 256 + b.toNat) 0

/-- The `n` bytes of a value, most significant first (R186). -/
def bytesMsbFirst (n value : Nat) : List Byte :=
  ((List.range n).map fun i => BitVec.ofNat 8 (value >>> (8 * i))).reverse

/-- The command of a frame: byte 0 is the code, the bytes after it the arguments, bytes past those the command needs
are ignored. None for a frame that names no command or is shorter than its command needs (R172, R186). -/
def frameCommand (frame : List Byte) : Option FrameCommand :=
  match frame with
  | [] => none
  | code :: args =>
    if code = 0x00#8 then some .nop
    else if code = 0x01#8 then some .status
    else if code = 0x02#8 then
      match args with
      | item :: index :: _ => some (.get item index)
      | _ => none
    else if code = 0x03#8 then
      match args with
      | item :: index :: value =>
        if 8 ≤ value.length then some (.set item index (BitVec.ofNat 64 (valueMsbFirst (value.take 8)))) else none
      | _ => none
    else if code = 0x04#8 then
      match args with
      | mode :: _ => some (.attach mode)
      | _ => none
    else if code = 0x05#8 then some .detach
    else if code = 0x06#8 then
      match args with
      | ctx :: _ => some (.openEpoch ctx)
      | _ => none
    else if code = 0x07#8 then
      match args with
      | ctx :: _ => some (.commit ctx)
      | _ => none
    else if code = 0x08#8 then
      match args with
      | ctx :: _ => some (.abort ctx)
      | _ => none
    else if code = 0x09#8 then some .popEvent
    else if code = 0x0A#8 then some .clearOverrun
    else if code = 0x5A#8 then some .softReset
    else none

/-- The bytes a command needs, counting byte 0 (R172). -/
def FrameCommand.bytesNeeded : FrameCommand → Nat
  | .nop => 1
  | .status => 1
  | .get _ _ => 3
  | .set _ _ _ => 11
  | .attach _ => 2
  | .detach => 1
  | .openEpoch _ => 2
  | .commit _ => 2
  | .abort _ => 2
  | .popEvent => 1
  | .clearOverrun => 1
  | .softReset => 1

/-- The row of the table that a command with `extra` bytes behind it is: a SET is the row of its item where the item
has one, an ATTACH the row of its mode (spec/opcode_table.json). -/
def FrameCommand.instr (command : FrameCommand) (extra : Nat) : Instr :=
  match command with
  | .nop => .nop extra
  | .status => .status extra
  | .get item index => .get item index extra
  | .set item index value =>
    if item = 0x01#8 then .setRegion index value extra
    else if item = 0x07#8 then .setQuota index value extra
    else if item = 0x05#8 then .setWatermark index value extra
    else if item = 0x0B#8 then .setEventMask index value extra
    else .set item index value extra
  | .attach mode => if mode = 0x02#8 then .attachResume extra else .attachFormat mode extra
  | .detach => .detach extra
  | .openEpoch ctx => .openEpoch ctx extra
  | .commit ctx => .commit ctx extra
  | .abort ctx => .abort ctx extra
  | .popEvent => .popEvent extra
  | .clearOverrun => .clearOverrun extra
  | .softReset => .softReset extra

/-- The row of the table that a frame is, when its last byte has been shifted (R170, R172). -/
def frameInstr (frame : List Byte) : Instr :=
  match frameCommand frame with
  | none => .malformedFrame (.ended frame)
  | some command => command.instr (frame.length - command.bytesNeeded)

/-- The bytes of a command's frame (R172, R186), with zero bytes for the extra ones. -/
def FrameCommand.bytes (command : FrameCommand) (extra : Nat) : List Byte :=
  (match command with
    | .nop => [0x00#8]
    | .status => [0x01#8]
    | .get item index => [0x02#8, item, index]
    | .set item index value => 0x03#8 :: item :: index :: bytesMsbFirst 8 value.toNat
    | .attach mode => [0x04#8, mode]
    | .detach => [0x05#8]
    | .openEpoch ctx => [0x06#8, ctx]
    | .commit ctx => [0x07#8, ctx]
    | .abort ctx => [0x08#8, ctx]
    | .popEvent => [0x09#8]
    | .clearOverrun => [0x0A#8]
    | .softReset => [0x5A#8]) ++ List.replicate extra 0

/-- The frame of a management row. None for a row that is no whole frame. -/
def frameBytes (i : Instr) : Option (List Byte) :=
  match i with
  | .nop extra => some (FrameCommand.nop.bytes extra)
  | .status extra => some (FrameCommand.status.bytes extra)
  | .get item index extra => some ((FrameCommand.get item index).bytes extra)
  | .set item index value extra => some ((FrameCommand.set item index value).bytes extra)
  | .setRegion index value extra => some ((FrameCommand.set 0x01#8 index value).bytes extra)
  | .setQuota index value extra => some ((FrameCommand.set 0x07#8 index value).bytes extra)
  | .setWatermark index value extra => some ((FrameCommand.set 0x05#8 index value).bytes extra)
  | .setEventMask index value extra => some ((FrameCommand.set 0x0B#8 index value).bytes extra)
  | .attachFormat mode extra => some ((FrameCommand.attach mode).bytes extra)
  | .attachResume extra => some ((FrameCommand.attach 0x02#8).bytes extra)
  | .detach extra => some (FrameCommand.detach.bytes extra)
  | .openEpoch ctx extra => some ((FrameCommand.openEpoch ctx).bytes extra)
  | .commit ctx extra => some ((FrameCommand.commit ctx).bytes extra)
  | .abort ctx extra => some ((FrameCommand.abort ctx).bytes extra)
  | .popEvent extra => some (FrameCommand.popEvent.bytes extra)
  | .clearOverrun extra => some (FrameCommand.clearOverrun.bytes extra)
  | .softReset extra => some (FrameCommand.softReset.bytes extra)
  | .malformedFrame (.ended frame) => some frame
  | .malformedFrame (.begun _) => none
  | .powerOnReset => none
  | .rstRelease => none
  | .pfailAsserted => none
  | .upstreamRequest _ => none
  | .headReclassified => none
  | .release => none
  | .captureReadHanded => none
  | .grant => none
  | .straightAnswer _ _ => none
  | .forwardedEntryAnswer _ _ => none
  | .captureReadAnswer _ _ => none
  | .appendTake _ => none
  | .appendAnswer _ _ => none
  | .reclamationAnchorWrite => none
  | .anchorWriteAnswer _ _ => none
  | .restoreReadAnswer _ _ => none
  | .restoreWriteAnswer _ _ => none
  | .scanReadAnswer _ _ => none
  | .scanWriteAnswer _ _ => none
  | .strayAnswer _ _ => none
  | .cleanAnchorWrite => none
  | .finalDrainAnchorWrite => none
  | .drained => none
  | .volatileReset => none
  | .pfailDeasserted => none

end Sys2Proof
end

