-- ==== Sys2Proof/Machine/State.lean ====
section
/-! DEFINITION. The state of the bridge, block by block as spec/00_scope.md 0.3 lists the blocks, the queue of waiting
commands, and the state after reset. Computed views (entry counts, F, free counts, hold states, records outstanding,
ATTN_N) stand in Machine/Flags.lean: log entry 24. -/

namespace Sys2Proof.Machine

/-! ## Context table (R1) -/

/-- The phase of a context (R1). `opened` is the spec's OPEN. -/
inductive CtxState where
  | idle
  | opened
  | committing
  | aborting
  | faulted
deriving DecidableEq, Repr

/-- Why a context entered FAULTED (R14). -/
inductive FaultCause where
  | captureError
  | forwardError
  | journalBroken
deriving DecidableEq, Repr

/-- A context record (R1). The entry count is `State.entryCount`. -/
structure ContextRecord where
  state       : CtxState
  epoch       : Epoch
  nextEpoch   : Epoch
  firstSeq    : Option Seq
  recordCount : Nat
  marker      : Bool
  faultCause  : Option FaultCause
  quota       : Nat
deriving DecidableEq, Repr

/-! ## Line filter (R20) -/

inductive FilterState where
  | capturing
  | logged
deriving DecidableEq, Repr

/-- A filter entry (R20). -/
structure FilterEntry where
  line  : Line
  owner : Ctx
  state : FilterState
  seq   : Option Seq
deriving DecidableEq, Repr

/-! ## Log writer (R35, R39) -/

/-- The geometry and threshold items (R35). -/
structure LogItems where
  ringBase   : Addr
  sizeExp    : Nat
  anchorAddr : Addr
  anchorStep : Nat
  watermark  : Nat
deriving DecidableEq, Repr

inductive MarkerKind where
  | commit
  | aborted
deriving DecidableEq, Repr

/-- An append asked for and not yet taken (R42, R86). -/
inductive AppendRequest where
  /-- The record of R37 without its sequence. -/
  | preImage (ctx : Ctx) (line : Line) (image : List Byte)
  | marker (kind : MarkerKind) (ctx : Ctx) (epoch : Epoch) (incomplete : Bool)
deriving DecidableEq, Repr

/-- An append taken whose write has not answered DONE; `failed` once it has answered ERROR (R39, R47). -/
structure InFlight where
  seq    : Seq
  ctx    : Ctx
  failed : Bool
deriving DecidableEq, Repr

inductive Issuer where
  | logWriter
  | attachEngine
deriving DecidableEq, Repr

/-- The anchor write in flight (R39, R52). A zero copy carries neither generation nor tail (R102, log entry 21). -/
structure AnchorFlight where
  generation : Option Seq
  tail       : Option Seq
  issuer     : Issuer
  attaching  : Bool
deriving DecidableEq, Repr

/-- The log writer's state (R39). F and the free count are `State.frontier` and `State.freeSlots`. -/
structure LogWriter where
  ringSize     : BitVec 32
  head         : Seq
  inFlight     : List InFlight
  requests     : List AppendRequest
  tail         : Seq
  generation   : Seq
  anchor       : Option AnchorFlight
  logFullArmed : Bool
  logLowArmed  : Bool
  /-- The line of the PRE_IMAGE request that waits for space (R43, R48, R68; log entry 25). -/
  spaceWaiter  : Option Line
deriving DecidableEq, Repr

/-! ## Hold queue and capture unit (R58) -/

/-- The stage of a capture item (R58). -/
inductive Stage where
  /-- PENDING; `handed`: its read has been handed to the CAPTURE requester. -/
  | pending (handed : Bool)
  | reading
  | built (image : List Byte)
  | taken (seq : Seq)
  | covered (seq : Seq)
deriving DecidableEq, Repr

structure CaptureItem where
  line  : Line
  stage : Stage
deriving DecidableEq, Repr

/-- A hold entry (R58). Its lines, records outstanding and state are `HoldEntry.lines`, `HoldEntry.outstanding` and
`State.holdState`. -/
structure HoldEntry where
  request  : UpRequest
  journaled : Bool
  items    : List CaptureItem
  released : Bool
deriving DecidableEq, Repr

/-- A line under capture and the context it is captured for. -/
structure CaptureRef where
  ctx  : Ctx
  line : Line
deriving DecidableEq, Repr

/-- The states of a hold entry (R61). -/
inductive HoldState where
  | waiting
  | capturing
  | logWait
  | appending
  | ready
  | forwarded
deriving DecidableEq, Repr

/-! ## Epoch engine (R80) -/

inductive Procedure where
  | none
  | commit
  | abort
deriving DecidableEq, Repr

inductive Phase where
  | settling
  | covering
  | replaying
  | marking
  | stopped
deriving DecidableEq, Repr

inductive ReplayStep where
  | read
  | write
deriving DecidableEq, Repr

/-- A progress record (R80). -/
structure Progress where
  procedure  : Procedure
  phase      : Phase
  markerSeq  : Option Seq
  replayList : List FilterEntry
  replayStep : Option ReplayStep
  restored   : Nat
  incomplete : Bool
deriving DecidableEq, Repr

/-! ## Attach engine (R99, R100) -/

/-- The journal state (R99). -/
inductive JournalState where
  | detached
  | attaching
  | attached
  | detaching
  | broken
  | draining
  | drained
deriving DecidableEq, Repr

inductive AttachMode where
  | format
  | resume
deriving DecidableEq, Repr

/-- Where an attach stands (R100). `invalidating second` says which zero copy is being written (R102, stage 1). -/
inductive AttachStep where
  | none
  | invalidating (second : Bool)
  | sweeping
  | formatAnchor
  | readingAnchor
  | scanning
  | replaying
  | finalAnchor
deriving DecidableEq, Repr

inductive AnchorState where
  | clean
  | active
deriving DecidableEq, Repr

/-- What an anchor copy says (R52, R184). -/
structure AnchorCopy where
  generation : Seq
  state      : AnchorState
  tail       : Seq
  nextEpochs : Quad Epoch
deriving DecidableEq, Repr

/-- A recovery record (R100, R105). -/
structure Recovery where
  latest   : Option Epoch
  finished : Bool
  first    : Option Seq
deriving DecidableEq, Repr

/-- The attach progress record (R100). -/
structure AttachProgress where
  mode       : AttachMode
  step       : AttachStep
  ringBase   : Addr
  slots      : BitVec 32
  anchorAddr : Addr
  current    : Option AnchorCopy
  position   : Seq
  recovery   : Quad Recovery
  headFound  : Seq
  scanned    : Nat
  restored   : Nat
  failed     : Bool
deriving DecidableEq, Repr

inductive AttachResult where
  | formatted
  | clean
  | recovered
  | noAnchor
  | failedRead
  | failedRestore
  | failedWrite
deriving DecidableEq, Repr

/-- The attach report (R100). Epochs rolled back is the number of contexts in `contexts`. -/
structure AttachReport where
  result   : Option AttachResult
  scanned  : Nat
  contexts : Quad Bool
  restored : Nat
deriving DecidableEq, Repr

/-- How a drain ended (R116 to R118). -/
inductive DrainDetail where
  | written
  | failed
  | skipped
deriving DecidableEq, Repr

/-- The drain record (R100), and the tail the final drain anchor carried (R118, log entry 26). -/
structure DrainRecord where
  origin      : Option JournalState
  anchorError : Bool
  finalIssued : Bool
  detail      : Option DrainDetail
  finalTail   : Option Seq
deriving DecidableEq, Repr

/-- The attach engine's state (R99, R100, R118). -/
structure AttachEngine where
  journal  : JournalState
  progress : AttachProgress
  report   : AttachReport
  drain    : DrainRecord
  /-- QUIET is asserted (R118). -/
  quiet    : Bool
deriving DecidableEq, Repr

/-! ## Region table (R120) -/

inductive RegionKind where
  | pass
  | guard
  | journal
deriving DecidableEq, Repr

inductive ClosedAction where
  | forward
  | refuse
deriving DecidableEq, Repr

/-- A region entry (R120). Bit c of `mask` is context c's. -/
structure RegionEntry where
  valid  : Bool
  kind   : RegionKind
  base   : BitVec 28
  limit  : BitVec 28
  mask   : BitVec 4
  closed : ClosedAction
deriving DecidableEq, Repr

/-! ## Upstream port (R133 to R137) -/

inductive Intake where
  | taking
  | waitHold
  | waitForward
  | stopped
deriving DecidableEq, Repr

/-- Where an outstanding request stands (R137). -/
inductive TagPlace where
  | head
  | held
  | queued
  | issued
deriving DecidableEq, Repr

/-- An entry of the table of outstanding upstream tags (R137). -/
structure TagEntry where
  tag        : BitVec 6
  isWrite    : Bool
  address    : Addr
  length     : Nat
  journalTag : Option Ctx
  place      : TagPlace
deriving DecidableEq, Repr

/-- The upstream port's state (R135, R137); `link` holds the requests that have arrived and are not taken yet. -/
structure UpstreamPort where
  intake : Intake
  head   : Option UpRequest
  tags   : List TagEntry
  link   : List UpRequest
deriving DecidableEq, Repr

/-! ## Downstream port and arbiter (R146 to R154) -/

inductive DownBody where
  | read
  | write (enables : List Bool) (data : List Byte)
deriving DecidableEq, Repr

/-- A downstream request, but for its tag (R146). -/
structure DownRequest where
  address : Addr
  length  : Nat
  body    : DownBody
deriving DecidableEq, Repr

/-- The six requesters (00_scope.md 0.3). -/
inductive Requester where
  | anchor
  | append
  | capture
  | forward
  | restore
  | scan
deriving DecidableEq, Repr

/-- The source of a forward entry (R148). -/
inductive Source where
  | straight
  | held
deriving DecidableEq, Repr

/-- What the answer of a transaction is routed to: its role and owner reference (R150, R155). -/
inductive Owner where
  | anchor
  | append (seq : Seq)
  | capture (ref : CaptureRef)
  | forward (tag : BitVec 6) (source : Source)
  | restore (ctx : Ctx) (step : ReplayStep)
  | scan (step : AttachStep) (isWrite : Bool)
deriving DecidableEq, Repr

/-- A transaction waiting at a requester (R148, R149). -/
structure Transaction where
  request : DownRequest
  owner   : Owner
deriving DecidableEq, Repr

/-- An entry of the outstanding table (R150). -/
structure Outstanding where
  tag   : BitVec 4
  owner : Owner
  lines : List Line
deriving DecidableEq, Repr

/-- The downstream port's state (R148 to R150, R153, R154). The outstanding table stands in the order of issue. -/
structure DownstreamPort where
  anchorList      : List Transaction
  appendList      : List Transaction
  captureList     : List Transaction
  forwardQueue    : List Transaction
  restoreList     : List Transaction
  scanList        : List Transaction
  outstanding     : List Outstanding
  order           : List Requester
  throttleRestore : Nat
  throttleScan    : Nat
  restoreCount    : Nat
  scanCount       : Nat
deriving DecidableEq, Repr

/-! ## Event block (R160 to R162) -/

/-- The refusal reasons (R162). -/
inductive Reason where
  | malformed
  | guarded
  | logArea
  | detached
  | recovering
  | draining
  | broken
  | notPermitted
  | conflict
  | closed
  | faulted
  | filterFull
  | aborted
deriving DecidableEq, Repr

inductive CommitResult where
  | committed
  | failed
deriving DecidableEq, Repr

inductive AbortResult where
  | rolledBack
  | incomplete
deriving DecidableEq, Repr

inductive DetachResult where
  | detached
  | failed
deriving DecidableEq, Repr

inductive BreakCause where
  | appendError
  | anchorError
deriving DecidableEq, Repr

/-- The event kinds, each with its detail (R160, R162). LOG_LOW and LOG_FULL have the detail NONE, REQUEST_FAILED the
detail DOWNSTREAM. -/
inductive Happening where
  | requestRefused (reason : Reason)
  | requestFailed
  | contextFaulted (cause : FaultCause)
  | logLow
  | logFull
  | commitDone (result : CommitResult)
  | abortDone (result : AbortResult)
  | attachDone (result : AttachResult)
  | detachDone (result : DetachResult)
  | journalBroken (cause : BreakCause)
  | drained (detail : DrainDetail)
deriving DecidableEq, Repr

/-- An event record (R160). -/
structure Event where
  what     : Happening
  context  : Option Ctx
  address  : Option Addr
  sequence : Option Seq
  count    : Option Nat
deriving DecidableEq, Repr

/-- The event block's state (R160). Bit k - 1 of `mask` enables the kind of code k (R187). -/
structure EventBlock where
  records : List Event
  overrun : Bool
  mask    : BitVec 11
deriving DecidableEq, Repr

/-! ## Management link (R171 to R175) -/

/-- The status record (R175). -/
structure StatusRecord where
  journal     : JournalState
  waiting     : Bool
  pfail       : Bool
  quiet       : Bool
  report      : AttachReport
  logFree     : BitVec 32
  filterFree  : Nat
  holdEntries : Nat
  intake      : Intake
  upstreamTags : Nat
  forwardEntries : Nat
  outstanding : Nat
  records     : Nat
  overrun     : Bool
deriving DecidableEq, Repr

/-- A reply (R173), with the data R172 lists. -/
inductive Reply where
  | ok
  | okEpoch (epoch : Epoch)
  | okItem (value : BitVec 64)
  | okContext (record : ContextRecord) (entryCount : Nat)
  | okStatus (record : StatusRecord)
  | okEvent (event : Event) (left : Nat) (overrun : Bool)
  | busy
  | badState
  | badRange
  | malformed
  | empty (overrun : Bool)
deriving DecidableEq, Repr

/-- Whether a frame is in progress between two steps (R170, R174). -/
inductive FramePhase where
  /-- MCS_N is high. -/
  | none
  /-- MCS_N is low and `clocked` whole bytes have been clocked; the first 11 stand in the assembly buffer. -/
  | inProgress (clocked : Nat)
  /-- MCS_N is low; RST_N has been asserted since the frame began, so it is discarded and its command is not taken. -/
  | discarded
deriving DecidableEq, Repr

/-- The link's own state (R174). `waiting` is the soft reset phase WAITING. -/
structure ManagementLink where
  frame    : FramePhase
  assembly : List Byte
  reply    : Option Reply
  waiting  : Bool
deriving DecidableEq, Repr

/-! ## Pins and outputs -/

/-- The levels of the two input pins that are not part of a link: asserted when true. -/
structure Pins where
  rst   : Bool
  pfail : Bool
deriving DecidableEq, Repr

/-- The result of an upstream response (R134). A DONE for a WRITE carries no data. -/
inductive UpResult where
  | done (data : List Byte)
  | error
deriving DecidableEq, Repr

structure UpResponse where
  tag    : BitVec 6
  result : UpResult
deriving DecidableEq, Repr

/-- A request issued downstream (R146). -/
structure IssuedRequest where
  tag     : BitVec 4
  request : DownRequest
deriving DecidableEq, Repr

/-- What the bridge has sent out, each oldest first (log entry 13): upstream responses, downstream requests, and the
bytes shifted out on MDO, frame by frame. -/
structure Outputs where
  responses : List UpResponse
  requests  : List IssuedRequest
  mdo       : List (List Byte)
deriving DecidableEq, Repr

/-! ## The state -/

/-- The state of the bridge and the queue of commands that wait. -/
structure State where
  contexts   : Quad ContextRecord
  filter     : List FilterEntry
  items      : LogItems
  log        : LogWriter
  hold       : List HoldEntry
  /-- Capture items kept outside the hold queue until their reads answer (R75). -/
  kept       : List CaptureRef
  /-- The PENDING items whose handing conditions hold, in the order they came to hold (R66, log entry 25). -/
  due        : List CaptureRef
  engine     : Quad Progress
  attach     : AttachEngine
  regions    : Vector RegionEntry 16
  upstream   : UpstreamPort
  downstream : DownstreamPort
  events     : EventBlock
  mgmt       : ManagementLink
  pins       : Pins
  out        : Outputs
  /-- Selects the next free value (log entry 7). -/
  free       : Nat
  pending    : List Instr
deriving DecidableEq, Repr

/-- The reasons the machine stops with a fault: there are none. The spec gives every command an effect or a refusal
with a reply, a response or an event of its own, so no command of this block ends a run. -/
inductive Fault where
deriving DecidableEq, Repr

/-- The reasons a command has no meaning. -/
inductive Refusal where
  /-- Raised by `exec` alone, for a command that has no meaning yet, named as spec/opcode_table.json spells it. Safe:
  the model stops. No command is left in it. -/
  | notModelled (mnemonic : String)
deriving DecidableEq, Repr

/-! ## Reset values -/

/-- R1, power-on column. -/
def ContextRecord.reset : ContextRecord :=
  { state := .idle, epoch := 0, nextEpoch := 0, firstSeq := none, recordCount := 0, marker := false,
    faultCause := none, quota := 128 }

/-- R35, power-on column. -/
def LogItems.reset : LogItems :=
  { ringBase := 0, sizeExp := 0, anchorAddr := 0, anchorStep := 64, watermark := 0 }

/-- R39, both resets. -/
def LogWriter.reset : LogWriter :=
  { ringSize := 0, head := 0, inFlight := [], requests := [], tail := 0, generation := 0, anchor := none,
    logFullArmed := true, logLowArmed := true, spaceWaiter := none }

/-- R80, both resets. -/
def Progress.reset : Progress :=
  { procedure := .none, phase := .settling, markerSeq := none, replayList := [], replayStep := none, restored := 0,
    incomplete := false }

/-- R100, both resets. -/
def Recovery.reset : Recovery := { latest := none, finished := false, first := none }

/-- R100, both resets. -/
def AttachProgress.reset : AttachProgress :=
  { mode := .format, step := .none, ringBase := 0, slots := 0, anchorAddr := 0, current := none, position := 0,
    recovery := Quad.all Recovery.reset, headFound := 0, scanned := 0, restored := 0, failed := false }

/-- R100, both resets. -/
def AttachReport.reset : AttachReport :=
  { result := none, scanned := 0, contexts := Quad.all false, restored := 0 }

/-- R100, both resets. -/
def DrainRecord.reset : DrainRecord :=
  { origin := none, anchorError := false, finalIssued := false, detail := none, finalTail := none }

/-- R99, R100, R118, both resets. -/
def AttachEngine.reset : AttachEngine :=
  { journal := .detached, progress := .reset, report := .reset, drain := .reset, quiet := false }

/-- The reset contents of a region entry (R120). -/
def RegionEntry.reset : RegionEntry :=
  { valid := false, kind := .pass, base := 0, limit := 0, mask := 0, closed := .forward }

/-- R135, R137. -/
def UpstreamPort.reset : UpstreamPort := { intake := .taking, head := none, tags := [], link := [] }

/-- R148 to R154, power-on values. -/
def DownstreamPort.reset : DownstreamPort :=
  { anchorList := [], appendList := [], captureList := [], forwardQueue := [], restoreList := [], scanList := [],
    outstanding := [], order := [.anchor, .append, .capture, .forward, .restore, .scan], throttleRestore := 4,
    throttleScan := 0, restoreCount := 0, scanCount := 0 }

/-- R160, power-on column. -/
def EventBlock.reset : EventBlock := { records := [], overrun := false, mask := 0x7FF }

/-- R174, power-on column. -/
def ManagementLink.reset : ManagementLink := { frame := .none, assembly := [], reply := none, waiting := false }

/-- The bridge right after a power-on reset: RST_N released, PFAIL_N deasserted, nothing on the links (R182; the pin
levels and the empty outputs: log entry 1). -/
def State.reset : State :=
  { contexts := Quad.all .reset, filter := [], items := .reset, log := .reset, hold := [], kept := [], due := [],
    engine := Quad.all .reset, attach := .reset, regions := Vector.replicate 16 .reset, upstream := .reset,
    downstream := .reset, events := .reset, mgmt := .reset, pins := { rst := false, pfail := false },
    out := { responses := [], requests := [], mdo := [] }, free := 0, pending := [] }

end Sys2Proof.Machine
end

