-- ==== Sys2Proof/Machine/Operands.lean ====
section
/-! DEFINITION. The forms of operands: lines and blocks of a request, the log's geometry, the kind of an address, the
lookups in the tables. -/

namespace Sys2Proof.Machine

/-- The four contexts in ascending number. -/
def allContexts : List Ctx := [0, 1, 2, 3]

/-- The context a byte argument names: none above 3 (R4). -/
def ctxOfByte (b : Byte) : Option Ctx :=
  if h : b.toNat < 4 then some ⟨b.toNat, h⟩ else none

/-! ## Lines -/

/-- The line of an address: the address with its low 6 bits dropped (00_scope.md 0.6). -/
def lineOf (a : Addr) : Line := a.extractLsb' 6 34

/-- The first byte of a line (00_scope.md 0.6). -/
def lineAddress (l : Line) : Addr := l ++ 0#6

/-- The lines a request of `length` bytes at `a` covers, ascending: from the line of its first byte to the line of its
last (02_the_line_filter.md 2.2, R146). -/
def linesOf (a : Addr) (length : Nat) : List Line :=
  (List.range ((a.toNat % 64 + length - 1) / 64 + 1)).map fun i => lineOf a + BitVec.ofNat 34 i

end Sys2Proof.Machine

namespace Sys2Proof

/-! ## Requests from the masters (R133, R136) -/

/-- The journal tag of a request: carried by WRITE requests alone (R133). -/
def UpRequest.journalTag (r : UpRequest) : Option Ctx :=
  match r.access with
  | .read => none
  | .write _ _ t => t

def UpRequest.isWrite (r : UpRequest) : Bool :=
  match r.access with
  | .read => false
  | .write _ _ _ => true

def UpRequest.lines (r : UpRequest) : List Line := Machine.linesOf r.address r.length

/-- The request as it goes downstream: no journal tag, its data and enables as they came (R71, R128, R138). -/
def UpRequest.forwardRequest (r : UpRequest) : Machine.DownRequest :=
  match r.access with
  | .read => { address := r.address, length := r.length, body := .read }
  | .write enables data _ => { address := r.address, length := r.length, body := .write enables data }

/-- The first two form checks of R136 fail: the length is 0 or above 256, or the first and last bytes lie in different
256-byte aligned blocks. -/
def UpRequest.badForm (r : UpRequest) : Bool :=
  r.length == 0 || 256 < r.length || 256 < r.address.toNat % 256 + r.length

end Sys2Proof

namespace Sys2Proof.Machine

def DownRequest.lines (r : DownRequest) : List Line := linesOf r.address r.length

/-- The bytes a READ of `n` bytes returns, from the bytes of its answer (R134, R147; log entry 6). -/
def readBytes (n : Nat) (data : List Byte) : List Byte := (data ++ List.replicate n 0).take n

/-! ## Geometry (R36) -/

/-- S, the number of slots the item SIZE_EXP gives. -/
def LogItems.slots (g : LogItems) : Nat := 2 ^ g.sizeExp

/-- The geometry is valid (R36). -/
def LogItems.valid (g : LogItems) : Bool :=
  6 ≤ g.sizeExp && g.sizeExp ≤ 24 &&
  g.ringBase.toNat + g.slots * 128 ≤ 2 ^ 40 &&
  (g.anchorAddr.toNat + 128 ≤ g.ringBase.toNat || g.ringBase.toNat + g.slots * 128 ≤ g.anchorAddr.toNat)

/-- The address lies in the log area: the ring or the anchor slot (R36). -/
def LogItems.inLogArea (g : LogItems) (a : Addr) : Bool :=
  (g.ringBase.toNat ≤ a.toNat && a.toNat < g.ringBase.toNat + g.slots * 128) ||
  (g.anchorAddr.toNat ≤ a.toNat && a.toNat < g.anchorAddr.toNat + 128)

/-- The address of the slot that holds sequence `q` in a ring of `slots` slots at `base` (R36). -/
def slotAddress (base : Addr) (slots : BitVec 32) (q : Seq) : Addr :=
  base + BitVec.ofNat 40 (q.toNat % slots.toNat * 128)

/-- The address of anchor copy `copy1` (R36): copy 1 lies 64 bytes above copy 0. -/
def anchorCopyAddress (base : Addr) (copy1 : Bool) : Addr := if copy1 then base + 64#40 else base

/-! ## The kind of an address (R124, R125) -/

/-- The kind of a line, with the region entry a JOURNAL kind comes from. -/
inductive LineKind where
  | pass
  | guard
  | log
  | journal (entry : Fin 16)
deriving DecidableEq, Repr

/-- The 4 KiB page of a line (R120). -/
def pageOf (l : Line) : BitVec 28 := l.extractLsb' 6 28

/-- A valid entry covers the pages from its base to its limit, both included (R120, R124). -/
def RegionEntry.covers (e : RegionEntry) (l : Line) : Bool :=
  e.valid && e.base ≤ pageOf l && pageOf l ≤ e.limit

/-- The numbers of the region entries, lowest first. -/
def regionNumbers : List (Fin 16) := [0, 1, 2, 3, 4, 5, 6, 7, 8, 9, 10, 11, 12, 13, 14, 15]

/-- The kind the table gives a line: that of the lowest-numbered valid entry that covers it, else PASS (R124). -/
def tableKind (regions : Vector RegionEntry 16) (l : Line) : LineKind :=
  match regionNumbers.find? fun n => (regions.get n).covers l with
  | none => .pass
  | some n =>
    match (regions.get n).kind with
    | .pass => .pass
    | .guard => .guard
    | .journal => .journal n

/-- The kind of a line: LOG outranks the table in the log area while the journal is not DETACHED and the geometry is
valid (R125). -/
def State.lineKind (s : State) (l : Line) : LineKind :=
  if s.attach.journal ≠ .detached ∧ s.items.valid ∧ s.items.inLogArea (lineAddress l) then .log
  else tableKind s.regions l

/-- The kind of a request: that of its lines if they agree, the region entry included, else none (R126). -/
def State.requestKind (s : State) (r : UpRequest) : Option LineKind :=
  match r.lines.map s.lineKind with
  | [] => none
  | k :: rest => if rest.all (· = k) then some k else none

/-! ## Lookups -/

/-- The filter entry of a line (R20, R24). -/
def State.filterEntry (s : State) (l : Line) : Option FilterEntry := s.filter.find? fun e => e.line = l

/-- The entry of an outstanding upstream tag (R137). -/
def State.tagEntry (s : State) (t : BitVec 6) : Option TagEntry := s.upstream.tags.find? fun e => e.tag = t

/-- The entry of an outstanding downstream tag (R150). -/
def State.outstandingEntry (s : State) (t : BitVec 4) : Option Outstanding :=
  s.downstream.outstanding.find? fun e => e.tag = t

def HoldEntry.lines (e : HoldEntry) : List Line := e.request.lines

/-- The context tag of a hold entry (R58). -/
def HoldEntry.ctx (e : HoldEntry) : Option Ctx := e.request.journalTag

/-- Records outstanding: the capture items not in COVERED (R58). -/
def HoldEntry.outstanding (e : HoldEntry) : Nat :=
  (e.items.filter fun i => match i.stage with | .covered _ => false | _ => true).length

/-- The two lists of lines share a line. -/
def shareLine (a b : List Line) : Bool := a.any fun l => b.contains l

end Sys2Proof.Machine
end

