-- ==== Sys2Proof/Machine/Formats.lean ====
section
/-! DEFINITION. The formats of spec/12_formats.md: record slots, anchor copies, the check word, item values and
replies. -/

namespace Sys2Proof.Machine

/-! ## Bytes in persistent memory: least significant byte first -/

/-- The `n` bytes of a value, least significant first (12_formats.md). -/
def bytesLsbFirst (n value : Nat) : List Byte := (List.range n).map fun i => BitVec.ofNat 8 (value >>> (8 * i))

/-- The value of bytes stored least significant first. -/
def valueLsbFirst (bytes : List Byte) : Nat := bytes.foldr (fun b acc => b.toNat + 256 * acc) 0

/-- The value of the `n`-byte field at `offset`. -/
def fieldAt (bytes : List Byte) (offset n : Nat) : Nat := valueLsbFirst ((bytes.drop offset).take n)

/-! ## The check word (R185) -/

/-- The generator (R185). -/
def checkGenerator : BitVec 32 := 0x1EDC6F41

/-- One bit of input: the register shifts up, and the generator is subtracted when the bit shifted out differs from
the input bit (R185). -/
def checkBit (r : BitVec 32) (bit : Bool) : BitVec 32 :=
  if r.msb != bit then (r <<< 1) ^^^ checkGenerator else r <<< 1

/-- One byte of input, least significant bit first (R185). -/
def checkByte (r : BitVec 32) (b : Byte) : BitVec 32 :=
  [0, 1, 2, 3, 4, 5, 6, 7].foldl (fun acc i => checkBit acc (b.getLsbD i)) r

/-- The check word of some bytes: initial value all ones, the remainder bit-reversed and inverted (R185). -/
def checkWord (bytes : List Byte) : BitVec 32 := ~~~(bytes.foldl checkByte 0xFFFFFFFF).reverse

/-- The bytes with the 4-byte check field at `offset` taken as zero (R185). -/
def clearCheck (offset : Nat) (bytes : List Byte) : List Byte :=
  bytes.take offset ++ [0, 0, 0, 0] ++ bytes.drop (offset + 4)

/-! ## Record slots (R37, R38, R183) -/

/-- The record sync value (00_scope.md 0.8). -/
def recordSync : Nat := 0x9E3C57A1

/-- The kinds of record with their codes (R183). -/
inductive RecordKind where
  | preImage
  | commit
  | aborted
deriving DecidableEq, Repr

def RecordKind.code (k : RecordKind) : Nat :=
  match k with
  | .preImage => 1
  | .commit => 2
  | .aborted => 3

def MarkerKind.recordKind (k : MarkerKind) : RecordKind :=
  match k with
  | .commit => .commit
  | .aborted => .aborted

/-- A header line up to its check word, and after it (R183). `epoch` fills 4 bytes, the upper one zero. -/
def headerBytes (seq : Seq) (kind : RecordKind) (ctx : Ctx) (incomplete : Bool) (epoch : Epoch) (lineAddr : Addr)
    (check : BitVec 32) : List Byte :=
  bytesLsbFirst 4 recordSync ++ bytesLsbFirst 4 seq.toNat ++ bytesLsbFirst 1 kind.code ++ bytesLsbFirst 1 ctx.val ++
  [if incomplete then 1 else 0] ++ [0] ++ bytesLsbFirst 4 epoch.toNat ++ bytesLsbFirst 8 lineAddr.toNat ++
  bytesLsbFirst 4 check.toNat ++ List.replicate 36 0

/-- The 128 bytes of a PRE_IMAGE record; the check word covers header and pre-image (R37, R183, R185). -/
def preImageBytes (seq : Seq) (ctx : Ctx) (epoch : Epoch) (line : Line) (image : List Byte) : List Byte :=
  headerBytes seq .preImage ctx false epoch (lineAddress line)
    (checkWord (headerBytes seq .preImage ctx false epoch (lineAddress line) 0 ++ image)) ++ image

/-- The 64 bytes of a marker; the check word covers the header alone (R38, R183, R185). -/
def markerBytes (seq : Seq) (kind : MarkerKind) (ctx : Ctx) (epoch : Epoch) (incomplete : Bool) : List Byte :=
  headerBytes seq kind.recordKind ctx incomplete epoch 0
    (checkWord (headerBytes seq kind.recordKind ctx incomplete epoch 0 0))

/-- The kind of the record in a slot, if its kind code names one (R183). -/
def slotKind (slot : List Byte) : Option RecordKind :=
  if fieldAt slot 8 1 = 1 then some .preImage
  else if fieldAt slot 8 1 = 2 then some .commit
  else if fieldAt slot 8 1 = 3 then some .aborted
  else none

def slotSeq (slot : List Byte) : Seq := BitVec.ofNat 32 (fieldAt slot 4 4)

/-- The low 24 bits of the epoch field (log entry 18). -/
def slotEpoch (slot : List Byte) : Epoch := BitVec.ofNat 24 (fieldAt slot 12 4)

def slotLineAddress (slot : List Byte) : Nat := fieldAt slot 16 8

/-- The pre-image in a slot's second line (R183). -/
def slotImage (slot : List Byte) : List Byte := (slot.drop 64).take 64

/-- The check word test for a slot of the given kind (R104, R185). -/
def slotCheckPasses (slot : List Byte) (kind : RecordKind) : Bool :=
  let covered := match kind with | .preImage => slot.take 128 | .commit => slot.take 64 | .aborted => slot.take 64
  checkWord (clearCheck 24 covered) = BitVec.ofNat 32 (fieldAt slot 24 4)

/-- What an accepted slot says (R104). -/
structure SlotRecord where
  kind  : RecordKind
  ctx   : Ctx
  epoch : Epoch
  line  : Line
  image : List Byte
deriving DecidableEq, Repr

/-- The four tests of R104 on the slot read for sequence `q`. -/
def acceptSlot (slot : List Byte) (q : Seq) : Option SlotRecord :=
  match slotKind slot with
  | none => none
  | some kind =>
    if h : fieldAt slot 9 1 < 4 then
      if fieldAt slot 0 4 = recordSync ∧ slotCheckPasses slot kind ∧ slotSeq slot = q ∧
          (kind = .preImage → slotLineAddress slot % 64 = 0 ∧ slotLineAddress slot < 2 ^ 40) then
        some { kind := kind, ctx := ⟨fieldAt slot 9 1, h⟩, epoch := slotEpoch slot,
               line := lineOf (BitVec.ofNat 40 (slotLineAddress slot)), image := slotImage slot }
      else none
    else none

/-- The seven checks of R91 on the slot read for a rollback entry. -/
def restoreCheckPasses (slot : List Byte) (q : Seq) (ctx : Ctx) (epoch : Epoch) (line : Line) : Bool :=
  fieldAt slot 0 4 = recordSync ∧ slotSeq slot = q ∧ slotKind slot = some .preImage ∧ fieldAt slot 9 1 = ctx.val ∧
  fieldAt slot 12 4 = epoch.toNat ∧ slotLineAddress slot = (lineAddress line).toNat ∧ slotCheckPasses slot .preImage

/-! ## Anchor copies (R52, R184) -/

/-- The anchor sync value (00_scope.md 0.8). -/
def anchorSync : Nat := 0x9E3CA157

def AnchorState.code (s : AnchorState) : Nat :=
  match s with
  | .clean => 1
  | .active => 2

/-- A copy with the given check word (R184). -/
def anchorBytesWith (c : AnchorCopy) (check : BitVec 32) : List Byte :=
  bytesLsbFirst 4 anchorSync ++ bytesLsbFirst 4 c.generation.toNat ++ bytesLsbFirst 1 c.state.code ++ [0, 0, 0] ++
  bytesLsbFirst 4 c.tail.toNat ++ bytesLsbFirst 4 c.nextEpochs.c0.toNat ++ bytesLsbFirst 4 c.nextEpochs.c1.toNat ++
  bytesLsbFirst 4 c.nextEpochs.c2.toNat ++ bytesLsbFirst 4 c.nextEpochs.c3.toNat ++ bytesLsbFirst 4 check.toNat ++
  List.replicate 28 0

/-- The 64 bytes of an anchor copy (R52, R184, R185). -/
def anchorBytes (c : AnchorCopy) : List Byte := anchorBytesWith c (checkWord (anchorBytesWith c 0))

/-- What a 64-byte copy says, if it is valid (R54, R184): any state byte but 01H is ACTIVE, a next epoch is its low 24
bits (R103). -/
def readAnchorCopy (copy : List Byte) : Option AnchorCopy :=
  if fieldAt copy 0 4 = anchorSync ∧ checkWord (clearCheck 32 (copy.take 64)) = BitVec.ofNat 32 (fieldAt copy 32 4) then
    some { generation := BitVec.ofNat 32 (fieldAt copy 4 4),
           state := if fieldAt copy 8 1 = 1 then .clean else .active,
           tail := BitVec.ofNat 32 (fieldAt copy 12 4),
           nextEpochs := ⟨BitVec.ofNat 24 (fieldAt copy 16 4), BitVec.ofNat 24 (fieldAt copy 20 4),
                          BitVec.ofNat 24 (fieldAt copy 24 4), BitVec.ofNat 24 (fieldAt copy 28 4)⟩ }
  else none

/-- Of two valid copies, copy 1 is current (R54): its generation is greater serially; equal generations leave copy 0
current; a difference of exactly 2^31 is free (log entry 8). -/
def copy1Current (g0 g1 : Seq) : Bool :=
  if (g1 - g0).toNat = 2 ^ 31 then Config.halfwayGeneration g0 g1
  else 0 < (g1 - g0).toInt

/-- The current copy of the 128-byte anchor slot (R54). -/
def currentAnchor (slot : List Byte) : Option AnchorCopy :=
  match readAnchorCopy (slot.take 64), readAnchorCopy ((slot.drop 64).take 64) with
  | none, none => none
  | some a, none => some a
  | none, some b => some b
  | some a, some b => if copy1Current a.generation b.generation then some b else some a

/-- The greater of two next epochs, compared serially (R107); a difference of exactly 2^23 is free (log entry 9). -/
def greaterEpoch (a b : Epoch) : Epoch :=
  if (b - a).toNat = 2 ^ 23 then (if Config.halfwayEpoch a b then b else a)
  else if 0 < (b - a).toInt then b else a

/-! ## Item values (R187) -/

/-- The items and their codes (R187). -/
inductive Item where
  | region | ringBase | sizeExp | anchorAddr | watermark | anchorStep | quota | arbOrder | throttleRestore
  | throttleScan | eventMask | logHead | logTail | logFree | ctxInfo
deriving DecidableEq, Repr

/-- The item an item code names (R187). -/
def itemOfCode (code : Byte) : Option Item :=
  if code = 0x01#8 then some .region
  else if code = 0x02#8 then some .ringBase
  else if code = 0x03#8 then some .sizeExp
  else if code = 0x04#8 then some .anchorAddr
  else if code = 0x05#8 then some .watermark
  else if code = 0x06#8 then some .anchorStep
  else if code = 0x07#8 then some .quota
  else if code = 0x08#8 then some .arbOrder
  else if code = 0x09#8 then some .throttleRestore
  else if code = 0x0A#8 then some .throttleScan
  else if code = 0x0B#8 then some .eventMask
  else if code = 0x0C#8 then some .logHead
  else if code = 0x0D#8 then some .logTail
  else if code = 0x0E#8 then some .logFree
  else if code = 0x0F#8 then some .ctxInfo
  else none

/-- The index is in the item's range; an item that is not indexed ignores it (R177). -/
def Item.indexOk (i : Item) (index : Byte) : Bool :=
  match i with
  | .region => index.toNat < 16
  | .quota => index.toNat < 4
  | .ctxInfo => index.toNat < 4
  | _ => true

/-- The read-only items (R177). -/
def Item.readOnly (i : Item) : Bool :=
  match i with
  | .logHead => true
  | .logTail => true
  | .logFree => true
  | .ctxInfo => true
  | _ => false

/-- The packing of a region entry, or none for kind code 3 (R187). -/
def regionOfValue (v : BitVec 64) : Option RegionEntry :=
  let rest (k : RegionKind) : RegionEntry :=
    { valid := v.getLsbD 63, kind := k, base := v.extractLsb' 0 28, limit := v.extractLsb' 28 28,
      mask := v.extractLsb' 58 4, closed := if v.getLsbD 62 then .refuse else .forward }
  if v.extractLsb' 56 2 = 0#2 then some (rest .pass)
  else if v.extractLsb' 56 2 = 1#2 then some (rest .guard)
  else if v.extractLsb' 56 2 = 2#2 then some (rest .journal)
  else none

/-- The kind codes of a region entry (R187). -/
def RegionKind.code (k : RegionKind) : Nat :=
  match k with
  | .pass => 0
  | .guard => 1
  | .journal => 2

/-- The closed action's bit (R187). -/
def ClosedAction.code (c : ClosedAction) : Nat :=
  match c with
  | .forward => 0
  | .refuse => 1

/-- The value a region entry reads as (R187). -/
def RegionEntry.value (e : RegionEntry) : BitVec 64 :=
  BitVec.ofNat 64 (e.base.toNat + e.limit.toNat * 2 ^ 28 + e.kind.code * 2 ^ 56 + e.mask.toNat * 2 ^ 58 +
    e.closed.code * 2 ^ 62 + (if e.valid then 1 else 0) * 2 ^ 63)

/-- The requester codes (R187). -/
def Requester.code (r : Requester) : Nat :=
  match r with
  | .anchor => 1
  | .append => 2
  | .capture => 3
  | .forward => 4
  | .restore => 5
  | .scan => 6

def requesterOfCode (code : Nat) : Option Requester :=
  if code = 1 then some .anchor
  else if code = 2 then some .append
  else if code = 3 then some .capture
  else if code = 4 then some .forward
  else if code = 5 then some .restore
  else if code = 6 then some .scan
  else none

/-- The order a value packs, highest-ranked first in bits 0 to 3; none where a field names no requester, two name one,
or a bit outside the fields is set (R153, R187). -/
def orderOfValue (v : BitVec 64) : Option (List Requester) :=
  let fields := [0, 1, 2, 3, 4, 5].map fun i => requesterOfCode (v.toNat >>> (4 * i) % 16)
  if v.toNat < 2 ^ 24 ∧ fields.all (·.isSome) ∧ (fields.filterMap id).Nodup then some (fields.filterMap id) else none

/-- The value an order reads as (R187). -/
def orderValue (order : List Requester) : BitVec 64 :=
  BitVec.ofNat 64 (order.foldr (fun r acc => r.code + 16 * acc) 0)

/-! ## Reply bytes (R186) -/

def JournalState.code (j : JournalState) : Nat :=
  match j with
  | .detached => 1
  | .attaching => 2
  | .attached => 3
  | .detaching => 4
  | .broken => 5
  | .draining => 6
  | .drained => 7

def CtxState.code (c : CtxState) : Nat :=
  match c with
  | .idle => 1
  | .opened => 2
  | .committing => 3
  | .aborting => 4
  | .faulted => 5

def FaultCause.code (c : FaultCause) : Nat :=
  match c with
  | .captureError => 1
  | .forwardError => 2
  | .journalBroken => 3

def Intake.code (i : Intake) : Nat :=
  match i with
  | .taking => 1
  | .waitHold => 2
  | .waitForward => 3
  | .stopped => 4

def AttachResult.code (r : AttachResult) : Nat :=
  match r with
  | .formatted => 1
  | .clean => 2
  | .recovered => 3
  | .noAnchor => 4
  | .failedRead => 5
  | .failedRestore => 6
  | .failedWrite => 7

def Reason.code (r : Reason) : Nat :=
  match r with
  | .malformed => 1
  | .guarded => 2
  | .logArea => 3
  | .detached => 4
  | .recovering => 5
  | .draining => 6
  | .broken => 7
  | .notPermitted => 8
  | .conflict => 9
  | .closed => 10
  | .faulted => 11
  | .filterFull => 12
  | .aborted => 13

/-- The event kind codes (R186). -/
def Happening.code (h : Happening) : Nat :=
  match h with
  | .requestRefused _ => 1
  | .requestFailed => 2
  | .contextFaulted _ => 3
  | .logLow => 4
  | .logFull => 5
  | .commitDone _ => 6
  | .abortDone _ => 7
  | .attachDone _ => 8
  | .detachDone _ => 9
  | .journalBroken _ => 10
  | .drained _ => 11

/-- The detail codes of each kind (R186). -/
def Happening.detailCode (h : Happening) : Nat :=
  match h with
  | .requestRefused r => r.code
  | .requestFailed => 1
  | .contextFaulted c => c.code
  | .logLow => 0
  | .logFull => 0
  | .commitDone .committed => 1
  | .commitDone .failed => 2
  | .abortDone .rolledBack => 1
  | .abortDone .incomplete => 2
  | .attachDone r => r.code
  | .detachDone .detached => 1
  | .detachDone .failed => 2
  | .journalBroken .appendError => 1
  | .journalBroken .anchorError => 2
  | .drained .written => 1
  | .drained .failed => 2
  | .drained .skipped => 3

/-- A bit as a number. -/
def bit (b : Bool) (place : Nat) : Nat := if b then 2 ^ place else 0

/-- The bits of the contexts rolled back (R186). -/
def contextSetBits (q : Quad Bool) : Nat := bit q.c0 0 + bit q.c1 1 + bit q.c2 2 + bit q.c3 3

/-- The number of contexts in a set of contexts. -/
def contextSetSize (q : Quad Bool) : Nat := bit q.c0 0 + bit q.c1 0 + bit q.c2 0 + bit q.c3 0

/-- The status record's 24 bytes (R186). -/
def StatusRecord.bytes (r : StatusRecord) : List Byte :=
  bytesMsbFirst 1 r.journal.code ++
  bytesMsbFirst 1 (bit r.waiting 0 + bit r.pfail 1 + bit r.quiet 2 + bit r.overrun 3) ++
  bytesMsbFirst 1 (match r.report.result with | none => 0 | some x => x.code) ++
  bytesMsbFirst 1 (contextSetBits r.report.contexts + contextSetSize r.report.contexts * 16) ++
  bytesMsbFirst 4 r.report.scanned ++ bytesMsbFirst 4 r.report.restored ++ bytesMsbFirst 4 r.logFree.toNat ++
  bytesMsbFirst 2 r.filterFree ++ bytesMsbFirst 1 r.holdEntries ++ bytesMsbFirst 1 r.intake.code ++
  bytesMsbFirst 1 r.upstreamTags ++ bytesMsbFirst 1 r.forwardEntries ++ bytesMsbFirst 1 r.outstanding ++
  bytesMsbFirst 1 r.records

/-- The 19 bytes of a POP_EVENT reply's data (R186). -/
def Event.bytes (e : Event) (left : Nat) (overrun : Bool) : List Byte :=
  bytesMsbFirst 1 e.what.code ++
  bytesMsbFirst 1 (bit e.context.isSome 0 + bit e.address.isSome 1 + bit e.sequence.isSome 2 + bit e.count.isSome 3) ++
  bytesMsbFirst 1 (match e.context with | none => 0 | some c => c.val) ++
  bytesMsbFirst 1 e.what.detailCode ++
  bytesMsbFirst 5 (match e.address with | none => 0 | some a => a.toNat) ++
  bytesMsbFirst 4 (match e.sequence with | none => 0 | some q => q.toNat) ++
  bytesMsbFirst 4 (e.count.getD 0) ++ bytesMsbFirst 1 left ++ bytesMsbFirst 1 (bit overrun 0)

/-- The 16 bytes of CTX_INFO (R187). -/
def ContextRecord.bytes (r : ContextRecord) (entryCount : Nat) : List Byte :=
  bytesMsbFirst 1 r.state.code ++
  bytesMsbFirst 1 (bit r.firstSeq.isSome 0 + bit r.marker 1 + bit r.faultCause.isSome 2 +
    (match r.faultCause with | none => 0 | some c => c.code * 16)) ++
  bytesMsbFirst 3 r.epoch.toNat ++ bytesMsbFirst 3 r.nextEpoch.toNat ++
  bytesMsbFirst 4 (match r.firstSeq with | none => 0 | some q => q.toNat) ++
  bytesMsbFirst 4 (r.recordCount + entryCount * 2 ^ 10 + r.quota * 2 ^ 20)

/-- A reply as the link shifts it out: the code, then the data (R171, R173, R186). -/
def Reply.bytes (r : Reply) : List Byte :=
  match r with
  | .ok => [0x01]
  | .okEpoch e => 0x01 :: bytesMsbFirst 3 e.toNat
  | .okItem v => 0x01 :: bytesMsbFirst 8 v.toNat
  | .okContext record entries => 0x01 :: record.bytes entries
  | .okStatus record => 0x01 :: record.bytes
  | .okEvent event left overrun => 0x01 :: event.bytes left overrun
  | .busy => [0x02]
  | .badState => [0x03]
  | .badRange => [0x04]
  | .malformed => [0x05]
  | .empty overrun => [0x06, if overrun then 0x01 else 0x00]

/-- What MDO shifts out while `n` bytes are clocked: the reply buffer's bytes, then 00H; an empty buffer shifts out
00H (R171). -/
def shiftedOut (reply : Option Reply) (n : Nat) : List Byte :=
  readBytes n (match reply with | none => [] | some r => r.bytes)

end Sys2Proof.Machine
end

