-- ==== Sys2Proof/Machine/Flags.lean ====
section
/-! DEFINITION. The values and conditions the spec derives from the state: the durable frontier, free counts, the reclaim
limit, hold states, line locks, eligibility, ATTN_N, the status record. -/

namespace Sys2Proof.Machine

/-! ## Sequences (00_scope.md 0.7, R39) -/

/-- The distance forward from `tail` to `q`, modulo 2^32. -/
def distance (tail q : Seq) : Nat := (q - tail).toNat

/-- The sequence of least distance forward from `tail`. -/
def leastFrom (tail : Seq) (qs : List Seq) : Option Seq :=
  qs.foldl (fun best q =>
    match best with
    | none => some q
    | some b => if distance tail q < distance tail b then some q else some b) none

/-- The durable frontier F (R39): one less than the lowest sequence in flight, else head - 1. -/
def LogWriter.frontier (w : LogWriter) : Seq :=
  match leastFrom w.tail (w.inFlight.map (·.seq)) with
  | some q => q - 1
  | none => w.head - 1

/-- `q` lies at or below F (R39). -/
def LogWriter.covers (w : LogWriter) (q : Seq) : Bool :=
  w.frontier ≠ w.tail - 1 ∧ distance w.tail q ≤ distance w.tail w.frontier

/-- The free-slot count: S less the distance from the anchored tail to the head (R39). -/
def LogWriter.freeSlots (w : LogWriter) : BitVec 32 := w.ringSize - (w.head - w.tail)

/-- The ANCHOR_STEP in use: the lesser of the item's value and the ring size in use (R35). -/
def State.anchorStep (s : State) : Nat := min s.items.anchorStep s.log.ringSize.toNat

/-- The reclaim limit (R50): the least first-record sequence of the contexts that are not IDLE, else F + 1. -/
def State.reclaimLimit (s : State) : Seq :=
  match leastFrom s.log.tail (allContexts.filterMap fun c =>
      if (s.contexts.get c).state = .idle then none else (s.contexts.get c).firstSeq) with
  | some q => q
  | none => s.log.frontier + 1

/-- The contexts that still need a marker slot (R11, R45). -/
def State.markersNeeded (s : State) : Nat :=
  (allContexts.filter fun c =>
    (s.contexts.get c).state ≠ .idle ∧ 0 < (s.contexts.get c).recordCount ∧ (s.contexts.get c).marker = false).length

/-- The next-epoch fields of the four context records (R3, R52). -/
def State.nextEpochs (s : State) : Quad Epoch := s.contexts.map (·.nextEpoch)

/-! ## Filter counts (R10, R20) -/

/-- The entry count of a context: the filter entries it owns (R10). -/
def State.entryCount (s : State) (c : Ctx) : Nat := (s.filter.filter fun e => e.owner = c).length

/-- The free count of the filter: 512 less the entries in use (R20). -/
def State.filterFree (s : State) : Nat := 512 - s.filter.length

/-! ## Hold queue (R60, R61, R66, R76) -/

/-- Each entry with the entries before it, in arrival order. -/
def withEarlier (before : List HoldEntry) : List HoldEntry → List (List HoldEntry × HoldEntry)
  | [] => []
  | e :: rest => (before, e) :: withEarlier (before ++ [e]) rest

/-- An earlier entry that shares a line has not been released (R60). -/
def blocked (before : List HoldEntry) (e : HoldEntry) : Bool :=
  before.any fun x => !x.released && shareLine x.lines e.lines

/-- One of the lines is owned by a context in ABORTING (R22, R65). -/
def State.ownedByAborting (s : State) (lines : List Line) : Bool :=
  lines.any fun l =>
    match s.filterEntry l with
    | none => false
    | some f => (s.contexts.get f.owner).state = .aborting

/-- The state of a hold entry: the first row of R61 that applies. -/
def State.holdState (s : State) (before : List HoldEntry) (e : HoldEntry) : HoldState :=
  if e.released then .forwarded
  else if blocked before e || (!e.request.isWrite && s.ownedByAborting e.lines) then .waiting
  else if e.items.any (fun i => match i.stage with | .pending _ => true | .reading => true | _ => false) then .capturing
  else if s.log.spaceWaiter.isSome && e.items.any (fun i => match i.stage with | .built _ => true | _ => false) then
    .logWait
  else if 0 < e.outstanding then .appending
  else .ready

/-- The PENDING items not yet handed whose handing conditions hold (R66), in the arrival order of their entries and
the line order within one. -/
def State.handable (s : State) : List CaptureRef :=
  (withEarlier [] s.hold).flatMap fun (before, e) =>
    if s.holdState before e = .waiting then []
    else
      match e.ctx with
      | none => []
      | some c =>
        e.items.filterMap fun i =>
          if i.stage = .pending false ∧ ¬ before.any (fun x => x.lines.contains i.line) then some ⟨c, i.line⟩ else none

/-- The journaled entries with context tag `c` (R76). -/
def State.journaledCount (s : State) (c : Ctx) : Nat :=
  (s.hold.filter fun e => e.journaled && e.ctx == some c).length

/-- Those of them that are unreleased (R76). -/
def State.unreleasedCount (s : State) (c : Ctx) : Nat :=
  (s.hold.filter fun e => e.journaled && e.ctx == some c && !e.released).length

/-! ## Work in flight of one context (R88) -/

/-- The capture reads of `c` outstanding downstream, those kept outside the hold queue included. -/
def State.captureReads (s : State) (c : Ctx) : Nat :=
  (s.downstream.outstanding.filter fun o => match o.owner with | .capture r => r.ctx = c | _ => false).length

/-- The appends of `c` taken and not yet answered. -/
def State.appendsUnanswered (s : State) (c : Ctx) : Nat :=
  (s.log.inFlight.filter fun a => a.ctx = c ∧ a.failed = false).length

/-! ## Append requests (R43, R48) -/

def AppendRequest.isMarker (r : AppendRequest) : Bool :=
  match r with
  | .preImage _ _ _ => false
  | .marker _ _ _ _ => true

/-- The oldest PRE_IMAGE request: its context, line and pre-image. -/
def LogWriter.frontPreImage (w : LogWriter) : Option AppendRequest := w.requests.find? fun r => !r.isMarker

/-- The oldest marker request. -/
def LogWriter.frontMarker (w : LogWriter) : Option AppendRequest := w.requests.find? fun r => r.isMarker

/-! ## Whether the bridge works -/

/-- Neither RST_N is asserted nor a soft reset waiting: the blocks make new requests and take answers (R157, R179,
R182). -/
def State.live (s : State) : Bool := !s.pins.rst && !s.mgmt.waiting

/-- The link takes no frame: RST_N is asserted, or the frame in progress is one that RST_N has cut (R174). -/
def State.takesNoFrame (s : State) : Bool := s.pins.rst || s.mgmt.frame == .discarded

/-! ## Arbiter (R150 to R154) -/

/-- The role of a transaction: the requester that issues it (R150). -/
def Owner.requester (o : Owner) : Requester :=
  match o with
  | .anchor => .anchor
  | .append _ => .append
  | .capture _ => .capture
  | .forward _ _ => .forward
  | .restore _ _ => .restore
  | .scan _ _ => .scan

/-- What waits at a requester (R148, R149). -/
def DownstreamPort.waiting (d : DownstreamPort) (r : Requester) : List Transaction :=
  match r with
  | .anchor => d.anchorList
  | .append => d.appendList
  | .capture => d.captureList
  | .forward => d.forwardQueue
  | .restore => d.restoreList
  | .scan => d.scanList

/-- The port with what waits at a requester replaced. -/
def DownstreamPort.setWaiting (d : DownstreamPort) (r : Requester) (l : List Transaction) : DownstreamPort :=
  match r with
  | .anchor => { d with anchorList := l }
  | .append => { d with appendList := l }
  | .capture => { d with captureList := l }
  | .forward => { d with forwardQueue := l }
  | .restore => { d with restoreList := l }
  | .scan => { d with scanList := l }

/-- One of the lines is a locked line of an outstanding transaction (R151). -/
def DownstreamPort.locked (d : DownstreamPort) (lines : List Line) : Bool :=
  d.outstanding.any fun o => shareLine o.lines lines

/-- The transaction a requester may issue: its head, if that is not line-locked (R152). -/
def DownstreamPort.candidate (d : DownstreamPort) (r : Requester) : Option Transaction :=
  match d.waiting r with
  | [] => none
  | t :: _ => if d.locked t.request.lines then none else some t

/-- The throttle count above 0 throttles its requester (R154). -/
def DownstreamPort.throttled (d : DownstreamPort) (r : Requester) : Bool :=
  match r with
  | .restore => 0 < d.restoreCount
  | .scan => 0 < d.scanCount
  | _ => false

/-- The ranking in force: the configured order with the throttled requesters moved to the bottom (R154). -/
def DownstreamPort.ranking (d : DownstreamPort) : List Requester :=
  (d.order.filter fun r => !d.throttled r) ++ d.order.filter fun r => d.throttled r

/-- The downstream tags, lowest first. -/
def downstreamTags : List (BitVec 4) := [0, 1, 2, 3, 4, 5, 6, 7, 8, 9, 10, 11, 12, 13, 14, 15]

/-- The lowest-numbered downstream tag that has no entry (R150). -/
def DownstreamPort.freeTag (d : DownstreamPort) : Option (BitVec 4) :=
  downstreamTags.find? fun t => d.outstanding.all fun o => o.tag != t

/-- The requester the next grant goes to, with its transaction (R152). -/
def DownstreamPort.choice (d : DownstreamPort) : Option (Requester × Transaction) :=
  d.ranking.findSome? fun r => (d.candidate r).map fun t => (r, t)

/-- Downstream idle (R156). -/
def DownstreamPort.idle (d : DownstreamPort) : Bool :=
  d.outstanding.isEmpty && d.forwardQueue.isEmpty && d.anchorList.isEmpty && d.appendList.isEmpty &&
  d.captureList.isEmpty && d.restoreList.isEmpty && d.scanList.isEmpty

/-! ## Outputs and status -/

/-- ATTN_N is asserted: a record of an enabled kind is in the queue (R166). -/
def EventBlock.attention (b : EventBlock) : Bool := b.records.any fun e => b.mask.getLsbD (e.what.code - 1)

/-- The status record (R175). -/
def State.statusRecord (s : State) : StatusRecord :=
  { journal := s.attach.journal, waiting := s.mgmt.waiting, pfail := s.pins.pfail, quiet := s.attach.quiet,
    report := s.attach.report, logFree := s.log.freeSlots, filterFree := s.filterFree, holdEntries := s.hold.length,
    intake := s.upstream.intake, upstreamTags := s.upstream.tags.length,
    forwardEntries := s.downstream.forwardQueue.length, outstanding := s.downstream.outstanding.length,
    records := s.events.records.length, overrun := s.events.overrun }

end Sys2Proof.Machine
end

