-- ==== Sys2Proof/Machine/Ops.lean ====
section
/-! DEFINITION. The named operations the meanings share: events, responses, refusals, the line filter, the settling of
capture items, space in the log, anchor writes. -/

namespace Sys2Proof.Machine

/-! ## Events and responses -/

/-- The event block takes a record, or drops it and sets the overrun flag (R161). -/
def EventBlock.take (b : EventBlock) (e : Event) : EventBlock :=
  if b.records.length < 32 then { b with records := b.records ++ [e] } else { b with overrun := true }

def State.raise (s : State) (e : Event) : State := { s with events := s.events.take e }

/-- A response is sent upstream (R134). -/
def State.sendResponse (s : State) (tag : BitVec 6) (result : UpResult) : State :=
  { s with out := { s.out with responses := s.out.responses ++ [⟨tag, result⟩] } }

/-- The entry for an upstream tag is removed (R137). -/
def State.freeUpTag (s : State) (tag : BitVec 6) : State :=
  { s with upstream := { s.upstream with tags := s.upstream.tags.filter fun e => e.tag ≠ tag } }

/-- An outstanding request is answered: its response is made and its tag becomes free (R137, R141). -/
def State.answerUp (s : State) (tag : BitVec 6) (result : UpResult) : State :=
  (s.sendResponse tag result).freeUpTag tag

/-- The event of a refused request (R63, R132, R136, R141). -/
def refusedEvent (r : UpRequest) (reason : Reason) : Event :=
  { what := .requestRefused reason, context := r.journalTag, address := some r.address, sequence := none,
    count := none }

/-- A request is refused: answered ERROR under its tag, with one REQUEST_REFUSED event (R63, R132). -/
def State.refuseRequest (s : State) (r : UpRequest) (reason : Reason) : State :=
  (s.answerUp r.tag .error).raise (refusedEvent r reason)

/-- The event of a request whose downstream transaction failed (R73, R140). -/
def failedEvent (address : Addr) (journalTag : Option Ctx) : Event :=
  { what := .requestFailed, context := journalTag, address := some address, sequence := none, count := none }

/-! ## Records of one context -/

def State.setContext (s : State) (c : Ctx) (r : ContextRecord) : State :=
  { s with contexts := s.contexts.set c r }

def State.setProgress (s : State) (c : Ctx) (p : Progress) : State :=
  { s with engine := s.engine.set c p }

/-! ## Line filter -/

/-- An entry joins the list, which stays in rising line address. A line has at most one entry: on a line that has one,
nothing is inserted (R24). -/
def insertEntry (e : FilterEntry) : List FilterEntry → List FilterEntry
  | [] => [e]
  | x :: rest =>
    if e.line < x.line then e :: x :: rest
    else if e.line = x.line then x :: rest
    else x :: insertEntry e rest

/-- The canonical form of the filter: lines strictly rising, so no line has two entries (R24). -/
abbrev filterWf (f : List FilterEntry) : Prop := (f.map (·.line)).Pairwise (· < ·)

def State.insertFilter (s : State) (e : FilterEntry) : State := { s with filter := insertEntry e s.filter }

/-- The entry of a line is removed (R29, R75). -/
def State.removeLine (s : State) (l : Line) : State := { s with filter := s.filter.filter fun e => e.line ≠ l }

/-- All entries of a context are released (R28). -/
def State.removeOwned (s : State) (c : Ctx) : State := { s with filter := s.filter.filter fun e => e.owner ≠ c }

/-- The entries of a context without a record sequence are removed (R30). -/
def State.settleFilter (s : State) (c : Ctx) : State :=
  { s with filter := s.filter.filter fun e => !(e.owner = c ∧ e.seq = none) }

/-- A filter entry takes a record sequence (R25). -/
def State.setFilterSeq (s : State) (l : Line) (q : Seq) : State :=
  { s with filter := s.filter.map fun e => if e.line = l then { e with seq := some q } else e }

/-! ## Capture items -/

/-- The capture items of a line take a stage. -/
def HoldEntry.setStage (e : HoldEntry) (l : Line) (stage : Stage) : HoldEntry :=
  { e with items := e.items.map fun i => if i.line = l then { i with stage := stage } else i }

def State.setStage (s : State) (l : Line) (stage : Stage) : State :=
  { s with hold := s.hold.map fun e => e.setStage l stage }

/-- A capture read handed and not granted is withdrawn from the CAPTURE requester (R75). -/
def State.withdrawRead (s : State) (l : Line) : State :=
  { s with downstream := { s.downstream with
      captureList := s.downstream.captureList.filter fun t =>
        match t.owner with
        | .capture r => r.line ≠ l
        | _ => true } }

/-- A PRE_IMAGE append request is withdrawn (R42). -/
def State.withdrawAppend (s : State) (l : Line) : State :=
  { s with log := { s.log with
      requests := s.log.requests.filter fun r =>
        match r with
        | .preImage _ line _ => line ≠ l
        | .marker _ _ _ _ => true } }

/-- A capture item of a refused entry is settled by its stage (R29, R75). -/
def State.settleItem (c : Ctx) (s : State) (i : CaptureItem) : State :=
  match i.stage with
  | .pending false => s.removeLine i.line
  | .pending true => (s.withdrawRead i.line).removeLine i.line
  | .reading => { s with kept := s.kept ++ [⟨c, i.line⟩] }
  | .built _ => (s.withdrawAppend i.line).removeLine i.line
  | .taken _ => s
  | .covered _ => s

/-- An unreleased hold entry, already taken out of the queue, is refused and its capture items settled (R63, R74,
R75). -/
def State.refuseEntry (reason : Reason) (s : State) (e : HoldEntry) : State :=
  match e.ctx with
  | none => s.refuseRequest e.request reason
  | some c => e.items.foldl (State.settleItem c) (s.refuseRequest e.request reason)

/-- Every unreleased entry that `pick` selects is refused, in arrival order (R74). -/
def State.refuseWhere (s : State) (pick : HoldEntry → Bool) (reason : Reason) : State :=
  (s.hold.filter fun e => !e.released && pick e).foldl (State.refuseEntry reason)
    { s with hold := s.hold.filter fun e => e.released || !pick e }

/-- The order in which handing conditions came to hold is brought up to date: items that hold no longer leave, items
that have come to hold join at the end (R66). -/
def State.noteDue (s : State) : State :=
  { s with due := (s.due.filter fun r => s.handable.contains r) ++ s.handable.filter fun r => !s.due.contains r }

/-! ## Space in the log (R48, R68) -/

def logFullEvent (s : State) (c : Ctx) : Event :=
  { what := .logFull, context := some c, address := none, sequence := some s.log.head,
    count := some s.log.freeSlots.toNat }

/-- The oldest PRE_IMAGE request is looked at. It waits for space when the free count is 4 or less, and raises LOG_FULL
if that is armed; a wait lasts until the request that waits is taken or withdrawn (R43, R48, R68). A request that still waits
raises LOG_FULL again if an anchor write has re-armed it and a take then leaves 4 or fewer free slots (the model's choice: log
entry 33). -/
def State.lookSpace (s : State) : State :=
  match s.log.frontPreImage with
  | some (.preImage c l _) =>
    if s.attach.journal ≠ .attached then { s with log := { s.log with spaceWaiter := none } }
    else if s.log.freeSlots ≤ 4 then
      if s.log.logFullArmed then
        ({ s with log := { s.log with spaceWaiter := some l, logFullArmed := false } }).raise (logFullEvent s c)
      else { s with log := { s.log with spaceWaiter := some l } }
    else if s.log.spaceWaiter = some l then s
    else { s with log := { s.log with spaceWaiter := none } }
  | _ => { s with log := { s.log with spaceWaiter := none } }

/-- The append request list is emptied (R42). -/
def State.emptyRequests (s : State) : State := { s with log := { s.log with requests := [], spaceWaiter := none } }

/-! ## Transactions of the bridge's own (R146) -/

/-- A READ of `n` bytes. -/
def readRequest (a : Addr) (n : Nat) : DownRequest := { address := a, length := n, body := .read }

/-- A WRITE the bridge builds itself, with all its byte enables (R146). -/
def writeRequest (a : Addr) (data : List Byte) : DownRequest :=
  { address := a, length := data.length, body := .write (List.replicate data.length true) data }

/-- An anchor write goes to the ANCHOR requester and is in flight (R52). -/
def State.handAnchor (s : State) (a : Addr) (data : List Byte) (flight : AnchorFlight) : State :=
  { s with
    log := { s.log with anchor := some flight }
    downstream := { s.downstream with
      anchorList := s.downstream.anchorList ++ [{ request := writeRequest a data, owner := .anchor }] } }

/-- An anchor write issued while the journal is not ATTACHING: the next generation, at the copy of its parity, with the
next epochs of the context records (R52). -/
def State.issueAnchor (s : State) (issuer : Issuer) (state : AnchorState) (tail : Seq) : State :=
  let g := s.log.generation + 1
  ({ s with log := { s.log with generation := g } }).handAnchor (anchorCopyAddress s.items.anchorAddr (g.getLsbD 0))
    (anchorBytes { generation := g, state := state, tail := tail, nextEpochs := s.nextEpochs })
    { generation := some g, tail := some tail, issuer := issuer, attaching := false }

/-! ## The durable frontier (R26, R46, R68) -/

/-- A CAPTURING entry whose record lies at or below F turns LOGGED (R26). -/
def FilterEntry.logIfCovered (w : LogWriter) (e : FilterEntry) : FilterEntry :=
  match e.seq with
  | none => e
  | some q => if e.state = .capturing ∧ w.covers q then { e with state := .logged } else e

/-- A TAKEN item whose sequence lies at or below F becomes COVERED (R68). -/
def CaptureItem.coverIfCovered (w : LogWriter) (i : CaptureItem) : CaptureItem :=
  match i.stage with
  | .taken q => if w.covers q then { i with stage := .covered q } else i
  | _ => i

/-- The filter and the capture items follow the frontier as it stands (R26, R46, R68). -/
def State.followFrontier (s : State) : State :=
  { s with
    filter := s.filter.map (FilterEntry.logIfCovered s.log)
    hold := s.hold.map fun e => { e with items := e.items.map (CaptureItem.coverIfCovered s.log) } }

end Sys2Proof.Machine
end

