-- ==== Sys2Proof/Machine/Engine.lean ====
section
/-! DEFINITION. The epoch engine: commit and rollback (spec/05_commit_and_rollback.md). -/

namespace Sys2Proof.Machine

/-- The engine asks for a marker and enters MARKING (R83, R86, R93). -/
def State.askMarker (s : State) (kind : MarkerKind) (c : Ctx) : State :=
  let incomplete := match kind with | .commit => false | .aborted => (s.engine.get c).incomplete
  ({ s with log := { s.log with
      requests := s.log.requests ++ [AppendRequest.marker kind c (s.contexts.get c).epoch incomplete] } }).setProgress c
    { s.engine.get c with phase := .marking }

/-- A context returns to IDLE (R12). -/
def ContextRecord.toIdle (r : ContextRecord) : ContextRecord := { r with state := .idle, firstSeq := none }

def commitEvent (c : Ctx) (r : ContextRecord) (result : CommitResult) : Event :=
  { what := .commitDone result, context := some c, address := none, sequence := some (r.epoch.setWidth 32),
    count := some r.recordCount }

/-- A commit completes: release, IDLE, COMMIT_DONE, end of the procedure (R84). -/
def State.completeCommit (s : State) (c : Ctx) : State :=
  (((s.removeOwned c).setContext c (s.contexts.get c).toIdle).raise
    (commitEvent c (s.contexts.get c) .committed)).setProgress c .reset

def abortEvent (c : Ctx) (r : ContextRecord) (p : Progress) : Event :=
  { what := .abortDone (if p.incomplete then .incomplete else .rolledBack), context := some c, address := none,
    sequence := some (r.epoch.setWidth 32), count := some p.restored }

/-- A rollback completes: release, IDLE, ABORT_DONE, end of the procedure (R93). -/
def State.completeAbort (s : State) (c : Ctx) : State :=
  (((s.removeOwned c).setContext c (s.contexts.get c).toIdle).raise
    (abortEvent c (s.contexts.get c) (s.engine.get c))).setProgress c .reset

/-- The marker has been taken and lies at or below F (R84, R93). -/
def State.markerCovered (s : State) (c : Ctx) : Bool :=
  match (s.engine.get c).markerSeq with
  | none => false
  | some q => s.log.covers q

/-- What the engine waits for in SETTLING of an abort has come about (R88). -/
def State.abortSettled (s : State) (c : Ctx) : Bool :=
  s.journaledCount c = 0 ∧ s.captureReads c = 0 ∧ s.appendsUnanswered c = 0

/-- Every filter entry of the context is LOGGED (R89). -/
def State.allLogged (s : State) (c : Ctx) : Bool := s.filter.all fun e => e.owner ≠ c || e.state = .logged

/-- An entry goes into a list that descends in record sequence, as distance from the anchored tail. -/
def insertDescending (tail : Seq) (e : FilterEntry) : List FilterEntry → List FilterEntry
  | [] => [e]
  | x :: rest =>
    if distance tail (x.seq.getD tail) ≤ distance tail (e.seq.getD tail) then e :: x :: rest
    else x :: insertDescending tail e rest

/-- The replay list: the context's filter entries in descending record sequence (R89). -/
def State.replayListOf (s : State) (c : Ctx) : List FilterEntry :=
  (s.filter.filter fun e => e.owner = c).foldr (insertDescending s.log.tail) []

/-- A restore transaction of context `c` goes to the RESTORE requester (R90 to R92). -/
def State.handRestore (s : State) (c : Ctx) (request : DownRequest) (step : ReplayStep) : State :=
  ({ s with downstream := { s.downstream with
      restoreList := s.downstream.restoreList ++ [({ request := request, owner := .restore c step } : Transaction)] } }).setProgress c
    { s.engine.get c with replayStep := some step }

/-- The restore read of a replay entry (R91). -/
def State.restoreRead (s : State) (q : Seq) : DownRequest :=
  readRequest (slotAddress s.items.ringBase s.log.ringSize q) 128

/-- SETTLING of an abort ends: filter settling, then completion for an empty epoch, else COVERING (R88, R93). -/
def State.endSettling (s : State) (c : Ctx) : State :=
  let s' := s.settleFilter c
  if (s.contexts.get c).recordCount = 0 then s'.completeAbort c
  else s'.setProgress c { s.engine.get c with phase := .covering }

/-- COVERING ends: the replay list is built and REPLAYING begins (R89). -/
def State.endCovering (s : State) (c : Ctx) : State :=
  s.setProgress c { s.engine.get c with phase := .replaying, replayList := s.replayListOf c }

/-- REPLAYING with no transaction handed: the next entry's read, or the ABORTED marker when the list is empty (R90,
R93). -/
def State.nextReplay (s : State) (c : Ctx) : State :=
  match (s.engine.get c).replayList with
  | [] => s.askMarker .aborted c
  | e :: _ =>
    match e.seq with
    | none => s
    | some q => s.handRestore c (s.restoreRead q) .read

/-- One move of a commit, if it can move (R82 to R84). -/
def State.moveCommit (s : State) (c : Ctx) : State :=
  match (s.engine.get c).phase with
  | .settling =>
    if s.journaledCount c = 0 then
      if (s.contexts.get c).recordCount = 0 then s.completeCommit c else s.askMarker .commit c
    else s
  | .marking => if s.markerCovered c then s.completeCommit c else s
  | _ => s

/-- An abort in SETTLING moves on if it can (R88). -/
def State.moveSettling (s : State) (c : Ctx) : State :=
  if (s.engine.get c).procedure = .abort ∧ (s.engine.get c).phase = .settling ∧ s.abortSettled c then s.endSettling c
  else s

/-- An abort in COVERING moves on if it can (R89). -/
def State.moveCovering (s : State) (c : Ctx) : State :=
  if (s.engine.get c).procedure = .abort ∧ (s.engine.get c).phase = .covering ∧ s.allLogged c then s.endCovering c
  else s

/-- An abort in REPLAYING moves on if it can (R90). -/
def State.moveReplaying (s : State) (c : Ctx) : State :=
  if (s.engine.get c).procedure = .abort ∧ (s.engine.get c).phase = .replaying ∧ (s.engine.get c).replayStep = none then
    s.nextReplay c
  else s

/-- An abort in MARKING moves on if it can (R93). -/
def State.moveMarking (s : State) (c : Ctx) : State :=
  if (s.engine.get c).procedure = .abort ∧ (s.engine.get c).phase = .marking ∧ s.markerCovered c then s.completeAbort c
  else s

/-- The procedure of a context goes as far as it can go now. -/
def State.moveEngine (s : State) (c : Ctx) : State :=
  match (s.engine.get c).procedure with
  | .none => s
  | .commit => s.moveCommit c
  | .abort => (((s.moveSettling c).moveCovering c).moveReplaying c).moveMarking c

/-- The procedure of a context can go on now. -/
def State.engineReady (s : State) (c : Ctx) : Bool :=
  let p := s.engine.get c
  match p.procedure, p.phase with
  | .none, _ => false
  | .commit, .settling => s.journaledCount c = 0
  | .commit, .marking => s.markerCovered c
  | .commit, _ => false
  | .abort, .settling => s.abortSettled c
  | .abort, .covering => s.allLogged c
  | .abort, .replaying => p.replayStep = none
  | .abort, .marking => s.markerCovered c
  | .abort, .stopped => false

/-- The members of a list in the order a number selects. -/
def orderBy : Nat → List Ctx → Nat → List Ctx
  | 0, l, _ => l
  | n + 1, l, seed =>
    match l[seed % l.length]? with
    | none => l
    | some c => c :: orderBy n (l.erase c) (seed / l.length)

/-- Every procedure that can go on does. Where one event lets several, their order is free (log entry 7). -/
def State.runEngines (s : State) : State :=
  match allContexts.filter s.engineReady with
  | [] => s
  | [c] => s.moveEngine c
  | cs => (orderBy cs.length cs (Config.procedureOrder s.free)).foldl State.moveEngine { s with free := s.free + 1 }

end Sys2Proof.Machine
end

