-- ==== Sys2Proof/Machine/Journal.lean ====
section
/-! DEFINITION. What stops journaling: the fault of a context (R15), the journal break (R112) and the power-fail drain
(R114 to R118). -/

namespace Sys2Proof.Machine

def State.setJournal (s : State) (j : JournalState) : State := { s with attach := { s.attach with journal := j } }

/-- The entry is a journaled one of context `c` (R74, R76). -/
def HoldEntry.journaledOf (e : HoldEntry) (c : Ctx) : Bool := e.journaled && e.ctx == some c

/-! ## Faults of a context (R14 to R17) -/

def faultEvent (c : Ctx) (cause : FaultCause) (address : Option Addr) (count : Nat) : Event :=
  { what := .contextFaulted cause, context := some c, address := address, sequence := none, count := some count }

/-- The state becomes FAULTED with its cause; every other field keeps its value (R15, R17). -/
def ContextRecord.toFaulted (r : ContextRecord) (cause : FaultCause) : ContextRecord :=
  { r with state := .faulted, faultCause := some cause }

/-- The commit of a context ends in failure: COMMIT_DONE FAILED, and the procedure ends (R85, R96). -/
def State.failCommit (s : State) (c : Ctx) : State :=
  (s.raise (commitEvent c (s.contexts.get c) .failed)).setProgress c .reset

/-- CAPTURE_ERROR or FORWARD_ERROR is applied (R15): the record, the refusals with their settling, CONTEXT_FAULTED, and
the end of a commit in progress. -/
def State.applyFault (s : State) (c : Ctx) (cause : FaultCause) (address : Addr) : State :=
  let r := s.contexts.get c
  let s1 := (s.setContext c (r.toFaulted cause)).refuseWhere (fun e => e.journaledOf c) .faulted
  let s2 := s1.raise (faultEvent c cause (some address) r.recordCount)
  let s3 := if r.state = .committing then s2.failCommit c else s2
  s3.noteDue.lookSpace

/-- A reported CAPTURE_ERROR or FORWARD_ERROR: applied while the journal is ATTACHED to a context that is OPEN or
COMMITTING, no change otherwise (R14, R16, R18). -/
def State.reportFault (s : State) (c : Ctx) (cause : FaultCause) (address : Addr) : State :=
  if s.attach.journal = .attached ∧ ((s.contexts.get c).state = .opened ∨ (s.contexts.get c).state = .committing) then
    s.applyFault c cause address
  else s

/-! ## The drain (R114 to R118) -/

def drainedEvent (detail : DrainDetail) (tail : Option Seq) : Event :=
  { what := .drained detail, context := none, address := none, sequence := tail, count := none }

/-- The drain ends: DRAINED, QUIET and the DRAINED event (R118). -/
def State.enterDrained (s : State) (detail : DrainDetail) : State :=
  ({ s with attach := { s.attach with
      journal := .drained
      quiet := true
      drain := { s.attach.drain with detail := some detail } } }).raise (drainedEvent detail s.attach.drain.finalTail)

/-- The journal states the drain begins from (R114). -/
def JournalState.drainable (j : JournalState) : Bool :=
  match j with
  | .detached => true
  | .attaching => true
  | .attached => true
  | .detaching => true
  | .broken => true
  | .draining => false
  | .drained => false

/-- The restore transaction is one of context `c`. -/
def Transaction.restoresFor (t : Transaction) (c : Ctx) : Bool :=
  match t.owner with
  | .restore d _ => d = c
  | _ => false

/-- A running procedure is put in STOPPED; a restore transaction of its that was handed and not granted is withdrawn
(R97). -/
def Progress.stop (p : Progress) (handed : Bool) : Progress :=
  if p.procedure = .none then p
  else { p with phase := .stopped, replayStep := if handed then none else p.replayStep }

/-- Every running procedure is put in STOPPED and the RESTORE list is emptied (R97). -/
def State.stopEngines (s : State) : State :=
  let stop (c : Ctx) : Progress := (s.engine.get c).stop (s.downstream.restoreList.any fun t => t.restoresFor c)
  { s with
    engine := ⟨stop 0, stop 1, stop 2, stop 3⟩
    downstream := { s.downstream with restoreList := [] } }

/-- Transactions of the attach handed and not yet granted are withdrawn, an anchor write among them (R117, R119; log
entry 30). -/
def State.withdrawAttach (s : State) : State :=
  let handedAnchor := !s.downstream.anchorList.isEmpty
  { s with
    log := if handedAnchor then { s.log with anchor := none } else s.log
    attach := { s.attach with progress := { s.attach.progress with step := .none } }
    downstream := { s.downstream with scanList := [], anchorList := [] } }

/-- The intake enters STOPPED, its head refused DRAINING (R142). -/
def State.stopIntake (s : State) : State :=
  match s.upstream.head with
  | none => { s with upstream := { s.upstream with intake := .stopped } }
  | some r => ({ s with upstream := { s.upstream with intake := .stopped, head := none } }).refuseRequest r .draining

/-- The drain begins: DRAINING with the origin recorded, every unreleased entry refused, the request list emptied, the
procedures stopped, an attach in progress stopped where it stands, the intake stopped; from DETACHED it ends at once
(R114, R115, R117, R118, R142; log entry 28). -/
def State.beginDrain (s : State) : State :=
  let origin := s.attach.journal
  let s1 := { s with attach := { s.attach with
      journal := .draining
      drain := { DrainRecord.reset with origin := some origin } } }
  let s2 := ((s1.refuseWhere (fun _ => true) .draining).emptyRequests).stopEngines
  let s3 := if origin = .attaching then s2.withdrawAttach else s2
  let s4 := s3.stopIntake.noteDue
  if origin = .detached then s4.enterDrained .skipped else s4

/-- The drain begins if PFAIL_N is asserted, no reset holds the bridge, and the journal is in a state it begins from
(R114). -/
def State.drainIfWarned (s : State) : State :=
  if s.pins.pfail ∧ s.live ∧ s.attach.journal.drainable then s.beginDrain else s

/-! ## The journal break (R17, R96, R112) -/

/-- The states of a context that a break faults (R17). -/
def CtxState.breakable (c : CtxState) : Bool :=
  match c with
  | .idle => false
  | .opened => true
  | .committing => true
  | .aborting => true
  | .faulted => false

/-- One context at a break: faulted with CONTEXT_FAULTED, and its procedure ended, a commit with COMMIT_DONE FAILED
(R17, R96). -/
def State.breakContext (s : State) (c : Ctx) : State :=
  let r := s.contexts.get c
  if r.state.breakable then
    let s1 := (s.setContext c (r.toFaulted .journalBroken)).raise (faultEvent c .journalBroken none r.recordCount)
    if r.state = .committing then s1.failCommit c else s1.setProgress c .reset
  else s

def brokenEvent (cause : BreakCause) (sequence : Option Seq) (count : Nat) : Event :=
  { what := .journalBroken cause, context := none, address := none, sequence := sequence, count := some count }

def detachEvent (result : DetachResult) (sequence : Option Seq) : Event :=
  { what := .detachDone result, context := none, address := none, sequence := sequence, count := none }

/-- The number of contexts a break faults. -/
def State.breakCount (s : State) : Nat :=
  (allContexts.filter fun c => (s.contexts.get c).state.breakable).length

/-- The journal enters BROKEN, in the order of R112. Restore transactions handed and not granted are withdrawn (R96). -/
def State.breakJournal (s : State) (cause : BreakCause) (sequence : Option Seq) : State :=
  let s1 := ((s.setJournal .broken).refuseWhere (fun e => e.journaled) .broken).emptyRequests
  let s2 := allContexts.foldl State.breakContext { s1 with downstream := { s1.downstream with restoreList := [] } }
  let s3 := s2.raise (brokenEvent cause sequence s.breakCount)
  let s4 := if s.attach.journal = .detaching then s3.raise (detachEvent .failed none) else s3
  s4.noteDue.drainIfWarned

/-- A log write error as the journal state has it (R55, R56, R111, R112): a break in ATTACHED and DETACHING, the event
alone in DRAINING, nothing more otherwise. -/
def State.logError (s : State) (cause : BreakCause) (sequence : Option Seq) : State :=
  if s.attach.journal = .attached ∨ s.attach.journal = .detaching then s.breakJournal cause sequence
  else if s.attach.journal = .draining then s.raise (brokenEvent cause sequence 0)
  else s

end Sys2Proof.Machine
end

