-- ==== Sys2Proof/Machine/Attach.lean ====
section
/-! DEFINITION. The attach engine's work: format, resume with recovery, and how an attach ends (R100 to R109). -/

namespace Sys2Proof.Machine

/-- The engine's progress record is replaced. -/
def State.setAttach (s : State) (p : AttachProgress) : State := { s with attach := { s.attach with progress := p } }

/-- 64 zero bytes: a zero copy, or a swept header line (R102). -/
def zeroLine : List Byte := List.replicate 64 0

/-! ## Transactions (R102 to R106) -/

/-- An attach transaction goes to the SCAN requester. -/
def State.handScan (s : State) (request : DownRequest) (step : AttachStep) (isWrite : Bool) : State :=
  { s with downstream := { s.downstream with
      scanList := s.downstream.scanList ++ [({ request := request, owner := .scan step isWrite } : Transaction)] } }

/-- An anchor write of the attach engine made while ATTACHING (R41, R52). -/
def State.handAttachAnchor (s : State) (copy1 : Bool) (data : List Byte) (generation tail : Option Seq) : State :=
  s.handAnchor (anchorCopyAddress s.attach.progress.anchorAddr copy1) data
    { generation := generation, tail := tail, issuer := .attachEngine, attaching := true }

/-- The read of the slot of sequence `q` (R104, R106). -/
def AttachProgress.slotRead (p : AttachProgress) (q : Seq) : DownRequest :=
  readRequest (slotAddress p.ringBase p.slots q) 128

/-- The sweep write of the slot at the position is handed, if the sweep is not at its end (R102). -/
def State.handSweep (s : State) : State :=
  let p := s.attach.progress
  if p.position.toNat < p.slots.toNat then
    (s.handScan (writeRequest (slotAddress p.ringBase p.slots p.position) zeroLine) .sweeping true).setAttach
      { p with position := p.position + 1 }
  else s

/-! ## The end of an attach (R41, R100, R107 to R109) -/

/-- The context's latest epoch is present and not finished (R105). -/
def Recovery.unfinished (r : Recovery) : Bool := r.latest.isSome && !r.finished

/-- The attach report as the progress record stands (R109). -/
def AttachProgress.toReport (p : AttachProgress) (result : AttachResult) : AttachReport :=
  { result := some result, scanned := p.scanned, contexts := p.recovery.map Recovery.unfinished, restored := p.restored }

def attachEvent (result : AttachResult) (sequence : Option Seq) (restored : Nat) : Event :=
  { what := .attachDone result, context := none, address := none, sequence := sequence, count := some restored }

/-- An attach ends: the journal state, the step, the report and ATTACH_DONE (R100, R109); PFAIL_N already asserted
starts the drain (R114). -/
def State.endAttach (s : State) (journal : JournalState) (result : AttachResult) (sequence : Option Seq) : State :=
  let p := s.attach.progress
  (({ s with attach := { s.attach with
      journal := journal
      progress := { p with step := .none }
      report := p.toReport result } }).raise (attachEvent result sequence p.restored)).drainIfWarned

/-- An attach that does not complete returns the journal to DETACHED (R108). -/
def State.failAttach (s : State) (result : AttachResult) (sequence : Option Seq) : State :=
  s.endAttach .detached result sequence

/-- The pointers as an attach completion loads them (R41). -/
def LogWriter.load (w : LogWriter) (slots : BitVec 32) (head generation : Seq) : LogWriter :=
  { w with ringSize := slots, head := head, tail := head, inFlight := [], generation := generation, anchor := none,
           logFullArmed := true, logLowArmed := true, spaceWaiter := none }

/-- The next-epoch fields take loaded values; every other field keeps its own (R3). -/
def State.loadNextEpochs (s : State) (e : Quad Epoch) : State :=
  let load (c : Ctx) : ContextRecord := { s.contexts.get c with nextEpoch := e.get c }
  { s with contexts := ⟨load 0, load 1, load 2, load 3⟩ }

/-- An attach completes: ATTACHED, the pointers and next epochs loaded, ATTACH_DONE (R41, R102, R107). -/
def State.completeAttach (s : State) (result : AttachResult) (head generation : Seq) (epochs : Quad Epoch) : State :=
  (({ s with log := s.log.load s.attach.progress.slots head generation }).loadNextEpochs epochs).endAttach .attached
    result (some head)

/-! ## Format (R102) -/

/-- The anchor of a format (R102, stage 3). -/
def formatCopy : AnchorCopy := { generation := 1, state := .active, tail := 0, nextEpochs := Quad.all 0 }

def State.startFormat (s : State) : State :=
  (s.setAttach { s.attach.progress with step := .invalidating false }).handAttachAnchor false zeroLine none none

/-- The zero copies have answered DONE: the sweep begins. -/
def State.startSweep (s : State) : State :=
  (s.setAttach { s.attach.progress with step := .sweeping, position := 0 }).handSweep

/-- The sweep has no write handed or outstanding. -/
def DownstreamPort.sweepOver (d : DownstreamPort) : Bool :=
  d.scanList.isEmpty && d.outstanding.all fun o => o.owner != .scan .sweeping true

/-- The sweep's end, once every sweep write has answered: the format anchor, or FAILED_WRITE (R102). -/
def State.endSweep (s : State) : State :=
  if s.downstream.sweepOver then
    if s.attach.progress.failed then s.failAttach .failedWrite none
    else
      (s.setAttach { s.attach.progress with step := .formatAnchor }).handAttachAnchor true (anchorBytes formatCopy)
        (some 1) (some 0)
  else s

/-- The answer to a sweep write (R102): an error withdraws what is handed and not granted, and no more is handed (log
entry 17). -/
def State.sweepAnswer (s : State) (answer : Answer) : State :=
  match answer with
  | .done _ => s.endSweep
  | .error =>
    State.endSweep
      { s with
        attach := { s.attach with progress := { s.attach.progress with failed := true } }
        downstream := { s.downstream with scanList := [] } }

/-! ## Resume (R103 to R107) -/

def State.startResume (s : State) : State :=
  (s.setAttach { s.attach.progress with step := .readingAnchor }).handScan
    (readRequest s.attach.progress.anchorAddr 128) .readingAnchor false

/-- The next epoch a final anchor carries for one context (R107). -/
def finalEpoch (anchored : Epoch) (r : Recovery) : Epoch :=
  match r.latest with
  | none => anchored
  | some e => greaterEpoch anchored (e + 1)

/-- The final anchor copy of a resume whose current anchor is `a` (R107). -/
def AttachProgress.finalCopy (p : AttachProgress) (a : AnchorCopy) : AnchorCopy :=
  { generation := a.generation + 1, state := .active, tail := p.headFound,
    nextEpochs := ⟨finalEpoch a.nextEpochs.c0 p.recovery.c0, finalEpoch a.nextEpochs.c1 p.recovery.c1,
                   finalEpoch a.nextEpochs.c2 p.recovery.c2, finalEpoch a.nextEpochs.c3 p.recovery.c3⟩ }

/-- Step FINAL_ANCHOR begins (R107). -/
def State.startFinal (s : State) : State :=
  match s.attach.progress.current with
  | none => s
  | some a =>
    let copy := s.attach.progress.finalCopy a
    (s.setAttach { s.attach.progress with step := .finalAnchor }).handAttachAnchor (copy.generation.getLsbD 0)
      (anchorBytes copy) (some copy.generation) (some copy.tail)

/-- The slot at the position is read in the given step (R104, R106). -/
def State.readSlot (s : State) (step : AttachStep) : State :=
  s.handScan (s.attach.progress.slotRead s.attach.progress.position) step false

/-- The update of a context's recovery record by an accepted slot (R105). -/
def Recovery.track (r : Recovery) (kind : RecordKind) (epoch : Epoch) (q : Seq) : Recovery :=
  match kind with
  | .preImage => if r.latest = some epoch then r else { latest := some epoch, finished := false, first := some q }
  | _ => if r.latest = some epoch then { r with finished := true }
         else { latest := some epoch, finished := true, first := none }

/-- The least first sequence of the unfinished epochs, measured from the anchor's tail (R106). -/
def AttachProgress.replayEnd (p : AttachProgress) (tail : Seq) : Option Seq :=
  leastFrom tail (allContexts.filterMap fun c =>
    if (p.recovery.get c).unfinished then (p.recovery.get c).first else none)

/-- The scan has stopped at the position: the backward replay, or the final anchor (R104, R106). -/
def State.stopScan (s : State) : State :=
  let p := { s.attach.progress with headFound := s.attach.progress.position }
  if allContexts.any fun c => (p.recovery.get c).unfinished then
    (s.setAttach { p with step := .replaying, position := p.headFound - 1 }).readSlot .replaying
  else (s.setAttach p).startFinal

/-- The answer to the anchor read (R103, log entry 20). -/
def State.anchorReadAnswer (s : State) (answer : Answer) : State :=
  match answer with
  | .error => s.failAttach .failedRead none
  | .done data =>
    match currentAnchor (readBytes 128 data) with
    | none => s.failAttach .noAnchor none
    | some a =>
      match a.state with
      | .clean => (s.setAttach { s.attach.progress with current := some a, headFound := a.tail }).startFinal
      | .active =>
        (s.setAttach { s.attach.progress with current := some a, step := .scanning, position := a.tail }).readSlot
          .scanning

/-- The answer to a scan read (R104, R105). -/
def State.scanReadAnswer (s : State) (answer : Answer) : State :=
  let p := s.attach.progress
  match answer with
  | .error => s.failAttach .failedRead (some p.position)
  | .done data =>
    match acceptSlot (readBytes 128 data) p.position with
    | none => s.stopScan
    | some record =>
      let s' := s.setAttach
        { p with
          recovery := p.recovery.set record.ctx ((p.recovery.get record.ctx).track record.kind record.epoch p.position)
          scanned := p.scanned + 1
          position := p.position + 1 }
      if p.scanned + 1 = p.slots.toNat then s'.stopScan else s'.readSlot .scanning

/-- The sequence at the position has finished: the next lower one, or the final anchor (R106, R107). -/
def State.nextSequence (s : State) : State :=
  let p := s.attach.progress
  match p.current with
  | none => s
  | some a =>
    if p.replayEnd a.tail = some p.position then s.startFinal
    else (s.setAttach { p with position := p.position - 1 }).readSlot .replaying

/-- The record is a pre-image of an epoch the recovery records show unfinished (R106). -/
def AttachProgress.restores (p : AttachProgress) (record : SlotRecord) : Bool :=
  record.kind = .preImage && (p.recovery.get record.ctx).unfinished &&
  (p.recovery.get record.ctx).latest == some record.epoch

/-- The answer to a replay read (R106). -/
def State.replayReadAnswer (s : State) (answer : Answer) : State :=
  let p := s.attach.progress
  match answer with
  | .error => s.failAttach .failedRead (some p.position)
  | .done data =>
    match acceptSlot (readBytes 128 data) p.position with
    | none => s.failAttach .failedRestore (some p.position)
    | some record =>
      if p.restores record then
        s.handScan (writeRequest (lineAddress record.line) record.image) .replaying true
      else s.nextSequence

/-- The answer to a replay write (R106). -/
def State.replayWriteAnswer (s : State) (answer : Answer) : State :=
  let p := s.attach.progress
  match answer with
  | .error => s.failAttach .failedRestore (some p.position)
  | .done _ => (s.setAttach { p with restored := p.restored + 1 }).nextSequence

/-- An answer to a transaction of the SCAN requester (R155): discarded unless the attach is still at the step that
handed it (R117). -/
def State.scanAnswer (s : State) (step : AttachStep) (isWrite : Bool) (answer : Answer) : State :=
  if s.attach.journal = .attaching ∧ s.attach.progress.step = step then
    match step, isWrite with
    | .sweeping, _ => s.sweepAnswer answer
    | .readingAnchor, _ => s.anchorReadAnswer answer
    | .scanning, _ => s.scanReadAnswer answer
    | .replaying, false => s.replayReadAnswer answer
    | .replaying, true => s.replayWriteAnswer answer
    | _, _ => s
  else s

/-! ## The attach's anchor writes -/

/-- An anchor write of the attach has answered DONE: the attach goes on by its step (R102, R107). -/
def State.attachAnchorDone (s : State) : State :=
  let p := s.attach.progress
  match p.step with
  | .invalidating false =>
    (s.setAttach { p with step := .invalidating true }).handAttachAnchor true zeroLine none none
  | .invalidating true => s.startSweep
  | .formatAnchor => s.completeAttach .formatted 0 1 (Quad.all 0)
  | .finalAnchor =>
    match p.current with
    | none => s
    | some a =>
      s.completeAttach (if a.state = .clean then .clean else .recovered) p.headFound (a.generation + 1)
        (p.finalCopy a).nextEpochs
  | _ => s

/-- An anchor write of the attach has answered ERROR: FAILED_WRITE, with the tail a resume's final anchor carried (R102,
R107, R109). -/
def State.attachAnchorError (s : State) : State :=
  match s.attach.progress.step with
  | .finalAnchor => s.failAttach .failedWrite (some s.attach.progress.headFound)
  | _ => s.failAttach .failedWrite none

/-- The attach engine takes the answer to an anchor write issued while ATTACHING, if the attach is still running (R53,
R117). -/
def State.attachAnchorAnswer (s : State) (answer : Answer) : State :=
  if s.attach.journal = .attaching then
    match answer with
    | .done _ => s.attachAnchorDone
    | .error => s.attachAnchorError
  else s

end Sys2Proof.Machine
end

