-- ==== Sys2Proof/Machine/Answers.lean ====
section
/-! DEFINITION. The answers of the memory controller, routed by role (R147, R155), and the ten answer rows. -/

namespace Sys2Proof.Machine

/-! ## FORWARD (R72, R73, R140) -/

/-- The result a request is answered with on DONE: data for a READ (R134). -/
def doneResult (isWrite : Bool) (length : Nat) (data : List Byte) : UpResult :=
  .done (if isWrite then [] else readBytes length data)

/-- The answer to a request that went straight to the forward queue (R140). -/
def State.straightAnswer (s : State) (tag : BitVec 6) (answer : Answer) : State :=
  match s.tagEntry tag with
  | none => s
  | some e =>
    match answer with
    | .done data => s.answerUp tag (doneResult e.isWrite e.length data)
    | .error => (s.answerUp tag .error).raise (failedEvent e.address e.journalTag)

/-- The FORWARDED entry of an upstream tag. -/
def State.forwardedEntry (s : State) (tag : BitVec 6) : Option HoldEntry :=
  s.hold.find? fun e => e.released && e.request.tag == tag

/-- The FORWARDED entry of a tag leaves the hold queue (R59). -/
def State.removeForwarded (s : State) (tag : BitVec 6) : State :=
  { s with hold := s.hold.eraseP fun e => e.released && e.request.tag == tag }

/-- A failed journaled write reports FORWARD_ERROR (R73). -/
def State.reportForwardError (s : State) (e : HoldEntry) : State :=
  match e.ctx with
  | none => s
  | some c => if e.journaled then s.reportFault c .forwardError e.request.address else s

/-- The answer to a FORWARDED hold entry (R72, R73): the response, the removal, and after an error the events and the
fault; then the engines look again at the counts (R76). -/
def State.heldAnswer (s : State) (tag : BitVec 6) (answer : Answer) : State :=
  match s.forwardedEntry tag with
  | none => s
  | some e =>
    match answer with
    | .done data =>
      ((s.answerUp tag (doneResult e.request.isWrite e.request.length data)).removeForwarded tag).noteDue.runEngines
    | .error =>
      ((((s.answerUp tag .error).raise (failedEvent e.request.address e.ctx)).removeForwarded tag).noteDue.reportForwardError
        e).runEngines

/-! ## CAPTURE (R67, R69, R75) -/

/-- A capture item's read is outstanding for a line. -/
def CaptureItem.readingLine (i : CaptureItem) (l : Line) : Bool := i.line = l && i.stage == .reading

/-- The read of a line answers DONE: BUILT, and the append is asked for (R42, R67). -/
def State.buildRecord (s : State) (ref : CaptureRef) (image : List Byte) : State :=
  let s' := s.setStage ref.line (.built image)
  State.lookSpace
    { s' with log := { s'.log with requests := s'.log.requests ++ [AppendRequest.preImage ref.ctx ref.line image] } }

/-- The item whose read is outstanding for a line leaves an entry. -/
def HoldEntry.dropItem (e : HoldEntry) (l : Line) : HoldEntry :=
  { e with items := e.items.filter fun i => !i.readingLine l }

/-- The failed item of an entry still in the hold queue: its filter entry is removed and no record is built (R69, log
entry 29). -/
def State.dropItem (s : State) (l : Line) : State :=
  State.removeLine { s with hold := s.hold.map fun e => e.dropItem l } l

/-- The answer to a pre-image read (R67, R69, R75). -/
def State.captureAnswer (s : State) (ref : CaptureRef) (answer : Answer) : State :=
  if s.kept.contains ref then (({ s with kept := s.kept.erase ref }).removeLine ref.line).runEngines
  else if s.hold.any fun e => e.items.any fun i => i.readingLine ref.line then
    match answer with
    | .done data => s.buildRecord ref (readBytes 64 data)
    | .error => ((s.dropItem ref.line).reportFault ref.ctx .captureError (lineAddress ref.line)).runEngines
  else s

/-! ## APPEND (R46, R55) -/

/-- An append is marked failed (R47, R55). -/
def LogWriter.markFailed (w : LogWriter) (q : Seq) : LogWriter :=
  { w with inFlight := w.inFlight.map fun a => if a.seq = q then { a with failed := true } else a }

/-- An append leaves the appends in flight (R46). -/
def LogWriter.settle (w : LogWriter) (q : Seq) : LogWriter :=
  { w with inFlight := w.inFlight.filter fun a => a.seq ≠ q }

/-- The answer to an append (R46, R55). -/
def State.appendAnswer (s : State) (q : Seq) (answer : Answer) : State :=
  match answer with
  | .done _ => ({ s with log := s.log.settle q }).followFrontier.runEngines
  | .error => ({ s with log := s.log.markFailed q }).logError .appendError (some q)

/-! ## ANCHOR (R53, R56, R111, R116) -/

/-- LOG_FULL and LOG_LOW are re-armed as the free count allows (R48, R49, R53). -/
def LogWriter.rearm (w : LogWriter) (watermark : Nat) : LogWriter :=
  { w with
    logFullArmed := w.logFullArmed || 4 < w.freeSlots.toNat
    logLowArmed := w.logLowArmed || (watermark ≠ 0 && watermark ≤ w.freeSlots.toNat) }

/-- The anchored tail takes the tail a write carried (R53). -/
def State.moveTail (s : State) (tail : Option Seq) : State :=
  match tail with
  | none => s
  | some t => State.lookSpace { s with log := ({ s.log with tail := t }).rearm s.items.watermark }

/-- The attach engine's own write, CLEAN or final drain, has answered DONE (R111, R116). -/
def State.engineAnchorDone (s : State) : State :=
  if s.attach.journal = .detaching then
    ((s.setJournal .detached).raise (detachEvent .detached (some s.log.head))).drainIfWarned
  else if s.attach.journal = .draining ∧ s.attach.drain.finalIssued then
    { s with attach := { s.attach with drain := { s.attach.drain with detail := some .written } } }
  else s

/-- An anchor write that is neither a format's nor a resume's has answered ERROR (R56, R111, R115, R116). -/
def State.anchorError (s : State) (flight : AnchorFlight) : State :=
  let s' := s.logError .anchorError flight.tail
  if s.attach.journal = .draining then
    if flight.issuer = .attachEngine ∧ s.attach.drain.finalIssued then
      { s' with attach := { s'.attach with drain := { s'.attach.drain with detail := some .failed } } }
    else { s' with attach := { s'.attach with drain := { s'.attach.drain with anchorError := true } } }
  else s'

/-- The answer to the anchor write in flight (R53, R56). -/
def State.anchorAnswer (s : State) (answer : Answer) : State :=
  match s.log.anchor with
  | none => s
  | some flight =>
    let s' := { s with log := { s.log with anchor := none } }
    if flight.attaching then s'.attachAnchorAnswer answer
    else
      match answer with
      | .done _ =>
        match flight.issuer with
        | .logWriter => s'.moveTail flight.tail
        | .attachEngine => (s'.moveTail flight.tail).engineAnchorDone
      | .error => s'.anchorError flight

/-! ## RESTORE (R91, R92, R96, R97) -/

/-- The entry at the front of the replay list has been finished: restored, or skipped with the incomplete field set. -/
def Progress.finishEntry (p : Progress) (restored : Bool) : Progress :=
  { p with replayList := p.replayList.tail, replayStep := none,
           restored := if restored then p.restored + 1 else p.restored,
           incomplete := p.incomplete || !restored }

/-- The answer to a restore read (R91). -/
def State.restoreReadAnswer (s : State) (c : Ctx) (answer : Answer) : State :=
  let p := s.engine.get c
  let skip := (s.setProgress c (p.finishEntry false)).runEngines
  match answer, p.replayList with
  | .done data, e :: _ =>
    match e.seq with
    | some q =>
      if restoreCheckPasses (readBytes 128 data) q c (s.contexts.get c).epoch e.line then
        s.handRestore c (writeRequest (lineAddress e.line) (slotImage (readBytes 128 data))) .write
      else skip
    | none => skip
  | _, _ => skip

/-- The answer to a restore write (R92). -/
def State.restoreWriteAnswer (s : State) (c : Ctx) (answer : Answer) : State :=
  match answer with
  | .done _ => (s.setProgress c ((s.engine.get c).finishEntry true)).runEngines
  | .error => (s.setProgress c ((s.engine.get c).finishEntry false)).runEngines

/-- An answer to a restore transaction of context `c`: taken while the rollback replays, discarded once it has been
stopped or ended (R96, R97). -/
def State.restoreAnswer (s : State) (c : Ctx) (step : ReplayStep) (answer : Answer) : State :=
  let p := s.engine.get c
  if p.procedure = .abort ∧ p.replayStep = some step then
    if p.phase = .replaying then
      match step with
      | .read => s.restoreReadAnswer c answer
      | .write => s.restoreWriteAnswer c answer
    else s.setProgress c { p with replayStep := none }
  else s

/-! ## Routing (R155, R157, R180) -/

/-- The answer goes to the block its transaction's role names (R155). -/
def State.routeAnswer (s : State) (owner : Owner) (answer : Answer) : State :=
  match owner with
  | .anchor => s.anchorAnswer answer
  | .append q => s.appendAnswer q answer
  | .capture ref => s.captureAnswer ref answer
  | .forward tag .straight => s.straightAnswer tag answer
  | .forward tag .held => s.heldAnswer tag answer
  | .restore c step => s.restoreAnswer c step answer
  | .scan step isWrite => s.scanAnswer step isWrite answer

/-- The entry of a tag leaves the outstanding table (R150, R155). -/
def State.removeOutstanding (s : State) (tag : BitVec 4) : State :=
  { s with downstream := { s.downstream with
      outstanding := s.downstream.outstanding.filter fun e => e.tag ≠ tag } }

/-- An answer arrives under a tag: without an entry it is discarded (R147); else the entry is removed, and the answer is
routed (R155), or discarded while a soft reset waits (R157, R180). -/
def State.takeAnswer (s : State) (tag : BitVec 4) (answer : Answer) : State :=
  match s.outstandingEntry tag with
  | none => s
  | some e =>
    if s.mgmt.waiting then s.removeOutstanding tag
    else (s.removeOutstanding tag).routeAnswer e.owner answer

/-! ## The rows. The role of the outstanding entry routes the answer, whatever row names it (log entry 5). -/

/-- STRAIGHT_ANSWER (R140). -/
def execStraightAnswer (tag : BitVec 4) (answer : Answer) (s : State) : Host.Outcome State Fault Refusal :=
  .next (s.takeAnswer tag answer)

/-- FORWARDED_ENTRY_ANSWER (R72). -/
def execForwardedEntryAnswer (tag : BitVec 4) (answer : Answer) (s : State) : Host.Outcome State Fault Refusal :=
  .next (s.takeAnswer tag answer)

/-- CAPTURE_READ_ANSWER (R67). -/
def execCaptureReadAnswer (tag : BitVec 4) (answer : Answer) (s : State) : Host.Outcome State Fault Refusal :=
  .next (s.takeAnswer tag answer)

/-- APPEND_ANSWER (R46). -/
def execAppendAnswer (tag : BitVec 4) (answer : Answer) (s : State) : Host.Outcome State Fault Refusal :=
  .next (s.takeAnswer tag answer)

/-- ANCHOR_WRITE_ANSWER (R53). -/
def execAnchorWriteAnswer (tag : BitVec 4) (answer : Answer) (s : State) : Host.Outcome State Fault Refusal :=
  .next (s.takeAnswer tag answer)

/-- RESTORE_READ_ANSWER (R91). -/
def execRestoreReadAnswer (tag : BitVec 4) (answer : Answer) (s : State) : Host.Outcome State Fault Refusal :=
  .next (s.takeAnswer tag answer)

/-- RESTORE_WRITE_ANSWER (R92). -/
def execRestoreWriteAnswer (tag : BitVec 4) (answer : Answer) (s : State) : Host.Outcome State Fault Refusal :=
  .next (s.takeAnswer tag answer)

/-- SCAN_READ_ANSWER (R104). -/
def execScanReadAnswer (tag : BitVec 4) (answer : Answer) (s : State) : Host.Outcome State Fault Refusal :=
  .next (s.takeAnswer tag answer)

/-- SCAN_WRITE_ANSWER (R106). -/
def execScanWriteAnswer (tag : BitVec 4) (answer : Answer) (s : State) : Host.Outcome State Fault Refusal :=
  .next (s.takeAnswer tag answer)

/-- STRAY_ANSWER (R147). -/
def execStrayAnswer (tag : BitVec 4) (answer : Answer) (s : State) : Host.Outcome State Fault Refusal :=
  .next (s.takeAnswer tag answer)

end Sys2Proof.Machine
end

