-- ==== Sys2Proof/Machine/Upstream.lean ====
section
/-! DEFINITION. The upstream port and admission: the intake, the form checks, handing on, admission of JOURNAL writes,
classification of reads (spec/08_the_upstream_port.md, R62 to R64, R126 to R132). -/

namespace Sys2Proof.Machine

/-! ## Admission (R21, R23, R62) -/

/-- What the filter says of one line of a write (R21). -/
inductive LineOutcome where
  | miss
  | hitOwn
  | hitOther
deriving DecidableEq, Repr

def State.lineOutcome (s : State) (tag : Option Ctx) (l : Line) : LineOutcome :=
  match s.filterEntry l with
  | none => .miss
  | some e => if tag = some e.owner then .hitOwn else .hitOther

/-- The lines of a write that have no filter entry, ascending (R23). -/
def State.missingLines (s : State) (r : UpRequest) : List Line :=
  r.lines.filter fun l => s.lineOutcome r.journalTag l == .miss

/-- The quota and pool test on `k` missing lines (R23). -/
def State.quotaTest (s : State) (c : Ctx) (k : Nat) : Bool :=
  k = 0 || (s.entryCount c + k ≤ (s.contexts.get c).quota && k ≤ s.filterFree)

/-- What admission decides (R62). -/
inductive Admission where
  | refuse (reason : Reason)
  /-- Admitted under an OPEN context, with the new lines. -/
  | journaled (c : Ctx) (newLines : List Line)
  | unjournaled
deriving DecidableEq, Repr

/-- Step 1 of R62: the reason of a journal state other than ATTACHED. DRAINING and DRAINED hand nothing to admission
(R142); were they asked, the reason is theirs. -/
def JournalState.admissionReason (j : JournalState) : Option Reason :=
  match j with
  | .attached => none
  | .attaching => some .recovering
  | .broken => some .broken
  | .detached => some .detached
  | .detaching => some .detached
  | .draining => some .draining
  | .drained => some .draining

/-- Step 6 of R62: an untagged write, or one of a context that is not OPEN. -/
def closedDecision (ownsLine : Bool) (action : ClosedAction) : Admission :=
  if ownsLine then .refuse .closed
  else
    match action with
    | .forward => .unjournaled
    | .refuse => .refuse .closed

/-- Admission of a write to a JOURNAL region with entry `region` (R62). -/
def State.admission (s : State) (r : UpRequest) (region : RegionEntry) : Admission :=
  match s.attach.journal.admissionReason with
  | some reason => .refuse reason
  | none =>
    if r.lines.any fun l => s.lineOutcome r.journalTag l == .hitOther then .refuse .conflict
    else
      let ownsLine := r.lines.any fun l => s.lineOutcome r.journalTag l == .hitOwn
      match r.journalTag with
      | none => closedDecision ownsLine region.closed
      | some c =>
        match (s.contexts.get c).state with
        | .faulted => .refuse .faulted
        | .opened =>
          if !region.mask.getLsbD c.val then .refuse .notPermitted
          else if s.quotaTest c (s.missingLines r).length then .journaled c (s.missingLines r)
          else .refuse .filterFull
        | _ => closedDecision ownsLine region.closed

/-! ## Handing on (R64, R138) -/

/-- What the head needs to be handed on (R138). -/
inductive Need where
  | refusal (reason : Reason)
  | holdPlace
  | forwardPlace
deriving DecidableEq, Repr

/-- A read must wait: an unreleased entry shares a line, or an ABORTING context owns one (R64). -/
def State.readMustWait (s : State) (lines : List Line) : Bool :=
  s.hold.any (fun e => !e.released && shareLine e.lines lines) || s.ownedByAborting lines

def State.need (s : State) (r : UpRequest) : Need :=
  match s.requestKind r, r.isWrite with
  | none, _ => .refusal .malformed
  | some .guard, true => .refusal .guarded
  | some .log, true => .refusal .logArea
  | some (.journal _), true => .holdPlace
  | some .pass, true => .forwardPlace
  | some kind, false =>
    match kind, s.attach.journal with
    | .journal _, .attaching => .refusal .recovering
    | _, _ => if s.readMustWait r.lines then .holdPlace else .forwardPlace

/-- The entry of an outstanding tag stands at a place (R137). -/
def State.setPlace (s : State) (tag : BitVec 6) (place : TagPlace) : State :=
  { s with upstream := { s.upstream with
      tags := s.upstream.tags.map fun e => if e.tag = tag then { e with place := place } else e } }

def State.setIntake (s : State) (intake : Intake) (head : Option UpRequest) : State :=
  { s with upstream := { s.upstream with intake := intake, head := head } }

/-- The item of a new line: PENDING, its read not handed (R62). -/
def newItem (l : Line) : CaptureItem := { line := l, stage := .pending false }

/-- A request joins the end of the hold queue (R59). -/
def State.joinHold (s : State) (r : UpRequest) (journaled : Bool) (newLines : List Line) : State :=
  let entry : HoldEntry := { request := r, journaled := journaled, items := newLines.map newItem, released := false }
  ({ s with hold := s.hold ++ [entry] }).setPlace r.tag .held

/-- The CAPTURING entries of the new lines are inserted (R23). -/
def State.insertLines (s : State) (c : Ctx) (newLines : List Line) : State :=
  newLines.foldl (fun s l => s.insertFilter { line := l, owner := c, state := .capturing, seq := none }) s

/-- A write handed to admission (R62, R63). -/
def State.admitWrite (s : State) (r : UpRequest) (region : RegionEntry) : State :=
  match s.admission r region with
  | .refuse reason => s.refuseRequest r reason
  | .journaled c newLines => ((s.insertLines c newLines).joinHold r true newLines).noteDue
  | .unjournaled => s.joinHold r false []

/-- A request with a free hold place: a write goes to admission with its region entry, a read waits (R62, R64). -/
def State.enterHold (s : State) (r : UpRequest) : State :=
  match s.requestKind r, r.isWrite with
  | some (.journal n), true => s.admitWrite r (s.regions.get n)
  | _, _ => s.joinHold r false []

/-- A request goes straight to the forward queue (R138, R148). -/
def State.enterForward (s : State) (r : UpRequest) : State :=
  ({ s with downstream := { s.downstream with
      forwardQueue := s.downstream.forwardQueue ++
        [({ request := r.forwardRequest, owner := .forward r.tag .straight } : Transaction)] } }).setPlace r.tag .queued

/-- The head is handed on, refused, or waits for its place (R132, R138, R139). -/
def State.handOn (s : State) (r : UpRequest) : State :=
  match s.need r with
  | .refusal reason => (s.setIntake .taking none).refuseRequest r reason
  | .holdPlace =>
    if s.hold.length < 32 then (s.setIntake .taking none).enterHold r else s.setIntake .waitHold (some r)
  | .forwardPlace =>
    if s.downstream.forwardQueue.length < 16 then (s.setIntake .taking none).enterForward r
    else s.setIntake .waitForward (some r)

/-! ## The intake (R135 to R137) -/

/-- The form checks fail (R136). -/
def State.malformedRequest (s : State) (r : UpRequest) : Bool := r.badForm || (s.tagEntry r.tag).isSome

/-- The request's tag becomes outstanding, at HEAD (R137). -/
def State.addTag (s : State) (r : UpRequest) : State :=
  { s with upstream := { s.upstream with
      tags := s.upstream.tags ++
        [({ tag := r.tag, isWrite := r.isWrite, address := r.address, length := r.length, journalTag := r.journalTag,
            place := .head } : TagEntry)] } }

/-- A request is taken: answered ERROR if MALFORMED, which leaves an earlier request its tag; else it becomes the head
and is handed on (R135, R136). -/
def State.takeRequest (s : State) (r : UpRequest) : State :=
  if s.malformedRequest r then (s.sendResponse r.tag .error).raise (refusedEvent r .malformed)
  else (s.addTag r).handOn r

/-- The intake takes the link's oldest request while it is TAKING (R135). -/
def State.takeFromLink (s : State) : State :=
  if s.live ∧ s.upstream.intake = .taking then
    match s.upstream.link with
    | [] => s
    | r :: rest => State.takeRequest { s with upstream := { s.upstream with link := rest } } r
  else s

/-- A request arrives on the link and waits there until it is taken (R135, log entry 11). -/
def State.arrive (s : State) (arrival : Option UpRequest) : State :=
  { s with upstream := { s.upstream with link := s.upstream.link ++ arrival.toList } }

/-- UPSTREAM_REQUEST (R136). -/
def execUpstreamRequest (arrival : Option UpRequest) (s : State) : Host.Outcome State Fault Refusal :=
  .next (s.arrive arrival).takeFromLink

/-- A head that waits is classified afresh (R139). Which change came before is not tested: the release of a hold entry alone,
which R139's list does not name, also lets the head move (the model's choice: log entry 31). -/
def State.reclassify (s : State) : State :=
  match s.upstream.head with
  | none => s
  | some r =>
    if s.live ∧ (s.upstream.intake = .waitHold ∨ s.upstream.intake = .waitForward) then s.handOn r else s

/-- HEAD_RECLASSIFIED (R139). -/
def execHeadReclassified (s : State) : Host.Outcome State Fault Refusal := .next s.reclassify

end Sys2Proof.Machine
end

