-- ==== Sys2Proof/Machine/Arbiter.lean ====
section
/-! DEFINITION. The arbiter's grant (R150 to R154). -/

namespace Sys2Proof.Machine

/-- A running throttle count falls by one (R154). -/
def lowerCount (n : Nat) : Nat := n - 1

/-- The throttle counts after a grant to a requester (R154). -/
def DownstreamPort.count (d : DownstreamPort) (r : Requester) : DownstreamPort :=
  match r with
  | .restore => { d with restoreCount := d.throttleRestore, scanCount := lowerCount d.scanCount }
  | .scan => { d with scanCount := d.throttleScan, restoreCount := lowerCount d.restoreCount }
  | _ => { d with restoreCount := lowerCount d.restoreCount, scanCount := lowerCount d.scanCount }

/-- The port after a grant: the head leaves its list, the entry with its locked lines is made (R152). -/
def DownstreamPort.grant (d : DownstreamPort) (tag : BitVec 4) (r : Requester) (t : Transaction) : DownstreamPort :=
  let d' := (d.setWaiting r (d.waiting r).tail).count r
  { d' with outstanding := d'.outstanding ++ [({ tag := tag, owner := t.owner, lines := t.request.lines } : Outstanding)] }

/-- The feeding block is told that its transaction is issued (R66, R102, R138, R152). -/
def State.told (s : State) (owner : Owner) : State :=
  match owner with
  | .forward tag .straight => s.setPlace tag .issued
  | .capture ref => s.setStage ref.line .reading
  | .scan .sweeping _ =>
    if s.attach.journal = .attaching ∧ s.attach.progress.step = .sweeping then s.handSweep else s
  | _ => s

/-- One grant (R152). -/
def State.issue (s : State) (tag : BitVec 4) (r : Requester) (t : Transaction) : State :=
  State.told
    { s with
      downstream := s.downstream.grant tag r t
      out := { s.out with requests := s.out.requests ++ [⟨tag, t.request⟩] } }
    t.owner

/-- The arbiter grants the highest-ranked eligible requester while a downstream tag is free (R152), in every journal state
(R156): also in DRAINED, to what a drain from DETACHED left queued (the model's choice: log entry 32). -/
def State.grant (s : State) : State :=
  if s.live then
    match s.downstream.freeTag, s.downstream.choice with
    | some tag, some (r, t) => s.issue tag r t
    | _, _ => s
  else s

/-- GRANT (R152). -/
def execGrant (s : State) : Host.Outcome State Fault Refusal := .next s.grant

end Sys2Proof.Machine
end

