-- ==== Sys2Proof/Machine/Drain.lean ====
section
/-! DEFINITION. The attach engine's own events: CLEAN_ANCHOR_WRITE, FINAL_DRAIN_ANCHOR_WRITE, DRAINED (R111, R116 to
R118). -/

namespace Sys2Proof.Machine

/-- The CLEAN anchor write is issued in DETACHING once the hold queue is empty and neither an append nor an anchor write
is in flight (R111). -/
def State.cleanAnchor (s : State) : State :=
  if s.live ∧ s.attach.journal = .detaching ∧ s.hold = [] ∧ s.log.inFlight = [] ∧ s.log.anchor = none then
    s.issueAnchor .attachEngine .clean s.log.head
  else s

/-- CLEAN_ANCHOR_WRITE (R111). -/
def execCleanAnchorWrite (s : State) : Host.Outcome State Fault Refusal := .next s.cleanAnchor

/-- A drain that makes a final anchor write, unless the drain record shows an anchor error (R116). -/
def DrainRecord.writesAnchor (d : DrainRecord) : Bool :=
  (d.origin == some .attached || d.origin == some .detaching) && !d.anchorError

/-- The final drain anchor write is issued once the downstream port is idle (R116). -/
def State.finalDrainAnchor (s : State) : State :=
  if s.live ∧ s.attach.journal = .draining ∧ s.attach.drain.writesAnchor ∧ ¬ s.attach.drain.finalIssued ∧
      s.downstream.idle ∧ s.log.anchor = none then
    State.issueAnchor
      { s with attach := { s.attach with drain := { s.attach.drain with
          finalIssued := true, finalTail := some s.reclaimLimit } } }
      .attachEngine .active s.reclaimLimit
  else s

/-- FINAL_DRAIN_ANCHOR_WRITE (R116). -/
def execFinalDrainAnchorWrite (s : State) : Host.Outcome State Fault Refusal := .next s.finalDrainAnchor

/-- The drain ends: with the result of its final anchor write, or SKIPPED where it makes none and the port is idle
(R116 to R118). -/
def State.endDrain (s : State) : State :=
  if s.live ∧ s.attach.journal = .draining then
    match s.attach.drain.detail with
    | some detail => s.enterDrained detail
    | none => if s.downstream.idle ∧ ¬ s.attach.drain.writesAnchor then s.enterDrained .skipped else s
  else s

/-- DRAINED (R118). -/
def execDrained (s : State) : Host.Outcome State Fault Refusal := .next s.endDrain

end Sys2Proof.Machine
end

