-- ==== Sys2Proof/Machine/Hold.lean ====
section
/-! DEFINITION. The hold queue's own events: RELEASE and CAPTURE_READ_HANDED (R66, R71). -/

namespace Sys2Proof.Machine

/-! ## Release (R70, R71) -/

/-- The oldest READY entry, and the queue with that entry released. -/
def State.releaseFirst (s : State) (before : List HoldEntry) : List HoldEntry → Option (HoldEntry × List HoldEntry)
  | [] => none
  | e :: rest =>
    if s.holdState before e = .ready then some (e, { e with released := true } :: rest)
    else (s.releaseFirst (before ++ [e]) rest).map fun x => (x.1, e :: x.2)

/-- The entry's request joins the forward queue, source HELD (R71, R148). -/
def State.forwardHeld (s : State) (r : UpRequest) : State :=
  { s with downstream := { s.downstream with
      forwardQueue := s.downstream.forwardQueue ++
        [({ request := r.forwardRequest, owner := .forward r.tag .held } : Transaction)] } }

/-- The oldest READY entry is released into a free forward place (R71). -/
def State.release (s : State) : State :=
  if s.live ∧ s.downstream.forwardQueue.length < 16 then
    match s.releaseFirst [] s.hold with
    | none => s
    | some (e, hold) => (State.forwardHeld { s with hold := hold } e.request).noteDue
  else s

/-- RELEASE (R71). -/
def execRelease (s : State) : Host.Outcome State Fault Refusal := .next s.release

/-! ## Capture reads (R66) -/

/-- The pre-image read of a line: 64 bytes at its first byte (R66). -/
def captureRead (ref : CaptureRef) : Transaction :=
  { request := readRequest (lineAddress ref.line) 64, owner := .capture ref }

/-- A capture item's read is handed to the CAPTURE requester (R66). -/
def State.handCapture (s : State) (ref : CaptureRef) : State :=
  let s' := s.setStage ref.line (.pending true)
  State.noteDue
    { s' with downstream := { s'.downstream with captureList := s'.downstream.captureList ++ [captureRead ref] } }

/-- The item whose handing conditions came to hold first is handed (R66). -/
def State.captureHanded (s : State) : State :=
  if s.live then
    match s.noteDue.due with
    | [] => s
    | ref :: _ => s.handCapture ref
  else s

/-- CAPTURE_READ_HANDED (R66). -/
def execCaptureReadHanded (s : State) : Host.Outcome State Fault Refusal := .next s.captureHanded

end Sys2Proof.Machine
end

