-- ==== Sys2Proof/Machine/Log.lean ====
section
/-! DEFINITION. The log writer's own events: APPEND_TAKE and RECLAMATION_ANCHOR_WRITE (R43, R44, R49, R51). -/

namespace Sys2Proof.Machine

/-! ## The take (R9, R11, R25, R43, R44, R49) -/

/-- A PRE_IMAGE request can be taken for room: fewer than 16 appends in flight, more than 4 free slots (R43). -/
def LogWriter.roomForPreImage (w : LogWriter) : Bool := w.inFlight.length < 16 && 4 < w.freeSlots.toNat

/-- A marker request can be taken for room (R43). -/
def LogWriter.roomForMarker (w : LogWriter) : Bool := w.inFlight.length < 16 && 1 ≤ w.freeSlots.toNat

/-- The request that is taken next: the oldest marker, ahead of the PRE_IMAGE requests that wait, else the oldest
PRE_IMAGE (R43, R86, log entry 10). -/
def LogWriter.nextTake (w : LogWriter) : Option AppendRequest :=
  match if w.roomForMarker then w.frontMarker else none with
  | some m => some m
  | none => if w.roomForPreImage then w.frontPreImage else none

/-- The request leaves the list, takes the sequence `head` and is in flight (R44). -/
def LogWriter.take (w : LogWriter) (r : AppendRequest) (c : Ctx) : LogWriter :=
  { w with head := w.head + 1, inFlight := w.inFlight ++ [{ seq := w.head, ctx := c, failed := false }],
           requests := w.requests.erase r }

/-- A record is counted, and the first sets the first-record sequence (R9). -/
def ContextRecord.countRecord (r : ContextRecord) (q : Seq) : ContextRecord :=
  { r with recordCount := r.recordCount + 1, firstSeq := some (r.firstSeq.getD q) }

/-- A taken append goes to the APPEND requester (R44). -/
def State.handAppend (s : State) (q : Seq) (data : List Byte) : State :=
  { s with downstream := { s.downstream with
      appendList := s.downstream.appendList ++
        [({ request := writeRequest (slotAddress s.items.ringBase s.log.ringSize q) data,
            owner := .append q } : Transaction)] } }

def logLowEvent (w : LogWriter) : Event :=
  { what := .logLow, context := none, address := none, sequence := some w.head, count := some w.freeSlots.toNat }

/-- LOG_LOW after a take (R49). -/
def State.lookLow (s : State) : State :=
  if s.items.watermark ≠ 0 ∧ s.log.logLowArmed ∧ s.log.freeSlots.toNat < s.items.watermark then
    ({ s with log := { s.log with logLowArmed := false } }).raise (logLowEvent s.log)
  else s

/-- A PRE_IMAGE append is taken (R9, R25, R37, R44). -/
def State.takePreImage (s : State) (c : Ctx) (l : Line) (image : List Byte) : State :=
  let q := s.log.head
  let r := s.contexts.get c
  (((({ s with log := s.log.take (.preImage c l image) c }).setContext c (r.countRecord q)).setFilterSeq l q).setStage l
    (.taken q)).handAppend q (preImageBytes q c r.epoch l image)

/-- A marker append is taken (R11, R38, R44, R84). -/
def State.takeMarker (s : State) (kind : MarkerKind) (c : Ctx) (epoch : Epoch) (incomplete : Bool) : State :=
  let q := s.log.head
  ((({ s with log := s.log.take (.marker kind c epoch incomplete) c }).setContext c
    { s.contexts.get c with marker := true }).setProgress c { s.engine.get c with markerSeq := some q }).handAppend q
    (markerBytes q kind c epoch incomplete)

/-- The log writer takes an append while the journal is ATTACHED (R43). LOG_LOW is looked at before LOG_FULL (log entry
19). -/
def State.appendTake (s : State) : State :=
  if s.live ∧ s.attach.journal = .attached then
    match s.log.nextTake with
    | none => s
    | some (.preImage c l image) => (s.takePreImage c l image).lookLow.lookSpace
    | some (.marker kind c epoch incomplete) => (s.takeMarker kind c epoch incomplete).lookLow.lookSpace.runEngines
  else s

/-- APPEND_TAKE (R44). -/
def execAppendTake (_operand : Unit) (s : State) : Host.Outcome State Fault Refusal := .next s.appendTake

/-! ## Reclamation (R51) -/

/-- The condition of R51 on the reclaim limit and the free count. -/
def State.reclaimDue (s : State) : Bool :=
  s.anchorStep ≤ distance s.log.tail s.reclaimLimit ||
  (0 < distance s.log.tail s.reclaimLimit && s.log.freeSlots.toNat ≤ 5)

/-- A reclamation anchor write is issued if it is due (R51, R52). -/
def State.reclaim (s : State) : State :=
  if s.live ∧ s.attach.journal = .attached ∧ s.log.anchor = none ∧ s.reclaimDue then
    s.issueAnchor .logWriter .active s.reclaimLimit
  else s

/-- RECLAMATION_ANCHOR_WRITE (R51). -/
def execReclamationAnchorWrite (s : State) : Host.Outcome State Fault Refusal := .next s.reclaim

end Sys2Proof.Machine
end

