-- ==== Sys2Proof/Machine/Management.lean ====
section
/-! DEFINITION. The management link: frames, the commands of the host, the items (spec/11_the_management_link.md). -/

namespace Sys2Proof.Machine

/-! ## Frames (R170, R171, R174) -/

/-- The whole bytes clocked so far in the frame in progress. -/
def FramePhase.clocked (f : FramePhase) : Nat :=
  match f with
  | .none => 0
  | .inProgress clocked => clocked
  | .discarded => 0

/-- What MDO shifts out while `n` bytes are clocked from where the frame stands (R171); 00H while RST_N is asserted and
in a frame that RST_N has cut (R174). -/
def State.shiftedBytes (s : State) (n : Nat) : List Byte :=
  if s.takesNoFrame then List.replicate n 0
  else (shiftedOut s.mgmt.reply (s.mgmt.frame.clocked + n)).drop s.mgmt.frame.clocked

/-- MDO shifts out `bytes`. -/
def State.shift (s : State) (bytes : List Byte) : State := { s with out := { s.out with mdo := s.out.mdo ++ [bytes] } }

/-- Bytes are clocked and MCS_N stays low: the assembly buffer keeps the first 11 of the frame (R170). A frame that
begins while RST_N is asserted, or that RST_N has cut, is discarded (R174). -/
def State.beginFrame (s : State) (bytes : List Byte) : State :=
  let link : ManagementLink :=
    if s.takesNoFrame then { s.mgmt with frame := .discarded, assembly := [] }
    else { s.mgmt with
      frame := .inProgress (s.mgmt.frame.clocked + bytes.length)
      assembly := (s.mgmt.assembly ++ bytes).take 11 }
  State.shift { s with mgmt := link } (s.shiftedBytes bytes.length)

/-- A command that is refused BUSY while a soft reset waits, before any check of its own (R176). -/
def State.unlessWaiting (run : State → State × Reply) (s : State) : State × Reply :=
  if s.mgmt.waiting then (s, .busy) else run s

/-! ## NOP and STATUS (R175) -/

def State.nopCommand (s : State) : State × Reply := (s, .ok)

def State.statusCommand (s : State) : State × Reply := (s, .okStatus s.statusRecord)

/-! ## GET (R177, R187) -/

/-- The entry of a number below 16. -/
def State.region (s : State) (index : Byte) : RegionEntry := s.regions[index.toNat % 16]

/-- The context of an index below 4. -/
def ctxOfIndex (index : Byte) : Ctx := Fin.ofNat 4 index.toNat

/-- The value an item reads as (R19, R35, R57, R123, R153, R165, R187). -/
def State.itemReply (s : State) (item : Item) (index : Byte) : Reply :=
  match item with
  | .region => .okItem (s.region index).value
  | .ringBase => .okItem (s.items.ringBase.setWidth 64)
  | .sizeExp => .okItem (BitVec.ofNat 64 s.items.sizeExp)
  | .anchorAddr => .okItem (s.items.anchorAddr.setWidth 64)
  | .watermark => .okItem (BitVec.ofNat 64 s.items.watermark)
  | .anchorStep => .okItem (BitVec.ofNat 64 s.items.anchorStep)
  | .quota => .okItem (BitVec.ofNat 64 (s.contexts.get (ctxOfIndex index)).quota)
  | .arbOrder => .okItem (orderValue s.downstream.order)
  | .throttleRestore => .okItem (BitVec.ofNat 64 s.downstream.throttleRestore)
  | .throttleScan => .okItem (BitVec.ofNat 64 s.downstream.throttleScan)
  | .eventMask => .okItem (s.events.mask.setWidth 64)
  | .logHead => .okItem (s.log.head.setWidth 64)
  | .logTail => .okItem (s.log.tail.setWidth 64)
  | .logFree => .okItem (s.log.freeSlots.setWidth 64)
  | .ctxInfo => .okContext (s.contexts.get (ctxOfIndex index)) (s.entryCount (ctxOfIndex index))

/-- GET (R177): the item code, the index, then the value. -/
def State.getCommand (code index : Byte) (s : State) : State × Reply :=
  match itemOfCode code with
  | none => (s, .badRange)
  | some item => if item.indexOk index then (s, s.itemReply item index) else (s, .badRange)

/-! ## SET (R13, R35, R49, R121, R122, R153, R165, R177) -/

/-- A geometry item may be set in DETACHED alone (R35). -/
def State.setGeometry (s : State) (inRange : Bool) (items : LogItems) : State × Reply :=
  if !inRange then (s, .badRange)
  else if s.attach.journal = .detached then ({ s with items := items }, .ok)
  else (s, .badState)

/-- Every context is IDLE. -/
def State.allIdle (s : State) : Bool := allContexts.all fun c => (s.contexts.get c).state == .idle

/-- The state check of R122: every context IDLE, no hold entry. -/
def State.regionsEditable (s : State) : Bool := s.allIdle && s.hold.isEmpty

/-- Entry `index` takes new contents if the table may be edited (R122). -/
def State.writeRegion (s : State) (index : Byte) (e : RegionEntry) : State × Reply :=
  if s.regionsEditable then ({ s with regions := s.regions.set (index.toNat % 16) e }, .ok) else (s, .busy)

/-- A PASS or GUARD entry names no context and the closed action FORWARD (R121, check 5). -/
def RegionEntry.settingsOk (e : RegionEntry) : Bool :=
  match e.kind with
  | .journal => true
  | _ => e.mask == 0 && e.closed == .forward

/-- SET(REGION n, value) (R121, R122). -/
def State.setRegionItem (s : State) (index : Byte) (v : BitVec 64) : State × Reply :=
  if !v.getLsbD 63 then s.writeRegion index .reset
  else
    match regionOfValue v with
    | none => (s, .badRange)
    | some e => if e.limit < e.base ∨ ¬ e.settingsOk then (s, .badRange) else s.writeRegion index e

/-- SET(QUOTA n, value) (R13). -/
def State.setQuotaItem (s : State) (index : Byte) (v : BitVec 64) : State × Reply :=
  let c := ctxOfIndex index
  if 512 < v.toNat then (s, .badRange)
  else if (s.contexts.get c).state = .idle then
    (s.setContext c { s.contexts.get c with quota := v.toNat }, .ok)
  else (s, .busy)

/-- SET(WATERMARK, value), which re-arms LOG_LOW (R35, R49). -/
def State.setWatermarkItem (s : State) (v : BitVec 64) : State × Reply :=
  if 2 ^ 24 < v.toNat then (s, .badRange)
  else ({ s with items := { s.items with watermark := v.toNat }, log := { s.log with logLowArmed := true } }, .ok)

/-- SET(ANCHOR_STEP, value) (R35). -/
def State.setAnchorStepItem (s : State) (v : BitVec 64) : State × Reply :=
  if 1 ≤ v.toNat ∧ v.toNat ≤ 2 ^ 24 then ({ s with items := { s.items with anchorStep := v.toNat } }, .ok)
  else (s, .badRange)

/-- SET(ARB_ORDER, value) (R153). -/
def State.setOrderItem (s : State) (v : BitVec 64) : State × Reply :=
  match orderOfValue v with
  | none => (s, .badRange)
  | some order => ({ s with downstream := { s.downstream with order := order } }, .ok)

/-- SET(THROTTLE_RESTORE, value) (R153). -/
def State.setThrottleRestoreItem (s : State) (v : BitVec 64) : State × Reply :=
  if 255 < v.toNat then (s, .badRange)
  else ({ s with downstream := { s.downstream with throttleRestore := v.toNat } }, .ok)

/-- SET(THROTTLE_SCAN, value) (R153). -/
def State.setThrottleScanItem (s : State) (v : BitVec 64) : State × Reply :=
  if 255 < v.toNat then (s, .badRange)
  else ({ s with downstream := { s.downstream with throttleScan := v.toNat } }, .ok)

/-- SET(EVENT_MASK, value) (R165). -/
def State.setMaskItem (s : State) (v : BitVec 64) : State × Reply :=
  if v.toNat < 2 ^ 11 then ({ s with events := { s.events with mask := v.setWidth 11 } }, .ok) else (s, .badRange)

/-- The item's own rule (R177, step 5). -/
def State.itemSet (s : State) (item : Item) (index : Byte) (v : BitVec 64) : State × Reply :=
  match item with
  | .region => s.setRegionItem index v
  | .ringBase =>
    s.setGeometry (v.toNat < 2 ^ 40 && v.toNat % 0x1000 == 0) { s.items with ringBase := v.setWidth 40 }
  | .sizeExp => s.setGeometry (6 ≤ v.toNat && v.toNat ≤ 24) { s.items with sizeExp := v.toNat }
  | .anchorAddr =>
    s.setGeometry (v.toNat < 2 ^ 40 && v.toNat % 0x80 == 0) { s.items with anchorAddr := v.setWidth 40 }
  | .watermark => s.setWatermarkItem v
  | .anchorStep => s.setAnchorStepItem v
  | .quota => s.setQuotaItem index v
  | .arbOrder => s.setOrderItem v
  | .throttleRestore => s.setThrottleRestoreItem v
  | .throttleScan => s.setThrottleScanItem v
  | .eventMask => s.setMaskItem v
  | .logHead => (s, .badState)
  | .logTail => (s, .badState)
  | .logFree => (s, .badState)
  | .ctxInfo => (s, .badState)

/-- SET (R177): the item code, the index, read-only, a soft reset's wait, then the item's own rule. -/
def State.setCommand (code index : Byte) (v : BitVec 64) (s : State) : State × Reply :=
  match itemOfCode code with
  | none => (s, .badRange)
  | some item =>
    if !item.indexOk index then (s, .badRange)
    else if item.readOnly then (s, .badState)
    else if s.mgmt.waiting ∧ item ≠ .eventMask then (s, .busy)
    else s.itemSet item index v

/-! ## ATTACH and DETACH (R101, R110) -/

/-- The mode a mode byte names (12_formats.md, R186). -/
def attachModeOf (mode : Byte) : Option AttachMode :=
  if mode = 0x01#8 then some .format else if mode = 0x02#8 then some .resume else none

/-- The progress record an accepted ATTACH begins with (R101). -/
def LogItems.progress (g : LogItems) (mode : AttachMode) : AttachProgress :=
  { AttachProgress.reset with mode := mode, ringBase := g.ringBase, slots := BitVec.ofNat 32 g.slots,
                              anchorAddr := g.anchorAddr }

/-- An accepted ATTACH (R101 to R103, R114). -/
def State.acceptAttach (s : State) (mode : AttachMode) : State :=
  let s' := (s.setJournal .attaching).setAttach (s.items.progress mode)
  (match mode with | .format => s'.startFormat | .resume => s'.startResume).drainIfWarned

/-- ATTACH(mode) (R101). -/
def State.attachCommand (mode : Byte) (s : State) : State × Reply :=
  match attachModeOf mode with
  | none => (s, .badRange)
  | some m =>
    if s.attach.journal ≠ .detached then (s, .badState)
    else if s.items.valid then (s.acceptAttach m, .ok)
    else (s, .badRange)

/-- DETACH (R110). -/
def State.detachCommand (s : State) : State × Reply :=
  if s.attach.journal ≠ .attached then (s, .badState)
  else if s.allIdle then ((s.setJournal .detaching).drainIfWarned, .ok)
  else (s, .busy)

/-! ## OPEN, COMMIT, ABORT (R4, R5, R7, R8) -/

/-- A new epoch begins (R5). The entry count is the filter's, 0 in IDLE. -/
def ContextRecord.openEpoch (r : ContextRecord) : ContextRecord :=
  { r with state := .opened, epoch := r.nextEpoch, nextEpoch := r.nextEpoch + 1, firstSeq := none, recordCount := 0,
           marker := false, faultCause := none }

/-- The progress record of a procedure that begins (R81). -/
def Progress.start (p : Procedure) : Progress := { Progress.reset with procedure := p }

/-- The first two steps of R4, then the step the context's state decides. -/
def State.contextCommand (ctx : Byte) (run : State → Ctx → State × Reply) (s : State) : State × Reply :=
  match ctxOfByte ctx with
  | none => (s, .badRange)
  | some c => if s.attach.journal ≠ .attached then (s, .badState) else run s c

/-- OPEN in ATTACHED (R4, R5). -/
def State.openContext (s : State) (c : Ctx) : State × Reply :=
  let r := s.contexts.get c
  match r.state with
  | .idle => (s.setContext c r.openEpoch, .okEpoch r.nextEpoch)
  | _ => (s, .busy)

/-- An accepted COMMIT (R7, R81, R82). -/
def State.acceptCommit (s : State) (c : Ctx) : State :=
  ((s.setContext c { s.contexts.get c with state := .committing }).setProgress c (.start .commit)).runEngines

/-- COMMIT in ATTACHED (R4, R7). -/
def State.commitContext (s : State) (c : Ctx) : State × Reply :=
  let r := s.contexts.get c
  match r.state with
  | .idle => (s, .badState)
  | .opened => (s.acceptCommit c, .okEpoch r.epoch)
  | .committing => (s, .busy)
  | .aborting => (s, .busy)
  | .faulted => (s, .badState)

/-- An accepted ABORT: the refusals, then the procedure as far as it goes (R8, R81, R87, R88). -/
def State.acceptAbort (s : State) (c : Ctx) : State :=
  ((((s.setContext c { s.contexts.get c with state := .aborting }).setProgress c (.start .abort)).refuseWhere
    (fun e => e.journaledOf c) .aborted).runEngines.noteDue).lookSpace

/-- ABORT in ATTACHED (R4, R8). -/
def State.abortContext (s : State) (c : Ctx) : State × Reply :=
  let r := s.contexts.get c
  match r.state with
  | .idle => (s, .badState)
  | .opened => (s.acceptAbort c, .okEpoch r.epoch)
  | .committing => (s, .busy)
  | .aborting => (s, .busy)
  | .faulted => (s.acceptAbort c, .okEpoch r.epoch)

def State.openCommand (ctx : Byte) (s : State) : State × Reply := s.contextCommand ctx State.openContext

def State.commitCommand (ctx : Byte) (s : State) : State × Reply := s.contextCommand ctx State.commitContext

def State.abortCommand (ctx : Byte) (s : State) : State × Reply := s.contextCommand ctx State.abortContext

/-! ## POP_EVENT and CLEAR_OVERRUN (R163, R164) -/

/-- POP_EVENT (R163). -/
def State.popCommand (s : State) : State × Reply :=
  match s.events.records with
  | [] => (s, .empty s.events.overrun)
  | e :: rest =>
    ({ s with events := { s.events with records := rest } }, .okEvent e rest.length s.events.overrun)

/-- CLEAR_OVERRUN (R164). -/
def State.clearCommand (s : State) : State × Reply :=
  ({ s with events := { s.events with overrun := false } }, .ok)

/-! ## SOFT_RESET (R143, R179) -/

/-- Every request in the table of outstanding upstream tags is answered ERROR, in arrival order, with no event; the
intake stops (R143). -/
def State.abandonUpstream (s : State) : State :=
  let s' := s.upstream.tags.foldl (fun s e => s.sendResponse e.tag .error) s
  { s' with upstream := { s'.upstream with intake := .stopped, head := none, tags := [] } }

/-- The anchor write that waits for a grant is the attach engine's. -/
def LogWriter.engineAnchor (w : LogWriter) : Bool :=
  match w.anchor with
  | none => false
  | some flight => flight.issuer = .attachEngine

/-- Transactions handed and not granted are withdrawn by their blocks' rules: capture reads (R77), restores (R98), the
attach engine's (R119). The other lists keep their contents (R157). -/
def State.withdrawHanded (s : State) : State :=
  { s with downstream := { s.downstream with
      captureList := []
      restoreList := []
      scanList := []
      anchorList := if s.log.engineAnchor then [] else s.downstream.anchorList } }

/-- The soft reset phase becomes WAITING (R179). -/
def State.enterWaiting (s : State) : State := { s with mgmt := { s.mgmt with waiting := true } }

/-- SOFT_RESET (R179). -/
def State.softResetCommand (s : State) : State × Reply := (s.abandonUpstream.withdrawHanded.enterWaiting, .ok)

/-! ## The command of a frame (R176) -/

/-- What a command does and replies. -/
def runCommand (command : FrameCommand) : State → State × Reply :=
  match command with
  | .nop => State.nopCommand
  | .status => State.statusCommand
  | .get item index => State.getCommand item index
  | .set item index value => State.setCommand item index value
  | .attach mode => State.unlessWaiting (State.attachCommand mode)
  | .detach => State.unlessWaiting State.detachCommand
  | .openEpoch ctx => State.unlessWaiting (State.openCommand ctx)
  | .commit ctx => State.unlessWaiting (State.commitCommand ctx)
  | .abort ctx => State.unlessWaiting (State.abortCommand ctx)
  | .popEvent => State.popCommand
  | .clearOverrun => State.clearCommand
  | .softReset => State.unlessWaiting State.softResetCommand

/-- What a frame's bytes do: its command, or the reply MALFORMED and nothing else (R172, log entry 16). -/
def frameRun (frame : List Byte) : State → State × Reply :=
  match frameCommand frame with
  | some command => runCommand command
  | none => fun s => (s, .malformed)

/-- `bytes` are clocked and MCS_N rises: the frame's command runs and its reply takes the buffer (R170, R171). They are
the whole frame, which does `run`, or the rest of a frame in progress. A discarded frame ends and does nothing (R174,
log entry 14). -/
def State.frame (bytes : List Byte) (run : State → State × Reply) (s : State) : State :=
  if s.takesNoFrame then
    State.shift { s with mgmt := { s.mgmt with frame := .none, assembly := [] } } (s.shiftedBytes bytes.length)
  else
    let x := match s.mgmt.frame with
      | .inProgress _ => frameRun (s.mgmt.assembly ++ bytes) s
      | _ => run s
    State.shift { x.1 with mgmt := { x.1.mgmt with frame := .none, assembly := [], reply := some x.2 } }
      (s.shiftedBytes bytes.length)

/-- A command's frame with `extra` bytes behind the command (R172). -/
def State.frameOf (s : State) (command : FrameCommand) (extra : Nat) : State :=
  s.frame (command.bytes extra) (runCommand command)

/-! ## The rows -/

/-- NOP (R175). -/
def execNop (extra : Nat) (s : State) : Host.Outcome State Fault Refusal := .next (s.frameOf .nop extra)

/-- STATUS (R175). -/
def execStatus (extra : Nat) (s : State) : Host.Outcome State Fault Refusal := .next (s.frameOf .status extra)

/-- GET (R177). -/
def execGet (item index : Byte) (extra : Nat) (s : State) : Host.Outcome State Fault Refusal :=
  .next (s.frameOf (.get item index) extra)

/-- SET (R177). -/
def execSet (item index : Byte) (value : BitVec 64) (extra : Nat) (s : State) : Host.Outcome State Fault Refusal :=
  .next (s.frameOf (.set item index value) extra)

/-- SET_REGION (R121): item code 01H (R187). -/
def execSetRegion (index : Byte) (value : BitVec 64) (extra : Nat) (s : State) : Host.Outcome State Fault Refusal :=
  .next (s.frameOf (.set 0x01 index value) extra)

/-- SET_QUOTA (R13): item code 07H (R187). -/
def execSetQuota (index : Byte) (value : BitVec 64) (extra : Nat) (s : State) : Host.Outcome State Fault Refusal :=
  .next (s.frameOf (.set 0x07 index value) extra)

/-- SET_WATERMARK (R49): item code 05H (R187). -/
def execSetWatermark (index : Byte) (value : BitVec 64) (extra : Nat) (s : State) :
    Host.Outcome State Fault Refusal :=
  .next (s.frameOf (.set 0x05 index value) extra)

/-- SET_EVENT_MASK (R165): item code 0BH (R187). -/
def execSetEventMask (index : Byte) (value : BitVec 64) (extra : Nat) (s : State) :
    Host.Outcome State Fault Refusal :=
  .next (s.frameOf (.set 0x0B index value) extra)

/-- ATTACH_FORMAT (R101, R102). -/
def execAttachFormat (mode : Byte) (extra : Nat) (s : State) : Host.Outcome State Fault Refusal :=
  .next (s.frameOf (.attach mode) extra)

/-- ATTACH_RESUME (R101, R103): mode 02H (R186). -/
def execAttachResume (extra : Nat) (s : State) : Host.Outcome State Fault Refusal :=
  .next (s.frameOf (.attach 0x02) extra)

/-- DETACH (R110). -/
def execDetach (extra : Nat) (s : State) : Host.Outcome State Fault Refusal := .next (s.frameOf .detach extra)

/-- OPEN (R5). -/
def execOpenEpoch (ctx : Byte) (extra : Nat) (s : State) : Host.Outcome State Fault Refusal :=
  .next (s.frameOf (.openEpoch ctx) extra)

/-- COMMIT (R7). -/
def execCommit (ctx : Byte) (extra : Nat) (s : State) : Host.Outcome State Fault Refusal :=
  .next (s.frameOf (.commit ctx) extra)

/-- ABORT (R8). -/
def execAbort (ctx : Byte) (extra : Nat) (s : State) : Host.Outcome State Fault Refusal :=
  .next (s.frameOf (.abort ctx) extra)

/-- POP_EVENT (R163). -/
def execPopEvent (extra : Nat) (s : State) : Host.Outcome State Fault Refusal := .next (s.frameOf .popEvent extra)

/-- CLEAR_OVERRUN (R164). -/
def execClearOverrun (extra : Nat) (s : State) : Host.Outcome State Fault Refusal :=
  .next (s.frameOf .clearOverrun extra)

/-- SOFT_RESET (R179). -/
def execSoftReset (extra : Nat) (s : State) : Host.Outcome State Fault Refusal := .next (s.frameOf .softReset extra)

/-- MALFORMED_FRAME (R172), or the first bytes of a frame that goes on (R174, log entry 14). -/
def execMalformedFrame (frame : FramePart) (s : State) : Host.Outcome State Fault Refusal :=
  match frame with
  | .ended bytes => .next (s.frame bytes (frameRun bytes))
  | .begun bytes => .next (s.beginFrame bytes)

end Sys2Proof.Machine
end

