-- ==== Sys2Proof/Machine/Resets.lean ====
section
/-! DEFINITION. The pins and the volatile reset: RST_N, PFAIL_N, VOLATILE_RESET (R114, R181, R182). -/

namespace Sys2Proof.Machine

/-- A frame in progress is discarded when RST_N is asserted (R174). -/
def FramePhase.cut (f : FramePhase) : FramePhase :=
  match f with
  | .none => .none
  | .inProgress _ => .discarded
  | .discarded => .discarded

/-- The power-on value of every piece of state (R182). The levels of PFAIL_N and MCS_N, the requests on the link, what has
been sent out, the model's own fields and the queue of commands are no state of the bridge's that RST_N resets (log
entries 1, 11, 13, 14). -/
def State.powerOn (s : State) : State :=
  { State.reset with
    upstream := { UpstreamPort.reset with link := s.upstream.link }
    mgmt := { ManagementLink.reset with frame := s.mgmt.frame.cut }
    pins := { rst := true, pfail := s.pins.pfail }
    out := s.out
    free := s.free
    pending := s.pending }

/-- POWER_ON_RESET: RST_N is asserted (R182). -/
def execPowerOnReset (s : State) : Host.Outcome State Fault Refusal := .next s.powerOn

/-- RST_N is released: a PFAIL_N held asserted starts the drain (R114, R182). -/
def State.releaseReset (s : State) : State :=
  if s.pins.rst then State.drainIfWarned { s with pins := { s.pins with rst := false } } else s

/-- RST_N_RELEASE (R182). -/
def execRstRelease (s : State) : Host.Outcome State Fault Refusal := .next s.releaseReset

/-- PFAIL_N is asserted (R114). -/
def State.assertPfail (s : State) : State := State.drainIfWarned { s with pins := { s.pins with pfail := true } }

/-- PFAIL_N_ASSERTED (R114). -/
def execPfailAsserted (s : State) : Host.Outcome State Fault Refusal := .next s.assertPfail

/-- PFAIL_N is deasserted: its level changes and nothing else (R114). -/
def State.deassertPfail (s : State) : State := { s with pins := { s.pins with pfail := false } }

/-- PFAIL_N_DEASSERTED (R114). -/
def execPfailDeasserted (s : State) : Host.Outcome State Fault Refusal := .next s.deassertPfail

/-- The soft reset value of a context record: the quota is kept (R1, R2). -/
def ContextRecord.softReset (r : ContextRecord) : ContextRecord := { ContextRecord.reset with quota := r.quota }

/-- Every block takes its soft reset values, the soft reset phase becomes NONE, and configuration is kept (R2, R33, R40,
R77, R98, R119, R143, R157, R167, R181). -/
def State.softValues (s : State) : State :=
  { s with
    contexts := s.contexts.map ContextRecord.softReset
    filter := []
    log := .reset
    hold := []
    kept := []
    due := []
    engine := Quad.all .reset
    attach := .reset
    upstream := { UpstreamPort.reset with link := s.upstream.link }
    downstream := { DownstreamPort.reset with
      order := s.downstream.order
      throttleRestore := s.downstream.throttleRestore
      throttleScan := s.downstream.throttleScan }
    events := { EventBlock.reset with mask := s.events.mask }
    mgmt := { s.mgmt with waiting := false } }

/-- The volatile reset, when a soft reset waits and the outstanding table is empty; a PFAIL_N still asserted starts the
drain (R114, R180, R181). -/
def State.volatileReset (s : State) : State :=
  if s.mgmt.waiting ∧ s.downstream.outstanding = [] then s.softValues.drainIfWarned else s

/-- VOLATILE_RESET (R181). -/
def execVolatileReset (s : State) : Host.Outcome State Fault Refusal := .next s.volatileReset

end Sys2Proof.Machine
end

