-- ==== Sys2Proof/Machine/Dispatch.lean ====
section
/-! DEFINITION. One arm for each command: the meaning of each row of spec/opcode_table.json. -/

namespace Sys2Proof.Machine

/-- The effect of a command on everything but the queue. -/
def exec (i : Instr) (s : State) : Host.Outcome State Fault Refusal :=
  match i with
  | .nop extra => Sys2Proof.Machine.execNop extra s
  | .status extra => Sys2Proof.Machine.execStatus extra s
  | .get item index extra => Sys2Proof.Machine.execGet item index extra s
  | .set item index value extra => Sys2Proof.Machine.execSet item index value extra s
  | .setRegion index value extra => Sys2Proof.Machine.execSetRegion index value extra s
  | .setQuota index value extra => Sys2Proof.Machine.execSetQuota index value extra s
  | .setWatermark index value extra => Sys2Proof.Machine.execSetWatermark index value extra s
  | .setEventMask index value extra => Sys2Proof.Machine.execSetEventMask index value extra s
  | .attachFormat mode extra => Sys2Proof.Machine.execAttachFormat mode extra s
  | .attachResume extra => Sys2Proof.Machine.execAttachResume extra s
  | .detach extra => Sys2Proof.Machine.execDetach extra s
  | .openEpoch ctx extra => Sys2Proof.Machine.execOpenEpoch ctx extra s
  | .commit ctx extra => Sys2Proof.Machine.execCommit ctx extra s
  | .abort ctx extra => Sys2Proof.Machine.execAbort ctx extra s
  | .popEvent extra => Sys2Proof.Machine.execPopEvent extra s
  | .clearOverrun extra => Sys2Proof.Machine.execClearOverrun extra s
  | .softReset extra => Sys2Proof.Machine.execSoftReset extra s
  | .malformedFrame frame => Sys2Proof.Machine.execMalformedFrame frame s
  | .powerOnReset => Sys2Proof.Machine.execPowerOnReset s
  | .rstRelease => Sys2Proof.Machine.execRstRelease s
  | .pfailAsserted => Sys2Proof.Machine.execPfailAsserted s
  | .upstreamRequest arrival => Sys2Proof.Machine.execUpstreamRequest arrival s
  | .headReclassified => Sys2Proof.Machine.execHeadReclassified s
  | .release => Sys2Proof.Machine.execRelease s
  | .captureReadHanded => Sys2Proof.Machine.execCaptureReadHanded s
  | .grant => Sys2Proof.Machine.execGrant s
  | .straightAnswer tag answer => Sys2Proof.Machine.execStraightAnswer tag answer s
  | .forwardedEntryAnswer tag answer => Sys2Proof.Machine.execForwardedEntryAnswer tag answer s
  | .captureReadAnswer tag answer => Sys2Proof.Machine.execCaptureReadAnswer tag answer s
  | .appendTake operand => Sys2Proof.Machine.execAppendTake operand s
  | .appendAnswer tag answer => Sys2Proof.Machine.execAppendAnswer tag answer s
  | .reclamationAnchorWrite => Sys2Proof.Machine.execReclamationAnchorWrite s
  | .anchorWriteAnswer tag answer => Sys2Proof.Machine.execAnchorWriteAnswer tag answer s
  | .restoreReadAnswer tag answer => Sys2Proof.Machine.execRestoreReadAnswer tag answer s
  | .restoreWriteAnswer tag answer => Sys2Proof.Machine.execRestoreWriteAnswer tag answer s
  | .scanReadAnswer tag answer => Sys2Proof.Machine.execScanReadAnswer tag answer s
  | .scanWriteAnswer tag answer => Sys2Proof.Machine.execScanWriteAnswer tag answer s
  | .strayAnswer tag answer => Sys2Proof.Machine.execStrayAnswer tag answer s
  | .cleanAnchorWrite => Sys2Proof.Machine.execCleanAnchorWrite s
  | .finalDrainAnchorWrite => Sys2Proof.Machine.execFinalDrainAnchorWrite s
  | .drained => Sys2Proof.Machine.execDrained s
  | .volatileReset => Sys2Proof.Machine.execVolatileReset s
  | .pfailDeasserted => Sys2Proof.Machine.execPfailDeasserted s

end Sys2Proof.Machine
end

