-- ==== Sys2Proof/Safety.lean ====
section
/-! DEFINITION. What counts as a legal state, in the terms the statements use: the form of the filter, the sizes of the
queues, the line lock, legal configuration, agreeing modes, and a bridge held in reset. -/

namespace Sys2Proof.Machine

/-! ## The line filter (R20, R24, R10) -/

/-- Lines strictly rising, so at most one entry a line (R24); a LOGGED entry has its record sequence (R20); an IDLE
context owns none (R10). -/
def State.filterOk (s : State) : Prop :=
  filterWf s.filter ∧ (∀ e ∈ s.filter, e.state = .logged → e.seq ≠ none) ∧
  ∀ c, (s.contexts.get c).state = .idle → ∀ e ∈ s.filter, e.owner ≠ c

/-! ## Sizes and tags (R59, R137, R148, R150, R160, R174) -/

/-- At most 32 hold entries, 16 forward entries and 32 event records; no tag held twice, on either port; at most 11 bytes in
the assembly buffer, and none outside a frame in progress. -/
def State.queuesOk (s : State) : Prop :=
  s.hold.length ≤ 32 ∧ s.downstream.forwardQueue.length ≤ 16 ∧ s.events.records.length ≤ 32 ∧
  (s.downstream.outstanding.map (·.tag)).Nodup ∧ (s.upstream.tags.map (·.tag)).Nodup ∧
  s.mgmt.assembly.length ≤ 11 ∧ (s.mgmt.frame = .none ∨ s.mgmt.frame = .discarded → s.mgmt.assembly = [])

/-! ## The line lock (R151) -/

/-- No two outstanding transactions share a line. -/
def State.locksOk (s : State) : Prop :=
  s.downstream.outstanding.Pairwise fun a b => shareLine a.lines b.lines = false

/-! ## Configuration (R13, R35, R120, R121, R153, R177) -/

/-- The configuration items, as one value: what a soft reset keeps (R181). -/
structure Configuration where
  items           : LogItems
  regions         : Vector RegionEntry 16
  quotas          : Quad Nat
  order           : List Requester
  throttleRestore : Nat
  throttleScan    : Nat
  mask            : BitVec 11
deriving DecidableEq, Repr

def State.configuration (s : State) : Configuration :=
  { items := s.items, regions := s.regions, quotas := s.contexts.map (·.quota), order := s.downstream.order,
    throttleRestore := s.downstream.throttleRestore, throttleScan := s.downstream.throttleScan,
    mask := s.events.mask }

/-- The ranges of R35. -/
def LogItems.legal (g : LogItems) : Prop :=
  g.ringBase.toNat % 0x1000 = 0 ∧ (g.sizeExp = 0 ∨ (6 ≤ g.sizeExp ∧ g.sizeExp ≤ 24)) ∧ g.anchorAddr.toNat % 0x80 = 0 ∧
  1 ≤ g.anchorStep ∧ g.anchorStep ≤ 2 ^ 24 ∧ g.watermark ≤ 2 ^ 24

/-- An entry is invalid with its reset contents, or its pages and settings are those R121 accepts. -/
def RegionEntry.legal (e : RegionEntry) : Prop :=
  e = .reset ∨ (e.valid = true ∧ e.base ≤ e.limit ∧ e.settingsOk = true)

/-- Every item holds a value that its SET accepts, or its power-on value. -/
def Configuration.legal (g : Configuration) : Prop :=
  g.items.legal ∧ (∀ i : Fin 16, (g.regions.get i).legal) ∧ (∀ c, g.quotas.get c ≤ 512) ∧
  g.order.Perm [.anchor, .append, .capture, .forward, .restore, .scan] ∧ g.throttleRestore ≤ 255 ∧
  g.throttleScan ≤ 255

/-! ## Modes (R80, R118, R135, R142, R143) -/

/-- The procedure a context in a state has (R7, R8, R81). -/
def CtxState.procedure (c : CtxState) : Procedure :=
  match c with
  | .idle => .none
  | .opened => .none
  | .committing => .commit
  | .aborting => .abort
  | .faulted => .none

/-- QUIET is asserted in DRAINED alone; the intake waits exactly when it has a head; a drain or a soft reset in its wait
keeps it STOPPED; a procedure runs for a context exactly while it is COMMITTING or ABORTING. -/
def State.modesOk (s : State) : Prop :=
  (s.attach.quiet = true ↔ s.attach.journal = .drained) ∧
  (s.upstream.head ≠ none ↔ s.upstream.intake = .waitHold ∨ s.upstream.intake = .waitForward) ∧
  (s.attach.journal = .draining ∨ s.attach.journal = .drained ∨ s.mgmt.waiting = true → s.upstream.intake = .stopped) ∧
  ∀ c, (s.engine.get c).procedure = (s.contexts.get c).state.procedure

/-! ## Reset (R182) -/

/-- While RST_N is asserted, every piece of state has its power-on value. -/
def State.resetOk (s : State) : Prop := s.pins.rst = true → s.powerOn = s

/-! ## The legal states -/

/-- What every step keeps. -/
def State.legal (s : State) : Prop :=
  s.filterOk ∧ s.queuesOk ∧ s.locksOk ∧ s.configuration.legal ∧ s.modesOk ∧ s.resetOk

end Sys2Proof.Machine
end

