-- ==== Sys2Proof/WellFormed.lean ====
section
/-! DEFINITION. The checks on a command's operands: what the spec lets a sender send. -/

namespace Sys2Proof

/-- A WRITE carries one enable and one byte per byte of its length (R133). -/
def UpRequest.wellFormed (r : UpRequest) : Bool :=
  match r.access with
  | .read => true
  | .write enables data _ => enables.length == r.length && data.length == r.length

/-- An answer carries at most the 256 bytes of the longest request (R133, R147). -/
def Answer.wellFormed (a : Answer) : Bool :=
  match a with
  | .done data => data.length ≤ 256
  | .error => true

/-- A SET row names no item that has a row of its own: REGION, WATERMARK, QUOTA, EVENT_MASK (spec/opcode_table.json,
row SET). -/
def itemHasNoRow (item : Byte) : Bool :=
  item != 0x01#8 && item != 0x05#8 && item != 0x07#8 && item != 0x0B#8

/-- A command whose operands are those of its row. -/
def Instr.wellFormed (i : Instr) : Bool :=
  match i with
  | .nop _ => true
  | .status _ => true
  | .get _ _ _ => true
  | .set item _ _ _ => itemHasNoRow item
  | .setRegion _ _ _ => true
  | .setQuota _ _ _ => true
  | .setWatermark _ _ _ => true
  | .setEventMask _ _ _ => true
  | .attachFormat mode _ => mode != 0x02#8
  | .attachResume _ => true
  | .detach _ => true
  | .openEpoch _ _ => true
  | .commit _ _ => true
  | .abort _ _ => true
  | .popEvent _ => true
  | .clearOverrun _ => true
  | .softReset _ => true
  | .malformedFrame (.ended frame) => (frameCommand frame).isNone
  | .malformedFrame (.begun _) => true
  | .powerOnReset => true
  | .rstRelease => true
  | .pfailAsserted => true
  | .upstreamRequest arrival => arrival.all UpRequest.wellFormed
  | .headReclassified => true
  | .release => true
  | .captureReadHanded => true
  | .grant => true
  | .straightAnswer _ a => a.wellFormed
  | .forwardedEntryAnswer _ a => a.wellFormed
  | .captureReadAnswer _ a => a.wellFormed
  | .appendTake _ => true
  | .appendAnswer _ a => a.wellFormed
  | .reclamationAnchorWrite => true
  | .anchorWriteAnswer _ a => a.wellFormed
  | .restoreReadAnswer _ a => a.wellFormed
  | .restoreWriteAnswer _ a => a.wellFormed
  | .scanReadAnswer _ a => a.wellFormed
  | .scanWriteAnswer _ a => a.wellFormed
  | .strayAnswer _ a => a.wellFormed
  | .cleanAnchorWrite => true
  | .finalDrainAnchorWrite => true
  | .drained => true
  | .volatileReset => true
  | .pfailDeasserted => true

end Sys2Proof
end

