-- ==== Sys2Proof/Certificates/Slice0/Obligations.lean ====
section
/-! DEFINITION. The statements for the provers, and the words they are said in. -/

/-! ## The words of the statements -/

namespace Sys2Proof

/-- The entry of the tag table for a request at a place (R137). -/
def UpRequest.tagEntry (r : UpRequest) (place : Machine.TagPlace) : Machine.TagEntry :=
  { tag := r.tag, isWrite := r.isWrite, address := r.address, length := r.length, journalTag := r.journalTag,
    place := place }

/-- The ten rows that carry an answer. -/
def answerRows (tag : BitVec 4) (a : Answer) : List Instr :=
  [.straightAnswer tag a, .forwardedEntryAnswer tag a, .captureReadAnswer tag a, .appendAnswer tag a,
   .anchorWriteAnswer tag a, .restoreReadAnswer tag a, .restoreWriteAnswer tag a, .scanReadAnswer tag a,
   .scanWriteAnswer tag a, .strayAnswer tag a]

/-- The rows that set configuration. -/
def Instr.setsConfiguration (i : Instr) : Bool :=
  match i with
  | .set _ _ _ _ => true
  | .setRegion _ _ _ => true
  | .setQuota _ _ _ => true
  | .setWatermark _ _ _ => true
  | .setEventMask _ _ _ => true
  | .powerOnReset => true
  | _ => false

end Sys2Proof

namespace Sys2Proof.Machine

/-- RST_N is released and no soft reset waits. -/
def State.working (s : State) : Prop := s.pins.rst = false ∧ s.mgmt.waiting = false

/-- A frame may begin: MCS_N is high and RST_N is released (R170, R174). -/
def State.takesFrames (s : State) : Prop := s.pins.rst = false ∧ s.mgmt.frame = .none

/-- A frame may begin and no soft reset waits. -/
def State.serving (s : State) : Prop := s.takesFrames ∧ s.mgmt.waiting = false

/-- What a frame of `n` whole bytes leaves, taken in `s`, whose command left `after` and replied `r` (R170, R171): the old
reply has been shifted out, the new one waits. -/
def State.afterFrame (s : State) (n : Nat) (after : State) (r : Reply) : State :=
  { after with
    mgmt := { after.mgmt with frame := .none, assembly := [], reply := some r }
    out := { after.out with mdo := after.out.mdo ++ [shiftedOut s.mgmt.reply n] } }

/-- The byte of a context number. -/
def ctxByte (c : Ctx) : Byte := BitVec.ofNat 8 c.val

/-- A WRITE of `data` at `a` with all its byte enables (R146). -/
def fullWrite (a : Addr) (data : List Byte) : DownRequest :=
  { address := a, length := data.length, body := .write (List.replicate data.length true) data }

/-- A READ of `n` bytes at `a`. -/
def plainRead (a : Addr) (n : Nat) : DownRequest := { address := a, length := n, body := .read }

/-- The intake will take `r` when `arrival` arrives, with `rest` left on the link: it is TAKING with no head, and `r` is
the oldest request on the link (R135). -/
def State.takesNext (s : State) (arrival : Option UpRequest) (r : UpRequest) (rest : List UpRequest) : Prop :=
  s.working ∧ s.upstream.intake = .taking ∧ s.upstream.head = none ∧ s.upstream.link ++ arrival.toList = r :: rest

/-- The request passes the form checks (R136). -/
def State.passesForm (s : State) (r : UpRequest) : Prop :=
  1 ≤ r.length ∧ r.length ≤ 256 ∧ r.address.toNat % 256 + r.length ≤ 256 ∧ ∀ e ∈ s.upstream.tags, e.tag ≠ r.tag

/-- The state once the link holds `rest`. -/
def State.linkLeft (s : State) (rest : List UpRequest) : State :=
  { s with upstream := { s.upstream with link := rest } }

/-- The state after a request was answered ERROR with one REQUEST_REFUSED event (R63, R132, R136). -/
def State.refused (s : State) (r : UpRequest) (reason : Reason) : State :=
  { s with
    out := { s.out with responses := s.out.responses ++ [⟨r.tag, .error⟩] }
    events := s.events.take { what := .requestRefused reason, context := r.journalTag, address := some r.address,
                              sequence := none, count := none } }

/-- A line of the request is hit-other (R21). -/
def State.hitsOther (s : State) (r : UpRequest) : Prop :=
  ∃ l ∈ r.lines, ∃ f, s.filterEntry l = some f ∧ r.journalTag ≠ some f.owner

/-- A line of the request is hit-own (R21). -/
def State.hitsOwn (s : State) (r : UpRequest) : Prop :=
  ∃ l ∈ r.lines, ∃ f, s.filterEntry l = some f ∧ r.journalTag = some f.owner

/-- The lines of the request that are misses (R21). -/
def State.misses (s : State) (r : UpRequest) : List Line := r.lines.filter fun l => (s.filterEntry l).isNone

/-- The quota and pool test passes (R23). -/
def State.quotaPasses (s : State) (c : Ctx) (k : Nat) : Prop :=
  k = 0 ∨ ((s.filter.filter fun e => e.owner = c).length + k ≤ (s.contexts.get c).quota ∧ k ≤ 512 - s.filter.length)

/-- The head is a WRITE of kind JOURNAL by entry `n`, and a hold place is free (R59, R138). -/
def State.journalWrite (s : State) (r : UpRequest) (n : Fin 16) : Prop :=
  r.isWrite = true ∧ s.requestKind r = some (.journal n) ∧ s.hold.length < 32

/-- A read must wait (R64). -/
def State.mustWait (s : State) (r : UpRequest) : Prop :=
  (∃ e ∈ s.hold, e.released = false ∧ ∃ l ∈ e.lines, l ∈ r.lines) ∨
  ∃ l ∈ r.lines, ∃ f, s.filterEntry l = some f ∧ (s.contexts.get f.owner).state = .aborting

/-- The transaction `o` is outstanding, and an answer to it is taken (R150, R155). -/
def State.awaits (s : State) (o : Outstanding) : Prop :=
  s.working ∧ s.downstream.outstanding.find? (fun e => e.tag = o.tag) = some o

/-- The state once an answer has removed the outstanding entry of a tag (R155). -/
def State.answered (s : State) (tag : BitVec 4) : State :=
  { s with downstream := { s.downstream with
      outstanding := s.downstream.outstanding.filter fun e => e.tag ≠ tag } }

/-- No engine of another context is waiting for what has already come about. -/
def State.othersRest (s : State) (c : Ctx) : Prop := ∀ d, d ≠ c → s.engineReady d = false

/-- The progress record an accepted ATTACH takes (R100, R101). -/
def State.acceptedProgress (s : State) (mode : AttachMode) (step : AttachStep) : AttachProgress :=
  { mode := mode, step := step, ringBase := s.items.ringBase, slots := BitVec.ofNat 32 (2 ^ s.items.sizeExp),
    anchorAddr := s.items.anchorAddr, current := none, position := 0,
    recovery := Quad.all { latest := none, finished := false, first := none }, headFound := 0, scanned := 0,
    restored := 0, failed := false }

/-- The event block once it has taken the events of a list, in order (R161). -/
def EventBlock.takeAll (b : EventBlock) (l : List Event) : EventBlock := l.foldl EventBlock.take b

/-- The REQUEST_REFUSED events of hold entries that are refused for a reason, in arrival order (R63, R74). -/
def refusals (l : List HoldEntry) (reason : Reason) : List Event :=
  l.map fun e => { what := .requestRefused reason, context := e.ctx, address := some e.request.address, sequence := none,
                   count := none }

/-- The unreleased journaled entries of a context, in arrival order (R74). -/
def State.unreleasedOf (s : State) (c : Ctx) : List HoldEntry :=
  s.hold.filter fun e => !e.released && (e.journaled && e.ctx == some c)

/-- The lines of the capture items of some entries that stand at a stage. -/
def linesAt (l : List HoldEntry) (p : Stage → Bool) : List Line :=
  l.flatMap fun e => (e.items.filter fun i => p i.stage).map (·.line)

/-- The stages of an item whose filter entry its settling removes at once (R75). -/
def Stage.dropped (p : Stage) : Bool :=
  match p with
  | .pending _ => true
  | .built _ => true
  | _ => false

/-- BUILT (R58). -/
def Stage.isBuilt (p : Stage) : Bool :=
  match p with
  | .built _ => true
  | _ => false

/-- The append requests once those for the BUILT items of some entries are withdrawn (R42, R75). -/
def State.requestsWithout (s : State) (l : List HoldEntry) : List AppendRequest :=
  s.log.requests.filter fun r =>
    match r with
    | .preImage _ x _ => !(linesAt l Stage.isBuilt).contains x
    | .marker _ _ _ _ => true

/-- The append requests once those for the BUILT items of a context's unreleased entries are withdrawn (R42, R75). -/
def State.requestsLeft (s : State) (c : Ctx) : List AppendRequest := s.requestsWithout (s.unreleasedOf c)

/-- The filter once the entries of the lines at which some hold entries have PENDING or BUILT items are removed (R29). -/
def State.filterWithout (s : State) (l : List HoldEntry) : List FilterEntry :=
  s.filter.filter fun f => !(linesAt l Stage.dropped).contains f.line

/-- The CAPTURE list once the reads handed and not granted for the items of some entries are withdrawn (R75). -/
def State.readsWithout (s : State) (l : List HoldEntry) : List Transaction :=
  s.downstream.captureList.filter fun x =>
    match x.owner with
    | .capture ref => !(linesAt l (· = .pending true)).contains ref.line
    | _ => true

/-- The READING items of some entries, each with its context, as they are kept outside the hold queue (R75). -/
def keptReads (l : List HoldEntry) : List CaptureRef :=
  l.flatMap fun e => e.ctx.toList.flatMap fun c =>
    (e.items.filter fun i => i.stage = .reading).map fun i => ⟨c, i.line⟩

/-- The entries that carry a journal tag: no other has capture items (R58). -/
def tagged (l : List HoldEntry) : List HoldEntry := l.filter fun e => e.ctx.isSome

/-- In `t` the capture items of the refused entries `l` of `s` have been settled by stage: with an item PENDING or BUILT its
filter entry is gone, and its read withdrawn if handed; an item READING is kept outside the queue; with one TAKEN or COVERED
nothing has changed (R29, R75). The requests of BUILT items are said apart. -/
def State.settledInto (s t : State) (l : List HoldEntry) : Prop :=
  t.filter = s.filterWithout (tagged l) ∧ t.kept = s.kept ++ keptReads l ∧
  t.downstream.captureList = s.readsWithout (tagged l)

/-- The upstream tags once those of some refused entries are free (R141). -/
def State.tagsWithout (s : State) (l : List HoldEntry) : List TagEntry :=
  s.upstream.tags.filter fun x => ∀ u ∈ l, x.tag ≠ u.request.tag

/-- The hold entry `e`, with the entries `before` ahead of it, is WAITING: unreleased, and blocked, or a read on a line whose
owner is ABORTING (R60, R61, R65). -/
def State.waits (s : State) (before : List HoldEntry) (e : HoldEntry) : Prop :=
  e.released = false ∧
    ((∃ x ∈ before, x.released = false ∧ ∃ l ∈ x.lines, l ∈ e.lines) ∨
      (e.request.isWrite = false ∧ ∃ l ∈ e.lines, ∃ f, s.filterEntry l = some f ∧
        (s.contexts.get f.owner).state = .aborting))

/-- The hold entry `e`, with the entries `before` ahead of it, is READY: unreleased, not WAITING, every item COVERED (R61,
R70). -/
def State.isReady (s : State) (before : List HoldEntry) (e : HoldEntry) : Prop :=
  e.released = false ∧ ¬ s.waits before e ∧ ∀ i ∈ e.items, ∃ q, i.stage = .covered q

/-- The read of the item `i` of the hold entry `e`, with the entries `before` ahead of it, may be handed: the item is PENDING
and not handed, its entry is not WAITING, and no earlier entry covers its line (R66). -/
def State.mayHand (s : State) (before : List HoldEntry) (e : HoldEntry) (i : CaptureItem) : Prop :=
  i ∈ e.items ∧ i.stage = .pending false ∧ ¬ s.waits before e ∧ ∀ x ∈ before, i.line ∉ x.lines

/-- Some item of the context and line of `ref` may be handed (R66). -/
def State.mayRead (s : State) (ref : CaptureRef) : Prop :=
  ∃ before e after i, s.hold = before ++ e :: after ∧ e.ctx = some ref.ctx ∧ i.line = ref.line ∧ s.mayHand before e i

/-- Admission refuses a WRITE of kind JOURNAL with entry `n`, for the first reason of R62 that holds. -/
def State.refusesAdmission (s : State) (r : UpRequest) (n : Fin 16) (reason : Reason) : Prop :=
  (s.attach.journal = .attaching ∧ reason = .recovering) ∨
  (s.attach.journal = .broken ∧ reason = .broken) ∨
  ((s.attach.journal = .detached ∨ s.attach.journal = .detaching) ∧ reason = .detached) ∨
  (s.attach.journal = .attached ∧ s.hitsOther r ∧ reason = .conflict) ∨
  (s.attach.journal = .attached ∧ ¬ s.hitsOther r ∧ ∃ c, r.journalTag = some c ∧
    (((s.contexts.get c).state = .faulted ∧ reason = .faulted) ∨
      ((s.contexts.get c).state = .opened ∧ (s.regions.get n).mask.getLsbD c.val = false ∧ reason = .notPermitted) ∨
      ((s.contexts.get c).state = .opened ∧ (s.regions.get n).mask.getLsbD c.val = true ∧
        ¬ s.quotaPasses c (s.misses r).length ∧ reason = .filterFull))) ∨
  (s.attach.journal = .attached ∧ ¬ s.hitsOther r ∧
    (∀ c, r.journalTag = some c → (s.contexts.get c).state ≠ .faulted ∧ (s.contexts.get c).state ≠ .opened) ∧
    (s.hitsOwn r ∨ (s.regions.get n).closed = .refuse) ∧ reason = .closed)

/-- A request is handed on and refused, its form right: MALFORMED for lines of several kinds, GUARDED, LOG_AREA, RECOVERING
(R64, R126, R129, R130, R132). -/
def State.refusesKind (s : State) (r : UpRequest) (reason : Reason) : Prop :=
  (s.requestKind r = none ∧ reason = .malformed) ∨
  (r.isWrite = true ∧ s.requestKind r = some .guard ∧ reason = .guarded) ∨
  (r.isWrite = true ∧ s.requestKind r = some .log ∧ reason = .logArea) ∨
  (r.isWrite = false ∧ (∃ n, s.requestKind r = some (.journal n)) ∧ s.attach.journal = .attaching ∧
    reason = .recovering)

/-- A request of a kind goes straight to the forward queue: a PASS write, or a read that need not wait (R64, R128). -/
def State.goesStraight (s : State) (r : UpRequest) : Prop :=
  ∃ k, s.requestKind r = some k ∧ ((r.isWrite = true ∧ k = .pass) ∨
    (r.isWrite = false ∧ ¬ s.mustWait r ∧ ((∃ n, k = .journal n) → s.attach.journal ≠ .attaching)))

/-- A request of a kind is a read that waits in the hold queue (R64). -/
def State.readWaits (s : State) (r : UpRequest) : Prop :=
  ∃ k, s.requestKind r = some k ∧ r.isWrite = false ∧ s.mustWait r ∧
    ((∃ n, k = .journal n) → s.attach.journal ≠ .attaching)

/-- The head has left the intake, which is TAKING, and its tag stands at a place (R137, R138). -/
def State.headLeaves (s : State) (r : UpRequest) (place : TagPlace) : UpstreamPort :=
  { s.upstream with
    intake := .taking
    head := none
    tags := s.upstream.tags.map fun e => if e.tag = r.tag then { e with place := place } else e }

/-- The replay list of a context holds the filter entries it owns, in descending record sequence, as distance from the
anchored tail (R89). -/
def State.replays (s : State) (c : Ctx) (l : List FilterEntry) : Prop :=
  l.Perm (s.filter.filter fun e => e.owner = c) ∧
  l.Pairwise fun a b => ∀ p q, a.seq = some p → b.seq = some q → (q - s.log.tail).toNat ≤ (p - s.log.tail).toNat

/-- The events of a journal break with its cause and sequence, in the order of R112: the refusals, the faults in ascending
context number, each with its COMMIT_DONE FAILED, JOURNAL_BROKEN, DETACH_DONE. -/
def State.breakEvents (s : State) (cause : BreakCause) (sequence : Option Seq) : List Event :=
  refusals (s.hold.filter fun e => !e.released && e.journaled) .broken ++
  (allContexts.flatMap fun c =>
    let faulted : Event := { what := .contextFaulted .journalBroken, context := some c, address := none, sequence := none,
                             count := some (s.contexts.get c).recordCount }
    match (s.contexts.get c).state with
    | .idle => []
    | .opened => [faulted]
    | .committing =>
      [faulted, { what := .commitDone .failed, context := some c, address := none,
                  sequence := some ((s.contexts.get c).epoch.setWidth 32),
                  count := some (s.contexts.get c).recordCount }]
    | .aborting => [faulted]
    | .faulted => []) ++
  [{ what := .journalBroken cause, context := none, address := none, sequence := sequence,
     count := some (allContexts.filter fun c =>
       (s.contexts.get c).state = .opened ∨ (s.contexts.get c).state = .committing ∨
       (s.contexts.get c).state = .aborting).length }] ++
  (if s.attach.journal = .detaching then
    [{ what := .detachDone .failed, context := none, address := none, sequence := none, count := none }]
  else [])

/-- The next epoch a resume's final anchor carries for one context: the greater of the anchor's and the latest epoch's
successor, compared serially as signed 24-bit numbers; of two values 2^23 apart neither is the greater by the rule, and
the model may take either (R107, log entry 9). -/
def carriesEpoch (anchored : Epoch) (r : Recovery) (e : Epoch) : Prop :=
  match r.latest with
  | none => e = anchored
  | some l =>
    if (l + 1 - anchored).toNat < 2 ^ 23 then e = l + 1
    else if 2 ^ 23 < (l + 1 - anchored).toNat then e = anchored
    else e = anchored ∨ e = l + 1

/-- `t` is `s` with the attach ended in ATTACHED with a result: the log writer's pointers loaded with a head and a
generation, the report written, ATTACH_DONE raised (R41, R100, R107, R109). The contexts are not said here. -/
def State.attaches (s : State) (result : AttachResult) (head generation : Seq) (t : State) : Prop :=
  t = { s with
    contexts := t.contexts
    attach := { s.attach with
      journal := .attached
      progress := { s.attach.progress with step := .none }
      report := { result := some result, scanned := s.attach.progress.scanned,
                  contexts := s.attach.progress.recovery.map fun r => r.latest.isSome && !r.finished,
                  restored := s.attach.progress.restored } }
    log := { s.log with
      ringSize := s.attach.progress.slots, head := head, tail := head, inFlight := [], generation := generation,
      anchor := none, logFullArmed := true, logLowArmed := true, spaceWaiter := none }
    events := s.events.take { what := .attachDone result, context := none, address := none, sequence := some head,
                              count := some s.attach.progress.restored } }

/-- `s` with the zero write of anchor copy 1 handed: stage 1 of a format goes on (R102). -/
def State.zeroesCopy1 (s : State) : State :=
  { s with
    attach := { s.attach with progress := { s.attach.progress with step := .invalidating true } }
    log := { s.log with
      anchor := some { generation := none, tail := none, issuer := .attachEngine, attaching := true } }
    downstream := { s.downstream with
      anchorList := s.downstream.anchorList ++
        [{ request := fullWrite (s.attach.progress.anchorAddr + 64) (List.replicate 64 0), owner := .anchor }] } }

/-- `s` with the first sweep write handed: stage 2 of a format begins (R102). -/
def State.beginsSweep (s : State) : State :=
  { s with
    attach := { s.attach with progress := { s.attach.progress with step := .sweeping, position := 1 } }
    downstream := { s.downstream with
      scanList := s.downstream.scanList ++
        [{ request := fullWrite s.attach.progress.ringBase (List.replicate 64 0), owner := .scan .sweeping true }] } }

/-- `s` with the anchor of a format handed: stage 3 begins (R102). -/
def State.formatsAnchor (s : State) : State :=
  { s with
    attach := { s.attach with progress := { s.attach.progress with step := .formatAnchor } }
    log := { s.log with
      anchor := some { generation := some 1, tail := some 0, issuer := .attachEngine, attaching := true } }
    downstream := { s.downstream with
      anchorList := s.downstream.anchorList ++
        [{ request := fullWrite (s.attach.progress.anchorAddr + 64)
             (anchorBytes { generation := 1, state := .active, tail := 0, nextEpochs := Quad.all 0 }),
           owner := .anchor }] } }

/-- The state once the anchor write in flight under a tag has been answered and cleared (R53, R56, R155). -/
def State.anchorAnswered (s : State) (tag : BitVec 4) : State :=
  { s.answered tag with log := { s.log with anchor := none } }

/-- `t` is `s` with step FINAL_ANCHOR begun: its progress record is `p` at that step, and the anchor write of the generation
after that of the current anchor `a` goes to the copy of its parity: ACTIVE, its tail the head found, its next epochs by
R107. -/
def State.beginsFinal (s : State) (p : AttachProgress) (a : AnchorCopy) (t : State) : Prop :=
  ∃ epochs : Quad Epoch, (∀ c, carriesEpoch (a.nextEpochs.get c) (p.recovery.get c) (epochs.get c)) ∧
    t = { s with
      attach := { s.attach with progress := { p with step := .finalAnchor } }
      log := { s.log with
        anchor := some { generation := some (a.generation + 1), tail := some p.headFound, issuer := .attachEngine,
                         attaching := true } }
      downstream := { s.downstream with
        anchorList := s.downstream.anchorList ++
          [{ request := fullWrite
               (if (a.generation + 1).getLsbD 0 = true then p.anchorAddr + 64 else p.anchorAddr)
               (anchorBytes { generation := a.generation + 1, state := .active, tail := p.headFound,
                              nextEpochs := epochs }),
             owner := .anchor }] } }

/-- `s` with the slot at the position of the progress record `p` read in a step of the attach (R104, R106). -/
def State.readsSlot (s : State) (p : AttachProgress) (step : AttachStep) : State :=
  { s with
    attach := { s.attach with progress := p }
    downstream := { s.downstream with
      scanList := s.downstream.scanList ++
        [{ request := plainRead (p.ringBase + BitVec.ofNat 40 (p.position.toNat % p.slots.toNat * 128)) 128,
           owner := .scan step false }] } }

/-- The context has an unfinished epoch: its latest epoch is present and not finished (R105). -/
def AttachProgress.leavesOpen (p : AttachProgress) (c : Ctx) : Prop :=
  (p.recovery.get c).latest ≠ none ∧ (p.recovery.get c).finished = false

/-- `t` is `s` with the scan stopped at the position of the progress record `p`, the head found: the replay begins at the
sequence before it, or, with no unfinished epoch, the final anchor (R104, R106). -/
def State.endsScan (s : State) (p : AttachProgress) (a : AnchorCopy) (t : State) : Prop :=
  ((∃ c, p.leavesOpen c) →
    t = s.readsSlot { p with headFound := p.position, step := .replaying, position := p.position - 1 } .replaying) ∧
  ((∀ c, ¬ p.leavesOpen c) → s.beginsFinal { p with headFound := p.position } a t)

/-- `t` is `s` with the sequence at the position of the progress record `p` finished: the next lower one is read, or, when
it is the least first sequence of the unfinished epochs, the final anchor begins (R106, R107). -/
def State.endsSequence (s : State) (p : AttachProgress) (a : AnchorCopy) (t : State) : Prop :=
  (p.replayEnd a.tail ≠ some p.position → t = s.readsSlot { p with position := p.position - 1 } .replaying) ∧
  (p.replayEnd a.tail = some p.position → s.beginsFinal p a t)

/-- `t` is `s` with the attach ended in DETACHED with a result and the sequence its event carries: the report written, the
log writer's pointers and the contexts as they were (R108, R109). -/
def State.failsAttach (s : State) (result : AttachResult) (sequence : Option Seq) (t : State) : Prop :=
  t = { s with
    attach := { s.attach with
      journal := .detached
      progress := { s.attach.progress with step := .none }
      report := { result := some result, scanned := s.attach.progress.scanned,
                  contexts := s.attach.progress.recovery.map fun r => r.latest.isSome && !r.finished,
                  restored := s.attach.progress.restored } }
    events := s.events.take { what := .attachDone result, context := none, address := none, sequence := sequence,
                              count := some s.attach.progress.restored } }

/-- The event of a request that failed downstream (R73, R140). -/
def downstreamFailure (a : Addr) (c : Option Ctx) : Event :=
  { what := .requestFailed, context := c, address := some a, sequence := none, count := none }

/-- The events of a fault of a context by an address: CONTEXT_FAULTED, and COMMIT_DONE FAILED after it in COMMITTING (R15,
R85). -/
def State.faultEvents (s : State) (c : Ctx) (cause : FaultCause) (a : Addr) : List Event :=
  [{ what := .contextFaulted cause, context := some c, address := some a, sequence := none,
     count := some (s.contexts.get c).recordCount }] ++
  if (s.contexts.get c).state = .committing then
    [{ what := .commitDone .failed, context := some c, address := none,
       sequence := some ((s.contexts.get c).epoch.setWidth 32), count := some (s.contexts.get c).recordCount }]
  else []

/-- The LOG_FULL event of a log writer that looks at its oldest PRE_IMAGE request in a journal state: in ATTACHED, with 4 or
fewer free slots, while LOG_FULL is armed (R43, R48). -/
def LogWriter.fullEvents (w : LogWriter) (j : JournalState) : List Event :=
  match w.requests.find? fun r => !r.isMarker with
  | some (.preImage c _ _) =>
    if j = .attached ∧ (w.ringSize - (w.head - w.tail)).toNat ≤ 4 ∧ w.logFullArmed = true then
      [{ what := .logFull, context := some c, address := none, sequence := some w.head,
         count := some (w.ringSize - (w.head - w.tail)).toNat }]
    else []
  | _ => []

/-- The LOG_LOW event of a log writer after a take: with fewer free slots than a WATERMARK that is not 0, while LOG_LOW is
armed (R49). -/
def LogWriter.lowEvents (w : LogWriter) (watermark : Nat) : List Event :=
  if watermark ≠ 0 ∧ w.logLowArmed = true ∧ (w.ringSize - (w.head - w.tail)).toNat < watermark then
    [{ what := .logLow, context := none, address := none, sequence := some w.head,
       count := some (w.ringSize - (w.head - w.tail)).toNat }]
  else []

/-- `s` with the commit of `c` completed: its filter entries released, IDLE, COMMIT_DONE COMMITTED, no procedure (R84). -/
def State.commitCompleted (s : State) (c : Ctx) : State :=
  { s with
    filter := s.filter.filter fun e => e.owner ≠ c
    contexts := s.contexts.set c { s.contexts.get c with state := .idle, firstSeq := none }
    events := s.events.take
      { what := .commitDone .committed, context := some c, address := none,
        sequence := some ((s.contexts.get c).epoch.setWidth 32), count := some (s.contexts.get c).recordCount }
    engine := s.engine.set c .reset }

/-- `s` with the rollback of `c` completed: its filter entries released, IDLE, ABORT_DONE, no procedure (R93). -/
def State.abortCompleted (s : State) (c : Ctx) : State :=
  { s with
    filter := s.filter.filter fun e => e.owner ≠ c
    contexts := s.contexts.set c { s.contexts.get c with state := .idle, firstSeq := none }
    events := s.events.take
      { what := .abortDone (if (s.engine.get c).incomplete = true then .incomplete else .rolledBack),
        context := some c, address := none, sequence := some ((s.contexts.get c).epoch.setWidth 32),
        count := some (s.engine.get c).restored }
    engine := s.engine.set c .reset }

/-- `s` with the progress record of `c` become `p` in MARKING and its marker asked for (R83, R86, R93). -/
def State.marks (s : State) (c : Ctx) (p : Progress) (kind : MarkerKind) : State :=
  { s with
    engine := s.engine.set c { p with phase := .marking }
    log := { s.log with
      requests := s.log.requests ++ [.marker kind c (s.contexts.get c).epoch p.incomplete] } }

/-- `s` with the progress record of `c` become `p` in step READ, and the slot of sequence `q` to be read (R90, R91). -/
def State.readsRecord (s : State) (c : Ctx) (p : Progress) (q : Seq) : State :=
  { s with
    engine := s.engine.set c { p with replayStep := some .read }
    downstream := { s.downstream with
      restoreList := s.downstream.restoreList ++
        [{ request := plainRead
             (s.items.ringBase + BitVec.ofNat 40 (q.toNat % s.log.ringSize.toNat * 128)) 128,
           owner := .restore c .read }] } }

/-- `t` is `s` with the rollback of `c` past COVERING: the replay of its filter entries begins with the first one's slot, or,
with none left, its ABORTED marker is asked for (R89, R90, R93). -/
def State.leavesCovering (s : State) (c : Ctx) (t : State) : Prop :=
  ((∃ f ∈ s.filter, f.owner = c) → ∃ (e : FilterEntry) (rest : List FilterEntry) (q : Seq),
    s.replays c (e :: rest) ∧ e.seq = some q ∧
    t = s.readsRecord c { s.engine.get c with phase := .replaying, replayList := e :: rest } q) ∧
  ((∀ f ∈ s.filter, f.owner ≠ c) → t = s.marks c { s.engine.get c with replayList := [] } .aborted)

/-- `s` with the filter entries of `c` that have no record removed (R30, R88). -/
def State.filterSettled (s : State) (c : Ctx) : State :=
  { s with filter := s.filter.filter fun f => !(f.owner = c ∧ f.seq = none) }

/-- `t` is `s` with the procedure of `c` past SETTLING. A commit with no record completes, one with records asks for its
marker. A rollback with no record completes; one with records waits in COVERING for an entry still CAPTURING, or goes past it
(R83, R84, R88, R89, R93). -/
def State.leavesSettling (s : State) (c : Ctx) (t : State) : Prop :=
  ((s.engine.get c).procedure = .commit →
    ((s.contexts.get c).recordCount = 0 → t = s.commitCompleted c) ∧
    ((s.contexts.get c).recordCount ≠ 0 → t = s.marks c (s.engine.get c) .commit)) ∧
  ((s.engine.get c).procedure = .abort →
    ((s.contexts.get c).recordCount = 0 → t = s.abortCompleted c) ∧
    ((s.contexts.get c).recordCount ≠ 0 →
      ((∃ f ∈ (s.filterSettled c).filter, f.owner = c ∧ f.state = .capturing) →
        t = { s.filterSettled c with engine := s.engine.set c { s.engine.get c with phase := .covering } }) ∧
      ((∀ f ∈ (s.filterSettled c).filter, f.owner = c → f.state = .logged) →
        (s.filterSettled c).leavesCovering c t)))

/-- The procedure of `c` is alone, in SETTLING, and has begun neither a replay nor a marker (R81, R82, R88). -/
def State.settlesAlone (s : State) (c : Ctx) : Prop :=
  (∀ d, d ≠ c → (s.engine.get d).procedure = .none) ∧ (s.engine.get c).phase = .settling ∧
  (s.engine.get c).replayStep = none ∧ (s.engine.get c).markerSeq = none ∧ (s.engine.get c).incomplete = false

/-- `t` is `s` with the entry at the front of the replay list of `c` finished, its progress record become `p` and `rest` left
to restore: the next one's slot is read, or, with none left, the ABORTED marker is asked for (R90 to R93). -/
def State.finishesEntry (s : State) (c : Ctx) (p : Progress) (rest : List FilterEntry) (t : State) : Prop :=
  (∀ f more q, rest = f :: more → f.seq = some q → t = s.readsRecord c { p with replayList := rest } q) ∧
  (rest = [] → t = s.marks c { p with replayList := [], replayStep := none } .aborted)

/-- The `n` bytes at an offset. -/
def bytesAt (slot : List Byte) (offset n : Nat) : List Byte := (slot.drop offset).take n

/-- A value in `n` bytes, least significant byte first (12_formats.md). -/
def leastFirst (n value : Nat) : List Byte := (List.range n).map fun i => BitVec.ofNat 8 (value / 256 ^ i)

/-- The bytes of a slot with its check field taken as zero (R183, R185). -/
def checkCleared (slot : List Byte) : List Byte := slot.take 24 ++ [0, 0, 0, 0] ++ slot.drop 28

/-- A header line of R183 with its check word. -/
def slotHeader (q : Seq) (kind ctx flags : Byte) (epoch : Epoch) (address : Addr) (check : BitVec 32) : List Byte :=
  leastFirst 4 0x9E3C57A1 ++ leastFirst 4 q.toNat ++ [kind, ctx, flags, 0] ++ leastFirst 4 epoch.toNat ++
  leastFirst 8 address.toNat ++ leastFirst 4 check.toNat ++ List.replicate 36 0

/-- An anchor copy of R184 with its check word. -/
def anchorLayout (a : AnchorCopy) (check : BitVec 32) : List Byte :=
  leastFirst 4 0x9E3CA157 ++ leastFirst 4 a.generation.toNat ++
  ([match a.state with | .clean => 0x01 | .active => 0x02, 0, 0, 0] : List Byte) ++ leastFirst 4 a.tail.toNat ++
  (allContexts.flatMap fun c => leastFirst 4 (a.nextEpochs.get c).toNat) ++ leastFirst 4 check.toNat ++
  List.replicate 28 0

/-- A value in `n` bytes, most significant byte first (12_formats.md). -/
def mostFirst (n value : Nat) : List Byte := (List.range n).map fun i => BitVec.ofNat 8 (value / 256 ^ (n - 1 - i))

/-- A byte of flags, bit 0 first; the other bits are zero. -/
def flagByte (b0 b1 b2 b3 : Bool) : Byte :=
  BitVec.ofNat 8 (b0.toNat + 2 * b1.toNat + 4 * b2.toNat + 8 * b3.toNat)

/-- The codes of R187 for the requesters. -/
def Requester.fieldCode (r : Requester) : Nat :=
  match r with
  | .anchor => 1
  | .append => 2
  | .capture => 3
  | .forward => 4
  | .restore => 5
  | .scan => 6

/-- The codes of R186 for the journal states. -/
def JournalState.replyByte (j : JournalState) : Byte :=
  match j with
  | .detached => 0x01
  | .attaching => 0x02
  | .attached => 0x03
  | .detaching => 0x04
  | .broken => 0x05
  | .draining => 0x06
  | .drained => 0x07

/-- The codes of R186 for the intake states. -/
def Intake.replyByte (i : Intake) : Byte :=
  match i with
  | .taking => 0x01
  | .waitHold => 0x02
  | .waitForward => 0x03
  | .stopped => 0x04

/-- The detail codes of ATTACH_DONE (R186). -/
def AttachResult.replyByte (r : AttachResult) : Byte :=
  match r with
  | .formatted => 0x01
  | .clean => 0x02
  | .recovered => 0x03
  | .noAnchor => 0x04
  | .failedRead => 0x05
  | .failedRestore => 0x06
  | .failedWrite => 0x07

/-- The codes of R187 for the context states. -/
def CtxState.replyByte (c : CtxState) : Byte :=
  match c with
  | .idle => 0x01
  | .opened => 0x02
  | .committing => 0x03
  | .aborting => 0x04
  | .faulted => 0x05

/-- The kind code and the detail code of an event (R186). -/
def Happening.replyBytes (h : Happening) : Byte × Byte :=
  match h with
  | .requestRefused .malformed => (0x01, 0x01)
  | .requestRefused .guarded => (0x01, 0x02)
  | .requestRefused .logArea => (0x01, 0x03)
  | .requestRefused .detached => (0x01, 0x04)
  | .requestRefused .recovering => (0x01, 0x05)
  | .requestRefused .draining => (0x01, 0x06)
  | .requestRefused .broken => (0x01, 0x07)
  | .requestRefused .notPermitted => (0x01, 0x08)
  | .requestRefused .conflict => (0x01, 0x09)
  | .requestRefused .closed => (0x01, 0x0A)
  | .requestRefused .faulted => (0x01, 0x0B)
  | .requestRefused .filterFull => (0x01, 0x0C)
  | .requestRefused .aborted => (0x01, 0x0D)
  | .requestFailed => (0x02, 0x01)
  | .contextFaulted .captureError => (0x03, 0x01)
  | .contextFaulted .forwardError => (0x03, 0x02)
  | .contextFaulted .journalBroken => (0x03, 0x03)
  | .logLow => (0x04, 0x00)
  | .logFull => (0x05, 0x00)
  | .commitDone .committed => (0x06, 0x01)
  | .commitDone .failed => (0x06, 0x02)
  | .abortDone .rolledBack => (0x07, 0x01)
  | .abortDone .incomplete => (0x07, 0x02)
  | .attachDone result => (0x08, result.replyByte)
  | .detachDone .detached => (0x09, 0x01)
  | .detachDone .failed => (0x09, 0x02)
  | .journalBroken .appendError => (0x0A, 0x01)
  | .journalBroken .anchorError => (0x0A, 0x02)
  | .drained .written => (0x0B, 0x01)
  | .drained .failed => (0x0B, 0x02)
  | .drained .skipped => (0x0B, 0x03)

/-- The status record's 24 bytes, by the table of R186. -/
def StatusRecord.layout (r : StatusRecord) : List Byte :=
  ([r.journal.replyByte, flagByte r.waiting r.pfail r.quiet r.overrun,
   match r.report.result with | none => 0x00 | some x => x.replyByte,
   flagByte r.report.contexts.c0 r.report.contexts.c1 r.report.contexts.c2 r.report.contexts.c3 +
     BitVec.ofNat 8 (16 * (allContexts.filter fun c => r.report.contexts.get c).length)] : List Byte) ++
  mostFirst 4 r.report.scanned ++ mostFirst 4 r.report.restored ++ mostFirst 4 r.logFree.toNat ++
  mostFirst 2 r.filterFree ++
  [BitVec.ofNat 8 r.holdEntries, r.intake.replyByte, BitVec.ofNat 8 r.upstreamTags, BitVec.ofNat 8 r.forwardEntries,
   BitVec.ofNat 8 r.outstanding, BitVec.ofNat 8 r.records]

/-- The 16 bytes of CTX_INFO, by the table of R187. -/
def ContextRecord.layout (r : ContextRecord) (entryCount : Nat) : List Byte :=
  [r.state.replyByte,
   flagByte r.firstSeq.isSome r.marker r.faultCause.isSome false + 16 * (match r.faultCause with
     | none => 0
     | some .captureError => 1
     | some .forwardError => 2
     | some .journalBroken => 3)] ++
  mostFirst 3 r.epoch.toNat ++ mostFirst 3 r.nextEpoch.toNat ++
  mostFirst 4 (match r.firstSeq with | none => 0 | some q => q.toNat) ++
  mostFirst 4 (r.recordCount + entryCount * 2 ^ 10 + r.quota * 2 ^ 20)

/-- The 19 bytes of a POP_EVENT reply's data, by the table of R186. -/
def Event.layout (e : Event) (left : Nat) (overrun : Bool) : List Byte :=
  [e.what.replyBytes.1, flagByte e.context.isSome e.address.isSome e.sequence.isSome e.count.isSome,
   match e.context with | none => 0x00 | some c => ctxByte c, e.what.replyBytes.2] ++
  mostFirst 5 (match e.address with | none => 0 | some a => a.toNat) ++
  mostFirst 4 (match e.sequence with | none => 0 | some q => q.toNat) ++
  mostFirst 4 (match e.count with | none => 0 | some n => n) ++
  [BitVec.ofNat 8 left, if overrun = true then 0x01 else 0x00]

/-- The reply of R4's table for OPEN. -/
def ContextRecord.openReply (r : ContextRecord) : Reply :=
  match r.state with
  | .idle => .okEpoch r.nextEpoch
  | .opened => .busy
  | .committing => .busy
  | .aborting => .busy
  | .faulted => .busy

/-- The reply of R4's table for COMMIT. -/
def ContextRecord.commitReply (r : ContextRecord) : Reply :=
  match r.state with
  | .idle => .badState
  | .opened => .okEpoch r.epoch
  | .committing => .busy
  | .aborting => .busy
  | .faulted => .badState

/-- The reply of R4's table for ABORT. -/
def ContextRecord.abortReply (r : ContextRecord) : Reply :=
  match r.state with
  | .idle => .badState
  | .opened => .okEpoch r.epoch
  | .committing => .busy
  | .aborting => .busy
  | .faulted => .okEpoch r.epoch

end Sys2Proof.Machine

open Sys2Proof Sys2Proof.Machine

/-! ## The queue and reset -/

/-- A step takes the command at the front of the queue; on an empty queue the block idles (the model's choice: log entry
2). -/
def Obligations.StepRunsTheFrontCommand : Prop :=
  (∀ (c : Instr) (rest : List Instr) (s : State),
    step { s with pending := c :: rest } = exec c { s with pending := rest }) ∧
  ∀ s : State, s.pending = [] → step s = .next s

/-- The state after reset is a legal one and holds the reset values that the state tables of the chapters give: every field
of the records of R1, R35, R39, R80, R100 and R120, and the state of R20, R58, R99, R135, R137, R148 to R154, R160 and R174.
The drain record's tail is a field of the model's (log entry 26), and no frame is in progress (log entry 1). -/
def Obligations.ResetStateHoldsTheResetValues : Prop :=
  State.reset.legal ∧
  (∀ c, State.reset.contexts.get c =
    { state := .idle, epoch := 0, nextEpoch := 0, firstSeq := none, recordCount := 0, marker := false,
      faultCause := none, quota := 128 }) ∧
  State.reset.filter = [] ∧ State.reset.hold = [] ∧
  State.reset.items = { ringBase := 0, sizeExp := 0, anchorAddr := 0, anchorStep := 64, watermark := 0 } ∧
  State.reset.log.ringSize = 0 ∧ State.reset.log.head = 0 ∧ State.reset.log.tail = 0 ∧
  State.reset.log.frontier = 0xFFFFFFFF ∧ State.reset.log.freeSlots = 0 ∧ State.reset.log.generation = 0 ∧
  State.reset.log.anchor = none ∧ State.reset.log.inFlight = [] ∧ State.reset.log.requests = [] ∧
  State.reset.log.logFullArmed = true ∧ State.reset.log.logLowArmed = true ∧
  (∀ c, State.reset.engine.get c =
    { procedure := .none, phase := .settling, markerSeq := none, replayList := [], replayStep := none, restored := 0,
      incomplete := false }) ∧
  State.reset.kept = [] ∧ State.reset.attach.journal = .detached ∧ State.reset.attach.quiet = false ∧
  State.reset.attach.progress =
    { mode := .format, step := .none, ringBase := 0, slots := 0, anchorAddr := 0, current := none, position := 0,
      recovery := Quad.all { latest := none, finished := false, first := none }, headFound := 0, scanned := 0,
      restored := 0, failed := false } ∧
  State.reset.attach.report = { result := none, scanned := 0, contexts := Quad.all false, restored := 0 } ∧
  State.reset.attach.drain =
    { origin := none, anchorError := false, finalIssued := false, detail := none, finalTail := none } ∧
  (∀ n, State.reset.regions.get n =
    { valid := false, kind := .pass, base := 0, limit := 0, mask := 0, closed := .forward }) ∧
  State.reset.upstream.intake = .taking ∧ State.reset.upstream.head = none ∧ State.reset.upstream.tags = [] ∧
  State.reset.downstream.anchorList = [] ∧ State.reset.downstream.appendList = [] ∧
  State.reset.downstream.captureList = [] ∧ State.reset.downstream.restoreList = [] ∧
  State.reset.downstream.scanList = [] ∧
  State.reset.downstream.order = [.anchor, .append, .capture, .forward, .restore, .scan] ∧
  State.reset.downstream.throttleRestore = 4 ∧ State.reset.downstream.throttleScan = 0 ∧
  State.reset.downstream.restoreCount = 0 ∧ State.reset.downstream.scanCount = 0 ∧
  State.reset.downstream.outstanding = [] ∧ State.reset.downstream.forwardQueue = [] ∧
  State.reset.events.records = [] ∧ State.reset.events.overrun = false ∧ State.reset.events.mask = 0x7FF ∧
  State.reset.mgmt = { frame := .none, assembly := [], reply := none, waiting := false } ∧ State.reset.pending = []

/-! ## What every step keeps -/

/-- Every step keeps the form of the line filter: rising lines, LOGGED entries with their sequence, none owned by an IDLE
context. -/
def Obligations.StepKeepsTheFilterForm : Prop :=
  ∀ s t : State, s.filterOk → step s = .next t → t.filterOk

/-- Every step keeps the sizes of the queues, the tags distinct on both ports, and the link's assembly buffer at no more than
11 bytes, empty outside a frame in progress. -/
def Obligations.StepKeepsTheQueueSizes : Prop :=
  ∀ s t : State, s.queuesOk → step s = .next t → t.queuesOk

/-- Every step keeps the line lock: no two outstanding transactions share a line. -/
def Obligations.StepKeepsTheLineLock : Prop :=
  ∀ s t : State, s.locksOk → step s = .next t → t.locksOk

/-- Every step keeps the configuration legal. -/
def Obligations.StepKeepsTheConfigurationLegal : Prop :=
  ∀ s t : State, s.configuration.legal → step s = .next t → t.configuration.legal

/-- Every step keeps QUIET, the intake and the journal state in agreement, and each procedure with its context's state. -/
def Obligations.StepKeepsTheModesAgreeing : Prop :=
  ∀ s t : State, s.modesOk → step s = .next t → t.modesOk

/-- While RST_N is asserted every piece of state keeps its power-on value. R182 says it of requests and frames; of the other
rows it is the model's reading (log entry 23), and so is that the requests on the link, what has been sent, the level of
PFAIL_N and a frame being discarded are none of this state (log entries 1, 11, 13, 14). -/
def Obligations.StepHoldsTheBridgeInReset : Prop :=
  ∀ s t : State, s.resetOk → step s = .next t → t.resetOk

/-- Configuration is changed by the SET rows and by RST_N alone: every other command leaves all of it. A row that ends a
frame in progress runs the command of all the frame's bytes (log entry 14): it too leaves configuration but where those
bytes are a SET. -/
def Obligations.OnlySetAndResetChangeConfiguration : Prop :=
  ∀ (i : Instr) (s t : State), i.wellFormed = true → i.setsConfiguration = false →
    (∀ n bytes, s.pins.rst = false → s.mgmt.frame = .inProgress n → frameBytes i = some bytes →
      ∀ item index v, frameCommand (s.mgmt.assembly ++ bytes) ≠ some (.set item index v)) →
    exec i s = .next t → t.configuration = s.configuration

/-- Some parts change under their own commands alone: the queue behind under none; the pins under the four pin rows; the
link's own state and what MDO has shifted under frames and resets; what has been issued downstream under GRANT; the
requests on the link under UPSTREAM_REQUEST. What has been sent out stays: it is only added to. That a reset by RST_N
keeps the requests on the link and what has been sent is the model's choice (log entries 11, 13). -/
def Obligations.EachPartChangesUnderItsOwnCommands : Prop :=
  ∀ (i : Instr) (s t : State), exec i s = .next t →
    t.pending = s.pending ∧ s.out.responses <+: t.out.responses ∧ s.out.requests <+: t.out.requests ∧
    s.out.mdo <+: t.out.mdo ∧
    (i ≠ .powerOnReset → i ≠ .rstRelease → i ≠ .pfailAsserted → i ≠ .pfailDeasserted → t.pins = s.pins) ∧
    (frameBytes i = none → (∀ part, i ≠ .malformedFrame part) → t.out.mdo = s.out.mdo ∧
      (i ≠ .powerOnReset → i ≠ .volatileReset → t.mgmt = s.mgmt)) ∧
    (i ≠ .grant → t.out.requests = s.out.requests) ∧
    ((∀ arrival, i ≠ .upstreamRequest arrival) → t.upstream.link = s.upstream.link)

/-! ## Frames -/

/-- NOP, STATUS and a malformed frame change nothing but the link: the old reply is shifted out, the new one waits. A
reply is shifted out as its code, then its data, then 00H for as long as bytes are clocked; an empty reply buffer as
00H. The codes of R186 stand in byte 0; an epoch number is 3 bytes, the status record its 24 bytes by R186's table, the
most significant byte first. -/
def Obligations.NopStatusAndMalformedReply : Prop :=
  (∀ (reply : Reply) (n : Nat), shiftedOut (some reply) n = (reply.bytes ++ List.replicate n 0).take n ∧
    shiftedOut none n = List.replicate n 0) ∧
  Reply.ok.bytes = [0x01] ∧ Reply.busy.bytes = [0x02] ∧ Reply.badState.bytes = [0x03] ∧ Reply.badRange.bytes = [0x04] ∧
  Reply.malformed.bytes = [0x05] ∧ (Reply.empty true).bytes = [0x06, 0x01] ∧ (Reply.empty false).bytes = [0x06, 0x00] ∧
  (∀ e : Epoch, (Reply.okEpoch e).bytes = 0x01 :: mostFirst 3 e.toNat) ∧
  (∀ r : StatusRecord, (Reply.okStatus r).bytes = 0x01 :: r.layout) ∧
  ∀ (s : State) (extra : Nat), s.takesFrames →
    exec (.nop extra) s = .next (s.afterFrame (1 + extra) s .ok) ∧
    exec (.status extra) s = .next (s.afterFrame (1 + extra) s (.okStatus
      { journal := s.attach.journal, waiting := s.mgmt.waiting, pfail := s.pins.pfail, quiet := s.attach.quiet,
        report := s.attach.report, logFree := s.log.ringSize - (s.log.head - s.log.tail),
        filterFree := 512 - s.filter.length, holdEntries := s.hold.length, intake := s.upstream.intake,
        upstreamTags := s.upstream.tags.length, forwardEntries := s.downstream.forwardQueue.length,
        outstanding := s.downstream.outstanding.length, records := s.events.records.length,
        overrun := s.events.overrun })) ∧
    ∀ frame : List Byte, frameCommand frame = none →
      exec (.malformedFrame (.ended frame)) s = .next (s.afterFrame frame.length s .malformed)

/-- GET returns each item as it stands and changes nothing else; an unknown code and an index out of range are refused
BAD_RANGE. The reply carries a value's 8 bytes, the most significant first, and CTX_INFO the 16 bytes of R187's table; a
region entry and an arbiter order are packed by the bits of R187. -/
def Obligations.GetReturnsEachItem : Prop :=
  (∀ v : BitVec 64, (Reply.okItem v).bytes = 0x01 :: mostFirst 8 v.toNat) ∧
  (∀ (r : ContextRecord) (entries : Nat), (Reply.okContext r entries).bytes = 0x01 :: r.layout entries) ∧
  (∀ e : RegionEntry, e.value.extractLsb' 0 28 = e.base ∧ e.value.extractLsb' 28 28 = e.limit ∧
    e.value.extractLsb' 56 2 = (match e.kind with | .pass => 0 | .guard => 1 | .journal => 2) ∧
    e.value.extractLsb' 58 4 = e.mask ∧ (e.value.getLsbD 62 = true ↔ e.closed = .refuse) ∧
    e.value.getLsbD 63 = e.valid) ∧
  (∀ a b c d e f : Requester, (orderValue [a, b, c, d, e, f]).toNat =
    a.fieldCode + 16 * (b.fieldCode + 16 * (c.fieldCode + 16 * (d.fieldCode + 16 * (e.fieldCode + 16 * f.fieldCode))))) ∧
  ∀ (s : State) (index : Byte) (extra : Nat), s.takesFrames →
    (∀ n : Fin 16, exec (.get 0x01 (BitVec.ofNat 8 n.val) extra) s =
      .next (s.afterFrame (3 + extra) s (.okItem (s.regions.get n).value))) ∧
    exec (.get 0x02 index extra) s = .next (s.afterFrame (3 + extra) s (.okItem (s.items.ringBase.setWidth 64))) ∧
    exec (.get 0x03 index extra) s = .next (s.afterFrame (3 + extra) s (.okItem (BitVec.ofNat 64 s.items.sizeExp))) ∧
    exec (.get 0x04 index extra) s = .next (s.afterFrame (3 + extra) s (.okItem (s.items.anchorAddr.setWidth 64))) ∧
    exec (.get 0x05 index extra) s =
      .next (s.afterFrame (3 + extra) s (.okItem (BitVec.ofNat 64 s.items.watermark))) ∧
    exec (.get 0x06 index extra) s =
      .next (s.afterFrame (3 + extra) s (.okItem (BitVec.ofNat 64 s.items.anchorStep))) ∧
    (∀ c : Ctx, exec (.get 0x07 (ctxByte c) extra) s =
      .next (s.afterFrame (3 + extra) s (.okItem (BitVec.ofNat 64 (s.contexts.get c).quota)))) ∧
    exec (.get 0x08 index extra) s = .next (s.afterFrame (3 + extra) s (.okItem (orderValue s.downstream.order))) ∧
    exec (.get 0x09 index extra) s =
      .next (s.afterFrame (3 + extra) s (.okItem (BitVec.ofNat 64 s.downstream.throttleRestore))) ∧
    exec (.get 0x0A index extra) s =
      .next (s.afterFrame (3 + extra) s (.okItem (BitVec.ofNat 64 s.downstream.throttleScan))) ∧
    exec (.get 0x0B index extra) s = .next (s.afterFrame (3 + extra) s (.okItem (s.events.mask.setWidth 64))) ∧
    exec (.get 0x0C index extra) s = .next (s.afterFrame (3 + extra) s (.okItem (s.log.head.setWidth 64))) ∧
    exec (.get 0x0D index extra) s = .next (s.afterFrame (3 + extra) s (.okItem (s.log.tail.setWidth 64))) ∧
    exec (.get 0x0E index extra) s = .next (s.afterFrame (3 + extra) s
      (.okItem ((s.log.ringSize - (s.log.head - s.log.tail)).setWidth 64))) ∧
    (∀ c : Ctx, exec (.get 0x0F (ctxByte c) extra) s = .next (s.afterFrame (3 + extra) s
      (.okContext (s.contexts.get c) (s.filter.filter fun e => e.owner = c).length))) ∧
    (∀ code : Byte, code = 0 ∨ 0x10 ≤ code → exec (.get code index extra) s =
      .next (s.afterFrame (3 + extra) s .badRange)) ∧
    (16 ≤ index → exec (.get 0x01 index extra) s = .next (s.afterFrame (3 + extra) s .badRange)) ∧
    (4 ≤ index → exec (.get 0x07 index extra) s = .next (s.afterFrame (3 + extra) s .badRange) ∧
      exec (.get 0x0F index extra) s = .next (s.afterFrame (3 + extra) s .badRange))

/-- SET of RING_BASE, SIZE_EXP, ANCHOR_ADDR and ANCHOR_STEP: the range first, then the journal state; an accepted value is
the item's, everything else stays. Before that, and also while a soft reset waits, a code that names no item and a CTX_INFO
index of 4 or more are refused BAD_RANGE, a read-only item BAD_STATE. -/
def Obligations.SetGeometryChecksRangeThenState : Prop :=
  (∀ (s : State) (index : Byte) (v : BitVec 64) (extra : Nat), s.serving →
    exec (.set 0x02 index v extra) s = .next (s.afterFrame (11 + extra)
      (if v.toNat < 2 ^ 40 ∧ v.toNat % 0x1000 = 0 ∧ s.attach.journal = .detached then
        { s with items := { s.items with ringBase := v.setWidth 40 } } else s)
      (if v.toNat < 2 ^ 40 ∧ v.toNat % 0x1000 = 0 then
        (if s.attach.journal = .detached then .ok else .badState) else .badRange)) ∧
    exec (.set 0x03 index v extra) s = .next (s.afterFrame (11 + extra)
      (if 6 ≤ v.toNat ∧ v.toNat ≤ 24 ∧ s.attach.journal = .detached then
        { s with items := { s.items with sizeExp := v.toNat } } else s)
      (if 6 ≤ v.toNat ∧ v.toNat ≤ 24 then
        (if s.attach.journal = .detached then .ok else .badState) else .badRange)) ∧
    exec (.set 0x04 index v extra) s = .next (s.afterFrame (11 + extra)
      (if v.toNat < 2 ^ 40 ∧ v.toNat % 0x80 = 0 ∧ s.attach.journal = .detached then
        { s with items := { s.items with anchorAddr := v.setWidth 40 } } else s)
      (if v.toNat < 2 ^ 40 ∧ v.toNat % 0x80 = 0 then
        (if s.attach.journal = .detached then .ok else .badState) else .badRange)) ∧
    exec (.set 0x06 index v extra) s = .next (s.afterFrame (11 + extra)
      (if 1 ≤ v.toNat ∧ v.toNat ≤ 0x1000000 then { s with items := { s.items with anchorStep := v.toNat } } else s)
      (if 1 ≤ v.toNat ∧ v.toNat ≤ 0x1000000 then .ok else .badRange))) ∧
  ∀ (s : State) (index : Byte) (v : BitVec 64) (extra : Nat), s.takesFrames →
    (∀ code : Byte, code = 0 ∨ 0x10 ≤ code →
      exec (.set code index v extra) s = .next (s.afterFrame (11 + extra) s .badRange)) ∧
    (∀ code : Byte, code = 0x0C ∨ code = 0x0D ∨ code = 0x0E →
      exec (.set code index v extra) s = .next (s.afterFrame (11 + extra) s .badState)) ∧
    exec (.set 0x0F index v extra) s =
      .next (s.afterFrame (11 + extra) s (if index < 4 then .badState else .badRange))

/-- SET of ARB_ORDER takes any order of the six requesters in its packing and refuses a value that names one twice or
names none; SET of a throttle takes 0 to 255; no running count changes. -/
def Obligations.SetArbiterItems : Prop :=
  ∀ (s : State) (index : Byte) (extra : Nat), s.serving →
    (∀ order : List Requester, order.Perm [.anchor, .append, .capture, .forward, .restore, .scan] →
      exec (.set 0x08 index (orderValue order) extra) s = .next (s.afterFrame (11 + extra)
        { s with downstream := { s.downstream with order := order } } .ok)) ∧
    (∀ v : BitVec 64,
      (∀ order : List Requester, order.Perm [.anchor, .append, .capture, .forward, .restore, .scan] →
        v ≠ orderValue order) →
      exec (.set 0x08 index v extra) s = .next (s.afterFrame (11 + extra) s .badRange)) ∧
    ∀ v : BitVec 64,
      exec (.set 0x09 index v extra) s = .next (s.afterFrame (11 + extra)
        (if v.toNat ≤ 255 then { s with downstream := { s.downstream with throttleRestore := v.toNat } } else s)
        (if v.toNat ≤ 255 then .ok else .badRange)) ∧
      exec (.set 0x0A index v extra) s = .next (s.afterFrame (11 + extra)
        (if v.toNat ≤ 255 then { s with downstream := { s.downstream with throttleScan := v.toNat } } else s)
        (if v.toNat ≤ 255 then .ok else .badRange))

/-- SET(REGION n): an entry with the valid bit clear takes the reset contents; a value that passes the checks of R121 is
written; both only with every context IDLE and no hold entry, else BUSY; a value that fails a check is refused
BAD_RANGE, and so is an index of 16 or more, also while a soft reset waits. A written entry reads back as the value set.
-/
def Obligations.SetRegionChecksAndWrites : Prop :=
  (∀ (s : State) (n : Fin 16) (e : RegionEntry) (extra : Nat), s.serving → e.valid = true →
    exec (.setRegion (BitVec.ofNat 8 n.val) e.value extra) s = .next (s.afterFrame (11 + extra)
      (if e.base ≤ e.limit ∧ (e.kind = .journal ∨ (e.mask = 0 ∧ e.closed = .forward)) ∧
          (∀ c, (s.contexts.get c).state = .idle) ∧ s.hold = [] then
        { s with regions := s.regions.set n.val e } else s)
      (if e.base ≤ e.limit ∧ (e.kind = .journal ∨ (e.mask = 0 ∧ e.closed = .forward)) then
        (if (∀ c, (s.contexts.get c).state = .idle) ∧ s.hold = [] then .ok else .busy) else .badRange))) ∧
  (∀ (s : State) (n : Fin 16) (v : BitVec 64) (extra : Nat), s.serving → v.getLsbD 63 = false →
    exec (.setRegion (BitVec.ofNat 8 n.val) v extra) s = .next (s.afterFrame (11 + extra)
      (if (∀ c, (s.contexts.get c).state = .idle) ∧ s.hold = [] then
        { s with regions := s.regions.set n.val .reset } else s)
      (if (∀ c, (s.contexts.get c).state = .idle) ∧ s.hold = [] then .ok else .busy))) ∧
  (∀ (s : State) (n : Fin 16) (v : BitVec 64) (extra : Nat), s.serving → v.getLsbD 63 = true →
    v.extractLsb' 56 2 = 3#2 →
    exec (.setRegion (BitVec.ofNat 8 n.val) v extra) s = .next (s.afterFrame (11 + extra) s .badRange)) ∧
  (∀ (s : State) (index : Byte) (v : BitVec 64) (extra : Nat), s.takesFrames → 16 ≤ index →
    exec (.setRegion index v extra) s = .next (s.afterFrame (11 + extra) s .badRange))

/-- SET(QUOTA n, value): above 512 BAD_RANGE whatever the context's state; in IDLE taken; in any other state BUSY; an
index of 4 or more BAD_RANGE, also while a soft reset waits. SET of WATERMARK re-arms LOG_LOW; SET of EVENT_MASK takes
the eleven enables, also while a soft reset waits, and governs ATTN_N from then on. -/
def Obligations.SetQuotaWatermarkAndEventMask : Prop :=
  (∀ (s : State) (c : Ctx) (v : BitVec 64) (extra : Nat), s.serving →
    exec (.setQuota (ctxByte c) v extra) s = .next (s.afterFrame (11 + extra)
      (if v.toNat ≤ 512 ∧ (s.contexts.get c).state = .idle then
        { s with contexts := s.contexts.set c { s.contexts.get c with quota := v.toNat } } else s)
      (if v.toNat ≤ 512 then (if (s.contexts.get c).state = .idle then .ok else .busy) else .badRange))) ∧
  ∀ (s : State) (index : Byte) (v : BitVec 64) (extra : Nat), s.takesFrames →
    (4 ≤ index → exec (.setQuota index v extra) s = .next (s.afterFrame (11 + extra) s .badRange)) ∧
    (s.mgmt.waiting = false →
      exec (.setWatermark index v extra) s = .next (s.afterFrame (11 + extra)
        (if v.toNat ≤ 0x1000000 then
          { s with items := { s.items with watermark := v.toNat }, log := { s.log with logLowArmed := true } } else s)
        (if v.toNat ≤ 0x1000000 then .ok else .badRange))) ∧
    exec (.setEventMask index v extra) s = .next (s.afterFrame (11 + extra)
      (if v.toNat < 2 ^ 11 then { s with events := { s.events with mask := v.setWidth 11 } } else s)
      (if v.toNat < 2 ^ 11 then .ok else .badRange)) ∧
    ∀ t, exec (.setEventMask index v extra) s = .next t → v.toNat < 2 ^ 11 →
      (t.events.attention = true ↔ ∃ e ∈ s.events.records, v.getLsbD (e.what.code - 1) = true)

/-! ## ATTACH and DETACH -/

/-- ATTACH is checked in three steps: the mode, the journal state, the geometry. An accepted ATTACH(FORMAT) makes the
journal ATTACHING and hands the zero write of copy 0 to the ANCHOR requester; ATTACH(RESUME) hands the read of the
anchor slot to the SCAN requester. Nothing else changes. A mode byte that names no mode is carried by ATTACH_FORMAT
(log entry 15); the zero copy in flight has no generation and no tail (log entry 21). -/
def Obligations.AttachIsCheckedThenBegins : Prop :=
  (∀ (s : State) (extra : Nat), s.serving →
    (∀ mode : Byte, mode ≠ 0x01 → mode ≠ 0x02 →
      exec (.attachFormat mode extra) s = .next (s.afterFrame (2 + extra) s .badRange)) ∧
    (s.attach.journal ≠ .detached →
      exec (.attachFormat 0x01 extra) s = .next (s.afterFrame (2 + extra) s .badState) ∧
      exec (.attachResume extra) s = .next (s.afterFrame (2 + extra) s .badState)) ∧
    (s.attach.journal = .detached →
      (s.items.sizeExp < 6 ∨ 24 < s.items.sizeExp ∨
        2 ^ 40 < s.items.ringBase.toNat + 2 ^ s.items.sizeExp * 128 ∨
        (s.items.ringBase.toNat < s.items.anchorAddr.toNat + 128 ∧
          s.items.anchorAddr.toNat < s.items.ringBase.toNat + 2 ^ s.items.sizeExp * 128)) →
      exec (.attachFormat 0x01 extra) s = .next (s.afterFrame (2 + extra) s .badRange) ∧
      exec (.attachResume extra) s = .next (s.afterFrame (2 + extra) s .badRange))) ∧
  ∀ (s : State) (extra : Nat), s.serving → s.pins.pfail = false → s.attach.journal = .detached →
    6 ≤ s.items.sizeExp → s.items.sizeExp ≤ 24 → s.items.ringBase.toNat + 2 ^ s.items.sizeExp * 128 ≤ 2 ^ 40 →
    (s.items.anchorAddr.toNat + 128 ≤ s.items.ringBase.toNat ∨
      s.items.ringBase.toNat + 2 ^ s.items.sizeExp * 128 ≤ s.items.anchorAddr.toNat) →
    exec (.attachFormat 0x01 extra) s = .next (s.afterFrame (2 + extra)
      { s with
        attach := { s.attach with
          journal := .attaching
          progress := s.acceptedProgress .format (.invalidating false) }
        log := { s.log with
          anchor := some { generation := none, tail := none, issuer := .attachEngine, attaching := true } }
        downstream := { s.downstream with
          anchorList := s.downstream.anchorList ++
            [{ request := fullWrite s.items.anchorAddr (List.replicate 64 0), owner := .anchor }] } } .ok) ∧
    exec (.attachResume extra) s = .next (s.afterFrame (2 + extra)
      { s with
        attach := { s.attach with
          journal := .attaching
          progress := s.acceptedProgress .resume .readingAnchor }
        downstream := { s.downstream with
          scanList := s.downstream.scanList ++
            [{ request := plainRead s.items.anchorAddr 128, owner := .scan .readingAnchor false }] } } .ok)

/-- DETACH: BAD_STATE outside ATTACHED, BUSY while a context is not IDLE, else the journal becomes DETACHING. -/
def Obligations.DetachNeedsEveryContextIdle : Prop :=
  ∀ (s : State) (extra : Nat), s.serving → s.pins.pfail = false →
    (s.attach.journal ≠ .attached → exec (.detach extra) s = .next (s.afterFrame (1 + extra) s .badState)) ∧
    (s.attach.journal = .attached → (∃ c, (s.contexts.get c).state ≠ .idle) →
      exec (.detach extra) s = .next (s.afterFrame (1 + extra) s .busy)) ∧
    (s.attach.journal = .attached → (∀ c, (s.contexts.get c).state = .idle) →
      exec (.detach extra) s = .next (s.afterFrame (1 + extra)
        { s with attach := { s.attach with journal := .detaching } } .ok))

/-! ## OPEN, COMMIT, ABORT -/

/-- An accepted OPEN begins a new epoch: the record as R5 gives it, the quota and everything else unchanged; the context
owns no filter entry then, since none is owned in IDLE. -/
def Obligations.OpenBeginsANewEpoch : Prop :=
  ∀ (s : State) (c : Ctx) (extra : Nat), s.serving → s.attach.journal = .attached → (s.contexts.get c).state = .idle →
    exec (.openEpoch (ctxByte c) extra) s = .next (s.afterFrame (2 + extra)
      { s with
        contexts := s.contexts.set c
          { s.contexts.get c with
            state := .opened
            epoch := (s.contexts.get c).nextEpoch
            nextEpoch := (s.contexts.get c).nextEpoch + 1
            firstSeq := none
            recordCount := 0
            marker := false
            faultCause := none } }
      (.okEpoch (s.contexts.get c).nextEpoch)) ∧
    (s.filterOk → ∀ t, exec (.openEpoch (ctxByte c) extra) s = .next t → t.entryCount c = 0)

/-- OPEN, COMMIT and ABORT are checked in three steps, with the replies of R4; a command that is not accepted changes no
state and raises no event. -/
def Obligations.ContextCommandsReplyByState : Prop :=
  ∀ (s : State) (extra : Nat), s.serving →
    (∀ b : Byte, 4 ≤ b →
      exec (.openEpoch b extra) s = .next (s.afterFrame (2 + extra) s .badRange) ∧
      exec (.commit b extra) s = .next (s.afterFrame (2 + extra) s .badRange) ∧
      exec (.abort b extra) s = .next (s.afterFrame (2 + extra) s .badRange)) ∧
    (∀ c : Ctx, s.attach.journal ≠ .attached →
      exec (.openEpoch (ctxByte c) extra) s = .next (s.afterFrame (2 + extra) s .badState) ∧
      exec (.commit (ctxByte c) extra) s = .next (s.afterFrame (2 + extra) s .badState) ∧
      exec (.abort (ctxByte c) extra) s = .next (s.afterFrame (2 + extra) s .badState)) ∧
    ∀ c : Ctx, s.attach.journal = .attached →
      (∃ t, exec (.openEpoch (ctxByte c) extra) s = .next t ∧
        t.mgmt.reply = some (s.contexts.get c).openReply ∧
        ((∀ e, (s.contexts.get c).openReply ≠ .okEpoch e) →
          t = s.afterFrame (2 + extra) s (s.contexts.get c).openReply)) ∧
      (∃ t, exec (.commit (ctxByte c) extra) s = .next t ∧
        t.mgmt.reply = some (s.contexts.get c).commitReply ∧
        ((∀ e, (s.contexts.get c).commitReply ≠ .okEpoch e) →
          t = s.afterFrame (2 + extra) s (s.contexts.get c).commitReply)) ∧
      ∃ t, exec (.abort (ctxByte c) extra) s = .next t ∧
        t.mgmt.reply = some (s.contexts.get c).abortReply ∧
        ((∀ e, (s.contexts.get c).abortReply ≠ .okEpoch e) →
          t = s.afterFrame (2 + extra) s (s.contexts.get c).abortReply)

/-- An accepted COMMIT: with journaled entries left the context is COMMITTING and waits in SETTLING; with none and no
record it completes at once; with none and records it asks for its COMMIT marker and waits in MARKING. -/
def Obligations.CommitRunsAsFarAsItCan : Prop :=
  ∀ (s : State) (c : Ctx) (extra : Nat), s.serving → s.attach.journal = .attached →
    (s.contexts.get c).state = .opened → s.othersRest c →
    (s.journaledCount c ≠ 0 →
      exec (.commit (ctxByte c) extra) s = .next (s.afterFrame (2 + extra)
        { s with
          contexts := s.contexts.set c { s.contexts.get c with state := .committing }
          engine := s.engine.set c { Progress.reset with procedure := .commit } }
        (.okEpoch (s.contexts.get c).epoch))) ∧
    (s.journaledCount c = 0 → (s.contexts.get c).recordCount = 0 →
      exec (.commit (ctxByte c) extra) s = .next (s.afterFrame (2 + extra)
        { s with
          contexts := s.contexts.set c { s.contexts.get c with state := .idle, firstSeq := none }
          filter := s.filter.filter fun e => e.owner ≠ c
          events := s.events.take
            { what := .commitDone .committed, context := some c, address := none,
              sequence := some ((s.contexts.get c).epoch.setWidth 32), count := some 0 }
          engine := s.engine.set c .reset }
        (.okEpoch (s.contexts.get c).epoch))) ∧
    (s.journaledCount c = 0 → (s.contexts.get c).recordCount ≠ 0 →
      exec (.commit (ctxByte c) extra) s = .next (s.afterFrame (2 + extra)
        { s with
          contexts := s.contexts.set c { s.contexts.get c with state := .committing }
          engine := s.engine.set c { Progress.reset with procedure := .commit, phase := .marking }
          log := { s.log with requests := s.log.requests ++ [.marker .commit c (s.contexts.get c).epoch false] } }
        (.okEpoch (s.contexts.get c).epoch)))

/-- An accepted ABORT refuses every unreleased journaled entry of the context with reason ABORTED, in arrival order, and
no other, and settles their items by stage: with an item PENDING or BUILT its filter entry goes, its read not granted or its
append request withdrawn; an item READING is kept outside the queue; TAKEN and COVERED ones are left. While a released entry,
a read or an append of the context is left the procedure waits in SETTLING with the context ABORTING. With none left the
context's entries without a record leave the filter, and with no record counted the rollback ends at once: IDLE, owning no
entry, ABORT_DONE. With records it waits in COVERING for every entry left to be LOGGED; then it replays them in descending
sequence, from the read of the first one's slot; with none left it asks for the ABORTED marker. No context without a
procedure moves. -/
def Obligations.AbortRefusesWhatIsUnreleased : Prop :=
  ∀ (s : State) (c : Ctx) (extra : Nat), s.serving → s.attach.journal = .attached →
    ((s.contexts.get c).state = .opened ∨ (s.contexts.get c).state = .faulted) →
    ∃ t, exec (.abort (ctxByte c) extra) s = .next t ∧
      t.mgmt.reply = some (.okEpoch (s.contexts.get c).epoch) ∧
      t.hold = s.hold.filter (fun e => e.released || !(e.journaled && e.ctx == some c)) ∧
      t.out.responses = s.out.responses ++ (s.unreleasedOf c).map (fun e => ⟨e.request.tag, .error⟩) ∧
      (s.events.takeAll (refusals (s.unreleasedOf c) .aborted)).records <+: t.events.records ∧
      t.kept = s.kept ++ (linesAt (s.unreleasedOf c) (· = .reading)).map (fun l => ⟨c, l⟩) ∧
      t.downstream.captureList = s.downstream.captureList.filter (fun x => match x.owner with
        | .capture ref => !(linesAt (s.unreleasedOf c) (· = .pending true)).contains ref.line
        | _ => true) ∧
      (∀ d, d ≠ c → (s.engine.get d).procedure = .none →
        t.contexts.get d = s.contexts.get d ∧ t.engine.get d = s.engine.get d) ∧
      t.attach = s.attach ∧ t.upstream.head = s.upstream.head ∧ t.upstream.intake = s.upstream.intake ∧
      t.log.head = s.log.head ∧ t.log.tail = s.log.tail ∧ t.log.inFlight = s.log.inFlight ∧
      t.downstream.outstanding = s.downstream.outstanding ∧
      t.downstream.forwardQueue = s.downstream.forwardQueue ∧ t.pins = s.pins ∧
      (s.hold.any (fun e => e.released && e.journaled && e.ctx == some c) = true ∨ s.captureReads c ≠ 0 ∨
          s.appendsUnanswered c ≠ 0 →
        t.contexts.get c = { s.contexts.get c with state := .aborting } ∧
        t.engine.get c = { Progress.reset with procedure := .abort } ∧
        ((∀ d, d ≠ c → (s.engine.get d).procedure = .none) →
          t.filter = s.filter.filter (fun f => !(linesAt (s.unreleasedOf c) Stage.dropped).contains f.line) ∧
          t.log.requests = s.requestsLeft c ∧ t.downstream.restoreList = s.downstream.restoreList)) ∧
      (s.hold.any (fun e => e.released && e.journaled && e.ctx == some c) = false → s.captureReads c = 0 →
        s.appendsUnanswered c = 0 →
        ((s.contexts.get c).recordCount = 0 →
          t.contexts.get c = { s.contexts.get c with state := .idle, firstSeq := none } ∧
          t.engine.get c = .reset ∧ (∀ f ∈ t.filter, f.owner ≠ c) ∧
          ((∀ d, d ≠ c → (s.engine.get d).procedure = .none) →
            t.log.requests = s.requestsLeft c ∧
            (s.events.takeAll (refusals (s.unreleasedOf c) .aborted ++
              [{ what := .abortDone .rolledBack, context := some c, address := none,
                 sequence := some ((s.contexts.get c).epoch.setWidth 32), count := some 0 }])).records <+:
              t.events.records)) ∧
        ((s.contexts.get c).recordCount ≠ 0 → (∀ d, d ≠ c → (s.engine.get d).procedure = .none) →
          t.contexts.get c = { s.contexts.get c with state := .aborting } ∧
          t.filter = s.filter.filter (fun f => !(linesAt (s.unreleasedOf c) Stage.dropped).contains f.line &&
            !(f.owner = c ∧ f.seq = none)) ∧
          ((∃ f ∈ t.filter, f.owner = c ∧ f.state = .capturing) →
            t.engine.get c = { Progress.reset with procedure := .abort, phase := .covering } ∧
            t.log.requests = s.requestsLeft c ∧ t.downstream.restoreList = s.downstream.restoreList) ∧
          ((∀ f ∈ t.filter, f.owner = c → f.state = .logged) →
            ((∃ f ∈ t.filter, f.owner = c) → ∃ (e : FilterEntry) (rest : List FilterEntry) (q : Seq),
              t.replays c (e :: rest) ∧ e.seq = some q ∧
              t.engine.get c = { Progress.reset with
                procedure := .abort, phase := .replaying, replayList := e :: rest, replayStep := some .read } ∧
              t.log.requests = s.requestsLeft c ∧
              t.downstream.restoreList = s.downstream.restoreList ++
                [{ request := plainRead
                     (s.items.ringBase + BitVec.ofNat 40 (q.toNat % s.log.ringSize.toNat * 128)) 128,
                   owner := .restore c .read }]) ∧
            ((∀ f ∈ t.filter, f.owner ≠ c) →
              t.engine.get c = { Progress.reset with procedure := .abort, phase := .marking } ∧
              t.log.requests = s.requestsLeft c ++ [.marker .aborted c (s.contexts.get c).epoch false] ∧
              t.downstream.restoreList = s.downstream.restoreList))))

/-! ## Events -/

/-- POP_EVENT takes the oldest record and returns it with the records left and the overrun flag, in every journal state
and while a soft reset waits; on an empty queue the reply is EMPTY and nothing changes. The reply's data are the 19 bytes of
R186's table. -/
def Obligations.PopEventTakesTheOldest : Prop :=
  (∀ (e : Event) (left : Nat) (overrun : Bool), (Reply.okEvent e left overrun).bytes = 0x01 :: e.layout left overrun) ∧
  ∀ (s : State) (extra : Nat), s.takesFrames →
    (s.events.records = [] →
      exec (.popEvent extra) s = .next (s.afterFrame (1 + extra) s (.empty s.events.overrun))) ∧
    ∀ (e : Event) (rest : List Event), s.events.records = e :: rest →
      exec (.popEvent extra) s = .next (s.afterFrame (1 + extra)
        { s with events := { s.events with records := rest } } (.okEvent e rest.length s.events.overrun))

/-- The overrun flag is set by each drop and cleared by CLEAR_OVERRUN and by both resets; CLEAR_OVERRUN changes no record,
a POP_EVENT leaves the flag. -/
def Obligations.OverrunIsSetByADropAndCleared : Prop :=
  (∀ (b : EventBlock) (e : Event), b.records.length < 32 → b.take e = { b with records := b.records ++ [e] }) ∧
  (∀ (b : EventBlock) (e : Event), 32 ≤ b.records.length → b.take e = { b with overrun := true }) ∧
  (∀ (s : State) (extra : Nat), s.takesFrames →
    exec (.clearOverrun extra) s = .next (s.afterFrame (1 + extra)
      { s with events := { s.events with overrun := false } } .ok)) ∧
  (∀ (s : State) (extra : Nat), s.takesFrames →
    ∃ t, exec (.popEvent extra) s = .next t ∧ t.events.overrun = s.events.overrun) ∧
  (∀ s : State, ∃ t, exec .powerOnReset s = .next t ∧ t.events.overrun = false) ∧
  ∀ s : State, s.mgmt.waiting = true → s.downstream.outstanding = [] →
    ∃ t, exec .volatileReset s = .next t ∧ t.events.overrun = false

/-! ## Resets and pins -/

/-- SOFT_RESET enters WAITING, stops the intake, answers every outstanding request ERROR in arrival order with no event,
and withdraws what waits for a grant; every other piece of state keeps its contents. -/
def Obligations.SoftResetStopsNewWork : Prop :=
  ∀ (s : State) (extra : Nat), s.serving →
    exec (.softReset extra) s = .next (s.afterFrame (1 + extra)
      { s with
        mgmt := { s.mgmt with waiting := true }
        upstream := { s.upstream with intake := .stopped, head := none, tags := [] }
        downstream := { s.downstream with
          captureList := []
          restoreList := []
          scanList := []
          anchorList :=
            if s.log.anchor.any (fun f => f.issuer = .attachEngine) then [] else s.downstream.anchorList }
        out := { s.out with responses := s.out.responses ++ s.upstream.tags.map fun e => ⟨e.tag, .error⟩ } } .ok)

/-- While a soft reset waits, ATTACH, DETACH, OPEN, COMMIT, ABORT, SOFT_RESET and the SET of any item but EVENT_MASK are
answered BUSY and change nothing. While RST_N is asserted, and to the end of a frame that RST_N has cut, no frame is
taken: 00H is shifted out, and nothing else changes but that the frame ends. A frame in progress fills the assembly buffer
with its first 11 bytes and shifts the old reply out; RST_N discards it, whatever follows; and when it ends uncut, its
command is that of all its bytes. That a part of a frame is a form of MALFORMED_FRAME is the model's choice (log entry
14). -/
def Obligations.FramesWhileAResetHolds : Prop :=
  (∀ (s : State) (extra : Nat), s.takesFrames → s.mgmt.waiting = true →
    (∀ mode, exec (.attachFormat mode extra) s = .next (s.afterFrame (2 + extra) s .busy)) ∧
    exec (.attachResume extra) s = .next (s.afterFrame (2 + extra) s .busy) ∧
    exec (.detach extra) s = .next (s.afterFrame (1 + extra) s .busy) ∧
    exec (.softReset extra) s = .next (s.afterFrame (1 + extra) s .busy) ∧
    (∀ b, exec (.openEpoch b extra) s = .next (s.afterFrame (2 + extra) s .busy) ∧
      exec (.commit b extra) s = .next (s.afterFrame (2 + extra) s .busy) ∧
      exec (.abort b extra) s = .next (s.afterFrame (2 + extra) s .busy)) ∧
    (∀ index v, exec (.setWatermark index v extra) s = .next (s.afterFrame (11 + extra) s .busy)) ∧
    (∀ index v, index < 4 → exec (.setQuota index v extra) s = .next (s.afterFrame (11 + extra) s .busy)) ∧
    (∀ index v, index < 16 → exec (.setRegion index v extra) s = .next (s.afterFrame (11 + extra) s .busy)) ∧
    ∀ code index v, code = 0x02 ∨ code = 0x03 ∨ code = 0x04 ∨ code = 0x06 ∨ code = 0x08 ∨ code = 0x09 ∨ code = 0x0A →
      exec (.set code index v extra) s = .next (s.afterFrame (11 + extra) s .busy)) ∧
  (∀ (i : Instr) (s : State) (frame : List Byte), frameBytes i = some frame →
    (s.pins.rst = true ∨ s.mgmt.frame = .discarded → exec i s = .next
      { s with
        mgmt := { s.mgmt with frame := .none, assembly := [] }
        out := { s.out with mdo := s.out.mdo ++ [List.replicate frame.length 0] } }) ∧
    (s.takesFrames → exec (frameInstr frame) s =
      .next (s.afterFrame frame.length (frameRun frame s).1 (frameRun frame s).2)) ∧
    ∀ n, s.pins.rst = false → s.mgmt.frame = .inProgress n → exec i s = .next
      { (frameRun (s.mgmt.assembly ++ frame) s).1 with
        mgmt := { (frameRun (s.mgmt.assembly ++ frame) s).1.mgmt with
          frame := .none, assembly := [], reply := some (frameRun (s.mgmt.assembly ++ frame) s).2 }
        out := { (frameRun (s.mgmt.assembly ++ frame) s).1.out with
          mdo := (frameRun (s.mgmt.assembly ++ frame) s).1.out.mdo ++
            [(shiftedOut s.mgmt.reply (n + frame.length)).drop n] } }) ∧
  ∀ (s : State) (bytes : List Byte),
    (s.takesFrames → s.mgmt.assembly = [] → exec (.malformedFrame (.begun bytes)) s = .next
      { s with
        mgmt := { s.mgmt with frame := .inProgress bytes.length, assembly := bytes.take 11 }
        out := { s.out with mdo := s.out.mdo ++ [shiftedOut s.mgmt.reply bytes.length] } }) ∧
    (∀ n, s.pins.rst = false → s.mgmt.frame = .inProgress n → exec (.malformedFrame (.begun bytes)) s = .next
      { s with
        mgmt := { s.mgmt with
          frame := .inProgress (n + bytes.length), assembly := (s.mgmt.assembly ++ bytes).take 11 }
        out := { s.out with
          mdo := s.out.mdo ++ [(shiftedOut s.mgmt.reply (n + bytes.length)).drop n] } }) ∧
    (s.pins.rst = true ∨ s.mgmt.frame = .discarded → exec (.malformedFrame (.begun bytes)) s = .next
      { s with
        mgmt := { s.mgmt with frame := .discarded, assembly := [] }
        out := { s.out with mdo := s.out.mdo ++ [List.replicate bytes.length 0] } }) ∧
    (s.mgmt.frame ≠ .none → ∃ t, exec .powerOnReset s = .next t ∧
      t.mgmt = { frame := .discarded, assembly := [], reply := none, waiting := false }) ∧
    (s.pins.pfail = false → s.mgmt.frame = .discarded → exec .rstRelease s = .next
      { s with pins := { s.pins with rst := false } })

/-- POWER_ON_RESET sets every piece of state to its power-on value at once, whatever the state; the level of PFAIL_N, the
requests on the link and what has been sent are not the bridge's to reset (the model's reading: log entries 1, 11, 13), and
a frame in progress is discarded to its end (log entry 14).
RST_N_RELEASE with PFAIL_N deasserted, and PFAIL_N_DEASSERTED, change the pin alone. -/
def Obligations.PowerOnResetAndPinLevels : Prop :=
  ∀ s : State,
    exec .powerOnReset s = .next
      { State.reset with
        upstream := { State.reset.upstream with link := s.upstream.link }
        mgmt := { State.reset.mgmt with frame := if s.mgmt.frame = .none then .none else .discarded }
        pins := { rst := true, pfail := s.pins.pfail }
        out := s.out
        free := s.free
        pending := s.pending } ∧
    (s.pins.pfail = false → exec .rstRelease s = .next { s with pins := { s.pins with rst := false } }) ∧
    exec .pfailDeasserted s = .next { s with pins := { s.pins with pfail := false } }

/-- PFAIL_N asserted in DETACHED, or held asserted at the release of RST_N: the bridge is DRAINED at once, QUIET asserted,
the intake STOPPED, with one DRAINED event of detail SKIPPED and no downstream traffic. Before it every unreleased entry and
then a head that waits are answered ERROR, each with its REQUEST_REFUSED DRAINING event (log entry 28), and the capture items
of the entries are settled by stage. -/
def Obligations.DrainFromDetachedEndsAtOnce : Prop :=
  (∀ (s : State) (turnedAway : List UpRequest), s.working → s.attach.journal = .detached →
    turnedAway = (s.hold.filter fun e => !e.released).map (·.request) ++ s.upstream.head.toList →
    ∃ t, exec .pfailAsserted s = .next t ∧ t.pins = { s.pins with pfail := true } ∧
      t.attach = { s.attach with
        journal := .drained
        quiet := true
        drain := { origin := some .detached, anchorError := false, finalIssued := false, detail := some .skipped,
                   finalTail := none } } ∧
      t.upstream = { s.upstream with
        intake := .stopped
        head := none
        tags := s.upstream.tags.filter fun e => ∀ r ∈ turnedAway, e.tag ≠ r.tag } ∧
      t.hold = s.hold.filter (fun e => e.released) ∧
      t.out = { s.out with responses := s.out.responses ++ turnedAway.map fun r => ⟨r.tag, .error⟩ } ∧
      t.events = s.events.takeAll (turnedAway.map (fun r =>
          { what := .requestRefused .draining, context := r.journalTag, address := some r.address, sequence := none,
            count := none }) ++
        [{ what := .drained .skipped, context := none, address := none, sequence := none, count := none }]) ∧
      t.contexts = s.contexts ∧ s.settledInto t (s.hold.filter fun e => !e.released) ∧
      (s.hold = [] → t.filter = s.filter ∧ t.kept = s.kept) ∧
      t.downstream.outstanding = s.downstream.outstanding ∧ t.downstream.anchorList = s.downstream.anchorList ∧
      t.downstream.appendList = s.downstream.appendList ∧ t.downstream.scanList = s.downstream.scanList ∧
      t.downstream.forwardQueue = s.downstream.forwardQueue ∧ t.mgmt = s.mgmt ∧ t.configuration = s.configuration) ∧
  ∀ s : State, s.pins.rst = true → s.powerOn = s → s.pins.pfail = true →
    ∃ t, exec .rstRelease s = .next t ∧ t.pins.rst = false ∧ t.attach.journal = .drained ∧ t.attach.quiet = true ∧
      t.upstream.intake = .stopped ∧
      t.events.records = [{ what := .drained .skipped, context := none, address := none, sequence := none,
                            count := none }] ∧
      t.out = s.out

/-- PFAIL_N asserted in ATTACHING, ATTACHED, DETACHING or BROKEN starts the drain: DRAINING with its origin recorded,
every unreleased entry and then the head answered ERROR with its REQUEST_REFUSED DRAINING event, the released ones kept,
their tags free, the refused entries' capture items settled by stage, the request list empty, every procedure STOPPED,
the intake STOPPED, the contexts as they were. From ATTACHING the attach stops where it stands: its SCAN and ANCHOR
transactions not yet granted are withdrawn, and an anchor write withdrawn is no longer in flight (log entry 30); from
any other state they stay. What is granted or queued to be forwarded or appended runs on. That the head is refused after
the entries is the model's order (log entry 28). -/
def Obligations.PfailStartsTheDrain : Prop :=
  ∀ s : State, s.working →
    (s.attach.journal = .attaching ∨ s.attach.journal = .attached ∨ s.attach.journal = .detaching ∨
      s.attach.journal = .broken) →
    ∃ t, exec .pfailAsserted s = .next t ∧ t.pins = { s.pins with pfail := true } ∧
      t.attach = { s.attach with
        journal := .draining
        progress := if s.attach.journal = .attaching then { s.attach.progress with step := .none }
          else s.attach.progress
        drain := { origin := some s.attach.journal, anchorError := false, finalIssued := false, detail := none,
                   finalTail := none } } ∧
      s.settledInto t (s.hold.filter fun e => !e.released) ∧
      t.downstream.scanList = (if s.attach.journal = .attaching then [] else s.downstream.scanList) ∧
      t.downstream.anchorList = (if s.attach.journal = .attaching then [] else s.downstream.anchorList) ∧
      t.log = { s.log with
        requests := []
        spaceWaiter := none
        anchor := if s.attach.journal = .attaching ∧ s.downstream.anchorList ≠ [] then none else s.log.anchor } ∧
      t.downstream.outstanding = s.downstream.outstanding ∧ t.downstream.forwardQueue = s.downstream.forwardQueue ∧
      t.downstream.appendList = s.downstream.appendList ∧ t.mgmt = s.mgmt ∧ t.configuration = s.configuration ∧
      t.hold = s.hold.filter (fun e => e.released) ∧
      t.out.responses = s.out.responses ++
        ((s.hold.filter fun e => !e.released).map (·.request) ++ s.upstream.head.toList).map
          (fun r => ⟨r.tag, .error⟩) ∧
      t.events = s.events.takeAll (refusals (s.hold.filter fun e => !e.released) .draining ++
        s.upstream.head.toList.map fun r => { what := .requestRefused .draining, context := r.journalTag,
                                              address := some r.address, sequence := none, count := none }) ∧
      t.downstream.restoreList = [] ∧
      t.upstream = { s.upstream with
        intake := .stopped
        head := none
        tags := s.upstream.tags.filter fun x =>
          ∀ r ∈ (s.hold.filter fun e => !e.released).map (·.request) ++ s.upstream.head.toList, x.tag ≠ r.tag } ∧
      t.contexts = s.contexts ∧
      ∀ c, ((s.engine.get c).procedure = .none → t.engine.get c = s.engine.get c) ∧
        ((s.engine.get c).procedure ≠ .none → (t.engine.get c).phase = .stopped)

/-- VOLATILE_RESET, once the outstanding table is empty in a soft reset's wait: every block takes its soft reset values
and configuration is kept; until then it changes nothing. The intake takes again and the journal is DETACHED; with PFAIL_N
still asserted the drain from DETACHED follows at once: DRAINED, QUIET, the intake STOPPED, and DRAINED SKIPPED the first
event of the queue. -/
def Obligations.VolatileResetKeepsConfiguration : Prop :=
  ∀ s : State,
    (s.mgmt.waiting = false ∨ s.downstream.outstanding ≠ [] → exec .volatileReset s = .next s) ∧
    (s.mgmt.waiting = true → s.downstream.outstanding = [] →
      ∃ t, exec .volatileReset s = .next t ∧ t.configuration = s.configuration ∧
        t.mgmt = { s.mgmt with waiting := false } ∧ t.pins = s.pins ∧ t.out = s.out ∧ t.free = s.free ∧
        t.pending = s.pending ∧
        (∀ c, t.contexts.get c = { State.reset.contexts.get c with quota := (s.contexts.get c).quota }) ∧
        t.filter = [] ∧ t.log = State.reset.log ∧ t.hold = [] ∧ t.kept = [] ∧ t.due = [] ∧
        t.engine = State.reset.engine ∧
        t.downstream.forwardQueue = [] ∧ t.downstream.anchorList = [] ∧ t.downstream.appendList = [] ∧
        t.downstream.captureList = [] ∧ t.downstream.restoreList = [] ∧ t.downstream.scanList = [] ∧
        t.downstream.outstanding = [] ∧ t.downstream.restoreCount = 0 ∧ t.downstream.scanCount = 0 ∧
        t.events.overrun = false ∧
        (s.pins.pfail = false → t.attach = State.reset.attach ∧ t.events.records = [] ∧
          t.upstream = { intake := .taking, head := none, link := s.upstream.link, tags := [] }) ∧
        (s.pins.pfail = true → s.pins.rst = false →
          t.attach = { State.reset.attach with
            journal := .drained
            quiet := true
            drain := { origin := some .detached, anchorError := false, finalIssued := false,
                       detail := some .skipped, finalTail := none } } ∧
          t.events.records = [{ what := .drained .skipped, context := none, address := none, sequence := none,
                                count := none }] ∧
          t.upstream = { intake := .stopped, head := none, link := s.upstream.link, tags := [] }))

/-! ## The upstream port -/

/-- A request that fails a form check is answered ERROR under its tag at once with one REQUEST_REFUSED MALFORMED
event, and nothing else changes; an intake that does not take leaves the request on the link. At hand-on, a request
whose lines differ in kind is refused MALFORMED, a WRITE of kind GUARD refused GUARDED, one of kind LOG refused
LOG_AREA, a READ of kind JOURNAL while ATTACHING refused RECOVERING: answered ERROR, its tag free again, one event,
nothing else. The arrival on the link is the model's operand (log entry 11). -/
def Obligations.RequestsAreRefusedBeforeAdmission : Prop :=
  ((∀ (s : State) (arrival : Option UpRequest) (r : UpRequest) (rest : List UpRequest), s.takesNext arrival r rest →
    (r.length = 0 ∨ 256 < r.length ∨ 256 < r.address.toNat % 256 + r.length ∨ ∃ e ∈ s.upstream.tags, e.tag = r.tag) →
    exec (.upstreamRequest arrival) s = .next ((s.linkLeft rest).refused r .malformed)) ∧
  ∀ (s : State) (arrival : Option UpRequest), ¬ s.working ∨ s.upstream.intake ≠ .taking →
    exec (.upstreamRequest arrival) s = .next (s.linkLeft (s.upstream.link ++ arrival.toList))) ∧
  ∀ (s : State) (arrival : Option UpRequest) (r : UpRequest) (rest : List UpRequest) (reason : Reason),
    s.takesNext arrival r rest → s.passesForm r →
    ((s.requestKind r = none ∧ reason = .malformed) ∨
      (r.isWrite = true ∧ s.requestKind r = some .guard ∧ reason = .guarded) ∨
      (r.isWrite = true ∧ s.requestKind r = some .log ∧ reason = .logArea) ∨
      (r.isWrite = false ∧ (∃ n, s.requestKind r = some (.journal n)) ∧ s.attach.journal = .attaching ∧
        reason = .recovering)) →
    exec (.upstreamRequest arrival) s = .next ((s.linkLeft rest).refused r reason)

/-- A PASS write, and a read that need not wait, goes to the forward queue as it came with no journal tag; its tag stands
at QUEUED. -/
def Obligations.StraightRequestJoinsTheForwardQueue : Prop :=
  ∀ (s : State) (arrival : Option UpRequest) (r : UpRequest) (rest : List UpRequest) (k : LineKind),
    s.takesNext arrival r rest → s.passesForm r → s.requestKind r = some k →
    ((r.isWrite = true ∧ k = .pass) ∨
      (r.isWrite = false ∧ ¬ s.mustWait r ∧ ((∃ n, k = .journal n) → s.attach.journal ≠ .attaching))) →
    s.downstream.forwardQueue.length < 16 →
    exec (.upstreamRequest arrival) s = .next
      { s with
        upstream := { s.upstream with link := rest, tags := s.upstream.tags ++ [r.tagEntry .queued] }
        downstream := { s.downstream with
          forwardQueue := s.downstream.forwardQueue ++
            [{ request := { address := r.address, length := r.length,
                            body := match r.access with
                              | .read => .read
                              | .write enables data _ => .write enables data },
               owner := .forward r.tag .straight }] } }

/-- While the place it needs is not free the request waits as the head: WAIT_HOLD for a JOURNAL write and a read that must
wait, WAIT_FORWARD for a PASS write and a read that goes straight on. -/
def Obligations.HeadWaitsForItsPlace : Prop :=
  ∀ (s : State) (arrival : Option UpRequest) (r : UpRequest) (rest : List UpRequest) (k : LineKind),
    s.takesNext arrival r rest → s.passesForm r → s.requestKind r = some k →
    (((r.isWrite = true ∧ ∃ n, k = .journal n) ∨
        (r.isWrite = false ∧ s.mustWait r ∧ ((∃ n, k = .journal n) → s.attach.journal ≠ .attaching))) →
      s.hold.length = 32 →
      exec (.upstreamRequest arrival) s = .next
        { s with upstream := { intake := .waitHold, head := some r, link := rest,
                               tags := s.upstream.tags ++ [r.tagEntry .head] } }) ∧
    (((r.isWrite = true ∧ k = .pass) ∨
        (r.isWrite = false ∧ ¬ s.mustWait r ∧ ((∃ n, k = .journal n) → s.attach.journal ≠ .attaching))) →
      s.downstream.forwardQueue.length = 16 →
      exec (.upstreamRequest arrival) s = .next
        { s with upstream := { intake := .waitForward, head := some r, link := rest,
                               tags := s.upstream.tags ++ [r.tagEntry .head] } })

/-- HEAD_RECLASSIFIED hands a waiting head on as a request is handed on, and changes nothing when no head waits: a head that
now meets a refusal, by its kind or by admission, is answered and its tag is free; one whose place has come free in the
forward queue joins it; a read that must wait and a JOURNAL write take a hold place that has come free, the write journaled
or not; one whose place is still not free waits on, for that place. That no change is tested for is the model's choice (log
entry 31). -/
def Obligations.WaitingHeadIsClassifiedAfresh : Prop :=
  (∀ s : State, ¬ s.working ∨ s.upstream.head = none ∨
      (s.upstream.intake ≠ .waitHold ∧ s.upstream.intake ≠ .waitForward) →
    exec .headReclassified s = .next s) ∧
  ∀ (s : State) (r : UpRequest), s.working → s.upstream.head = some r →
    (s.upstream.intake = .waitHold ∨ s.upstream.intake = .waitForward) →
    exec .headReclassified s = .next (s.handOn r) ∧
    (∀ reason, s.refusesKind r reason ∨ (∃ n, s.journalWrite r n ∧ s.refusesAdmission r n reason) →
      exec .headReclassified s = .next
        (({ s with upstream := { s.upstream with
              intake := .taking, head := none, tags := s.upstream.tags.filter fun e => e.tag ≠ r.tag } }).refused r
          reason)) ∧
    (s.goesStraight r →
      (s.downstream.forwardQueue.length < 16 → exec .headReclassified s = .next
        { s with
          upstream := s.headLeaves r .queued
          downstream := { s.downstream with
            forwardQueue := s.downstream.forwardQueue ++
              [{ request := { address := r.address, length := r.length,
                              body := match r.access with
                                | .read => .read
                                | .write enables data _ => .write enables data },
                 owner := .forward r.tag .straight }] } }) ∧
      (s.downstream.forwardQueue.length = 16 → exec .headReclassified s = .next
        { s with upstream := { s.upstream with intake := .waitForward } })) ∧
    ((s.readWaits r ∨ (r.isWrite = true ∧ ∃ n, s.requestKind r = some (.journal n))) → s.hold.length = 32 →
      exec .headReclassified s = .next { s with upstream := { s.upstream with intake := .waitHold } }) ∧
    (((s.readWaits r ∧ s.hold.length < 32) ∨
        ∃ n, s.journalWrite r n ∧ s.attach.journal = .attached ∧ ¬ s.hitsOther r ∧ ¬ s.hitsOwn r ∧
          (s.regions.get n).closed = .forward ∧
          ∀ c, r.journalTag = some c → (s.contexts.get c).state ≠ .faulted ∧ (s.contexts.get c).state ≠ .opened) →
      exec .headReclassified s = .next
        { s with
          upstream := s.headLeaves r .held
          hold := s.hold ++ [{ request := r, journaled := false, items := [], released := false }] }) ∧
    ∀ (n : Fin 16) (c : Ctx), s.journalWrite r n → s.attach.journal = .attached → r.journalTag = some c →
      (s.contexts.get c).state = .opened → ¬ s.hitsOther r → (s.regions.get n).mask.getLsbD c.val = true →
      s.quotaPasses c (s.misses r).length →
      ∃ t, exec .headReclassified s = .next t ∧
        t.hold = s.hold ++
          [{ request := r, journaled := true,
             items := (s.misses r).map fun l => { line := l, stage := .pending false }, released := false }] ∧
        (∀ l ∈ s.misses r, t.filterEntry l = some { line := l, owner := c, state := .capturing, seq := none }) ∧
        (∀ l, l ∉ s.misses r → t.filterEntry l = s.filterEntry l) ∧ t.upstream = s.headLeaves r .held ∧
        t.contexts = s.contexts ∧ t.items = s.items ∧ t.log = s.log ∧ t.kept = s.kept ∧ t.engine = s.engine ∧
        t.attach = s.attach ∧ t.regions = s.regions ∧ t.downstream = s.downstream ∧ t.events = s.events ∧
        t.mgmt = s.mgmt ∧ t.pins = s.pins ∧ t.out = s.out

/-- A write of an OPEN context in the region's mask, no line hit-other and the quota and pool test passed, is admitted
journaled: it joins the hold queue with one PENDING item for each missing line in ascending order, and each missing line
gets a CAPTURING entry of its context. -/
def Obligations.JournalWriteIsAdmittedJournaled : Prop :=
  ∀ (s : State) (arrival : Option UpRequest) (r : UpRequest) (rest : List UpRequest) (n : Fin 16) (c : Ctx),
    s.takesNext arrival r rest → s.passesForm r → s.journalWrite r n → s.attach.journal = .attached →
    r.journalTag = some c → (s.contexts.get c).state = .opened → ¬ s.hitsOther r →
    (s.regions.get n).mask.getLsbD c.val = true → s.quotaPasses c (s.misses r).length →
    ∃ t, exec (.upstreamRequest arrival) s = .next t ∧
      t.hold = s.hold ++
        [{ request := r, journaled := true,
           items := (s.misses r).map fun l => { line := l, stage := .pending false }, released := false }] ∧
      (∀ l ∈ s.misses r, t.filterEntry l = some { line := l, owner := c, state := .capturing, seq := none }) ∧
      (∀ l, l ∉ s.misses r → t.filterEntry l = s.filterEntry l) ∧
      t.upstream = { s.upstream with link := rest, tags := s.upstream.tags ++ [r.tagEntry .held] } ∧
      t.contexts = s.contexts ∧ t.items = s.items ∧ t.log = s.log ∧ t.kept = s.kept ∧ t.engine = s.engine ∧
      t.attach = s.attach ∧ t.regions = s.regions ∧ t.downstream = s.downstream ∧ t.events = s.events ∧
      t.mgmt = s.mgmt ∧ t.pins = s.pins ∧ t.out = s.out

/-- Admission refuses a JOURNAL write in the order of R62: by the journal state, CONFLICT, FAULTED, NOT_PERMITTED,
FILTER_FULL, CLOSED; a refused write changes no filter entry and takes no place. -/
def Obligations.AdmissionRefusesInOrder : Prop :=
  ∀ (s : State) (arrival : Option UpRequest) (r : UpRequest) (rest : List UpRequest) (n : Fin 16) (reason : Reason),
    s.takesNext arrival r rest → s.passesForm r → s.journalWrite r n →
    ((s.attach.journal = .attaching ∧ reason = .recovering) ∨
      (s.attach.journal = .broken ∧ reason = .broken) ∨
      ((s.attach.journal = .detached ∨ s.attach.journal = .detaching) ∧ reason = .detached) ∨
      (s.attach.journal = .attached ∧ s.hitsOther r ∧ reason = .conflict) ∨
      (s.attach.journal = .attached ∧ ¬ s.hitsOther r ∧ ∃ c, r.journalTag = some c ∧
        (((s.contexts.get c).state = .faulted ∧ reason = .faulted) ∨
          ((s.contexts.get c).state = .opened ∧ (s.regions.get n).mask.getLsbD c.val = false ∧
            reason = .notPermitted) ∨
          ((s.contexts.get c).state = .opened ∧ (s.regions.get n).mask.getLsbD c.val = true ∧
            ¬ s.quotaPasses c (s.misses r).length ∧ reason = .filterFull))) ∨
      (s.attach.journal = .attached ∧ ¬ s.hitsOther r ∧
        (∀ c, r.journalTag = some c →
          (s.contexts.get c).state ≠ .faulted ∧ (s.contexts.get c).state ≠ .opened) ∧
        (s.hitsOwn r ∨ (s.regions.get n).closed = .refuse) ∧ reason = .closed)) →
    exec (.upstreamRequest arrival) s = .next ((s.linkLeft rest).refused r reason)

/-- A write of a context that is not OPEN, or an untagged one, that meets no owned line goes into the hold queue unjournaled
under the closed action FORWARD; a read that must wait takes a hold entry. Neither changes the filter. -/
def Obligations.UnjournaledRequestIsHeld : Prop :=
  ∀ (s : State) (arrival : Option UpRequest) (r : UpRequest) (rest : List UpRequest) (k : LineKind),
    s.takesNext arrival r rest → s.passesForm r → s.requestKind r = some k → s.hold.length < 32 →
    ((∃ n, r.isWrite = true ∧ k = .journal n ∧ s.attach.journal = .attached ∧ ¬ s.hitsOther r ∧ ¬ s.hitsOwn r ∧
        (s.regions.get n).closed = .forward ∧
        ∀ c, r.journalTag = some c →
          (s.contexts.get c).state ≠ .faulted ∧ (s.contexts.get c).state ≠ .opened) ∨
      (r.isWrite = false ∧ s.mustWait r ∧ ((∃ n, k = .journal n) → s.attach.journal ≠ .attaching))) →
    exec (.upstreamRequest arrival) s = .next
      { s with
        upstream := { s.upstream with link := rest, tags := s.upstream.tags ++ [r.tagEntry .held] }
        hold := s.hold ++ [{ request := r, journaled := false, items := [], released := false }] }

/-- Lookup gives a line the kind of the lowest-numbered valid entry that covers it, PASS where none does; the log area
outranks the table while the journal is not DETACHED and the geometry is valid, and the table's kind is every other
line's, and every line's in DETACHED or while the geometry is not valid. A request's lines are those from its first
byte's to its last byte's; its kind is the one all of them have, the region entry included, and it has none when two of
them differ. -/
def Obligations.LookupTakesTheLowestCoveringEntry : Prop :=
  (∀ (regions : Vector RegionEntry 16) (l : Line) (n : Fin 16),
    ((regions.get n).valid = true ∧ (regions.get n).base ≤ l.extractLsb' 6 28 ∧
      l.extractLsb' 6 28 ≤ (regions.get n).limit) →
    (∀ m, m < n → ¬ ((regions.get m).valid = true ∧ (regions.get m).base ≤ l.extractLsb' 6 28 ∧
      l.extractLsb' 6 28 ≤ (regions.get m).limit)) →
    tableKind regions l = (match (regions.get n).kind with
      | .pass => .pass
      | .guard => .guard
      | .journal => .journal n)) ∧
  (∀ (regions : Vector RegionEntry 16) (l : Line),
    (∀ m, ¬ ((regions.get m).valid = true ∧ (regions.get m).base ≤ l.extractLsb' 6 28 ∧
      l.extractLsb' 6 28 ≤ (regions.get m).limit)) →
    tableKind regions l = .pass) ∧
  (∀ (r : UpRequest) (l : Line), 1 ≤ r.length → r.address.toNat % 256 + r.length ≤ 256 →
    (l ∈ r.lines ↔ r.address.toNat / 64 ≤ l.toNat ∧ l.toNat ≤ (r.address.toNat + r.length - 1) / 64)) ∧
  (∀ (s : State) (r : UpRequest) (k : LineKind), s.requestKind r = some k ↔ ∀ l ∈ r.lines, s.lineKind l = k) ∧
  (∀ (s : State) (r : UpRequest), s.requestKind r = none ↔
    ∃ l ∈ r.lines, ∃ m ∈ r.lines, s.lineKind l ≠ s.lineKind m) ∧
  ∀ (s : State) (l : Line),
    (s.attach.journal = .detached ∨ s.items.valid = false → s.lineKind l = tableKind s.regions l) ∧
    (s.attach.journal ≠ .detached → s.items.valid = true →
      (((s.items.ringBase.toNat ≤ l.toNat * 64 ∧
          l.toNat * 64 < s.items.ringBase.toNat + 2 ^ s.items.sizeExp * 128) ∨
        (s.items.anchorAddr.toNat ≤ l.toNat * 64 ∧ l.toNat * 64 < s.items.anchorAddr.toNat + 128)) →
        s.lineKind l = .log) ∧
      (¬ ((s.items.ringBase.toNat ≤ l.toNat * 64 ∧
          l.toNat * 64 < s.items.ringBase.toNat + 2 ^ s.items.sizeExp * 128) ∨
        (s.items.anchorAddr.toNat ≤ l.toNat * 64 ∧ l.toNat * 64 < s.items.anchorAddr.toNat + 128)) →
        s.lineKind l = tableKind s.regions l)) ∧
    (s.items.valid = true ↔
      6 ≤ s.items.sizeExp ∧ s.items.sizeExp ≤ 24 ∧
      s.items.ringBase.toNat + 2 ^ s.items.sizeExp * 128 ≤ 2 ^ 40 ∧
      (s.items.anchorAddr.toNat + 128 ≤ s.items.ringBase.toNat ∨
        s.items.ringBase.toNat + 2 ^ s.items.sizeExp * 128 ≤ s.items.anchorAddr.toNat))

/-! ## The hold queue -/

/-- RELEASE: the oldest READY entry is FORWARDED and joins the forward queue, source HELD, as it came with no journal tag;
nothing else but the order of handing conditions changes. With no READY entry, or no free forward place, nothing changes. -/
def Obligations.ReleaseForwardsTheOldestReady : Prop :=
  (∀ s : State, 16 ≤ s.downstream.forwardQueue.length ∨
    (∀ before e after, s.hold = before ++ e :: after → ¬ s.isReady before e) → exec .release s = .next s) ∧
  ∀ (s : State) (before after : List HoldEntry) (e : HoldEntry), s.working →
    s.downstream.forwardQueue.length < 16 → s.hold = before ++ e :: after →
    (∀ early x late, before = early ++ x :: late → ¬ s.isReady early x) →
    e.released = false → (∀ x ∈ before, x.released = true ∨ ∀ l ∈ x.lines, l ∉ e.lines) →
    (e.request.isWrite = false → ∀ l ∈ e.lines, ∀ f, s.filterEntry l = some f →
      (s.contexts.get f.owner).state ≠ .aborting) →
    (∀ i ∈ e.items, ∃ q, i.stage = .covered q) →
    ∃ t, exec .release s = .next t ∧ t.hold = before ++ { e with released := true } :: after ∧
      t.downstream = { s.downstream with
        forwardQueue := s.downstream.forwardQueue ++
          [{ request := { address := e.request.address, length := e.request.length,
                          body := match e.request.access with
                            | .read => .read
                            | .write enables data _ => .write enables data },
             owner := .forward e.request.tag .held }] } ∧
      t.contexts = s.contexts ∧ t.filter = s.filter ∧ t.items = s.items ∧ t.log = s.log ∧ t.kept = s.kept ∧
      t.engine = s.engine ∧ t.attach = s.attach ∧ t.regions = s.regions ∧ t.upstream = s.upstream ∧
      t.events = s.events ∧ t.mgmt = s.mgmt ∧ t.pins = s.pins ∧ t.out = s.out

/-- The release law: what RELEASE adds to the forward queue is the request of an entry, as it came with no journal tag, that
no earlier unreleased entry blocks and every one of whose new lines has its record at stage COVERED; and no command gives a
capture item that stage but while its record lies at or below the durable frontier. -/
def Obligations.ReleaseWaitsForTheDurableFrontier : Prop :=
  (∀ s t : State, exec .release s = .next t →
    t = s ∨ ∃ before e after, s.hold = before ++ e :: after ∧ e.released = false ∧
      (∀ x ∈ before, x.released = true ∨ ∀ l ∈ x.lines, l ∉ e.lines) ∧
      (∀ i ∈ e.items, ∃ q, i.stage = .covered q) ∧
      t.hold = before ++ { e with released := true } :: after ∧
      t.downstream.forwardQueue = s.downstream.forwardQueue ++
        [{ request := { address := e.request.address, length := e.request.length,
                        body := match e.request.access with
                          | .read => .read
                          | .write enables data _ => .write enables data },
           owner := .forward e.request.tag .held }]) ∧
  ∀ (i : Instr) (s t : State), exec i s = .next t → ∀ e ∈ t.hold, ∀ x ∈ e.items, ∀ q, x.stage = .covered q →
    ∃ d ∈ s.hold, d.request = e.request ∧
      (x ∈ d.items ∨ (t.log.covers q = true ∧ { x with stage := .taken q } ∈ d.items))

/-- CAPTURE_READ_HANDED: a capture item is handed only while it is PENDING and not handed, its entry is not WAITING and
no earlier entry covers its line: so no pre-image is read before an earlier write to the line has answered. Of the items
that may be handed, the one whose conditions came to hold first has its 64-byte pre-image read handed to the CAPTURE
requester, and is marked handed; where none is noted yet, the first in the order of the entries and of the lines.
Nothing else but the order of handing conditions changes. With no such item, and while a reset holds, nothing changes.
The order is a field of the model's (log entry 25). -/
def Obligations.CaptureReadIsHandedInOrder : Prop :=
  (∀ s : State, ¬ s.working ∨ (∀ ref, ¬ s.mayRead ref) → exec .captureReadHanded s = .next s) ∧
  ∀ (s : State) (ref : CaptureRef), s.working → s.mayRead ref →
    ((∃ gone rest, s.due = gone ++ ref :: rest ∧ ∀ x ∈ gone, ¬ s.mayRead x) ∨
      ((∀ x ∈ s.due, ¬ s.mayRead x) ∧ ∃ before e after i earlier later, s.hold = before ++ e :: after ∧
        e.ctx = some ref.ctx ∧ e.items = earlier ++ i :: later ∧ i.line = ref.line ∧ s.mayHand before e i ∧
        (∀ j ∈ earlier, ¬ s.mayHand before e j) ∧
        ∀ b x a j, before = b ++ x :: a → x.ctx ≠ none → ¬ s.mayHand b x j)) →
    ∃ t, exec .captureReadHanded s = .next t ∧
      t.downstream = { s.downstream with
        captureList := s.downstream.captureList ++
          [{ request := plainRead (ref.line ++ 0#6) 64, owner := .capture ref }] } ∧
      t.hold = s.hold.map (fun e => { e with
        items := e.items.map fun i => if i.line = ref.line then { i with stage := .pending true } else i }) ∧
      t.contexts = s.contexts ∧ t.filter = s.filter ∧ t.items = s.items ∧ t.log = s.log ∧ t.kept = s.kept ∧
      t.engine = s.engine ∧ t.attach = s.attach ∧ t.regions = s.regions ∧ t.upstream = s.upstream ∧
      t.events = s.events ∧ t.mgmt = s.mgmt ∧ t.pins = s.pins ∧ t.out = s.out

/-! ## The arbiter -/

/-- GRANT: the highest-ranked requester whose head is not line-locked is granted the lowest free tag: its head leaves
its list, an outstanding entry with its lines is made, the request is issued; a STRAIGHT entry's tag stands at ISSUED, a
capture item is READING. Without a free tag nothing changes. The ranking in force is the configured order with every
throttled requester moved to the bottom; RESTORE and SCAN alone are throttled, while their counts are above 0. The grant
of a sweep write while the format sweeps hands the zero write of the slot at the position, which rises by one, until
every slot has had its own (log entry 17); after any other grant the SCAN list too is what is left of it. Grants are
made so in every journal state, in DRAINED too: there that is the model's choice, since R118 and the end of R156 say
that the port issues nothing more (log entry 32). -/
def Obligations.GrantGoesToTheHighestRankedEligible : Prop :=
  ((∀ (s : State) (tag : BitVec 4) (above below : List Requester) (r : Requester) (x : Transaction)
      (queue : List Transaction), s.working →
    (∀ o ∈ s.downstream.outstanding, o.tag ≠ tag) →
    (∀ u, u < tag → ∃ o ∈ s.downstream.outstanding, o.tag = u) →
    s.downstream.ranking = above ++ r :: below →
    (∀ u ∈ above, ∀ y rest, s.downstream.waiting u = y :: rest →
      ∃ o ∈ s.downstream.outstanding, ∃ l ∈ o.lines, l ∈ y.request.lines) →
    s.downstream.waiting r = x :: queue →
    (∀ o ∈ s.downstream.outstanding, ∀ l ∈ o.lines, l ∉ x.request.lines) →
    ∃ t, exec .grant s = .next t ∧
      t.downstream.outstanding = s.downstream.outstanding ++
        [{ tag := tag, owner := x.owner, lines := x.request.lines }] ∧
      t.out.requests = s.out.requests ++ [{ tag := tag, request := x.request }] ∧
      t.out.responses = s.out.responses ∧
      (∀ u, u ≠ .scan → t.downstream.waiting u = if u = r then queue else s.downstream.waiting u) ∧
      ((∃ isWrite, x.owner = .scan .sweeping isWrite) → s.attach.journal = .attaching →
        s.attach.progress.step = .sweeping → s.attach.progress.failed = false →
        s.attach.progress.position.toNat < s.attach.progress.slots.toNat →
        t.downstream.scanList = (if r = .scan then queue else s.downstream.scanList) ++
          [{ request := fullWrite (s.attach.progress.ringBase +
               BitVec.ofNat 40 (s.attach.progress.position.toNat * 128)) (List.replicate 64 0),
             owner := .scan .sweeping true }] ∧
        t.attach = { s.attach with progress := { s.attach.progress with
          position := s.attach.progress.position + 1 } }) ∧
      ((∀ isWrite, x.owner ≠ .scan .sweeping isWrite) ∨ s.attach.journal ≠ .attaching ∨
          s.attach.progress.step ≠ .sweeping ∨
          s.attach.progress.slots.toNat ≤ s.attach.progress.position.toNat →
        t.downstream.scanList = (if r = .scan then queue else s.downstream.scanList) ∧ t.attach = s.attach) ∧
      t.downstream.restoreCount = (if r = .restore then s.downstream.throttleRestore
        else s.downstream.restoreCount - 1) ∧
      t.downstream.scanCount = (if r = .scan then s.downstream.throttleScan else s.downstream.scanCount - 1) ∧
      (∀ u, x.owner = .forward u .straight → t.upstream.tags =
        s.upstream.tags.map fun e => if e.tag = u then { e with place := .issued } else e) ∧
      (∀ ref, x.owner = .capture ref → t.hold = s.hold.map fun e => { e with
        items := e.items.map fun i => if i.line = ref.line then { i with stage := .reading } else i }) ∧
      ((∀ u, x.owner ≠ .forward u .straight) → t.upstream = s.upstream) ∧
      ((∀ ref, x.owner ≠ .capture ref) → t.hold = s.hold) ∧
      t.contexts = s.contexts ∧ t.filter = s.filter ∧ t.log = s.log ∧ t.engine = s.engine ∧ t.events = s.events ∧
      t.kept = s.kept ∧ t.mgmt = s.mgmt ∧ t.pins = s.pins ∧ t.configuration = s.configuration) ∧
  ∀ s : State, (∀ u : BitVec 4, ∃ o ∈ s.downstream.outstanding, o.tag = u) → exec .grant s = .next s) ∧
  ∀ d : DownstreamPort,
    (d.restoreCount = 0 → d.scanCount = 0 → d.ranking = d.order) ∧
    (0 < d.restoreCount → d.scanCount = 0 →
      d.ranking = d.order.filter (fun r => r ≠ .restore) ++ d.order.filter (fun r => r = .restore)) ∧
    (d.restoreCount = 0 → 0 < d.scanCount →
      d.ranking = d.order.filter (fun r => r ≠ .scan) ++ d.order.filter (fun r => r = .scan)) ∧
    (0 < d.restoreCount → 0 < d.scanCount →
      d.ranking = d.order.filter (fun r => r ≠ .restore ∧ r ≠ .scan) ++
        d.order.filter (fun r => r = .restore ∨ r = .scan))

/-! ## Answers -/

/-- An answer whose tag has no entry is discarded, whatever row brings it; an answer that arrives while a soft reset
waits removes its entry and is discarded. The model routes an answer by its outstanding entry whatever row brings it
(log entry 5). -/
def Obligations.StrayAndWaitingAnswersAreDiscarded : Prop :=
  ∀ (s : State) (tag : BitVec 4) (a : Answer), ∀ i ∈ answerRows tag a,
    ((∀ o ∈ s.downstream.outstanding, o.tag ≠ tag) → exec i s = .next s) ∧
    (s.mgmt.waiting = true → exec i s = .next (s.answered tag))

/-- STRAIGHT_ANSWER: DONE answers the request DONE, with as many bytes as its length for a READ; ERROR answers it
ERROR and raises REQUEST_FAILED; the tag is free, and nothing else changes. The model fills an answer's data with zero
bytes up to the length (log entry 6). -/
def Obligations.StraightRequestIsAnswered : Prop :=
  ∀ (s : State) (tag : BitVec 4) (lines : List Line) (e : TagEntry) (data : List Byte),
    s.awaits { tag := tag, owner := .forward e.tag .straight, lines := lines } →
    s.upstream.tags.find? (fun x => x.tag = e.tag) = some e →
    exec (.straightAnswer tag (.done data)) s = .next
      { s.answered tag with
        upstream := { s.upstream with tags := s.upstream.tags.filter fun x => x.tag ≠ e.tag }
        out := { s.out with responses := s.out.responses ++
          [⟨e.tag, .done (if e.isWrite = true then [] else (data ++ List.replicate e.length 0).take e.length)⟩] } } ∧
    exec (.straightAnswer tag .error) s = .next
      { s.answered tag with
        upstream := { s.upstream with tags := s.upstream.tags.filter fun x => x.tag ≠ e.tag }
        out := { s.out with responses := s.out.responses ++ [⟨e.tag, .error⟩] }
        events := s.events.take { what := .requestFailed, context := e.journalTag, address := some e.address,
                                  sequence := none, count := none } }

/-- FORWARDED_ENTRY_ANSWER: the request is answered and its entry leaves the hold queue, its tag free. For an entry that
is not journaled nothing follows but the event of an ERROR; a journaled one that fails in an OPEN or COMMITTING context,
in ATTACHED, faults the context: its unreleased journaled entries are refused FAULTED, answered ERROR, their tags free,
their capture items settled by stage, and the events come in the order of R15 (REQUEST_FAILED, the refusals,
CONTEXT_FAULTED, COMMIT_DONE FAILED). In any other state of the context or the journal the failure is answered and
reported, and faults nothing. With the last journaled entry of its context gone, a commit leaves SETTLING, and so does
an abort with no read and no append of the context left, after an ERROR too. The model fills an answer's data with zero
bytes up to the length (log entry 6). -/
def Obligations.ForwardedEntryIsAnsweredAndRemoved : Prop :=
  ∀ (s : State) (tag : BitVec 4) (lines : List Line) (before after : List HoldEntry) (e : HoldEntry) (data : List Byte),
    s.awaits { tag := tag, owner := .forward e.request.tag .held, lines := lines } →
    s.hold = before ++ e :: after → e.released = true →
    (∀ x ∈ before, x.released = true → x.request.tag ≠ e.request.tag) →
    (∀ c, (s.answered tag).engineReady c = false) → s.modesOk →
    (∃ t, exec (.forwardedEntryAnswer tag (.done data)) s = .next t ∧
      t.out = { s.out with responses := s.out.responses ++ [⟨e.request.tag,
        .done (if e.request.isWrite = true then []
          else (data ++ List.replicate e.request.length 0).take e.request.length)⟩] } ∧
      t.hold = before ++ after ∧
      t.upstream = { s.upstream with tags := s.upstream.tags.filter fun x => x.tag ≠ e.request.tag } ∧
      t.attach = s.attach ∧ t.kept = s.kept ∧ t.mgmt = s.mgmt ∧ t.pins = s.pins ∧
      (e.journaled = false → t.contexts = s.contexts ∧ t.filter = s.filter ∧ t.events = s.events ∧ t.log = s.log ∧
        t.engine = s.engine ∧ t.downstream = (s.answered tag).downstream)) ∧
    (∃ t, exec (.forwardedEntryAnswer tag .error) s = .next t ∧
      t.attach = s.attach ∧ t.mgmt = s.mgmt ∧ t.pins = s.pins ∧
      ((∀ c, e.journaled = true → e.ctx = some c → s.attach.journal ≠ .attached ∨
          ((s.contexts.get c).state ≠ .opened ∧ (s.contexts.get c).state ≠ .committing)) →
        t.out = { s.out with responses := s.out.responses ++ [⟨e.request.tag, .error⟩] } ∧
        t.hold = before ++ after ∧
        t.upstream = { s.upstream with tags := s.upstream.tags.filter fun x => x.tag ≠ e.request.tag } ∧
        t.kept = s.kept ∧
        (s.events.take (downstreamFailure e.request.address e.ctx)).records <+: t.events.records ∧
        ((e.journaled = false ∨ ∀ c, e.ctx = some c → (s.engine.get c).procedure = .none) →
          t.contexts = s.contexts ∧ t.filter = s.filter ∧ t.log = s.log ∧ t.engine = s.engine ∧
          t.downstream = (s.answered tag).downstream ∧
          t.events = s.events.take (downstreamFailure e.request.address e.ctx))) ∧
      ∀ c, e.journaled = true → e.ctx = some c → s.attach.journal = .attached →
        ((s.contexts.get c).state = .opened ∨ (s.contexts.get c).state = .committing) →
        t.contexts.get c = { s.contexts.get c with state := .faulted, faultCause := some .forwardError } ∧
        t.engine.get c = (if (s.contexts.get c).state = .committing then .reset else s.engine.get c) ∧
        t.hold = (before ++ after).filter (fun x => x.released || !(x.journaled && x.ctx == some c)) ∧
        t.upstream = { s.upstream with
          tags := s.upstream.tags.filter fun x =>
            x.tag ≠ e.request.tag ∧ ∀ u ∈ s.unreleasedOf c, x.tag ≠ u.request.tag } ∧
        t.out = { s.out with responses := s.out.responses ++ [⟨e.request.tag, .error⟩] ++
          (s.unreleasedOf c).map fun u => ⟨u.request.tag, .error⟩ } ∧
        (s.events.takeAll
          ([downstreamFailure e.request.address (some c)] ++ refusals (s.unreleasedOf c) .faulted ++
            s.faultEvents c .forwardError e.request.address)).records <+: t.events.records ∧
        t.kept = s.kept ++ keptReads (s.unreleasedOf c) ∧
        t.downstream.captureList = s.readsWithout (s.unreleasedOf c) ∧
        ((∀ d, d ≠ c → (s.engine.get d).procedure = .none ∨ (s.engine.get d).phase ≠ .covering) →
          t.filter = s.filterWithout (s.unreleasedOf c) ∧ t.log.requests = s.requestsLeft c)) ∧
    ∀ c, e.journaled = true → e.ctx = some c → s.settlesAlone c →
      (∀ x ∈ before ++ after, x.journaled = false ∨ x.ctx ≠ some c) →
      ((s.engine.get c).procedure = .commit ∨
          ((s.engine.get c).procedure = .abort ∧ s.captureReads c = 0 ∧ s.appendsUnanswered c = 0) →
        ∃ (t : State) (due : List CaptureRef), exec (.forwardedEntryAnswer tag (.done data)) s = .next t ∧
          State.leavesSettling
            { s.answered tag with
              hold := before ++ after
              due := due
              upstream := { s.upstream with tags := s.upstream.tags.filter fun x => x.tag ≠ e.request.tag }
              out := { s.out with responses := s.out.responses ++ [⟨e.request.tag,
                .done (if e.request.isWrite = true then []
                  else (data ++ List.replicate e.request.length 0).take e.request.length)⟩] } } c t) ∧
      ((s.engine.get c).procedure = .abort → s.captureReads c = 0 → s.appendsUnanswered c = 0 →
        ∃ (t : State) (due : List CaptureRef), exec (.forwardedEntryAnswer tag .error) s = .next t ∧
          State.leavesSettling
            { s.answered tag with
              hold := before ++ after
              due := due
              upstream := { s.upstream with tags := s.upstream.tags.filter fun x => x.tag ≠ e.request.tag }
              out := { s.out with responses := s.out.responses ++ [⟨e.request.tag, .error⟩] }
              events := s.events.take (downstreamFailure e.request.address e.ctx) } c t)

/-- CAPTURE_READ_ANSWER with DONE: the item is BUILT with the 64 bytes and its append is asked for; if the oldest
PRE_IMAGE request then finds 4 or fewer slots free, in ATTACHED, LOG_FULL is raised and disarmed, or, not armed, stays
so. For an item kept outside the hold queue the line leaves the filter and no record is built, DONE or ERROR; with no
procedure running nothing else changes; an abort that waited for this read alone leaves SETTLING. The model fills an
answer's data with zero bytes up to the length (log entry 6). -/
def Obligations.PreImageReadIsTakenOrSettled : Prop :=
  ∀ (s : State) (tag : BitVec 4) (lines : List Line) (ref : CaptureRef) (data : List Byte),
    s.awaits { tag := tag, owner := .capture ref, lines := lines } →
    (∀ w : LogWriter, ref ∉ s.kept → (∃ e ∈ s.hold, ∃ i ∈ e.items, i.line = ref.line ∧ i.stage = .reading) →
      w = { s.log with requests := s.log.requests ++
        [.preImage ref.ctx ref.line ((data ++ List.replicate 64 0).take 64)] } →
      ∃ t, exec (.captureReadAnswer tag (.done data)) s = .next t ∧
        t.log = { w with
          spaceWaiter := t.log.spaceWaiter
          logFullArmed := w.logFullArmed && (w.fullEvents s.attach.journal).isEmpty } ∧
        t.events = s.events.takeAll (w.fullEvents s.attach.journal) ∧
        t.hold = s.hold.map (fun e => { e with
          items := e.items.map fun i => if i.line = ref.line then
            { i with stage := .built ((data ++ List.replicate 64 0).take 64) } else i }) ∧
        t.filter = s.filter ∧ t.contexts = s.contexts ∧ t.engine = s.engine ∧ t.attach = s.attach ∧
        t.kept = s.kept ∧ t.upstream = s.upstream ∧ t.downstream = (s.answered tag).downstream ∧ t.out = s.out ∧
        t.mgmt = s.mgmt ∧ t.pins = s.pins) ∧
    (ref ∈ s.kept → ∀ a : Answer,
      (∃ t, exec (.captureReadAnswer tag a) s = .next t ∧ t.kept = s.kept.erase ref ∧
        t.filterEntry ref.line = none ∧ t.hold = s.hold ∧ t.attach = s.attach ∧ t.upstream = s.upstream ∧
        t.log.head = s.log.head ∧ t.log.tail = s.log.tail ∧ t.log.inFlight = s.log.inFlight ∧ t.out = s.out ∧
        t.mgmt = s.mgmt ∧ t.pins = s.pins) ∧
      ((∀ c, (s.engine.get c).procedure = .none) → exec (.captureReadAnswer tag a) s = .next
        { s.answered tag with
          kept := s.kept.erase ref
          filter := s.filter.filter fun e => e.line ≠ ref.line }) ∧
      ((s.engine.get ref.ctx).procedure = .abort → s.settlesAlone ref.ctx → s.journaledCount ref.ctx = 0 →
        (s.answered tag).captureReads ref.ctx = 0 → s.appendsUnanswered ref.ctx = 0 →
        ∃ t, exec (.captureReadAnswer tag a) s = .next t ∧
          State.leavesSettling
            { s.answered tag with
              kept := s.kept.erase ref
              filter := s.filter.filter fun e => e.line ≠ ref.line } ref.ctx t))

/-- CAPTURE_READ_ANSWER with ERROR while its entry is in the hold queue, journal ATTACHED and the context OPEN or
COMMITTING: the context is FAULTED with cause CAPTURE_ERROR, every unreleased journaled entry of it is refused FAULTED
with its REQUEST_REFUSED event and its tag free, the line leaves the filter, the entries' other capture items are
settled by stage, CONTEXT_FAULTED is raised after those, and after it, of a COMMITTING context, COMMIT_DONE FAILED, its
procedure ended; no context without a procedure moves. -/
def Obligations.FailedPreImageReadFaultsTheContext : Prop :=
  ∀ (s : State) (tag : BitVec 4) (lines : List Line) (ref : CaptureRef),
    s.awaits { tag := tag, owner := .capture ref, lines := lines } → ref ∉ s.kept → s.modesOk →
    (∃ e ∈ s.hold, ∃ i ∈ e.items, i.line = ref.line ∧ i.stage = .reading) → s.attach.journal = .attached →
    ((s.contexts.get ref.ctx).state = .opened ∨ (s.contexts.get ref.ctx).state = .committing) →
    ∃ t, exec (.captureReadAnswer tag .error) s = .next t ∧
      t.contexts.get ref.ctx = { s.contexts.get ref.ctx with state := .faulted, faultCause := some .captureError } ∧
      t.engine.get ref.ctx =
        (if (s.contexts.get ref.ctx).state = .committing then .reset else s.engine.get ref.ctx) ∧
      (∀ c, c ≠ ref.ctx → (s.engine.get c).procedure = .none →
        t.contexts.get c = s.contexts.get c ∧ t.engine.get c = s.engine.get c) ∧
      (∀ x ∈ t.hold, x.released = true ∨ x.journaled = false ∨ x.ctx ≠ some ref.ctx) ∧
      t.filterEntry ref.line = none ∧
      t.out.responses = s.out.responses ++ (s.unreleasedOf ref.ctx).map (fun e => ⟨e.request.tag, .error⟩) ∧
      t.attach = s.attach ∧ t.log.head = s.log.head ∧ t.log.tail = s.log.tail ∧
      t.log.inFlight = s.log.inFlight ∧ t.mgmt = s.mgmt ∧ t.pins = s.pins ∧
      (s.events.takeAll (refusals (s.unreleasedOf ref.ctx) .faulted ++
        s.faultEvents ref.ctx .captureError (ref.line ++ 0#6))).records <+: t.events.records ∧
      t.upstream = { s.upstream with tags := s.tagsWithout (s.unreleasedOf ref.ctx) } ∧
      ∀ left : List HoldEntry,
        left = (s.unreleasedOf ref.ctx).map (fun e =>
          { e with items := e.items.filter fun i => ¬(i.line = ref.line ∧ i.stage = .reading) }) →
        t.kept = s.kept ++ keptReads left ∧ t.downstream.captureList = s.readsWithout left ∧
        ((s.answered tag).othersRest ref.ctx →
          (∀ d, d ≠ ref.ctx → (s.engine.get d).procedure = .none ∨ (s.engine.get d).phase ≠ .covering) →
          t.filter = (s.filterWithout left).filter (fun f => f.line ≠ ref.line) ∧
          t.log.requests = s.requestsWithout left)

/-! ## The log -/

/-- APPEND_TAKE of the oldest PRE_IMAGE in ATTACHED, with fewer than 16 appends in flight and more than 4 free slots, where
no marker is asked for (a marker goes ahead: R86, log entry 10): the request takes the sequence head and is in flight, head
moves on, the record is counted, the first sets the first-record sequence, the filter entry and the capture item take the
sequence, and the whole slot's write goes to the APPEND requester. LOG_LOW and LOG_FULL, while armed, are raised and disarmed
as the free count after the take calls for them, LOG_LOW first (log entry 19); not armed, they stay so. With no room for it,
and no marker asked for, no request is taken. -/
def Obligations.PreImageAppendTakesTheHead : Prop :=
  (∀ s : State, (∀ x ∈ s.log.requests, x.isMarker = false) →
    (s.log.requests = [] ∨ 16 ≤ s.log.inFlight.length ∨ (s.log.ringSize - (s.log.head - s.log.tail)).toNat ≤ 4) →
    exec (.appendTake ()) s = .next s) ∧
  ∀ (s : State) (rest : List AppendRequest) (c : Ctx) (l : Line) (image : List Byte) (w : LogWriter),
    s.working → s.attach.journal = .attached → s.log.requests = .preImage c l image :: rest →
    (∀ x ∈ rest, x.isMarker = false) → s.log.inFlight.length < 16 →
    4 < (s.log.ringSize - (s.log.head - s.log.tail)).toNat →
    w = { s.log with
      head := s.log.head + 1
      inFlight := s.log.inFlight ++ [{ seq := s.log.head, ctx := c, failed := false }]
      requests := rest } →
    ∃ t, exec (.appendTake ()) s = .next t ∧
      t.log = { w with
        spaceWaiter := t.log.spaceWaiter
        logLowArmed := w.logLowArmed && (w.lowEvents s.items.watermark).isEmpty
        logFullArmed := w.logFullArmed && (w.fullEvents .attached).isEmpty } ∧
      t.events = s.events.takeAll (w.lowEvents s.items.watermark ++ w.fullEvents .attached) ∧
      t.contexts = s.contexts.set c { s.contexts.get c with
        recordCount := (s.contexts.get c).recordCount + 1
        firstSeq := some ((s.contexts.get c).firstSeq.getD s.log.head) } ∧
      t.filter = s.filter.map (fun e => if e.line = l then { e with seq := some s.log.head } else e) ∧
      t.hold = s.hold.map (fun e => { e with
        items := e.items.map fun i => if i.line = l then { i with stage := .taken s.log.head } else i }) ∧
      t.downstream = { s.downstream with
        appendList := s.downstream.appendList ++
          [{ request := fullWrite
               (s.items.ringBase + BitVec.ofNat 40 (s.log.head.toNat % s.log.ringSize.toNat * 128))
               (preImageBytes s.log.head c (s.contexts.get c).epoch l image),
             owner := .append s.log.head }] } ∧
      t.engine = s.engine ∧ t.out = s.out ∧ t.upstream = s.upstream ∧ t.attach = s.attach ∧ t.kept = s.kept ∧
      t.mgmt = s.mgmt ∧ t.pins = s.pins

/-- APPEND_TAKE while a marker is asked for, in ATTACHED, with fewer than 16 appends in flight and at least 1 free slot:
the oldest marker is taken, ahead of every PRE_IMAGE request (R86; log entry 10). The context's marker flag is set, its
engine learns the sequence, and the header line's write goes to the APPEND requester. LOG_LOW and LOG_FULL, while armed,
are raised and disarmed as the free count after the take calls for them, LOG_LOW first (log entry 19), LOG_FULL also for
a PRE_IMAGE request that waited already (log entry 33); not armed, they stay so. -/
def Obligations.MarkerUsesTheReserve : Prop :=
  ∀ (s : State) (before after : List AppendRequest) (kind : MarkerKind) (c : Ctx)
      (epoch : Epoch) (incomplete : Bool) (w : LogWriter),
    s.working → s.attach.journal = .attached →
    s.log.requests = before ++ .marker kind c epoch incomplete :: after →
    (∀ x ∈ before, x.isMarker = false) → s.log.inFlight.length < 16 → (∀ d, s.engineReady d = false) →
    (s.engine.get c).phase = .marking →
    1 ≤ (s.log.ringSize - (s.log.head - s.log.tail)).toNat →
    w = { s.log with
      head := s.log.head + 1
      inFlight := s.log.inFlight ++ [{ seq := s.log.head, ctx := c, failed := false }]
      requests := before ++ after } →
    ∃ t, exec (.appendTake ()) s = .next t ∧
      t.log = { w with
        spaceWaiter := t.log.spaceWaiter
        logLowArmed := w.logLowArmed && (w.lowEvents s.items.watermark).isEmpty
        logFullArmed := w.logFullArmed && (w.fullEvents .attached).isEmpty } ∧
      t.events = s.events.takeAll (w.lowEvents s.items.watermark ++ w.fullEvents .attached) ∧
      t.contexts = s.contexts.set c { s.contexts.get c with marker := true } ∧
      t.engine = s.engine.set c { s.engine.get c with markerSeq := some s.log.head } ∧
      t.downstream = { s.downstream with
        appendList := s.downstream.appendList ++
          [{ request := fullWrite
               (s.items.ringBase + BitVec.ofNat 40 (s.log.head.toNat % s.log.ringSize.toNat * 128))
               (markerBytes s.log.head kind c epoch incomplete),
             owner := .append s.log.head }] } ∧
      t.filter = s.filter ∧ t.hold = s.hold ∧ t.out = s.out ∧ t.upstream = s.upstream ∧ t.attach = s.attach ∧
      t.kept = s.kept ∧ t.mgmt = s.mgmt ∧ t.pins = s.pins

/-- APPEND_ANSWER with DONE: the sequence leaves the appends in flight, and the frontier is one less than the lowest
left, or head - 1: every CAPTURING entry whose record lies at or below it is LOGGED, every TAKEN item COVERED, and no
other entry or item changes. A procedure that waits for more waits on. A commit whose marker is covered completes, and
so does a rollback; a rollback that waited for this append alone leaves SETTLING, and one whose last entry is now LOGGED
leaves COVERING: its replay begins, from the read of the highest record's slot, or, owning no entry, it asks for its
ABORTED marker. -/
def Obligations.DurableAppendMovesTheFrontier : Prop :=
  (∀ w : LogWriter,
    (w.inFlight = [] → w.frontier = w.head - 1) ∧
    (∀ a ∈ w.inFlight, (∀ b ∈ w.inFlight, (a.seq - w.tail).toNat ≤ (b.seq - w.tail).toNat) → w.frontier = a.seq - 1) ∧
    ∀ q, w.covers q = true ↔ w.frontier ≠ w.tail - 1 ∧ (q - w.tail).toNat ≤ (w.frontier - w.tail).toNat) ∧
  ∀ (s : State) (tag : BitVec 4) (lines : List Line) (q : Seq) (data : List Byte) (w : LogWriter) (moved : State),
    s.awaits { tag := tag, owner := .append q, lines := lines } →
    w = { s.log with inFlight := s.log.inFlight.filter fun a => a.seq ≠ q } →
    moved = { s.answered tag with
      log := w
      filter := s.filter.map fun e => match e.seq with
        | none => e
        | some x => if e.state = .capturing ∧ w.covers x then { e with state := .logged } else e
      hold := s.hold.map fun e => { e with items := e.items.map fun i => match i.stage with
        | .taken x => if w.covers x then { i with stage := .covered x } else i
        | _ => i } } →
    ((∀ c, (s.engine.get c).procedure = .none ∨ (s.engine.get c).phase = .stopped ∨
        ((s.engine.get c).phase = .settling ∧ (s.journaledCount c ≠ 0 ∨
          ((s.engine.get c).procedure = .abort ∧ (moved.captureReads c ≠ 0 ∨ moved.appendsUnanswered c ≠ 0)))) ∨
        ((s.engine.get c).phase = .replaying ∧ (s.engine.get c).replayStep ≠ none) ∨
        ((s.engine.get c).phase = .marking ∧ ∀ m, (s.engine.get c).markerSeq = some m → w.covers m = false) ∨
        ((s.engine.get c).phase = .covering ∧ ∃ f ∈ moved.filter, f.owner = c ∧ f.state = .capturing)) →
      exec (.appendAnswer tag (.done data)) s = .next moved) ∧
    ∀ c : Ctx, (∀ d, d ≠ c → (s.engine.get d).procedure = .none) →
      (∀ m, (s.engine.get c).phase = .marking → (s.engine.get c).markerSeq = some m → w.covers m = true →
        ((s.engine.get c).procedure = .commit →
          exec (.appendAnswer tag (.done data)) s = .next (moved.commitCompleted c)) ∧
        ((s.engine.get c).procedure = .abort →
          exec (.appendAnswer tag (.done data)) s = .next (moved.abortCompleted c))) ∧
      ((s.engine.get c).procedure = .abort → s.settlesAlone c → s.journaledCount c = 0 → moved.captureReads c = 0 →
        moved.appendsUnanswered c = 0 →
        ∃ t, exec (.appendAnswer tag (.done data)) s = .next t ∧ moved.leavesSettling c t) ∧
      ((s.engine.get c).procedure = .abort → (s.engine.get c).phase = .covering → (s.engine.get c).replayStep = none →
        (s.engine.get c).markerSeq = none →
        (∀ f ∈ moved.filter, f.owner = c → f.state = .logged ∧ f.seq ≠ none) →
        ∃ t, exec (.appendAnswer tag (.done data)) s = .next t ∧ moved.leavesCovering c t)

/-- An append error in ATTACHED or DETACHING breaks the journal: the sequence is marked failed, the journal is BROKEN,
every unreleased journaled entry is refused, its tag free, its capture items settled by stage, no request is left, every
context that was OPEN, COMMITTING or ABORTING is FAULTED with cause JOURNAL_BROKEN, its procedure ended, and the others
are as they were. The events are those of R112, in its order: the refusals with reason BROKEN, the CONTEXT_FAULTED of
each context with its COMMIT_DONE FAILED, JOURNAL_BROKEN, and DETACH_DONE FAILED if a detach was under way. In DRAINING
the sequence is marked and JOURNAL_BROKEN raised, in BROKEN and DRAINED it is marked, and nothing more. That all of a
broken rollback's progress record is reset, at a break that raises no ABORT_DONE, is the model's reading (log entry 22).
-/
def Obligations.AppendErrorBreaksTheJournal : Prop :=
  (∀ (s : State) (tag : BitVec 4) (lines : List Line) (q : Seq),
    s.awaits { tag := tag, owner := .append q, lines := lines } → s.pins.pfail = false →
    (s.attach.journal = .attached ∨ s.attach.journal = .detaching) →
    ∃ t, exec (.appendAnswer tag .error) s = .next t ∧ t.attach = { s.attach with journal := .broken } ∧
      t.events = s.events.takeAll (s.breakEvents .appendError (some q)) ∧
      t.log.inFlight = s.log.inFlight.map (fun a => if a.seq = q then { a with failed := true } else a) ∧
      t.log.requests = [] ∧ t.log.head = s.log.head ∧ t.log.tail = s.log.tail ∧
      t.log.generation = s.log.generation ∧ t.log.anchor = s.log.anchor ∧
      t.hold = s.hold.filter (fun e => e.released || !e.journaled) ∧
      t.out.responses = s.out.responses ++
        (s.hold.filter fun e => !e.released && e.journaled).map (fun e => ⟨e.request.tag, .error⟩) ∧
      (∀ c, ((s.contexts.get c).state = .opened ∨ (s.contexts.get c).state = .committing ∨
          (s.contexts.get c).state = .aborting →
        t.contexts.get c =
          { s.contexts.get c with state := .faulted, faultCause := some .journalBroken } ∧
        t.engine.get c = .reset) ∧
        ((s.contexts.get c).state = .idle ∨ (s.contexts.get c).state = .faulted →
          t.contexts.get c = s.contexts.get c ∧ t.engine.get c = s.engine.get c)) ∧
      t.downstream.restoreList = [] ∧ t.downstream.appendList = s.downstream.appendList ∧
      t.downstream.forwardQueue = s.downstream.forwardQueue ∧
      s.settledInto t (s.hold.filter fun e => !e.released && e.journaled) ∧
      t.upstream = { s.upstream with tags := s.tagsWithout (s.hold.filter fun e => !e.released && e.journaled) } ∧
      t.mgmt = s.mgmt ∧ t.pins = s.pins) ∧
  ∀ (s marked : State) (tag : BitVec 4) (lines : List Line) (q : Seq),
    s.awaits { tag := tag, owner := .append q, lines := lines } →
    marked = { s.answered tag with log := { s.log with
      inFlight := s.log.inFlight.map fun a => if a.seq = q then { a with failed := true } else a } } →
    (s.attach.journal = .draining → exec (.appendAnswer tag .error) s = .next
      { marked with events := s.events.take { what := .journalBroken .appendError, context := none, address := none,
                                              sequence := some q, count := some 0 } }) ∧
    (s.attach.journal = .broken ∨ s.attach.journal = .drained → exec (.appendAnswer tag .error) s = .next marked)

/-- RECLAMATION_ANCHOR_WRITE in ATTACHED with no anchor write in flight, when the distance from the tail to the reclaim limit
is at least the ANCHOR_STEP in use, or above 0 with 5 or fewer free slots: an ACTIVE anchor of the next generation with the
reclaim limit as its tail goes to the copy of its parity; else nothing changes. The reclaim limit is the least first-record
sequence of the contexts that are not IDLE and have one, else F + 1. -/
def Obligations.ReclamationAnchorCarriesTheLimit : Prop :=
  ∀ s : State,
    (s.working → s.attach.journal = .attached → s.log.anchor = none →
      (min s.items.anchorStep s.log.ringSize.toNat ≤ (s.reclaimLimit - s.log.tail).toNat ∨
        (0 < (s.reclaimLimit - s.log.tail).toNat ∧
          (s.log.ringSize - (s.log.head - s.log.tail)).toNat ≤ 5)) →
      exec .reclamationAnchorWrite s = .next
        { s with
          log := { s.log with
            generation := s.log.generation + 1
            anchor := some { generation := some (s.log.generation + 1), tail := some s.reclaimLimit,
                             issuer := .logWriter, attaching := false } }
          downstream := { s.downstream with
            anchorList := s.downstream.anchorList ++
              [{ request := fullWrite
                   (if (s.log.generation + 1).getLsbD 0 = true then s.items.anchorAddr + 64 else s.items.anchorAddr)
                   (anchorBytes { generation := s.log.generation + 1, state := .active, tail := s.reclaimLimit,
                                  nextEpochs := s.contexts.map (·.nextEpoch) }),
                 owner := .anchor }] } }) ∧
    (¬ s.working ∨ s.attach.journal ≠ .attached ∨ s.log.anchor ≠ none ∨
        ((s.reclaimLimit - s.log.tail).toNat < min s.items.anchorStep s.log.ringSize.toNat ∧
          ((s.reclaimLimit - s.log.tail).toNat = 0 ∨
            5 < (s.log.ringSize - (s.log.head - s.log.tail)).toNat)) →
      exec .reclamationAnchorWrite s = .next s) ∧
    (∀ c q, (s.contexts.get c).state ≠ .idle → (s.contexts.get c).firstSeq = some q →
      (∀ d p, (s.contexts.get d).state ≠ .idle → (s.contexts.get d).firstSeq = some p →
        (q - s.log.tail).toNat ≤ (p - s.log.tail).toNat) →
      s.reclaimLimit = q) ∧
    ((∀ c, (s.contexts.get c).state = .idle ∨ (s.contexts.get c).firstSeq = none) →
      s.reclaimLimit = s.log.frontier + 1)

/-- ANCHOR_WRITE_ANSWER, whoever issued the write. Outside an attach, DONE moves the anchored tail to the tail carried
and re-arms LOG_FULL and LOG_LOW as the free count allows, and the oldest PRE_IMAGE request is looked at again; for the
CLEAN anchor it ends the detach, for the final drain anchor it makes the drain's detail WRITTEN. ERROR leaves the tail:
it breaks the journal in ATTACHED and DETACHING, with the events of R112, the refused entries' capture items settled by
stage; that all of a broken rollback's progress record is reset there, at a break that raises no ABORT_DONE, is the
model's reading (log entry 22). In DRAINING it raises JOURNAL_BROKEN and sets the anchor error, or, for the final
anchor, the detail FAILED; in BROKEN and DRAINED it only clears the write in flight. In an attach, the zero copies lead
on to the sweep; the format anchor and the final anchor of a resume attach the journal with the pointers of R41 and the
next epochs of R3; ERROR ends it FAILED_WRITE. Once the attach is over the answer only clears the write in flight. A
zero copy has no generation and no tail in flight (log entry 21). -/
def Obligations.AnchorAnswerMovesTheTail : Prop :=
  (∀ (s : State) (tag : BitVec 4) (lines : List Line) (data : List Byte) (g : Option Seq) (limit : Seq) (issuer : Issuer),
    s.awaits { tag := tag, owner := .anchor, lines := lines } →
    s.log.anchor = some { generation := g, tail := some limit, issuer := issuer, attaching := false } →
    s.pins.pfail = false ∨ s.attach.journal = .draining ∨ s.attach.journal = .drained →
    (∀ w : LogWriter,
      w = { s.log with
        tail := limit
        anchor := none
        logFullArmed := s.log.logFullArmed || decide (4 < (s.log.ringSize - (s.log.head - limit)).toNat)
        logLowArmed := s.log.logLowArmed || decide (s.items.watermark ≠ 0 ∧
          s.items.watermark ≤ (s.log.ringSize - (s.log.head - limit)).toNat) } →
      ∃ t, exec (.anchorWriteAnswer tag (.done data)) s = .next t ∧
      t.log = { w with
        spaceWaiter := t.log.spaceWaiter
        logFullArmed := w.logFullArmed && (w.fullEvents s.attach.journal).isEmpty } ∧
      (issuer = .logWriter → t.attach = s.attach ∧
        t.events = s.events.takeAll (w.fullEvents s.attach.journal)) ∧
      (issuer = .attachEngine → s.attach.journal = .detaching →
        t.attach = { s.attach with journal := .detached } ∧
        t.events = s.events.take { what := .detachDone .detached, context := none, address := none,
                                   sequence := some s.log.head, count := none }) ∧
      (issuer = .attachEngine → s.attach.journal = .draining → t.events = s.events ∧
        t.attach = (if s.attach.drain.finalIssued = true then
          { s.attach with drain := { s.attach.drain with detail := some .written } } else s.attach)) ∧
      t.contexts = s.contexts ∧ t.filter = s.filter ∧ t.hold = s.hold ∧ t.engine = s.engine ∧
      t.upstream = s.upstream ∧ t.downstream = (s.answered tag).downstream ∧ t.out = s.out) ∧
    (s.attach.journal = .attached ∨ s.attach.journal = .detaching →
      ∃ t, exec (.anchorWriteAnswer tag .error) s = .next t ∧ t.attach = { s.attach with journal := .broken } ∧
        t.events = s.events.takeAll (s.breakEvents .anchorError (some limit)) ∧
        t.log.anchor = none ∧ t.log.requests = [] ∧ t.log.tail = s.log.tail ∧ t.log.head = s.log.head ∧
        t.log.generation = s.log.generation ∧ t.log.inFlight = s.log.inFlight ∧
        t.hold = s.hold.filter (fun e => e.released || !e.journaled) ∧
        t.out.responses = s.out.responses ++
          (s.hold.filter fun e => !e.released && e.journaled).map (fun e => ⟨e.request.tag, .error⟩) ∧
        s.settledInto t (s.hold.filter fun e => !e.released && e.journaled) ∧
        t.upstream = { s.upstream with tags := s.tagsWithout (s.hold.filter fun e => !e.released && e.journaled) } ∧
        t.downstream.restoreList = [] ∧ t.downstream.appendList = s.downstream.appendList ∧
        t.downstream.forwardQueue = s.downstream.forwardQueue ∧
        ∀ c, ((s.contexts.get c).state = .opened ∨ (s.contexts.get c).state = .committing ∨
            (s.contexts.get c).state = .aborting →
          t.contexts.get c = { s.contexts.get c with state := .faulted, faultCause := some .journalBroken } ∧
          t.engine.get c = .reset) ∧
          ((s.contexts.get c).state = .idle ∨ (s.contexts.get c).state = .faulted →
            t.contexts.get c = s.contexts.get c ∧ t.engine.get c = s.engine.get c)) ∧
    (s.attach.journal = .draining → exec (.anchorWriteAnswer tag .error) s = .next
      { s.anchorAnswered tag with
        attach := { s.attach with drain :=
          if issuer = .attachEngine ∧ s.attach.drain.finalIssued = true then
            { s.attach.drain with detail := some .failed }
          else { s.attach.drain with anchorError := true } }
        events := s.events.take { what := .journalBroken .anchorError, context := none, address := none,
                                  sequence := some limit, count := some 0 } }) ∧
    (s.attach.journal = .broken ∨ s.attach.journal = .drained →
      exec (.anchorWriteAnswer tag .error) s = .next (s.anchorAnswered tag))) ∧
  ∀ (s : State) (tag : BitVec 4) (lines : List Line) (data : List Byte) (g tail : Option Seq),
    s.awaits { tag := tag, owner := .anchor, lines := lines } →
    s.log.anchor = some { generation := g, tail := tail, issuer := .attachEngine, attaching := true } →
    (s.attach.journal ≠ .attaching →
      ∀ a : Answer, exec (.anchorWriteAnswer tag a) s = .next (s.anchorAnswered tag)) ∧
    (s.attach.journal = .attaching → s.pins.pfail = false →
      (s.attach.progress.step = .invalidating false →
        exec (.anchorWriteAnswer tag (.done data)) s = .next (s.anchorAnswered tag).zeroesCopy1) ∧
      (s.attach.progress.step = .invalidating true → s.attach.progress.slots ≠ 0 →
        exec (.anchorWriteAnswer tag (.done data)) s = .next (s.anchorAnswered tag).beginsSweep) ∧
      (s.attach.progress.step = .formatAnchor →
        ∃ t, exec (.anchorWriteAnswer tag (.done data)) s = .next t ∧
          (s.anchorAnswered tag).attaches .formatted 0 1 t ∧
          ∀ c, t.contexts.get c = { s.contexts.get c with nextEpoch := 0 }) ∧
      (∀ a, s.attach.progress.step = .finalAnchor → s.attach.progress.current = some a →
        ∃ t, exec (.anchorWriteAnswer tag (.done data)) s = .next t ∧
          (s.anchorAnswered tag).attaches (if a.state = .clean then .clean else .recovered) s.attach.progress.headFound
            (a.generation + 1) t ∧
          ∀ c, ∃ e, carriesEpoch (a.nextEpochs.get c) (s.attach.progress.recovery.get c) e ∧
            t.contexts.get c = { s.contexts.get c with nextEpoch := e }) ∧
      ((∃ second, s.attach.progress.step = .invalidating second) ∨ s.attach.progress.step = .formatAnchor →
        ∃ t, exec (.anchorWriteAnswer tag .error) s = .next t ∧
          (s.anchorAnswered tag).failsAttach .failedWrite none t) ∧
      (s.attach.progress.step = .finalAnchor →
        ∃ t, exec (.anchorWriteAnswer tag .error) s = .next t ∧
          (s.anchorAnswered tag).failsAttach .failedWrite (some s.attach.progress.headFound) t))

/-! ## Rollback -/

/-- RESTORE_READ_ANSWER while the rollback replays: a slot that passes the seven checks of R91 has its pre-image written
back to the entry's line through the RESTORE requester; one that fails any of them, and a read answered ERROR, skips the
entry: incomplete is set and the entry leaves the list. RESTORE_WRITE_ANSWER takes the entry from the list too: DONE
counts the line, ERROR sets incomplete. Then the next entry's slot is read, or, after the last, the ABORTED marker is
asked for. The model fills an answer's data with zero bytes up to the length (log entry 6). -/
def Obligations.RollbackRestoresEachLine : Prop :=
  (∀ (slot : List Byte) (q : Seq) (c : Ctx) (epoch : Epoch) (line : Line), slot.length = 128 →
    (restoreCheckPasses slot q c epoch line = true ↔
      bytesAt slot 0 4 = leastFirst 4 0x9E3C57A1 ∧ bytesAt slot 4 4 = leastFirst 4 q.toNat ∧ bytesAt slot 8 1 = [0x01] ∧
      bytesAt slot 9 1 = [ctxByte c] ∧ bytesAt slot 12 4 = leastFirst 4 epoch.toNat ∧
      bytesAt slot 16 8 = leastFirst 8 (line ++ 0#6).toNat ∧
      bytesAt slot 24 4 = leastFirst 4 (checkWord (checkCleared slot)).toNat)) ∧
  ∀ (s : State) (tag : BitVec 4) (lines : List Line) (c : Ctx) (e : FilterEntry) (rest : List FilterEntry) (q : Seq)
      (data : List Byte),
    (s.engine.get c).procedure = .abort → (s.engine.get c).phase = .replaying →
    (s.engine.get c).replayList = e :: rest → e.seq = some q → (s.engine.get c).markerSeq = none →
    (s.answered tag).othersRest c →
    (s.awaits { tag := tag, owner := .restore c .read, lines := lines } → (s.engine.get c).replayStep = some .read →
      (restoreCheckPasses ((data ++ List.replicate 128 0).take 128) q c (s.contexts.get c).epoch e.line = true →
        exec (.restoreReadAnswer tag (.done data)) s = .next
          { s.answered tag with
            engine := s.engine.set c { s.engine.get c with replayStep := some .write }
            downstream := { (s.answered tag).downstream with
              restoreList := s.downstream.restoreList ++
                [{ request := fullWrite (e.line ++ 0#6)
                     ((((data ++ List.replicate 128 0).take 128).drop 64).take 64),
                   owner := .restore c .write }] } }) ∧
      (restoreCheckPasses ((data ++ List.replicate 128 0).take 128) q c (s.contexts.get c).epoch e.line = false →
        ∃ t, exec (.restoreReadAnswer tag (.done data)) s = .next t ∧
          (s.answered tag).finishesEntry c { s.engine.get c with incomplete := true } rest t) ∧
      ∃ t, exec (.restoreReadAnswer tag .error) s = .next t ∧
        (s.answered tag).finishesEntry c { s.engine.get c with incomplete := true } rest t) ∧
    (s.awaits { tag := tag, owner := .restore c .write, lines := lines } → (s.engine.get c).replayStep = some .write →
      (∃ t, exec (.restoreWriteAnswer tag (.done data)) s = .next t ∧
        (s.answered tag).finishesEntry c { s.engine.get c with restored := (s.engine.get c).restored + 1 } rest t) ∧
      ∃ t, exec (.restoreWriteAnswer tag .error) s = .next t ∧
        (s.answered tag).finishesEntry c { s.engine.get c with incomplete := true } rest t)

/-! ## Recovery -/

/-- SCAN_READ_ANSWER. An accepted scan slot is tracked by the table of R105 and counted; the next sequence's slot is
read, or, if it is the S-th, the scan ends there; a slot not accepted ends the scan where it stands. At its end the
replay begins at the sequence before the head found, or, with no unfinished epoch, the final anchor. To the anchor read:
no valid copy ends the attach NO_ANCHOR, a CLEAN one leads to the final anchor, an ACTIVE one to the scan from its tail.
To a replay read: a PRE_IMAGE of an unfinished latest epoch is written back to its line, any other accepted slot is
passed over, one not accepted ends the attach FAILED_RESTORE. A read answered ERROR ends it FAILED_READ, with the
sequence read, absent for the anchor (log entry 20). Once the attach is over the answer is discarded. The model fills an
answer's data with zero bytes up to the length (log entry 6). -/
def Obligations.ScanReadAdvancesTheRecovery : Prop :=
  (∀ (r : Recovery) (e : Epoch) (q : Seq),
    (r.latest ≠ some e → r.track .preImage e q = { latest := some e, finished := false, first := some q }) ∧
    (r.latest = some e → r.track .preImage e q = r) ∧
    ∀ kind, kind = .commit ∨ kind = .aborted →
      (r.latest = some e → r.track kind e q = { r with finished := true }) ∧
      (r.latest ≠ some e → r.track kind e q = { latest := some e, finished := true, first := none })) ∧
  (∀ (s : State) (tag : BitVec 4) (lines : List Line) (step : AttachStep) (a : Answer),
    s.awaits { tag := tag, owner := .scan step false, lines := lines } → s.attach.journal ≠ .attaching →
    exec (.scanReadAnswer tag a) s = .next (s.answered tag)) ∧
  ∀ (s : State) (tag : BitVec 4) (lines : List Line) (data : List Byte) (p : AttachProgress),
    s.attach.journal = .attaching → s.attach.progress = p → s.pins.pfail = false →
    (s.awaits { tag := tag, owner := .scan .scanning false, lines := lines } → p.step = .scanning →
      (∀ record tracked, acceptSlot ((data ++ List.replicate 128 0).take 128) p.position = some record →
        tracked = { p with
          recovery := p.recovery.set record.ctx
            ((p.recovery.get record.ctx).track record.kind record.epoch p.position)
          scanned := p.scanned + 1
          position := p.position + 1 } →
        (p.scanned + 1 ≠ p.slots.toNat →
          exec (.scanReadAnswer tag (.done data)) s = .next ((s.answered tag).readsSlot tracked .scanning)) ∧
        ∀ a, p.scanned + 1 = p.slots.toNat → p.current = some a →
          ∃ t, exec (.scanReadAnswer tag (.done data)) s = .next t ∧ (s.answered tag).endsScan tracked a t) ∧
      (∀ a, acceptSlot ((data ++ List.replicate 128 0).take 128) p.position = none → p.current = some a →
        ∃ t, exec (.scanReadAnswer tag (.done data)) s = .next t ∧ (s.answered tag).endsScan p a t) ∧
      ∃ t, exec (.scanReadAnswer tag .error) s = .next t ∧
        (s.answered tag).failsAttach .failedRead (some p.position) t) ∧
    (s.awaits { tag := tag, owner := .scan .readingAnchor false, lines := lines } → p.step = .readingAnchor →
      (readAnchorCopy (((data ++ List.replicate 128 0).take 128).take 64) = none →
        readAnchorCopy ((((data ++ List.replicate 128 0).take 128).drop 64).take 64) = none →
        ∃ t, exec (.scanReadAnswer tag (.done data)) s = .next t ∧ (s.answered tag).failsAttach .noAnchor none t) ∧
      (∀ a, currentAnchor ((data ++ List.replicate 128 0).take 128) = some a →
        (a.state = .clean → ∃ t, exec (.scanReadAnswer tag (.done data)) s = .next t ∧
          (s.answered tag).beginsFinal { p with current := some a, headFound := a.tail } a t) ∧
        (a.state = .active → exec (.scanReadAnswer tag (.done data)) s = .next
          ((s.answered tag).readsSlot { p with current := some a, step := .scanning, position := a.tail }
            .scanning))) ∧
      ∃ t, exec (.scanReadAnswer tag .error) s = .next t ∧ (s.answered tag).failsAttach .failedRead none t) ∧
    (s.awaits { tag := tag, owner := .scan .replaying false, lines := lines } → p.step = .replaying →
      (∀ record, acceptSlot ((data ++ List.replicate 128 0).take 128) p.position = some record →
        (record.kind = .preImage → (p.recovery.get record.ctx).latest = some record.epoch →
          (p.recovery.get record.ctx).finished = false →
          exec (.scanReadAnswer tag (.done data)) s = .next
            { s.answered tag with downstream := { (s.answered tag).downstream with
                scanList := s.downstream.scanList ++
                  [{ request := fullWrite (record.line ++ 0#6) record.image, owner := .scan .replaying true }] } }) ∧
        ∀ a, (record.kind ≠ .preImage ∨ (p.recovery.get record.ctx).latest ≠ some record.epoch ∨
            (p.recovery.get record.ctx).finished = true) → p.current = some a →
          ∃ t, exec (.scanReadAnswer tag (.done data)) s = .next t ∧ (s.answered tag).endsSequence p a t) ∧
      (acceptSlot ((data ++ List.replicate 128 0).take 128) p.position = none →
        ∃ t, exec (.scanReadAnswer tag (.done data)) s = .next t ∧
          (s.answered tag).failsAttach .failedRestore (some p.position) t) ∧
      ∃ t, exec (.scanReadAnswer tag .error) s = .next t ∧
        (s.answered tag).failsAttach .failedRead (some p.position) t)

/-- SCAN_WRITE_ANSWER. To a replay write: DONE counts the line, and the next lower slot is read, or, at the least first
sequence of the unfinished epochs, the final anchor goes to the copy of its generation's parity with the next epochs of
R107; ERROR ends the attach FAILED_RESTORE in DETACHED. To a sweep write: while another is handed or outstanding the
sweep goes on; the last answered DONE, the format's anchor follows, or, after an ERROR, the attach ends FAILED_WRITE; an
ERROR hands no more, and withdraws what is not granted (log entry 17). Once the attach is over the answer is discarded.
-/
def Obligations.ReplayWriteAdvancesTheRecovery : Prop :=
  (∀ (s : State) (tag : BitVec 4) (lines : List Line) (step : AttachStep) (a : Answer),
    s.awaits { tag := tag, owner := .scan step true, lines := lines } → s.attach.journal ≠ .attaching →
    exec (.scanWriteAnswer tag a) s = .next (s.answered tag)) ∧
  (∀ (p : AttachProgress) (tail q : Seq),
    (∀ c, p.leavesOpen c → (p.recovery.get c).first ≠ none) →
    (p.replayEnd tail = some q ↔ (∃ c, p.leavesOpen c ∧ (p.recovery.get c).first = some q) ∧
      ∀ c x, p.leavesOpen c → (p.recovery.get c).first = some x → (q - tail).toNat ≤ (x - tail).toNat)) ∧
  (∀ (s : State) (tag : BitVec 4) (lines : List Line) (data : List Byte) (p : AttachProgress) (a : AnchorCopy),
    s.awaits { tag := tag, owner := .scan .replaying true, lines := lines } →
    s.attach.journal = .attaching → s.attach.progress = p → p.step = .replaying → p.current = some a →
    s.pins.pfail = false →
    (∃ t, exec (.scanWriteAnswer tag (.done data)) s = .next t ∧
      (s.answered tag).endsSequence { p with restored := p.restored + 1 } a t) ∧
    ∃ t, exec (.scanWriteAnswer tag .error) s = .next t ∧
      (s.answered tag).failsAttach .failedRestore (some p.position) t) ∧
  ∀ (s : State) (tag : BitVec 4) (lines : List Line) (data : List Byte),
    s.awaits { tag := tag, owner := .scan .sweeping true, lines := lines } →
    s.attach.journal = .attaching → s.attach.progress.step = .sweeping → s.pins.pfail = false →
    (s.downstream.scanList ≠ [] ∨ (∃ o ∈ s.downstream.outstanding, o.tag ≠ tag ∧ o.owner = .scan .sweeping true) →
      exec (.scanWriteAnswer tag (.done data)) s = .next (s.answered tag)) ∧
    (s.downstream.scanList = [] →
      (∀ o ∈ s.downstream.outstanding, o.tag = tag ∨ o.owner ≠ .scan .sweeping true) →
      (s.attach.progress.failed = false →
        exec (.scanWriteAnswer tag (.done data)) s = .next (s.answered tag).formatsAnchor) ∧
      (s.attach.progress.failed = true →
        ∃ t, exec (.scanWriteAnswer tag (.done data)) s = .next t ∧
          (s.answered tag).failsAttach .failedWrite none t)) ∧
    ((∃ o ∈ s.downstream.outstanding, o.tag ≠ tag ∧ o.owner = .scan .sweeping true) →
      exec (.scanWriteAnswer tag .error) s = .next
        { s.answered tag with
          attach := { s.attach with progress := { s.attach.progress with failed := true } }
          downstream := { (s.answered tag).downstream with scanList := [] } }) ∧
    ((∀ o ∈ s.downstream.outstanding, o.tag = tag ∨ o.owner ≠ .scan .sweeping true) →
      ∃ t, exec (.scanWriteAnswer tag .error) s = .next t ∧
        ({ s.answered tag with
            attach := { s.attach with progress := { s.attach.progress with failed := true } }
            downstream := { (s.answered tag).downstream with scanList := [] } }).failsAttach .failedWrite none t)

/-! ## Detach and drain -/

/-- CLEAN_ANCHOR_WRITE in DETACHING, with the hold queue empty and neither append nor anchor write in flight: a CLEAN
anchor of the next generation with tail head. FINAL_DRAIN_ANCHOR_WRITE in a drain from ATTACHED or DETACHING, downstream
idle and no anchor error: an ACTIVE one with the reclaim limit. That the drain record keeps the tail it carries is the
model's (log entry 26). -/
def Obligations.EngineAnchorsAreIssued : Prop :=
  ∀ (s : State), s.working → s.log.anchor = none →
    (s.attach.journal = .detaching → s.hold = [] → s.log.inFlight = [] →
      exec .cleanAnchorWrite s = .next
        { s with
          log := { s.log with
            generation := s.log.generation + 1
            anchor := some { generation := some (s.log.generation + 1), tail := some s.log.head,
                             issuer := .attachEngine, attaching := false } }
          downstream := { s.downstream with
            anchorList := s.downstream.anchorList ++
              [{ request := fullWrite
                   (if (s.log.generation + 1).getLsbD 0 = true then s.items.anchorAddr + 64 else s.items.anchorAddr)
                   (anchorBytes { generation := s.log.generation + 1, state := .clean, tail := s.log.head,
                                  nextEpochs := s.contexts.map (·.nextEpoch) }),
                 owner := .anchor }] } }) ∧
    (s.attach.journal = .draining →
      (s.attach.drain.origin = some .attached ∨ s.attach.drain.origin = some .detaching) →
      s.attach.drain.anchorError = false → s.attach.drain.finalIssued = false → s.downstream.outstanding = [] →
      s.downstream.forwardQueue = [] → s.downstream.anchorList = [] → s.downstream.appendList = [] →
      s.downstream.captureList = [] → s.downstream.restoreList = [] → s.downstream.scanList = [] →
      exec .finalDrainAnchorWrite s = .next
        { s with
          attach := { s.attach with drain := { s.attach.drain with
            finalIssued := true, finalTail := some s.reclaimLimit } }
          log := { s.log with
            generation := s.log.generation + 1
            anchor := some { generation := some (s.log.generation + 1), tail := some s.reclaimLimit,
                             issuer := .attachEngine, attaching := false } }
          downstream := { s.downstream with
            anchorList :=
              [{ request := fullWrite
                   (if (s.log.generation + 1).getLsbD 0 = true then s.items.anchorAddr + 64 else s.items.anchorAddr)
                   (anchorBytes { generation := s.log.generation + 1, state := .active, tail := s.reclaimLimit,
                                  nextEpochs := s.contexts.map (·.nextEpoch) }),
                 owner := .anchor }] } })

/-- DRAINED: a drain whose final anchor write has answered ends with that result and the tail it carried; one that
makes no anchor write (from BROKEN or ATTACHING, or after an anchor error) ends SKIPPED once downstream is idle:
DRAINED, QUIET, one DRAINED event, nothing else. The tail reported is a field of the model's (log entry 26). -/
def Obligations.DrainEndsQuiet : Prop :=
  ∀ (s : State) (detail : DrainDetail), s.working → s.attach.journal = .draining →
    (s.attach.drain.detail = some detail ∨
      (s.attach.drain.detail = none ∧ detail = .skipped ∧
        (s.attach.drain.anchorError = true ∨ s.attach.drain.origin = some .broken ∨
          s.attach.drain.origin = some .attaching) ∧
        s.downstream.outstanding = [] ∧ s.downstream.forwardQueue = [] ∧ s.downstream.anchorList = [] ∧
        s.downstream.appendList = [] ∧ s.downstream.captureList = [] ∧ s.downstream.restoreList = [] ∧
        s.downstream.scanList = [])) →
    exec .drained s = .next
      { s with
        attach := { s.attach with
          journal := .drained
          quiet := true
          drain := { s.attach.drain with detail := some detail } }
        events := s.events.take { what := .drained detail, context := none, address := none,
                                  sequence := s.attach.drain.finalTail, count := none } }

/-! ## Formats -/

/-- Every management command survives its frame: for every well-formed row that is a frame, the frame's bytes decode to that
row, with every argument and the count of extra bytes. The frames are those of R186's table, a SET's value the most
significant byte first; a frame cut short of what its command needs, and one whose byte 0 is no code, name no command. A mode
byte that names no mode is carried by ATTACH_FORMAT (log entry 15). -/
def Obligations.FrameDecodesToItsCommand : Prop :=
  (∀ (a b : Byte) (v : BitVec 64) (n : Nat),
    FrameCommand.nop.bytes n = [0x00] ++ List.replicate n 0 ∧ FrameCommand.status.bytes n = [0x01] ++ List.replicate n 0 ∧
    (FrameCommand.get a b).bytes n = [0x02, a, b] ++ List.replicate n 0 ∧
    (FrameCommand.set a b v).bytes n = [0x03, a, b] ++ mostFirst 8 v.toNat ++ List.replicate n 0 ∧
    (FrameCommand.attach a).bytes n = [0x04, a] ++ List.replicate n 0 ∧
    FrameCommand.detach.bytes n = [0x05] ++ List.replicate n 0 ∧
    (FrameCommand.openEpoch a).bytes n = [0x06, a] ++ List.replicate n 0 ∧
    (FrameCommand.commit a).bytes n = [0x07, a] ++ List.replicate n 0 ∧
    (FrameCommand.abort a).bytes n = [0x08, a] ++ List.replicate n 0 ∧
    FrameCommand.popEvent.bytes n = [0x09] ++ List.replicate n 0 ∧
    FrameCommand.clearOverrun.bytes n = [0x0A] ++ List.replicate n 0 ∧
    FrameCommand.softReset.bytes n = [0x5A] ++ List.replicate n 0) ∧
  (∀ (command : FrameCommand) (k : Nat), k < (command.bytes 0).length → frameCommand ((command.bytes 0).take k) = none) ∧
  (∀ (code : Byte) (rest : List Byte), 0x0B ≤ code → code ≠ 0x5A → frameCommand (code :: rest) = none) ∧
  ∀ (i : Instr) (frame : List Byte), i.wellFormed = true → frameBytes i = some frame → frameInstr frame = i

/-- What the log writer puts in a slot, the scan and the rollback read back: a PRE_IMAGE record and a marker are
accepted for their sequence with every field, and a PRE_IMAGE record passes the rollback's checks. The scan accepts no
slot but one whose sync, sequence, kind, context, check word and, in a PRE_IMAGE, line address pass the tests of R104,
and takes its fields from their places, of the epoch field the low 24 bits (log entry 18). Records, markers and anchor
copies have the layouts of R183 and R184, with their check words. An anchor copy reads back as written; a copy whose
sync or check word fails is refused, and of one that is valid every field is read from its place. A single valid copy is
current; of two, the one whose generation is greater, the difference read as a signed 32-bit number; of equal
generations copy 0; at a difference of exactly 2^31 either may be (log entry 8). -/
def Obligations.LogFormatsReadBackAsWritten : Prop :=
  ((∀ (q : Seq) (c : Ctx) (e : Epoch) (l : Line) (image : List Byte), image.length = 64 →
    acceptSlot (preImageBytes q c e l image) q =
      some { kind := .preImage, ctx := c, epoch := e, line := l, image := image } ∧
    restoreCheckPasses (preImageBytes q c e l image) q c e l = true ∧
    slotImage (preImageBytes q c e l image) = image) ∧
  ∀ (q : Seq) (kind : MarkerKind) (c : Ctx) (e : Epoch) (incomplete : Bool) (second : List Byte),
    second.length = 64 →
    ∃ record, acceptSlot (markerBytes q kind c e incomplete ++ second) q = some record ∧
      record.kind = kind.recordKind ∧ record.ctx = c ∧ record.epoch = e) ∧
  (∀ (slot : List Byte) (q : Seq) (kind : RecordKind) (c : Ctx) (epoch : Epoch), slot.length = 128 →
    ((∃ record, acceptSlot slot q = some record ∧ record.kind = kind ∧ record.ctx = c ∧ record.epoch = epoch) ↔
      bytesAt slot 0 4 = leastFirst 4 0x9E3C57A1 ∧ bytesAt slot 4 4 = leastFirst 4 q.toNat ∧
      bytesAt slot 8 1 = [match kind with | .preImage => 0x01 | .commit => 0x02 | .aborted => 0x03] ∧
      bytesAt slot 9 1 = [ctxByte c] ∧ bytesAt slot 12 3 = leastFirst 3 epoch.toNat ∧
      bytesAt slot 24 4 = leastFirst 4 (checkWord
        (if kind = .preImage then checkCleared slot else (checkCleared slot).take 64)).toNat ∧
      (kind = .preImage → ∃ line : Line, bytesAt slot 16 8 = leastFirst 8 (line ++ 0#6).toNat)) ∧
    ∀ record, acceptSlot slot q = some record → record.kind = .preImage →
      bytesAt slot 16 8 = leastFirst 8 (record.line ++ 0#6).toNat ∧ record.image = bytesAt slot 64 64) ∧
  (∀ (q : Seq) (c : Ctx) (e : Epoch) (l : Line) (image : List Byte), preImageBytes q c e l image =
    slotHeader q 0x01 (ctxByte c) 0 e (l ++ 0#6)
      (checkWord (slotHeader q 0x01 (ctxByte c) 0 e (l ++ 0#6) 0 ++ image)) ++ image) ∧
  (∀ (q : Seq) (kind : MarkerKind) (c : Ctx) (e : Epoch) (incomplete : Bool) (code flags : Byte),
    code = (match kind with | .commit => 0x02 | .aborted => 0x03) → flags = (if incomplete = true then 0x01 else 0x00) →
    markerBytes q kind c e incomplete =
      slotHeader q code (ctxByte c) flags e 0 (checkWord (slotHeader q code (ctxByte c) flags e 0 0))) ∧
  (∀ c : AnchorCopy, anchorBytes c = anchorLayout c (checkWord (anchorLayout c 0))) ∧
  checkWord [0x31, 0x32, 0x33, 0x34, 0x35, 0x36, 0x37, 0x38, 0x39] = 0xE3069283 ∧
  (∀ c : AnchorCopy, readAnchorCopy (anchorBytes c) = some c) ∧
  (∀ (copy : List Byte) (a : AnchorCopy), copy.length = 64 →
    (readAnchorCopy copy = some a ↔
      bytesAt copy 0 4 = leastFirst 4 0x9E3CA157 ∧
      bytesAt copy 32 4 = leastFirst 4 (checkWord (copy.take 32 ++ [0, 0, 0, 0] ++ copy.drop 36)).toNat ∧
      bytesAt copy 4 4 = leastFirst 4 a.generation.toNat ∧ (a.state = .clean ↔ bytesAt copy 8 1 = [0x01]) ∧
      bytesAt copy 12 4 = leastFirst 4 a.tail.toNat ∧
      ∀ c : Ctx, bytesAt copy (16 + 4 * c.val) 3 = leastFirst 3 (a.nextEpochs.get c).toNat)) ∧
  (∀ low high : List Byte, low.length = 64 → high.length = 64 →
    (readAnchorCopy low = none → currentAnchor (low ++ high) = readAnchorCopy high) ∧
    (readAnchorCopy high = none → currentAnchor (low ++ high) = readAnchorCopy low) ∧
    ∀ a b, readAnchorCopy low = some a → readAnchorCopy high = some b →
      (a.generation = b.generation → currentAnchor (low ++ high) = some a) ∧
      (0 < (b.generation - a.generation).toInt → currentAnchor (low ++ high) = some b) ∧
      (0 < (a.generation - b.generation).toInt → currentAnchor (low ++ high) = some a) ∧
      ((b.generation - a.generation).toNat = 2 ^ 31 →
        currentAnchor (low ++ high) = some a ∨ currentAnchor (low ++ high) = some b)) ∧
  ∀ a b : AnchorCopy, b.generation = a.generation + 1 →
    currentAnchor (anchorBytes a ++ anchorBytes b) = some b ∧ currentAnchor (anchorBytes b ++ anchorBytes a) = some b
end

