-- ==== Sys2Proof/Laws/State.lean ====
section
/-! SUPPORT. What each update of the state changes and what it leaves, field by field, so that no proof unfolds a record
update. -/

namespace Sys2Proof.Machine

/-- `State.raise` leaves every field but events. -/
@[simp] theorem State.raise_frame (s : State) (e : Event) :
    (s.raise e).contexts = s.contexts ∧ (s.raise e).filter = s.filter ∧ (s.raise e).items = s.items ∧
    (s.raise e).log = s.log ∧ (s.raise e).hold = s.hold ∧ (s.raise e).kept = s.kept ∧ (s.raise e).due = s.due ∧
    (s.raise e).engine = s.engine ∧ (s.raise e).attach = s.attach ∧ (s.raise e).regions = s.regions ∧
    (s.raise e).upstream = s.upstream ∧ (s.raise e).downstream = s.downstream ∧ (s.raise e).mgmt = s.mgmt ∧
    (s.raise e).pins = s.pins ∧ (s.raise e).out = s.out ∧ (s.raise e).free = s.free ∧ (s.raise e).pending = s.pending := by
  refine ⟨?_, ?_, ?_, ?_, ?_, ?_, ?_, ?_, ?_, ?_, ?_, ?_, ?_, ?_, ?_, ?_, ?_⟩ <;> rfl

@[simp] theorem State.raise_events (s : State) (e : Event) :
    (s.raise e).events = s.events.take e := rfl

/-- `State.sendResponse` leaves every field but out. -/
@[simp] theorem State.sendResponse_frame (s : State) (tag : BitVec 6) (result : UpResult) :
    (s.sendResponse tag result).contexts = s.contexts ∧ (s.sendResponse tag result).filter = s.filter ∧
    (s.sendResponse tag result).items = s.items ∧ (s.sendResponse tag result).log = s.log ∧
    (s.sendResponse tag result).hold = s.hold ∧ (s.sendResponse tag result).kept = s.kept ∧
    (s.sendResponse tag result).due = s.due ∧ (s.sendResponse tag result).engine = s.engine ∧
    (s.sendResponse tag result).attach = s.attach ∧ (s.sendResponse tag result).regions = s.regions ∧
    (s.sendResponse tag result).upstream = s.upstream ∧ (s.sendResponse tag result).downstream = s.downstream ∧
    (s.sendResponse tag result).events = s.events ∧ (s.sendResponse tag result).mgmt = s.mgmt ∧
    (s.sendResponse tag result).pins = s.pins ∧ (s.sendResponse tag result).free = s.free ∧
    (s.sendResponse tag result).pending = s.pending := by
  refine ⟨?_, ?_, ?_, ?_, ?_, ?_, ?_, ?_, ?_, ?_, ?_, ?_, ?_, ?_, ?_, ?_, ?_⟩ <;> rfl

@[simp] theorem State.sendResponse_out (s : State) (tag : BitVec 6) (result : UpResult) :
    (s.sendResponse tag result).out = { s.out with responses := s.out.responses ++ [⟨tag, result⟩] } := rfl

/-- `State.freeUpTag` leaves every field but upstream. -/
@[simp] theorem State.freeUpTag_frame (s : State) (tag : BitVec 6) :
    (s.freeUpTag tag).contexts = s.contexts ∧ (s.freeUpTag tag).filter = s.filter ∧
    (s.freeUpTag tag).items = s.items ∧ (s.freeUpTag tag).log = s.log ∧ (s.freeUpTag tag).hold = s.hold ∧
    (s.freeUpTag tag).kept = s.kept ∧ (s.freeUpTag tag).due = s.due ∧ (s.freeUpTag tag).engine = s.engine ∧
    (s.freeUpTag tag).attach = s.attach ∧ (s.freeUpTag tag).regions = s.regions ∧
    (s.freeUpTag tag).downstream = s.downstream ∧ (s.freeUpTag tag).events = s.events ∧
    (s.freeUpTag tag).mgmt = s.mgmt ∧ (s.freeUpTag tag).pins = s.pins ∧ (s.freeUpTag tag).out = s.out ∧
    (s.freeUpTag tag).free = s.free ∧ (s.freeUpTag tag).pending = s.pending := by
  refine ⟨?_, ?_, ?_, ?_, ?_, ?_, ?_, ?_, ?_, ?_, ?_, ?_, ?_, ?_, ?_, ?_, ?_⟩ <;> rfl

@[simp] theorem State.freeUpTag_upstream (s : State) (tag : BitVec 6) :
    (s.freeUpTag tag).upstream = { s.upstream with tags := s.upstream.tags.filter fun e => e.tag ≠ tag } := rfl

/-- `State.answerUp` leaves every field but upstream, out. -/
@[simp] theorem State.answerUp_frame (s : State) (tag : BitVec 6) (result : UpResult) :
    (s.answerUp tag result).contexts = s.contexts ∧ (s.answerUp tag result).filter = s.filter ∧
    (s.answerUp tag result).items = s.items ∧ (s.answerUp tag result).log = s.log ∧
    (s.answerUp tag result).hold = s.hold ∧ (s.answerUp tag result).kept = s.kept ∧
    (s.answerUp tag result).due = s.due ∧ (s.answerUp tag result).engine = s.engine ∧
    (s.answerUp tag result).attach = s.attach ∧ (s.answerUp tag result).regions = s.regions ∧
    (s.answerUp tag result).downstream = s.downstream ∧ (s.answerUp tag result).events = s.events ∧
    (s.answerUp tag result).mgmt = s.mgmt ∧ (s.answerUp tag result).pins = s.pins ∧
    (s.answerUp tag result).free = s.free ∧ (s.answerUp tag result).pending = s.pending := by
  refine ⟨?_, ?_, ?_, ?_, ?_, ?_, ?_, ?_, ?_, ?_, ?_, ?_, ?_, ?_, ?_, ?_⟩ <;> rfl

@[simp] theorem State.answerUp_upstream (s : State) (tag : BitVec 6) (result : UpResult) :
    (s.answerUp tag result).upstream = { s.upstream with tags := s.upstream.tags.filter fun e => e.tag ≠ tag } := rfl

@[simp] theorem State.answerUp_out (s : State) (tag : BitVec 6) (result : UpResult) :
    (s.answerUp tag result).out = { s.out with responses := s.out.responses ++ [⟨tag, result⟩] } := rfl

/-- `State.refuseRequest` leaves every field but upstream, out, events. -/
@[simp] theorem State.refuseRequest_frame (s : State) (r : UpRequest) (reason : Reason) :
    (s.refuseRequest r reason).contexts = s.contexts ∧ (s.refuseRequest r reason).filter = s.filter ∧
    (s.refuseRequest r reason).items = s.items ∧ (s.refuseRequest r reason).log = s.log ∧
    (s.refuseRequest r reason).hold = s.hold ∧ (s.refuseRequest r reason).kept = s.kept ∧
    (s.refuseRequest r reason).due = s.due ∧ (s.refuseRequest r reason).engine = s.engine ∧
    (s.refuseRequest r reason).attach = s.attach ∧ (s.refuseRequest r reason).regions = s.regions ∧
    (s.refuseRequest r reason).downstream = s.downstream ∧ (s.refuseRequest r reason).mgmt = s.mgmt ∧
    (s.refuseRequest r reason).pins = s.pins ∧ (s.refuseRequest r reason).free = s.free ∧
    (s.refuseRequest r reason).pending = s.pending := by
  refine ⟨?_, ?_, ?_, ?_, ?_, ?_, ?_, ?_, ?_, ?_, ?_, ?_, ?_, ?_, ?_⟩ <;> rfl

@[simp] theorem State.refuseRequest_upstream (s : State) (r : UpRequest) (reason : Reason) :
    (s.refuseRequest r reason).upstream =
      { s.upstream with tags := s.upstream.tags.filter fun e => e.tag ≠ r.tag } := rfl

@[simp] theorem State.refuseRequest_out (s : State) (r : UpRequest) (reason : Reason) :
    (s.refuseRequest r reason).out = { s.out with responses := s.out.responses ++ [⟨r.tag, .error⟩] } := rfl

@[simp] theorem State.refuseRequest_events (s : State) (r : UpRequest) (reason : Reason) :
    (s.refuseRequest r reason).events = s.events.take (refusedEvent r reason) := rfl

/-- `State.setContext` leaves every field but contexts. -/
@[simp] theorem State.setContext_frame (s : State) (c : Ctx) (r : ContextRecord) :
    (s.setContext c r).filter = s.filter ∧ (s.setContext c r).items = s.items ∧ (s.setContext c r).log = s.log ∧
    (s.setContext c r).hold = s.hold ∧ (s.setContext c r).kept = s.kept ∧ (s.setContext c r).due = s.due ∧
    (s.setContext c r).engine = s.engine ∧ (s.setContext c r).attach = s.attach ∧
    (s.setContext c r).regions = s.regions ∧ (s.setContext c r).upstream = s.upstream ∧
    (s.setContext c r).downstream = s.downstream ∧ (s.setContext c r).events = s.events ∧
    (s.setContext c r).mgmt = s.mgmt ∧ (s.setContext c r).pins = s.pins ∧ (s.setContext c r).out = s.out ∧
    (s.setContext c r).free = s.free ∧ (s.setContext c r).pending = s.pending := by
  refine ⟨?_, ?_, ?_, ?_, ?_, ?_, ?_, ?_, ?_, ?_, ?_, ?_, ?_, ?_, ?_, ?_, ?_⟩ <;> rfl

@[simp] theorem State.setContext_contexts (s : State) (c : Ctx) (r : ContextRecord) :
    (s.setContext c r).contexts = s.contexts.set c r := rfl

/-- `State.setProgress` leaves every field but engine. -/
@[simp] theorem State.setProgress_frame (s : State) (c : Ctx) (p : Progress) :
    (s.setProgress c p).contexts = s.contexts ∧ (s.setProgress c p).filter = s.filter ∧
    (s.setProgress c p).items = s.items ∧ (s.setProgress c p).log = s.log ∧ (s.setProgress c p).hold = s.hold ∧
    (s.setProgress c p).kept = s.kept ∧ (s.setProgress c p).due = s.due ∧ (s.setProgress c p).attach = s.attach ∧
    (s.setProgress c p).regions = s.regions ∧ (s.setProgress c p).upstream = s.upstream ∧
    (s.setProgress c p).downstream = s.downstream ∧ (s.setProgress c p).events = s.events ∧
    (s.setProgress c p).mgmt = s.mgmt ∧ (s.setProgress c p).pins = s.pins ∧ (s.setProgress c p).out = s.out ∧
    (s.setProgress c p).free = s.free ∧ (s.setProgress c p).pending = s.pending := by
  refine ⟨?_, ?_, ?_, ?_, ?_, ?_, ?_, ?_, ?_, ?_, ?_, ?_, ?_, ?_, ?_, ?_, ?_⟩ <;> rfl

@[simp] theorem State.setProgress_engine (s : State) (c : Ctx) (p : Progress) :
    (s.setProgress c p).engine = s.engine.set c p := rfl

/-- `State.insertFilter` leaves every field but filter. -/
@[simp] theorem State.insertFilter_frame (s : State) (e : FilterEntry) :
    (s.insertFilter e).contexts = s.contexts ∧ (s.insertFilter e).items = s.items ∧ (s.insertFilter e).log = s.log ∧
    (s.insertFilter e).hold = s.hold ∧ (s.insertFilter e).kept = s.kept ∧ (s.insertFilter e).due = s.due ∧
    (s.insertFilter e).engine = s.engine ∧ (s.insertFilter e).attach = s.attach ∧
    (s.insertFilter e).regions = s.regions ∧ (s.insertFilter e).upstream = s.upstream ∧
    (s.insertFilter e).downstream = s.downstream ∧ (s.insertFilter e).events = s.events ∧
    (s.insertFilter e).mgmt = s.mgmt ∧ (s.insertFilter e).pins = s.pins ∧ (s.insertFilter e).out = s.out ∧
    (s.insertFilter e).free = s.free ∧ (s.insertFilter e).pending = s.pending := by
  refine ⟨?_, ?_, ?_, ?_, ?_, ?_, ?_, ?_, ?_, ?_, ?_, ?_, ?_, ?_, ?_, ?_, ?_⟩ <;> rfl

@[simp] theorem State.insertFilter_filter (s : State) (e : FilterEntry) :
    (s.insertFilter e).filter = insertEntry e s.filter := rfl

/-- `State.removeLine` leaves every field but filter. -/
@[simp] theorem State.removeLine_frame (s : State) (l : Line) :
    (s.removeLine l).contexts = s.contexts ∧ (s.removeLine l).items = s.items ∧ (s.removeLine l).log = s.log ∧
    (s.removeLine l).hold = s.hold ∧ (s.removeLine l).kept = s.kept ∧ (s.removeLine l).due = s.due ∧
    (s.removeLine l).engine = s.engine ∧ (s.removeLine l).attach = s.attach ∧ (s.removeLine l).regions = s.regions ∧
    (s.removeLine l).upstream = s.upstream ∧ (s.removeLine l).downstream = s.downstream ∧
    (s.removeLine l).events = s.events ∧ (s.removeLine l).mgmt = s.mgmt ∧ (s.removeLine l).pins = s.pins ∧
    (s.removeLine l).out = s.out ∧ (s.removeLine l).free = s.free ∧ (s.removeLine l).pending = s.pending := by
  refine ⟨?_, ?_, ?_, ?_, ?_, ?_, ?_, ?_, ?_, ?_, ?_, ?_, ?_, ?_, ?_, ?_, ?_⟩ <;> rfl

@[simp] theorem State.removeLine_filter (s : State) (l : Line) :
    (s.removeLine l).filter = s.filter.filter fun e => e.line ≠ l := rfl

/-- `State.removeOwned` leaves every field but filter. -/
@[simp] theorem State.removeOwned_frame (s : State) (c : Ctx) :
    (s.removeOwned c).contexts = s.contexts ∧ (s.removeOwned c).items = s.items ∧ (s.removeOwned c).log = s.log ∧
    (s.removeOwned c).hold = s.hold ∧ (s.removeOwned c).kept = s.kept ∧ (s.removeOwned c).due = s.due ∧
    (s.removeOwned c).engine = s.engine ∧ (s.removeOwned c).attach = s.attach ∧
    (s.removeOwned c).regions = s.regions ∧ (s.removeOwned c).upstream = s.upstream ∧
    (s.removeOwned c).downstream = s.downstream ∧ (s.removeOwned c).events = s.events ∧
    (s.removeOwned c).mgmt = s.mgmt ∧ (s.removeOwned c).pins = s.pins ∧ (s.removeOwned c).out = s.out ∧
    (s.removeOwned c).free = s.free ∧ (s.removeOwned c).pending = s.pending := by
  refine ⟨?_, ?_, ?_, ?_, ?_, ?_, ?_, ?_, ?_, ?_, ?_, ?_, ?_, ?_, ?_, ?_, ?_⟩ <;> rfl

@[simp] theorem State.removeOwned_filter (s : State) (c : Ctx) :
    (s.removeOwned c).filter = s.filter.filter fun e => e.owner ≠ c := rfl

/-- `State.settleFilter` leaves every field but filter. -/
@[simp] theorem State.settleFilter_frame (s : State) (c : Ctx) :
    (s.settleFilter c).contexts = s.contexts ∧ (s.settleFilter c).items = s.items ∧ (s.settleFilter c).log = s.log ∧
    (s.settleFilter c).hold = s.hold ∧ (s.settleFilter c).kept = s.kept ∧ (s.settleFilter c).due = s.due ∧
    (s.settleFilter c).engine = s.engine ∧ (s.settleFilter c).attach = s.attach ∧
    (s.settleFilter c).regions = s.regions ∧ (s.settleFilter c).upstream = s.upstream ∧
    (s.settleFilter c).downstream = s.downstream ∧ (s.settleFilter c).events = s.events ∧
    (s.settleFilter c).mgmt = s.mgmt ∧ (s.settleFilter c).pins = s.pins ∧ (s.settleFilter c).out = s.out ∧
    (s.settleFilter c).free = s.free ∧ (s.settleFilter c).pending = s.pending := by
  refine ⟨?_, ?_, ?_, ?_, ?_, ?_, ?_, ?_, ?_, ?_, ?_, ?_, ?_, ?_, ?_, ?_, ?_⟩ <;> rfl

@[simp] theorem State.settleFilter_filter (s : State) (c : Ctx) :
    (s.settleFilter c).filter = s.filter.filter fun e => !(e.owner = c ∧ e.seq = none) := rfl

/-- `State.setFilterSeq` leaves every field but filter. -/
@[simp] theorem State.setFilterSeq_frame (s : State) (l : Line) (q : Seq) :
    (s.setFilterSeq l q).contexts = s.contexts ∧ (s.setFilterSeq l q).items = s.items ∧
    (s.setFilterSeq l q).log = s.log ∧ (s.setFilterSeq l q).hold = s.hold ∧ (s.setFilterSeq l q).kept = s.kept ∧
    (s.setFilterSeq l q).due = s.due ∧ (s.setFilterSeq l q).engine = s.engine ∧
    (s.setFilterSeq l q).attach = s.attach ∧ (s.setFilterSeq l q).regions = s.regions ∧
    (s.setFilterSeq l q).upstream = s.upstream ∧ (s.setFilterSeq l q).downstream = s.downstream ∧
    (s.setFilterSeq l q).events = s.events ∧ (s.setFilterSeq l q).mgmt = s.mgmt ∧
    (s.setFilterSeq l q).pins = s.pins ∧ (s.setFilterSeq l q).out = s.out ∧ (s.setFilterSeq l q).free = s.free ∧
    (s.setFilterSeq l q).pending = s.pending := by
  refine ⟨?_, ?_, ?_, ?_, ?_, ?_, ?_, ?_, ?_, ?_, ?_, ?_, ?_, ?_, ?_, ?_, ?_⟩ <;> rfl

@[simp] theorem State.setFilterSeq_filter (s : State) (l : Line) (q : Seq) :
    (s.setFilterSeq l q).filter = s.filter.map fun e => if e.line = l then { e with seq := some q } else e := rfl

/-- `State.setStage` leaves every field but hold. -/
@[simp] theorem State.setStage_frame (s : State) (l : Line) (stage : Stage) :
    (s.setStage l stage).contexts = s.contexts ∧ (s.setStage l stage).filter = s.filter ∧
    (s.setStage l stage).items = s.items ∧ (s.setStage l stage).log = s.log ∧ (s.setStage l stage).kept = s.kept ∧
    (s.setStage l stage).due = s.due ∧ (s.setStage l stage).engine = s.engine ∧
    (s.setStage l stage).attach = s.attach ∧ (s.setStage l stage).regions = s.regions ∧
    (s.setStage l stage).upstream = s.upstream ∧ (s.setStage l stage).downstream = s.downstream ∧
    (s.setStage l stage).events = s.events ∧ (s.setStage l stage).mgmt = s.mgmt ∧
    (s.setStage l stage).pins = s.pins ∧ (s.setStage l stage).out = s.out ∧ (s.setStage l stage).free = s.free ∧
    (s.setStage l stage).pending = s.pending := by
  refine ⟨?_, ?_, ?_, ?_, ?_, ?_, ?_, ?_, ?_, ?_, ?_, ?_, ?_, ?_, ?_, ?_, ?_⟩ <;> rfl

@[simp] theorem State.setStage_hold (s : State) (l : Line) (stage : Stage) :
    (s.setStage l stage).hold = s.hold.map fun e => e.setStage l stage := rfl

/-- `State.withdrawRead` leaves every field but downstream. -/
@[simp] theorem State.withdrawRead_frame (s : State) (l : Line) :
    (s.withdrawRead l).contexts = s.contexts ∧ (s.withdrawRead l).filter = s.filter ∧
    (s.withdrawRead l).items = s.items ∧ (s.withdrawRead l).log = s.log ∧ (s.withdrawRead l).hold = s.hold ∧
    (s.withdrawRead l).kept = s.kept ∧ (s.withdrawRead l).due = s.due ∧ (s.withdrawRead l).engine = s.engine ∧
    (s.withdrawRead l).attach = s.attach ∧ (s.withdrawRead l).regions = s.regions ∧
    (s.withdrawRead l).upstream = s.upstream ∧ (s.withdrawRead l).events = s.events ∧
    (s.withdrawRead l).mgmt = s.mgmt ∧ (s.withdrawRead l).pins = s.pins ∧ (s.withdrawRead l).out = s.out ∧
    (s.withdrawRead l).free = s.free ∧ (s.withdrawRead l).pending = s.pending := by
  refine ⟨?_, ?_, ?_, ?_, ?_, ?_, ?_, ?_, ?_, ?_, ?_, ?_, ?_, ?_, ?_, ?_, ?_⟩ <;> rfl

/-- `State.withdrawAppend` leaves every field but log. -/
@[simp] theorem State.withdrawAppend_frame (s : State) (l : Line) :
    (s.withdrawAppend l).contexts = s.contexts ∧ (s.withdrawAppend l).filter = s.filter ∧
    (s.withdrawAppend l).items = s.items ∧ (s.withdrawAppend l).hold = s.hold ∧ (s.withdrawAppend l).kept = s.kept ∧
    (s.withdrawAppend l).due = s.due ∧ (s.withdrawAppend l).engine = s.engine ∧
    (s.withdrawAppend l).attach = s.attach ∧ (s.withdrawAppend l).regions = s.regions ∧
    (s.withdrawAppend l).upstream = s.upstream ∧ (s.withdrawAppend l).downstream = s.downstream ∧
    (s.withdrawAppend l).events = s.events ∧ (s.withdrawAppend l).mgmt = s.mgmt ∧
    (s.withdrawAppend l).pins = s.pins ∧ (s.withdrawAppend l).out = s.out ∧ (s.withdrawAppend l).free = s.free ∧
    (s.withdrawAppend l).pending = s.pending := by
  refine ⟨?_, ?_, ?_, ?_, ?_, ?_, ?_, ?_, ?_, ?_, ?_, ?_, ?_, ?_, ?_, ?_, ?_⟩ <;> rfl

/-- `State.noteDue` leaves every field but due. -/
@[simp] theorem State.noteDue_frame (s : State) :
    (s.noteDue).contexts = s.contexts ∧ (s.noteDue).filter = s.filter ∧ (s.noteDue).items = s.items ∧
    (s.noteDue).log = s.log ∧ (s.noteDue).hold = s.hold ∧ (s.noteDue).kept = s.kept ∧ (s.noteDue).engine = s.engine ∧
    (s.noteDue).attach = s.attach ∧ (s.noteDue).regions = s.regions ∧ (s.noteDue).upstream = s.upstream ∧
    (s.noteDue).downstream = s.downstream ∧ (s.noteDue).events = s.events ∧ (s.noteDue).mgmt = s.mgmt ∧
    (s.noteDue).pins = s.pins ∧ (s.noteDue).out = s.out ∧ (s.noteDue).free = s.free ∧ (s.noteDue).pending = s.pending := by
  refine ⟨?_, ?_, ?_, ?_, ?_, ?_, ?_, ?_, ?_, ?_, ?_, ?_, ?_, ?_, ?_, ?_, ?_⟩ <;> rfl

/-- `State.emptyRequests` leaves every field but log. -/
@[simp] theorem State.emptyRequests_frame (s : State) :
    (s.emptyRequests).contexts = s.contexts ∧ (s.emptyRequests).filter = s.filter ∧
    (s.emptyRequests).items = s.items ∧ (s.emptyRequests).hold = s.hold ∧ (s.emptyRequests).kept = s.kept ∧
    (s.emptyRequests).due = s.due ∧ (s.emptyRequests).engine = s.engine ∧ (s.emptyRequests).attach = s.attach ∧
    (s.emptyRequests).regions = s.regions ∧ (s.emptyRequests).upstream = s.upstream ∧
    (s.emptyRequests).downstream = s.downstream ∧ (s.emptyRequests).events = s.events ∧
    (s.emptyRequests).mgmt = s.mgmt ∧ (s.emptyRequests).pins = s.pins ∧ (s.emptyRequests).out = s.out ∧
    (s.emptyRequests).free = s.free ∧ (s.emptyRequests).pending = s.pending := by
  refine ⟨?_, ?_, ?_, ?_, ?_, ?_, ?_, ?_, ?_, ?_, ?_, ?_, ?_, ?_, ?_, ?_, ?_⟩ <;> rfl

@[simp] theorem State.emptyRequests_log (s : State) :
    s.emptyRequests.log = { s.log with requests := [], spaceWaiter := none } := rfl

/-- `State.handAnchor` leaves every field but log, downstream. -/
@[simp] theorem State.handAnchor_frame (s : State) (a : Addr) (data : List Byte) (flight : AnchorFlight) :
    (s.handAnchor a data flight).contexts = s.contexts ∧ (s.handAnchor a data flight).filter = s.filter ∧
    (s.handAnchor a data flight).items = s.items ∧ (s.handAnchor a data flight).hold = s.hold ∧
    (s.handAnchor a data flight).kept = s.kept ∧ (s.handAnchor a data flight).due = s.due ∧
    (s.handAnchor a data flight).engine = s.engine ∧ (s.handAnchor a data flight).attach = s.attach ∧
    (s.handAnchor a data flight).regions = s.regions ∧ (s.handAnchor a data flight).upstream = s.upstream ∧
    (s.handAnchor a data flight).events = s.events ∧ (s.handAnchor a data flight).mgmt = s.mgmt ∧
    (s.handAnchor a data flight).pins = s.pins ∧ (s.handAnchor a data flight).out = s.out ∧
    (s.handAnchor a data flight).free = s.free ∧ (s.handAnchor a data flight).pending = s.pending := by
  refine ⟨?_, ?_, ?_, ?_, ?_, ?_, ?_, ?_, ?_, ?_, ?_, ?_, ?_, ?_, ?_, ?_⟩ <;> rfl

/-- `State.issueAnchor` leaves every field but log, downstream. -/
@[simp] theorem State.issueAnchor_frame (s : State) (issuer : Issuer) (state : AnchorState) (tail : Seq) :
    (s.issueAnchor issuer state tail).contexts = s.contexts ∧ (s.issueAnchor issuer state tail).filter = s.filter ∧
    (s.issueAnchor issuer state tail).items = s.items ∧ (s.issueAnchor issuer state tail).hold = s.hold ∧
    (s.issueAnchor issuer state tail).kept = s.kept ∧ (s.issueAnchor issuer state tail).due = s.due ∧
    (s.issueAnchor issuer state tail).engine = s.engine ∧ (s.issueAnchor issuer state tail).attach = s.attach ∧
    (s.issueAnchor issuer state tail).regions = s.regions ∧ (s.issueAnchor issuer state tail).upstream = s.upstream ∧
    (s.issueAnchor issuer state tail).events = s.events ∧ (s.issueAnchor issuer state tail).mgmt = s.mgmt ∧
    (s.issueAnchor issuer state tail).pins = s.pins ∧ (s.issueAnchor issuer state tail).out = s.out ∧
    (s.issueAnchor issuer state tail).free = s.free ∧ (s.issueAnchor issuer state tail).pending = s.pending := by
  refine ⟨?_, ?_, ?_, ?_, ?_, ?_, ?_, ?_, ?_, ?_, ?_, ?_, ?_, ?_, ?_, ?_⟩ <;> rfl

/-- `State.followFrontier` leaves every field but filter, hold. -/
@[simp] theorem State.followFrontier_frame (s : State) :
    (s.followFrontier).contexts = s.contexts ∧ (s.followFrontier).items = s.items ∧ (s.followFrontier).log = s.log ∧
    (s.followFrontier).kept = s.kept ∧ (s.followFrontier).due = s.due ∧ (s.followFrontier).engine = s.engine ∧
    (s.followFrontier).attach = s.attach ∧ (s.followFrontier).regions = s.regions ∧
    (s.followFrontier).upstream = s.upstream ∧ (s.followFrontier).downstream = s.downstream ∧
    (s.followFrontier).events = s.events ∧ (s.followFrontier).mgmt = s.mgmt ∧ (s.followFrontier).pins = s.pins ∧
    (s.followFrontier).out = s.out ∧ (s.followFrontier).free = s.free ∧ (s.followFrontier).pending = s.pending := by
  refine ⟨?_, ?_, ?_, ?_, ?_, ?_, ?_, ?_, ?_, ?_, ?_, ?_, ?_, ?_, ?_, ?_⟩ <;> rfl

@[simp] theorem State.followFrontier_filter (s : State) :
    s.followFrontier.filter = s.filter.map (FilterEntry.logIfCovered s.log) := rfl

@[simp] theorem State.followFrontier_hold (s : State) :
    s.followFrontier.hold =
      s.hold.map fun e => { e with items := e.items.map (CaptureItem.coverIfCovered s.log) } := rfl

/-- `State.setJournal` leaves every field but attach. -/
@[simp] theorem State.setJournal_frame (s : State) (j : JournalState) :
    (s.setJournal j).contexts = s.contexts ∧ (s.setJournal j).filter = s.filter ∧ (s.setJournal j).items = s.items ∧
    (s.setJournal j).log = s.log ∧ (s.setJournal j).hold = s.hold ∧ (s.setJournal j).kept = s.kept ∧
    (s.setJournal j).due = s.due ∧ (s.setJournal j).engine = s.engine ∧ (s.setJournal j).regions = s.regions ∧
    (s.setJournal j).upstream = s.upstream ∧ (s.setJournal j).downstream = s.downstream ∧
    (s.setJournal j).events = s.events ∧ (s.setJournal j).mgmt = s.mgmt ∧ (s.setJournal j).pins = s.pins ∧
    (s.setJournal j).out = s.out ∧ (s.setJournal j).free = s.free ∧ (s.setJournal j).pending = s.pending := by
  refine ⟨?_, ?_, ?_, ?_, ?_, ?_, ?_, ?_, ?_, ?_, ?_, ?_, ?_, ?_, ?_, ?_, ?_⟩ <;> rfl

@[simp] theorem State.setJournal_attach (s : State) (j : JournalState) :
    (s.setJournal j).attach = { s.attach with journal := j } := rfl

/-- `State.setAttach` leaves every field but attach. -/
@[simp] theorem State.setAttach_frame (s : State) (p : AttachProgress) :
    (s.setAttach p).contexts = s.contexts ∧ (s.setAttach p).filter = s.filter ∧ (s.setAttach p).items = s.items ∧
    (s.setAttach p).log = s.log ∧ (s.setAttach p).hold = s.hold ∧ (s.setAttach p).kept = s.kept ∧
    (s.setAttach p).due = s.due ∧ (s.setAttach p).engine = s.engine ∧ (s.setAttach p).regions = s.regions ∧
    (s.setAttach p).upstream = s.upstream ∧ (s.setAttach p).downstream = s.downstream ∧
    (s.setAttach p).events = s.events ∧ (s.setAttach p).mgmt = s.mgmt ∧ (s.setAttach p).pins = s.pins ∧
    (s.setAttach p).out = s.out ∧ (s.setAttach p).free = s.free ∧ (s.setAttach p).pending = s.pending := by
  refine ⟨?_, ?_, ?_, ?_, ?_, ?_, ?_, ?_, ?_, ?_, ?_, ?_, ?_, ?_, ?_, ?_, ?_⟩ <;> rfl

@[simp] theorem State.setAttach_attach (s : State) (p : AttachProgress) :
    (s.setAttach p).attach = { s.attach with progress := p } := rfl

/-- `State.handScan` leaves every field but downstream. -/
@[simp] theorem State.handScan_frame (s : State) (request : DownRequest) (step : AttachStep) (isWrite : Bool) :
    (s.handScan request step isWrite).contexts = s.contexts ∧ (s.handScan request step isWrite).filter = s.filter ∧
    (s.handScan request step isWrite).items = s.items ∧ (s.handScan request step isWrite).log = s.log ∧
    (s.handScan request step isWrite).hold = s.hold ∧ (s.handScan request step isWrite).kept = s.kept ∧
    (s.handScan request step isWrite).due = s.due ∧ (s.handScan request step isWrite).engine = s.engine ∧
    (s.handScan request step isWrite).attach = s.attach ∧ (s.handScan request step isWrite).regions = s.regions ∧
    (s.handScan request step isWrite).upstream = s.upstream ∧ (s.handScan request step isWrite).events = s.events ∧
    (s.handScan request step isWrite).mgmt = s.mgmt ∧ (s.handScan request step isWrite).pins = s.pins ∧
    (s.handScan request step isWrite).out = s.out ∧ (s.handScan request step isWrite).free = s.free ∧
    (s.handScan request step isWrite).pending = s.pending := by
  refine ⟨?_, ?_, ?_, ?_, ?_, ?_, ?_, ?_, ?_, ?_, ?_, ?_, ?_, ?_, ?_, ?_, ?_⟩ <;> rfl

/-- `State.handAttachAnchor` leaves every field but log, downstream. -/
@[simp] theorem State.handAttachAnchor_frame (s : State) (copy1 : Bool) (data : List Byte) (generation tail : Option Seq) :
    (s.handAttachAnchor copy1 data generation tail).contexts = s.contexts ∧
    (s.handAttachAnchor copy1 data generation tail).filter = s.filter ∧
    (s.handAttachAnchor copy1 data generation tail).items = s.items ∧
    (s.handAttachAnchor copy1 data generation tail).hold = s.hold ∧
    (s.handAttachAnchor copy1 data generation tail).kept = s.kept ∧
    (s.handAttachAnchor copy1 data generation tail).due = s.due ∧
    (s.handAttachAnchor copy1 data generation tail).engine = s.engine ∧
    (s.handAttachAnchor copy1 data generation tail).attach = s.attach ∧
    (s.handAttachAnchor copy1 data generation tail).regions = s.regions ∧
    (s.handAttachAnchor copy1 data generation tail).upstream = s.upstream ∧
    (s.handAttachAnchor copy1 data generation tail).events = s.events ∧
    (s.handAttachAnchor copy1 data generation tail).mgmt = s.mgmt ∧
    (s.handAttachAnchor copy1 data generation tail).pins = s.pins ∧
    (s.handAttachAnchor copy1 data generation tail).out = s.out ∧
    (s.handAttachAnchor copy1 data generation tail).free = s.free ∧
    (s.handAttachAnchor copy1 data generation tail).pending = s.pending := by
  refine ⟨?_, ?_, ?_, ?_, ?_, ?_, ?_, ?_, ?_, ?_, ?_, ?_, ?_, ?_, ?_, ?_⟩ <;> rfl

/-- `State.handRestore` leaves every field but engine, downstream. -/
@[simp] theorem State.handRestore_frame (s : State) (c : Ctx) (request : DownRequest) (step : ReplayStep) :
    (s.handRestore c request step).contexts = s.contexts ∧ (s.handRestore c request step).filter = s.filter ∧
    (s.handRestore c request step).items = s.items ∧ (s.handRestore c request step).log = s.log ∧
    (s.handRestore c request step).hold = s.hold ∧ (s.handRestore c request step).kept = s.kept ∧
    (s.handRestore c request step).due = s.due ∧ (s.handRestore c request step).attach = s.attach ∧
    (s.handRestore c request step).regions = s.regions ∧ (s.handRestore c request step).upstream = s.upstream ∧
    (s.handRestore c request step).events = s.events ∧ (s.handRestore c request step).mgmt = s.mgmt ∧
    (s.handRestore c request step).pins = s.pins ∧ (s.handRestore c request step).out = s.out ∧
    (s.handRestore c request step).free = s.free ∧ (s.handRestore c request step).pending = s.pending := by
  refine ⟨?_, ?_, ?_, ?_, ?_, ?_, ?_, ?_, ?_, ?_, ?_, ?_, ?_, ?_, ?_, ?_⟩ <;> rfl

@[simp] theorem State.handRestore_engine (s : State) (c : Ctx) (request : DownRequest) (step : ReplayStep) :
    (s.handRestore c request step).engine =
      s.engine.set c { s.engine.get c with replayStep := some step } := rfl

/-- `State.handAppend` leaves every field but downstream. -/
@[simp] theorem State.handAppend_frame (s : State) (q : Seq) (data : List Byte) :
    (s.handAppend q data).contexts = s.contexts ∧ (s.handAppend q data).filter = s.filter ∧
    (s.handAppend q data).items = s.items ∧ (s.handAppend q data).log = s.log ∧ (s.handAppend q data).hold = s.hold ∧
    (s.handAppend q data).kept = s.kept ∧ (s.handAppend q data).due = s.due ∧
    (s.handAppend q data).engine = s.engine ∧ (s.handAppend q data).attach = s.attach ∧
    (s.handAppend q data).regions = s.regions ∧ (s.handAppend q data).upstream = s.upstream ∧
    (s.handAppend q data).events = s.events ∧ (s.handAppend q data).mgmt = s.mgmt ∧
    (s.handAppend q data).pins = s.pins ∧ (s.handAppend q data).out = s.out ∧ (s.handAppend q data).free = s.free ∧
    (s.handAppend q data).pending = s.pending := by
  refine ⟨?_, ?_, ?_, ?_, ?_, ?_, ?_, ?_, ?_, ?_, ?_, ?_, ?_, ?_, ?_, ?_, ?_⟩ <;> rfl

/-- `State.askMarker` leaves every field but log, engine. -/
@[simp] theorem State.askMarker_frame (s : State) (kind : MarkerKind) (c : Ctx) :
    (s.askMarker kind c).contexts = s.contexts ∧ (s.askMarker kind c).filter = s.filter ∧
    (s.askMarker kind c).items = s.items ∧ (s.askMarker kind c).hold = s.hold ∧ (s.askMarker kind c).kept = s.kept ∧
    (s.askMarker kind c).due = s.due ∧ (s.askMarker kind c).attach = s.attach ∧
    (s.askMarker kind c).regions = s.regions ∧ (s.askMarker kind c).upstream = s.upstream ∧
    (s.askMarker kind c).downstream = s.downstream ∧ (s.askMarker kind c).events = s.events ∧
    (s.askMarker kind c).mgmt = s.mgmt ∧ (s.askMarker kind c).pins = s.pins ∧ (s.askMarker kind c).out = s.out ∧
    (s.askMarker kind c).free = s.free ∧ (s.askMarker kind c).pending = s.pending := by
  refine ⟨?_, ?_, ?_, ?_, ?_, ?_, ?_, ?_, ?_, ?_, ?_, ?_, ?_, ?_, ?_, ?_⟩ <;> rfl

@[simp] theorem State.askMarker_engine (s : State) (kind : MarkerKind) (c : Ctx) :
    (s.askMarker kind c).engine = s.engine.set c { s.engine.get c with phase := .marking } := rfl

/-- `State.completeCommit` leaves every field but contexts, filter, events, engine. -/
@[simp] theorem State.completeCommit_frame (s : State) (c : Ctx) :
    (s.completeCommit c).items = s.items ∧ (s.completeCommit c).log = s.log ∧ (s.completeCommit c).hold = s.hold ∧
    (s.completeCommit c).kept = s.kept ∧ (s.completeCommit c).due = s.due ∧ (s.completeCommit c).attach = s.attach ∧
    (s.completeCommit c).regions = s.regions ∧ (s.completeCommit c).upstream = s.upstream ∧
    (s.completeCommit c).downstream = s.downstream ∧ (s.completeCommit c).mgmt = s.mgmt ∧
    (s.completeCommit c).pins = s.pins ∧ (s.completeCommit c).out = s.out ∧ (s.completeCommit c).free = s.free ∧
    (s.completeCommit c).pending = s.pending := by
  refine ⟨?_, ?_, ?_, ?_, ?_, ?_, ?_, ?_, ?_, ?_, ?_, ?_, ?_, ?_⟩ <;> rfl

@[simp] theorem State.completeCommit_contexts (s : State) (c : Ctx) :
    (s.completeCommit c).contexts = s.contexts.set c (s.contexts.get c).toIdle := rfl

@[simp] theorem State.completeCommit_filter (s : State) (c : Ctx) :
    (s.completeCommit c).filter = s.filter.filter fun e => e.owner ≠ c := rfl

@[simp] theorem State.completeCommit_engine (s : State) (c : Ctx) :
    (s.completeCommit c).engine = s.engine.set c .reset := rfl

/-- `State.completeAbort` leaves every field but contexts, filter, events, engine. -/
@[simp] theorem State.completeAbort_frame (s : State) (c : Ctx) :
    (s.completeAbort c).items = s.items ∧ (s.completeAbort c).log = s.log ∧ (s.completeAbort c).hold = s.hold ∧
    (s.completeAbort c).kept = s.kept ∧ (s.completeAbort c).due = s.due ∧ (s.completeAbort c).attach = s.attach ∧
    (s.completeAbort c).regions = s.regions ∧ (s.completeAbort c).upstream = s.upstream ∧
    (s.completeAbort c).downstream = s.downstream ∧ (s.completeAbort c).mgmt = s.mgmt ∧
    (s.completeAbort c).pins = s.pins ∧ (s.completeAbort c).out = s.out ∧ (s.completeAbort c).free = s.free ∧
    (s.completeAbort c).pending = s.pending := by
  refine ⟨?_, ?_, ?_, ?_, ?_, ?_, ?_, ?_, ?_, ?_, ?_, ?_, ?_, ?_⟩ <;> rfl

@[simp] theorem State.completeAbort_contexts (s : State) (c : Ctx) :
    (s.completeAbort c).contexts = s.contexts.set c (s.contexts.get c).toIdle := rfl

@[simp] theorem State.completeAbort_filter (s : State) (c : Ctx) :
    (s.completeAbort c).filter = s.filter.filter fun e => e.owner ≠ c := rfl

@[simp] theorem State.completeAbort_engine (s : State) (c : Ctx) :
    (s.completeAbort c).engine = s.engine.set c .reset := rfl

/-- `State.failCommit` leaves every field but events, engine. -/
@[simp] theorem State.failCommit_frame (s : State) (c : Ctx) :
    (s.failCommit c).contexts = s.contexts ∧ (s.failCommit c).filter = s.filter ∧ (s.failCommit c).items = s.items ∧
    (s.failCommit c).log = s.log ∧ (s.failCommit c).hold = s.hold ∧ (s.failCommit c).kept = s.kept ∧
    (s.failCommit c).due = s.due ∧ (s.failCommit c).attach = s.attach ∧ (s.failCommit c).regions = s.regions ∧
    (s.failCommit c).upstream = s.upstream ∧ (s.failCommit c).downstream = s.downstream ∧
    (s.failCommit c).mgmt = s.mgmt ∧ (s.failCommit c).pins = s.pins ∧ (s.failCommit c).out = s.out ∧
    (s.failCommit c).free = s.free ∧ (s.failCommit c).pending = s.pending := by
  refine ⟨?_, ?_, ?_, ?_, ?_, ?_, ?_, ?_, ?_, ?_, ?_, ?_, ?_, ?_, ?_, ?_⟩ <;> rfl

/-- `State.enterDrained` leaves every field but attach, events. -/
@[simp] theorem State.enterDrained_frame (s : State) (detail : DrainDetail) :
    (s.enterDrained detail).contexts = s.contexts ∧ (s.enterDrained detail).filter = s.filter ∧
    (s.enterDrained detail).items = s.items ∧ (s.enterDrained detail).log = s.log ∧
    (s.enterDrained detail).hold = s.hold ∧ (s.enterDrained detail).kept = s.kept ∧
    (s.enterDrained detail).due = s.due ∧ (s.enterDrained detail).engine = s.engine ∧
    (s.enterDrained detail).regions = s.regions ∧ (s.enterDrained detail).upstream = s.upstream ∧
    (s.enterDrained detail).downstream = s.downstream ∧ (s.enterDrained detail).mgmt = s.mgmt ∧
    (s.enterDrained detail).pins = s.pins ∧ (s.enterDrained detail).out = s.out ∧
    (s.enterDrained detail).free = s.free ∧ (s.enterDrained detail).pending = s.pending := by
  refine ⟨?_, ?_, ?_, ?_, ?_, ?_, ?_, ?_, ?_, ?_, ?_, ?_, ?_, ?_, ?_, ?_⟩ <;> rfl

@[simp] theorem State.enterDrained_attach (s : State) (detail : DrainDetail) :
    (s.enterDrained detail).attach = { s.attach with
      journal := .drained, quiet := true, drain := { s.attach.drain with detail := some detail } } := rfl

@[simp] theorem State.enterDrained_events (s : State) (detail : DrainDetail) :
    (s.enterDrained detail).events = s.events.take (drainedEvent detail s.attach.drain.finalTail) := rfl

/-- `State.stopEngines` leaves every field but engine, downstream. -/
@[simp] theorem State.stopEngines_frame (s : State) :
    (s.stopEngines).contexts = s.contexts ∧ (s.stopEngines).filter = s.filter ∧ (s.stopEngines).items = s.items ∧
    (s.stopEngines).log = s.log ∧ (s.stopEngines).hold = s.hold ∧ (s.stopEngines).kept = s.kept ∧
    (s.stopEngines).due = s.due ∧ (s.stopEngines).attach = s.attach ∧ (s.stopEngines).regions = s.regions ∧
    (s.stopEngines).upstream = s.upstream ∧ (s.stopEngines).events = s.events ∧ (s.stopEngines).mgmt = s.mgmt ∧
    (s.stopEngines).pins = s.pins ∧ (s.stopEngines).out = s.out ∧ (s.stopEngines).free = s.free ∧
    (s.stopEngines).pending = s.pending := by
  refine ⟨?_, ?_, ?_, ?_, ?_, ?_, ?_, ?_, ?_, ?_, ?_, ?_, ?_, ?_, ?_, ?_⟩ <;> rfl

/-- `State.setPlace` leaves every field but upstream. -/
@[simp] theorem State.setPlace_frame (s : State) (tag : BitVec 6) (place : TagPlace) :
    (s.setPlace tag place).contexts = s.contexts ∧ (s.setPlace tag place).filter = s.filter ∧
    (s.setPlace tag place).items = s.items ∧ (s.setPlace tag place).log = s.log ∧
    (s.setPlace tag place).hold = s.hold ∧ (s.setPlace tag place).kept = s.kept ∧
    (s.setPlace tag place).due = s.due ∧ (s.setPlace tag place).engine = s.engine ∧
    (s.setPlace tag place).attach = s.attach ∧ (s.setPlace tag place).regions = s.regions ∧
    (s.setPlace tag place).downstream = s.downstream ∧ (s.setPlace tag place).events = s.events ∧
    (s.setPlace tag place).mgmt = s.mgmt ∧ (s.setPlace tag place).pins = s.pins ∧
    (s.setPlace tag place).out = s.out ∧ (s.setPlace tag place).free = s.free ∧
    (s.setPlace tag place).pending = s.pending := by
  refine ⟨?_, ?_, ?_, ?_, ?_, ?_, ?_, ?_, ?_, ?_, ?_, ?_, ?_, ?_, ?_, ?_, ?_⟩ <;> rfl

@[simp] theorem State.setPlace_upstream (s : State) (tag : BitVec 6) (place : TagPlace) :
    (s.setPlace tag place).upstream = { s.upstream with
      tags := s.upstream.tags.map fun e => if e.tag = tag then { e with place := place } else e } := rfl

/-- `State.setIntake` leaves every field but upstream. -/
@[simp] theorem State.setIntake_frame (s : State) (intake : Intake) (head : Option UpRequest) :
    (s.setIntake intake head).contexts = s.contexts ∧ (s.setIntake intake head).filter = s.filter ∧
    (s.setIntake intake head).items = s.items ∧ (s.setIntake intake head).log = s.log ∧
    (s.setIntake intake head).hold = s.hold ∧ (s.setIntake intake head).kept = s.kept ∧
    (s.setIntake intake head).due = s.due ∧ (s.setIntake intake head).engine = s.engine ∧
    (s.setIntake intake head).attach = s.attach ∧ (s.setIntake intake head).regions = s.regions ∧
    (s.setIntake intake head).downstream = s.downstream ∧ (s.setIntake intake head).events = s.events ∧
    (s.setIntake intake head).mgmt = s.mgmt ∧ (s.setIntake intake head).pins = s.pins ∧
    (s.setIntake intake head).out = s.out ∧ (s.setIntake intake head).free = s.free ∧
    (s.setIntake intake head).pending = s.pending := by
  refine ⟨?_, ?_, ?_, ?_, ?_, ?_, ?_, ?_, ?_, ?_, ?_, ?_, ?_, ?_, ?_, ?_, ?_⟩ <;> rfl

@[simp] theorem State.setIntake_upstream (s : State) (intake : Intake) (head : Option UpRequest) :
    (s.setIntake intake head).upstream = { s.upstream with intake := intake, head := head } := rfl

/-- `State.joinHold` leaves every field but hold, upstream. -/
@[simp] theorem State.joinHold_frame (s : State) (r : UpRequest) (journaled : Bool) (newLines : List Line) :
    (s.joinHold r journaled newLines).contexts = s.contexts ∧ (s.joinHold r journaled newLines).filter = s.filter ∧
    (s.joinHold r journaled newLines).items = s.items ∧ (s.joinHold r journaled newLines).log = s.log ∧
    (s.joinHold r journaled newLines).kept = s.kept ∧ (s.joinHold r journaled newLines).due = s.due ∧
    (s.joinHold r journaled newLines).engine = s.engine ∧ (s.joinHold r journaled newLines).attach = s.attach ∧
    (s.joinHold r journaled newLines).regions = s.regions ∧
    (s.joinHold r journaled newLines).downstream = s.downstream ∧
    (s.joinHold r journaled newLines).events = s.events ∧ (s.joinHold r journaled newLines).mgmt = s.mgmt ∧
    (s.joinHold r journaled newLines).pins = s.pins ∧ (s.joinHold r journaled newLines).out = s.out ∧
    (s.joinHold r journaled newLines).free = s.free ∧ (s.joinHold r journaled newLines).pending = s.pending := by
  refine ⟨?_, ?_, ?_, ?_, ?_, ?_, ?_, ?_, ?_, ?_, ?_, ?_, ?_, ?_, ?_, ?_⟩ <;> rfl

@[simp] theorem State.joinHold_hold (s : State) (r : UpRequest) (journaled : Bool) (newLines : List Line) :
    (s.joinHold r journaled newLines).hold = s.hold ++
      [{ request := r, journaled := journaled, items := newLines.map newItem, released := false }] := rfl

/-- `State.enterForward` leaves every field but downstream, upstream. -/
@[simp] theorem State.enterForward_frame (s : State) (r : UpRequest) :
    (s.enterForward r).contexts = s.contexts ∧ (s.enterForward r).filter = s.filter ∧
    (s.enterForward r).items = s.items ∧ (s.enterForward r).log = s.log ∧ (s.enterForward r).hold = s.hold ∧
    (s.enterForward r).kept = s.kept ∧ (s.enterForward r).due = s.due ∧ (s.enterForward r).engine = s.engine ∧
    (s.enterForward r).attach = s.attach ∧ (s.enterForward r).regions = s.regions ∧
    (s.enterForward r).events = s.events ∧ (s.enterForward r).mgmt = s.mgmt ∧ (s.enterForward r).pins = s.pins ∧
    (s.enterForward r).out = s.out ∧ (s.enterForward r).free = s.free ∧ (s.enterForward r).pending = s.pending := by
  refine ⟨?_, ?_, ?_, ?_, ?_, ?_, ?_, ?_, ?_, ?_, ?_, ?_, ?_, ?_, ?_, ?_⟩ <;> rfl

/-- `State.addTag` leaves every field but upstream. -/
@[simp] theorem State.addTag_frame (s : State) (r : UpRequest) :
    (s.addTag r).contexts = s.contexts ∧ (s.addTag r).filter = s.filter ∧ (s.addTag r).items = s.items ∧
    (s.addTag r).log = s.log ∧ (s.addTag r).hold = s.hold ∧ (s.addTag r).kept = s.kept ∧ (s.addTag r).due = s.due ∧
    (s.addTag r).engine = s.engine ∧ (s.addTag r).attach = s.attach ∧ (s.addTag r).regions = s.regions ∧
    (s.addTag r).downstream = s.downstream ∧ (s.addTag r).events = s.events ∧ (s.addTag r).mgmt = s.mgmt ∧
    (s.addTag r).pins = s.pins ∧ (s.addTag r).out = s.out ∧ (s.addTag r).free = s.free ∧
    (s.addTag r).pending = s.pending := by
  refine ⟨?_, ?_, ?_, ?_, ?_, ?_, ?_, ?_, ?_, ?_, ?_, ?_, ?_, ?_, ?_, ?_, ?_⟩ <;> rfl

/-- `State.arrive` leaves every field but upstream. -/
@[simp] theorem State.arrive_frame (s : State) (arrival : Option UpRequest) :
    (s.arrive arrival).contexts = s.contexts ∧ (s.arrive arrival).filter = s.filter ∧
    (s.arrive arrival).items = s.items ∧ (s.arrive arrival).log = s.log ∧ (s.arrive arrival).hold = s.hold ∧
    (s.arrive arrival).kept = s.kept ∧ (s.arrive arrival).due = s.due ∧ (s.arrive arrival).engine = s.engine ∧
    (s.arrive arrival).attach = s.attach ∧ (s.arrive arrival).regions = s.regions ∧
    (s.arrive arrival).downstream = s.downstream ∧ (s.arrive arrival).events = s.events ∧
    (s.arrive arrival).mgmt = s.mgmt ∧ (s.arrive arrival).pins = s.pins ∧ (s.arrive arrival).out = s.out ∧
    (s.arrive arrival).free = s.free ∧ (s.arrive arrival).pending = s.pending := by
  refine ⟨?_, ?_, ?_, ?_, ?_, ?_, ?_, ?_, ?_, ?_, ?_, ?_, ?_, ?_, ?_, ?_, ?_⟩ <;> rfl

@[simp] theorem State.arrive_upstream (s : State) (arrival : Option UpRequest) :
    (s.arrive arrival).upstream = { s.upstream with link := s.upstream.link ++ arrival.toList } := rfl

/-- `State.forwardHeld` leaves every field but downstream. -/
@[simp] theorem State.forwardHeld_frame (s : State) (r : UpRequest) :
    (s.forwardHeld r).contexts = s.contexts ∧ (s.forwardHeld r).filter = s.filter ∧
    (s.forwardHeld r).items = s.items ∧ (s.forwardHeld r).log = s.log ∧ (s.forwardHeld r).hold = s.hold ∧
    (s.forwardHeld r).kept = s.kept ∧ (s.forwardHeld r).due = s.due ∧ (s.forwardHeld r).engine = s.engine ∧
    (s.forwardHeld r).attach = s.attach ∧ (s.forwardHeld r).regions = s.regions ∧
    (s.forwardHeld r).upstream = s.upstream ∧ (s.forwardHeld r).events = s.events ∧ (s.forwardHeld r).mgmt = s.mgmt ∧
    (s.forwardHeld r).pins = s.pins ∧ (s.forwardHeld r).out = s.out ∧ (s.forwardHeld r).free = s.free ∧
    (s.forwardHeld r).pending = s.pending := by
  refine ⟨?_, ?_, ?_, ?_, ?_, ?_, ?_, ?_, ?_, ?_, ?_, ?_, ?_, ?_, ?_, ?_, ?_⟩ <;> rfl

/-- `State.handCapture` leaves every field but hold, due, downstream. -/
@[simp] theorem State.handCapture_frame (s : State) (ref : CaptureRef) :
    (s.handCapture ref).contexts = s.contexts ∧ (s.handCapture ref).filter = s.filter ∧
    (s.handCapture ref).items = s.items ∧ (s.handCapture ref).log = s.log ∧ (s.handCapture ref).kept = s.kept ∧
    (s.handCapture ref).engine = s.engine ∧ (s.handCapture ref).attach = s.attach ∧
    (s.handCapture ref).regions = s.regions ∧ (s.handCapture ref).upstream = s.upstream ∧
    (s.handCapture ref).events = s.events ∧ (s.handCapture ref).mgmt = s.mgmt ∧ (s.handCapture ref).pins = s.pins ∧
    (s.handCapture ref).out = s.out ∧ (s.handCapture ref).free = s.free ∧ (s.handCapture ref).pending = s.pending := by
  refine ⟨?_, ?_, ?_, ?_, ?_, ?_, ?_, ?_, ?_, ?_, ?_, ?_, ?_, ?_, ?_⟩ <;> rfl

/-- `State.takePreImage` leaves every field but contexts, filter, log, hold, downstream. -/
@[simp] theorem State.takePreImage_frame (s : State) (c : Ctx) (l : Line) (image : List Byte) :
    (s.takePreImage c l image).items = s.items ∧ (s.takePreImage c l image).kept = s.kept ∧
    (s.takePreImage c l image).due = s.due ∧ (s.takePreImage c l image).engine = s.engine ∧
    (s.takePreImage c l image).attach = s.attach ∧ (s.takePreImage c l image).regions = s.regions ∧
    (s.takePreImage c l image).upstream = s.upstream ∧ (s.takePreImage c l image).events = s.events ∧
    (s.takePreImage c l image).mgmt = s.mgmt ∧ (s.takePreImage c l image).pins = s.pins ∧
    (s.takePreImage c l image).out = s.out ∧ (s.takePreImage c l image).free = s.free ∧
    (s.takePreImage c l image).pending = s.pending := by
  refine ⟨?_, ?_, ?_, ?_, ?_, ?_, ?_, ?_, ?_, ?_, ?_, ?_, ?_⟩ <;> rfl

/-- `State.takeMarker` leaves every field but contexts, log, engine, downstream. -/
@[simp] theorem State.takeMarker_frame (s : State) (kind : MarkerKind) (c : Ctx) (epoch : Epoch) (incomplete : Bool) :
    (s.takeMarker kind c epoch incomplete).filter = s.filter ∧
    (s.takeMarker kind c epoch incomplete).items = s.items ∧ (s.takeMarker kind c epoch incomplete).hold = s.hold ∧
    (s.takeMarker kind c epoch incomplete).kept = s.kept ∧ (s.takeMarker kind c epoch incomplete).due = s.due ∧
    (s.takeMarker kind c epoch incomplete).attach = s.attach ∧
    (s.takeMarker kind c epoch incomplete).regions = s.regions ∧
    (s.takeMarker kind c epoch incomplete).upstream = s.upstream ∧
    (s.takeMarker kind c epoch incomplete).events = s.events ∧ (s.takeMarker kind c epoch incomplete).mgmt = s.mgmt ∧
    (s.takeMarker kind c epoch incomplete).pins = s.pins ∧ (s.takeMarker kind c epoch incomplete).out = s.out ∧
    (s.takeMarker kind c epoch incomplete).free = s.free ∧ (s.takeMarker kind c epoch incomplete).pending = s.pending := by
  refine ⟨?_, ?_, ?_, ?_, ?_, ?_, ?_, ?_, ?_, ?_, ?_, ?_, ?_, ?_⟩ <;> rfl

/-- `State.removeForwarded` leaves every field but hold. -/
@[simp] theorem State.removeForwarded_frame (s : State) (tag : BitVec 6) :
    (s.removeForwarded tag).contexts = s.contexts ∧ (s.removeForwarded tag).filter = s.filter ∧
    (s.removeForwarded tag).items = s.items ∧ (s.removeForwarded tag).log = s.log ∧
    (s.removeForwarded tag).kept = s.kept ∧ (s.removeForwarded tag).due = s.due ∧
    (s.removeForwarded tag).engine = s.engine ∧ (s.removeForwarded tag).attach = s.attach ∧
    (s.removeForwarded tag).regions = s.regions ∧ (s.removeForwarded tag).upstream = s.upstream ∧
    (s.removeForwarded tag).downstream = s.downstream ∧ (s.removeForwarded tag).events = s.events ∧
    (s.removeForwarded tag).mgmt = s.mgmt ∧ (s.removeForwarded tag).pins = s.pins ∧
    (s.removeForwarded tag).out = s.out ∧ (s.removeForwarded tag).free = s.free ∧
    (s.removeForwarded tag).pending = s.pending := by
  refine ⟨?_, ?_, ?_, ?_, ?_, ?_, ?_, ?_, ?_, ?_, ?_, ?_, ?_, ?_, ?_, ?_, ?_⟩ <;> rfl

@[simp] theorem State.removeForwarded_hold (s : State) (tag : BitVec 6) :
    (s.removeForwarded tag).hold = s.hold.eraseP fun e => e.released && e.request.tag == tag := rfl

/-- `State.dropItem` leaves every field but hold, filter. -/
@[simp] theorem State.dropItem_frame (s : State) (l : Line) :
    (s.dropItem l).contexts = s.contexts ∧ (s.dropItem l).items = s.items ∧ (s.dropItem l).log = s.log ∧
    (s.dropItem l).kept = s.kept ∧ (s.dropItem l).due = s.due ∧ (s.dropItem l).engine = s.engine ∧
    (s.dropItem l).attach = s.attach ∧ (s.dropItem l).regions = s.regions ∧ (s.dropItem l).upstream = s.upstream ∧
    (s.dropItem l).downstream = s.downstream ∧ (s.dropItem l).events = s.events ∧ (s.dropItem l).mgmt = s.mgmt ∧
    (s.dropItem l).pins = s.pins ∧ (s.dropItem l).out = s.out ∧ (s.dropItem l).free = s.free ∧
    (s.dropItem l).pending = s.pending := by
  refine ⟨?_, ?_, ?_, ?_, ?_, ?_, ?_, ?_, ?_, ?_, ?_, ?_, ?_, ?_, ?_, ?_⟩ <;> rfl

/-- `State.removeOutstanding` leaves every field but downstream. -/
@[simp] theorem State.removeOutstanding_frame (s : State) (tag : BitVec 4) :
    (s.removeOutstanding tag).contexts = s.contexts ∧ (s.removeOutstanding tag).filter = s.filter ∧
    (s.removeOutstanding tag).items = s.items ∧ (s.removeOutstanding tag).log = s.log ∧
    (s.removeOutstanding tag).hold = s.hold ∧ (s.removeOutstanding tag).kept = s.kept ∧
    (s.removeOutstanding tag).due = s.due ∧ (s.removeOutstanding tag).engine = s.engine ∧
    (s.removeOutstanding tag).attach = s.attach ∧ (s.removeOutstanding tag).regions = s.regions ∧
    (s.removeOutstanding tag).upstream = s.upstream ∧ (s.removeOutstanding tag).events = s.events ∧
    (s.removeOutstanding tag).mgmt = s.mgmt ∧ (s.removeOutstanding tag).pins = s.pins ∧
    (s.removeOutstanding tag).out = s.out ∧ (s.removeOutstanding tag).free = s.free ∧
    (s.removeOutstanding tag).pending = s.pending := by
  refine ⟨?_, ?_, ?_, ?_, ?_, ?_, ?_, ?_, ?_, ?_, ?_, ?_, ?_, ?_, ?_, ?_, ?_⟩ <;> rfl

@[simp] theorem State.removeOutstanding_downstream (s : State) (tag : BitVec 4) :
    (s.removeOutstanding tag).downstream = { s.downstream with
      outstanding := s.downstream.outstanding.filter fun e => e.tag ≠ tag } := rfl

/-- `State.loadNextEpochs` leaves every field but contexts. -/
@[simp] theorem State.loadNextEpochs_frame (s : State) (e : Quad Epoch) :
    (s.loadNextEpochs e).filter = s.filter ∧ (s.loadNextEpochs e).items = s.items ∧
    (s.loadNextEpochs e).log = s.log ∧ (s.loadNextEpochs e).hold = s.hold ∧ (s.loadNextEpochs e).kept = s.kept ∧
    (s.loadNextEpochs e).due = s.due ∧ (s.loadNextEpochs e).engine = s.engine ∧
    (s.loadNextEpochs e).attach = s.attach ∧ (s.loadNextEpochs e).regions = s.regions ∧
    (s.loadNextEpochs e).upstream = s.upstream ∧ (s.loadNextEpochs e).downstream = s.downstream ∧
    (s.loadNextEpochs e).events = s.events ∧ (s.loadNextEpochs e).mgmt = s.mgmt ∧
    (s.loadNextEpochs e).pins = s.pins ∧ (s.loadNextEpochs e).out = s.out ∧ (s.loadNextEpochs e).free = s.free ∧
    (s.loadNextEpochs e).pending = s.pending := by
  refine ⟨?_, ?_, ?_, ?_, ?_, ?_, ?_, ?_, ?_, ?_, ?_, ?_, ?_, ?_, ?_, ?_, ?_⟩ <;> rfl

/-- `State.withdrawHanded` leaves every field but downstream. -/
@[simp] theorem State.withdrawHanded_frame (s : State) :
    (s.withdrawHanded).contexts = s.contexts ∧ (s.withdrawHanded).filter = s.filter ∧
    (s.withdrawHanded).items = s.items ∧ (s.withdrawHanded).log = s.log ∧ (s.withdrawHanded).hold = s.hold ∧
    (s.withdrawHanded).kept = s.kept ∧ (s.withdrawHanded).due = s.due ∧ (s.withdrawHanded).engine = s.engine ∧
    (s.withdrawHanded).attach = s.attach ∧ (s.withdrawHanded).regions = s.regions ∧
    (s.withdrawHanded).upstream = s.upstream ∧ (s.withdrawHanded).events = s.events ∧
    (s.withdrawHanded).mgmt = s.mgmt ∧ (s.withdrawHanded).pins = s.pins ∧ (s.withdrawHanded).out = s.out ∧
    (s.withdrawHanded).free = s.free ∧ (s.withdrawHanded).pending = s.pending := by
  refine ⟨?_, ?_, ?_, ?_, ?_, ?_, ?_, ?_, ?_, ?_, ?_, ?_, ?_, ?_, ?_, ?_, ?_⟩ <;> rfl

/-- `State.enterWaiting` leaves every field but mgmt. -/
@[simp] theorem State.enterWaiting_frame (s : State) :
    (s.enterWaiting).contexts = s.contexts ∧ (s.enterWaiting).filter = s.filter ∧ (s.enterWaiting).items = s.items ∧
    (s.enterWaiting).log = s.log ∧ (s.enterWaiting).hold = s.hold ∧ (s.enterWaiting).kept = s.kept ∧
    (s.enterWaiting).due = s.due ∧ (s.enterWaiting).engine = s.engine ∧ (s.enterWaiting).attach = s.attach ∧
    (s.enterWaiting).regions = s.regions ∧ (s.enterWaiting).upstream = s.upstream ∧
    (s.enterWaiting).downstream = s.downstream ∧ (s.enterWaiting).events = s.events ∧
    (s.enterWaiting).pins = s.pins ∧ (s.enterWaiting).out = s.out ∧ (s.enterWaiting).free = s.free ∧
    (s.enterWaiting).pending = s.pending := by
  refine ⟨?_, ?_, ?_, ?_, ?_, ?_, ?_, ?_, ?_, ?_, ?_, ?_, ?_, ?_, ?_, ?_, ?_⟩ <;> rfl

@[simp] theorem State.enterWaiting_mgmt (s : State) :
    s.enterWaiting.mgmt = { s.mgmt with waiting := true } := rfl

end Sys2Proof.Machine
end

