-- ==== Sys2Proof/Laws/Ops.lean ====
section
/-! SUPPORT. What the shared operations made of several updates leave alone: the settling of capture items, refusals, the
looks at the log's space, the epoch engine, faults, the journal break, the drain. -/

namespace Sys2Proof.Machine

/-- What every step of a fold leaves alone, the fold leaves alone. -/
theorem foldl_keeps {σ α β : Type} (g : σ → β) (f : σ → α → σ) (h : ∀ s x, g (f s x) = g s) (l : List α) (s : σ) :
    g (l.foldl f s) = g s := by
  induction l generalizing s with
  | nil => rfl
  | cons x rest ih => exact (ih (f s x)).trans (h s x)

/-- What every step of a fold keeps true, the fold keeps true. -/
theorem foldl_invariant {σ α : Type} (P : σ → Prop) (f : σ → α → σ) (h : ∀ s x, P s → P (f s x)) (l : List α) (s : σ)
    (hs : P s) : P (l.foldl f s) := by
  induction l generalizing s with
  | nil => exact hs
  | cons x rest ih => exact ih (f s x) (h s x hs)

/-- `State.settleItem` leaves every field but filter, log, kept, downstream. -/
@[simp] theorem State.settleItem_frame (s : State) (i : CaptureItem) (c : Ctx) :
    (State.settleItem c s i).contexts = s.contexts ∧ (State.settleItem c s i).items = s.items ∧
    (State.settleItem c s i).hold = s.hold ∧ (State.settleItem c s i).due = s.due ∧
    (State.settleItem c s i).engine = s.engine ∧ (State.settleItem c s i).attach = s.attach ∧
    (State.settleItem c s i).regions = s.regions ∧ (State.settleItem c s i).upstream = s.upstream ∧
    (State.settleItem c s i).events = s.events ∧ (State.settleItem c s i).mgmt = s.mgmt ∧
    (State.settleItem c s i).pins = s.pins ∧ (State.settleItem c s i).out = s.out ∧
    (State.settleItem c s i).free = s.free ∧ (State.settleItem c s i).pending = s.pending := by
  unfold State.settleItem
  split <;> simp

@[simp] theorem State.settleItems_frame (s : State) (c : Ctx) (items : List CaptureItem) :
    (items.foldl (State.settleItem c) s).contexts = s.contexts ∧
    (items.foldl (State.settleItem c) s).items = s.items ∧ (items.foldl (State.settleItem c) s).hold = s.hold ∧
    (items.foldl (State.settleItem c) s).due = s.due ∧ (items.foldl (State.settleItem c) s).engine = s.engine ∧
    (items.foldl (State.settleItem c) s).attach = s.attach ∧
    (items.foldl (State.settleItem c) s).regions = s.regions ∧
    (items.foldl (State.settleItem c) s).upstream = s.upstream ∧
    (items.foldl (State.settleItem c) s).events = s.events ∧ (items.foldl (State.settleItem c) s).mgmt = s.mgmt ∧
    (items.foldl (State.settleItem c) s).pins = s.pins ∧ (items.foldl (State.settleItem c) s).out = s.out ∧
    (items.foldl (State.settleItem c) s).free = s.free ∧ (items.foldl (State.settleItem c) s).pending = s.pending := by
  refine ⟨?_, ?_, ?_, ?_, ?_, ?_, ?_, ?_, ?_, ?_, ?_, ?_, ?_, ?_⟩ <;>
    exact foldl_keeps (fun s : State => _) _ (fun s x => by simp) _ _

/-- `State.refuseEntry` leaves every field but filter, log, kept, downstream, upstream, out, events. -/
@[simp] theorem State.refuseEntry_frame (s : State) (e : HoldEntry) (reason : Reason) :
    (State.refuseEntry reason s e).contexts = s.contexts ∧ (State.refuseEntry reason s e).items = s.items ∧
    (State.refuseEntry reason s e).hold = s.hold ∧ (State.refuseEntry reason s e).due = s.due ∧
    (State.refuseEntry reason s e).engine = s.engine ∧ (State.refuseEntry reason s e).attach = s.attach ∧
    (State.refuseEntry reason s e).regions = s.regions ∧ (State.refuseEntry reason s e).mgmt = s.mgmt ∧
    (State.refuseEntry reason s e).pins = s.pins ∧ (State.refuseEntry reason s e).free = s.free ∧
    (State.refuseEntry reason s e).pending = s.pending := by
  unfold State.refuseEntry
  split <;> simp

@[simp] theorem State.refuseEntries_frame (s : State) (reason : Reason) (l : List HoldEntry) :
    (l.foldl (State.refuseEntry reason) s).contexts = s.contexts ∧
    (l.foldl (State.refuseEntry reason) s).items = s.items ∧ (l.foldl (State.refuseEntry reason) s).hold = s.hold ∧
    (l.foldl (State.refuseEntry reason) s).due = s.due ∧ (l.foldl (State.refuseEntry reason) s).engine = s.engine ∧
    (l.foldl (State.refuseEntry reason) s).attach = s.attach ∧
    (l.foldl (State.refuseEntry reason) s).regions = s.regions ∧
    (l.foldl (State.refuseEntry reason) s).mgmt = s.mgmt ∧ (l.foldl (State.refuseEntry reason) s).pins = s.pins ∧
    (l.foldl (State.refuseEntry reason) s).free = s.free ∧ (l.foldl (State.refuseEntry reason) s).pending = s.pending := by
  refine ⟨?_, ?_, ?_, ?_, ?_, ?_, ?_, ?_, ?_, ?_, ?_⟩ <;>
    exact foldl_keeps (fun s : State => _) _ (fun s x => by simp) _ _

/-- `State.refuseWhere` leaves every field but filter, log, kept, downstream, upstream, out, events, hold. -/
@[simp] theorem State.refuseWhere_frame (s : State) (pick : HoldEntry → Bool) (reason : Reason) :
    (s.refuseWhere pick reason).contexts = s.contexts ∧ (s.refuseWhere pick reason).items = s.items ∧
    (s.refuseWhere pick reason).due = s.due ∧ (s.refuseWhere pick reason).engine = s.engine ∧
    (s.refuseWhere pick reason).attach = s.attach ∧ (s.refuseWhere pick reason).regions = s.regions ∧
    (s.refuseWhere pick reason).mgmt = s.mgmt ∧ (s.refuseWhere pick reason).pins = s.pins ∧
    (s.refuseWhere pick reason).free = s.free ∧ (s.refuseWhere pick reason).pending = s.pending := by
  unfold State.refuseWhere
  simp

/-- `State.lookSpace` leaves every field but log, events. -/
@[simp] theorem State.lookSpace_frame (s : State) :
    (s.lookSpace).contexts = s.contexts ∧ (s.lookSpace).filter = s.filter ∧ (s.lookSpace).items = s.items ∧
    (s.lookSpace).hold = s.hold ∧ (s.lookSpace).kept = s.kept ∧ (s.lookSpace).due = s.due ∧
    (s.lookSpace).engine = s.engine ∧ (s.lookSpace).attach = s.attach ∧ (s.lookSpace).regions = s.regions ∧
    (s.lookSpace).upstream = s.upstream ∧ (s.lookSpace).downstream = s.downstream ∧ (s.lookSpace).mgmt = s.mgmt ∧
    (s.lookSpace).pins = s.pins ∧ (s.lookSpace).out = s.out ∧ (s.lookSpace).free = s.free ∧
    (s.lookSpace).pending = s.pending := by
  unfold State.lookSpace
  (repeat' split) <;> simp

/-- `State.lookLow` leaves every field but log, events. -/
@[simp] theorem State.lookLow_frame (s : State) :
    (s.lookLow).contexts = s.contexts ∧ (s.lookLow).filter = s.filter ∧ (s.lookLow).items = s.items ∧
    (s.lookLow).hold = s.hold ∧ (s.lookLow).kept = s.kept ∧ (s.lookLow).due = s.due ∧ (s.lookLow).engine = s.engine ∧
    (s.lookLow).attach = s.attach ∧ (s.lookLow).regions = s.regions ∧ (s.lookLow).upstream = s.upstream ∧
    (s.lookLow).downstream = s.downstream ∧ (s.lookLow).mgmt = s.mgmt ∧ (s.lookLow).pins = s.pins ∧
    (s.lookLow).out = s.out ∧ (s.lookLow).free = s.free ∧ (s.lookLow).pending = s.pending := by
  unfold State.lookLow
  (repeat' split) <;> simp

/-- `State.endSettling` leaves every field but contexts, filter, events, engine. -/
@[simp] theorem State.endSettling_frame (s : State) (c : Ctx) :
    (s.endSettling c).items = s.items ∧ (s.endSettling c).log = s.log ∧ (s.endSettling c).hold = s.hold ∧
    (s.endSettling c).kept = s.kept ∧ (s.endSettling c).due = s.due ∧ (s.endSettling c).attach = s.attach ∧
    (s.endSettling c).regions = s.regions ∧ (s.endSettling c).upstream = s.upstream ∧
    (s.endSettling c).downstream = s.downstream ∧ (s.endSettling c).mgmt = s.mgmt ∧ (s.endSettling c).pins = s.pins ∧
    (s.endSettling c).out = s.out ∧ (s.endSettling c).free = s.free ∧ (s.endSettling c).pending = s.pending := by
  unfold State.endSettling
  (repeat' split) <;> simp

/-- `State.endCovering` leaves every field but engine. -/
@[simp] theorem State.endCovering_frame (s : State) (c : Ctx) :
    (s.endCovering c).contexts = s.contexts ∧ (s.endCovering c).filter = s.filter ∧
    (s.endCovering c).items = s.items ∧ (s.endCovering c).log = s.log ∧ (s.endCovering c).hold = s.hold ∧
    (s.endCovering c).kept = s.kept ∧ (s.endCovering c).due = s.due ∧ (s.endCovering c).attach = s.attach ∧
    (s.endCovering c).regions = s.regions ∧ (s.endCovering c).upstream = s.upstream ∧
    (s.endCovering c).downstream = s.downstream ∧ (s.endCovering c).events = s.events ∧
    (s.endCovering c).mgmt = s.mgmt ∧ (s.endCovering c).pins = s.pins ∧ (s.endCovering c).out = s.out ∧
    (s.endCovering c).free = s.free ∧ (s.endCovering c).pending = s.pending := by
  simp [State.endCovering]

/-- `State.nextReplay` leaves every field but log, engine, downstream. -/
@[simp] theorem State.nextReplay_frame (s : State) (c : Ctx) :
    (s.nextReplay c).contexts = s.contexts ∧ (s.nextReplay c).filter = s.filter ∧ (s.nextReplay c).items = s.items ∧
    (s.nextReplay c).hold = s.hold ∧ (s.nextReplay c).kept = s.kept ∧ (s.nextReplay c).due = s.due ∧
    (s.nextReplay c).attach = s.attach ∧ (s.nextReplay c).regions = s.regions ∧
    (s.nextReplay c).upstream = s.upstream ∧ (s.nextReplay c).events = s.events ∧ (s.nextReplay c).mgmt = s.mgmt ∧
    (s.nextReplay c).pins = s.pins ∧ (s.nextReplay c).out = s.out ∧ (s.nextReplay c).free = s.free ∧
    (s.nextReplay c).pending = s.pending := by
  unfold State.nextReplay
  (repeat' split) <;> simp

/-- `State.moveCommit` leaves every field but contexts, filter, events, engine, log, downstream. -/
@[simp] theorem State.moveCommit_frame (s : State) (c : Ctx) :
    (s.moveCommit c).items = s.items ∧ (s.moveCommit c).hold = s.hold ∧ (s.moveCommit c).kept = s.kept ∧
    (s.moveCommit c).due = s.due ∧ (s.moveCommit c).attach = s.attach ∧ (s.moveCommit c).regions = s.regions ∧
    (s.moveCommit c).upstream = s.upstream ∧ (s.moveCommit c).mgmt = s.mgmt ∧ (s.moveCommit c).pins = s.pins ∧
    (s.moveCommit c).out = s.out ∧ (s.moveCommit c).free = s.free ∧ (s.moveCommit c).pending = s.pending := by
  unfold State.moveCommit
  (repeat' split) <;> simp

/-- `State.moveSettling` leaves every field but contexts, filter, events, engine, log, downstream. -/
@[simp] theorem State.moveSettling_frame (s : State) (c : Ctx) :
    (s.moveSettling c).items = s.items ∧ (s.moveSettling c).hold = s.hold ∧ (s.moveSettling c).kept = s.kept ∧
    (s.moveSettling c).due = s.due ∧ (s.moveSettling c).attach = s.attach ∧ (s.moveSettling c).regions = s.regions ∧
    (s.moveSettling c).upstream = s.upstream ∧ (s.moveSettling c).mgmt = s.mgmt ∧ (s.moveSettling c).pins = s.pins ∧
    (s.moveSettling c).out = s.out ∧ (s.moveSettling c).free = s.free ∧ (s.moveSettling c).pending = s.pending := by
  unfold State.moveSettling
  (repeat' split) <;> simp

/-- `State.moveCovering` leaves every field but contexts, filter, events, engine, log, downstream. -/
@[simp] theorem State.moveCovering_frame (s : State) (c : Ctx) :
    (s.moveCovering c).items = s.items ∧ (s.moveCovering c).hold = s.hold ∧ (s.moveCovering c).kept = s.kept ∧
    (s.moveCovering c).due = s.due ∧ (s.moveCovering c).attach = s.attach ∧ (s.moveCovering c).regions = s.regions ∧
    (s.moveCovering c).upstream = s.upstream ∧ (s.moveCovering c).mgmt = s.mgmt ∧ (s.moveCovering c).pins = s.pins ∧
    (s.moveCovering c).out = s.out ∧ (s.moveCovering c).free = s.free ∧ (s.moveCovering c).pending = s.pending := by
  unfold State.moveCovering
  (repeat' split) <;> simp

/-- `State.moveReplaying` leaves every field but contexts, filter, events, engine, log, downstream. -/
@[simp] theorem State.moveReplaying_frame (s : State) (c : Ctx) :
    (s.moveReplaying c).items = s.items ∧ (s.moveReplaying c).hold = s.hold ∧ (s.moveReplaying c).kept = s.kept ∧
    (s.moveReplaying c).due = s.due ∧ (s.moveReplaying c).attach = s.attach ∧
    (s.moveReplaying c).regions = s.regions ∧ (s.moveReplaying c).upstream = s.upstream ∧
    (s.moveReplaying c).mgmt = s.mgmt ∧ (s.moveReplaying c).pins = s.pins ∧ (s.moveReplaying c).out = s.out ∧
    (s.moveReplaying c).free = s.free ∧ (s.moveReplaying c).pending = s.pending := by
  unfold State.moveReplaying
  (repeat' split) <;> simp

/-- `State.moveMarking` leaves every field but contexts, filter, events, engine, log, downstream. -/
@[simp] theorem State.moveMarking_frame (s : State) (c : Ctx) :
    (s.moveMarking c).items = s.items ∧ (s.moveMarking c).hold = s.hold ∧ (s.moveMarking c).kept = s.kept ∧
    (s.moveMarking c).due = s.due ∧ (s.moveMarking c).attach = s.attach ∧ (s.moveMarking c).regions = s.regions ∧
    (s.moveMarking c).upstream = s.upstream ∧ (s.moveMarking c).mgmt = s.mgmt ∧ (s.moveMarking c).pins = s.pins ∧
    (s.moveMarking c).out = s.out ∧ (s.moveMarking c).free = s.free ∧ (s.moveMarking c).pending = s.pending := by
  unfold State.moveMarking
  (repeat' split) <;> simp

/-- `State.moveEngine` leaves every field but contexts, filter, events, engine, log, downstream. -/
@[simp] theorem State.moveEngine_frame (s : State) (c : Ctx) :
    (s.moveEngine c).items = s.items ∧ (s.moveEngine c).hold = s.hold ∧ (s.moveEngine c).kept = s.kept ∧
    (s.moveEngine c).due = s.due ∧ (s.moveEngine c).attach = s.attach ∧ (s.moveEngine c).regions = s.regions ∧
    (s.moveEngine c).upstream = s.upstream ∧ (s.moveEngine c).mgmt = s.mgmt ∧ (s.moveEngine c).pins = s.pins ∧
    (s.moveEngine c).out = s.out ∧ (s.moveEngine c).free = s.free ∧ (s.moveEngine c).pending = s.pending := by
  unfold State.moveEngine
  (repeat' split) <;> simp

@[simp] theorem State.moveEngines_frame (s : State) (l : List Ctx) :
    (l.foldl State.moveEngine s).items = s.items ∧ (l.foldl State.moveEngine s).hold = s.hold ∧
    (l.foldl State.moveEngine s).kept = s.kept ∧ (l.foldl State.moveEngine s).due = s.due ∧
    (l.foldl State.moveEngine s).attach = s.attach ∧ (l.foldl State.moveEngine s).regions = s.regions ∧
    (l.foldl State.moveEngine s).upstream = s.upstream ∧ (l.foldl State.moveEngine s).mgmt = s.mgmt ∧
    (l.foldl State.moveEngine s).pins = s.pins ∧ (l.foldl State.moveEngine s).out = s.out ∧
    (l.foldl State.moveEngine s).free = s.free ∧ (l.foldl State.moveEngine s).pending = s.pending := by
  refine ⟨?_, ?_, ?_, ?_, ?_, ?_, ?_, ?_, ?_, ?_, ?_, ?_⟩ <;>
    exact foldl_keeps (fun s : State => _) _ (fun s x => by simp) _ _

/-- `State.runEngines` leaves every field but contexts, filter, events, engine, log, downstream, free. -/
@[simp] theorem State.runEngines_frame (s : State) :
    (s.runEngines).items = s.items ∧ (s.runEngines).hold = s.hold ∧ (s.runEngines).kept = s.kept ∧
    (s.runEngines).due = s.due ∧ (s.runEngines).attach = s.attach ∧ (s.runEngines).regions = s.regions ∧
    (s.runEngines).upstream = s.upstream ∧ (s.runEngines).mgmt = s.mgmt ∧ (s.runEngines).pins = s.pins ∧
    (s.runEngines).out = s.out ∧ (s.runEngines).pending = s.pending := by
  unfold State.runEngines
  (repeat' split) <;> simp

/-- `State.applyFault` leaves every field but filter, log, kept, downstream, upstream, out, events, hold, contexts, engine, due. -/
@[simp] theorem State.applyFault_frame (s : State) (c : Ctx) (cause : FaultCause) (address : Addr) :
    (s.applyFault c cause address).items = s.items ∧ (s.applyFault c cause address).attach = s.attach ∧
    (s.applyFault c cause address).regions = s.regions ∧ (s.applyFault c cause address).mgmt = s.mgmt ∧
    (s.applyFault c cause address).pins = s.pins ∧ (s.applyFault c cause address).free = s.free ∧
    (s.applyFault c cause address).pending = s.pending := by
  unfold State.applyFault
  dsimp only
  split <;> simp

/-- `State.reportFault` leaves every field but filter, log, kept, downstream, upstream, out, events, hold, contexts, engine, due. -/
@[simp] theorem State.reportFault_frame (s : State) (c : Ctx) (cause : FaultCause) (address : Addr) :
    (s.reportFault c cause address).items = s.items ∧ (s.reportFault c cause address).attach = s.attach ∧
    (s.reportFault c cause address).regions = s.regions ∧ (s.reportFault c cause address).mgmt = s.mgmt ∧
    (s.reportFault c cause address).pins = s.pins ∧ (s.reportFault c cause address).free = s.free ∧
    (s.reportFault c cause address).pending = s.pending := by
  unfold State.reportFault
  (repeat' split) <;> simp

/-- `State.withdrawAttach` leaves every field but log, attach, downstream. -/
@[simp] theorem State.withdrawAttach_frame (s : State) :
    (s.withdrawAttach).contexts = s.contexts ∧ (s.withdrawAttach).filter = s.filter ∧
    (s.withdrawAttach).items = s.items ∧ (s.withdrawAttach).hold = s.hold ∧ (s.withdrawAttach).kept = s.kept ∧
    (s.withdrawAttach).due = s.due ∧ (s.withdrawAttach).engine = s.engine ∧ (s.withdrawAttach).regions = s.regions ∧
    (s.withdrawAttach).upstream = s.upstream ∧ (s.withdrawAttach).events = s.events ∧
    (s.withdrawAttach).mgmt = s.mgmt ∧ (s.withdrawAttach).pins = s.pins ∧ (s.withdrawAttach).out = s.out ∧
    (s.withdrawAttach).free = s.free ∧ (s.withdrawAttach).pending = s.pending := by
  simp [State.withdrawAttach]

/-- `State.stopIntake` leaves every field but upstream, out, events. -/
@[simp] theorem State.stopIntake_frame (s : State) :
    (s.stopIntake).contexts = s.contexts ∧ (s.stopIntake).filter = s.filter ∧ (s.stopIntake).items = s.items ∧
    (s.stopIntake).log = s.log ∧ (s.stopIntake).hold = s.hold ∧ (s.stopIntake).kept = s.kept ∧
    (s.stopIntake).due = s.due ∧ (s.stopIntake).engine = s.engine ∧ (s.stopIntake).attach = s.attach ∧
    (s.stopIntake).regions = s.regions ∧ (s.stopIntake).downstream = s.downstream ∧ (s.stopIntake).mgmt = s.mgmt ∧
    (s.stopIntake).pins = s.pins ∧ (s.stopIntake).free = s.free ∧ (s.stopIntake).pending = s.pending := by
  unfold State.stopIntake
  (repeat' split) <;> simp

/-- `State.beginDrain` leaves every field but filter, log, kept, downstream, upstream, out, events, hold, engine, due, attach. -/
@[simp] theorem State.beginDrain_frame (s : State) :
    (s.beginDrain).contexts = s.contexts ∧ (s.beginDrain).items = s.items ∧ (s.beginDrain).regions = s.regions ∧
    (s.beginDrain).mgmt = s.mgmt ∧ (s.beginDrain).pins = s.pins ∧ (s.beginDrain).free = s.free ∧
    (s.beginDrain).pending = s.pending := by
  unfold State.beginDrain
  dsimp only
  (repeat' split) <;> simp

/-- `State.drainIfWarned` leaves every field but filter, log, kept, downstream, upstream, out, events, hold, engine, due, attach. -/
@[simp] theorem State.drainIfWarned_frame (s : State) :
    (s.drainIfWarned).contexts = s.contexts ∧ (s.drainIfWarned).items = s.items ∧
    (s.drainIfWarned).regions = s.regions ∧ (s.drainIfWarned).mgmt = s.mgmt ∧ (s.drainIfWarned).pins = s.pins ∧
    (s.drainIfWarned).free = s.free ∧ (s.drainIfWarned).pending = s.pending := by
  unfold State.drainIfWarned
  (repeat' split) <;> simp

/-- `State.breakContext` leaves every field but contexts, events, engine. -/
@[simp] theorem State.breakContext_frame (s : State) (c : Ctx) :
    (s.breakContext c).filter = s.filter ∧ (s.breakContext c).items = s.items ∧ (s.breakContext c).log = s.log ∧
    (s.breakContext c).hold = s.hold ∧ (s.breakContext c).kept = s.kept ∧ (s.breakContext c).due = s.due ∧
    (s.breakContext c).attach = s.attach ∧ (s.breakContext c).regions = s.regions ∧
    (s.breakContext c).upstream = s.upstream ∧ (s.breakContext c).downstream = s.downstream ∧
    (s.breakContext c).mgmt = s.mgmt ∧ (s.breakContext c).pins = s.pins ∧ (s.breakContext c).out = s.out ∧
    (s.breakContext c).free = s.free ∧ (s.breakContext c).pending = s.pending := by
  unfold State.breakContext
  dsimp only
  (repeat' split) <;> simp

@[simp] theorem State.breakContexts_frame (s : State) (l : List Ctx) :
    (l.foldl State.breakContext s).filter = s.filter ∧ (l.foldl State.breakContext s).items = s.items ∧
    (l.foldl State.breakContext s).log = s.log ∧ (l.foldl State.breakContext s).hold = s.hold ∧
    (l.foldl State.breakContext s).kept = s.kept ∧ (l.foldl State.breakContext s).due = s.due ∧
    (l.foldl State.breakContext s).attach = s.attach ∧ (l.foldl State.breakContext s).regions = s.regions ∧
    (l.foldl State.breakContext s).upstream = s.upstream ∧ (l.foldl State.breakContext s).downstream = s.downstream ∧
    (l.foldl State.breakContext s).mgmt = s.mgmt ∧ (l.foldl State.breakContext s).pins = s.pins ∧
    (l.foldl State.breakContext s).out = s.out ∧ (l.foldl State.breakContext s).free = s.free ∧
    (l.foldl State.breakContext s).pending = s.pending := by
  refine ⟨?_, ?_, ?_, ?_, ?_, ?_, ?_, ?_, ?_, ?_, ?_, ?_, ?_, ?_, ?_⟩ <;>
    exact foldl_keeps (fun s : State => _) _ (fun s x => by simp) _ _

/-- `State.breakJournal` leaves every field but filter, log, kept, downstream, upstream, out, events, hold, engine, due, attach, contexts. -/
@[simp] theorem State.breakJournal_frame (s : State) (cause : BreakCause) (sequence : Option Seq) :
    (s.breakJournal cause sequence).items = s.items ∧ (s.breakJournal cause sequence).regions = s.regions ∧
    (s.breakJournal cause sequence).mgmt = s.mgmt ∧ (s.breakJournal cause sequence).pins = s.pins ∧
    (s.breakJournal cause sequence).free = s.free ∧ (s.breakJournal cause sequence).pending = s.pending := by
  unfold State.breakJournal
  dsimp only
  split <;> simp

/-- `State.logError` leaves every field but filter, log, kept, downstream, upstream, out, events, hold, engine, due, attach, contexts. -/
@[simp] theorem State.logError_frame (s : State) (cause : BreakCause) (sequence : Option Seq) :
    (s.logError cause sequence).items = s.items ∧ (s.logError cause sequence).regions = s.regions ∧
    (s.logError cause sequence).mgmt = s.mgmt ∧ (s.logError cause sequence).pins = s.pins ∧
    (s.logError cause sequence).free = s.free ∧ (s.logError cause sequence).pending = s.pending := by
  unfold State.logError
  (repeat' split) <;> simp

/-- `State.endAttach` leaves every field but filter, log, kept, downstream, upstream, out, events, hold, engine, due, attach. -/
@[simp] theorem State.endAttach_frame (s : State) (journal : JournalState) (result : AttachResult) (sequence : Option Seq) :
    (s.endAttach journal result sequence).contexts = s.contexts ∧
    (s.endAttach journal result sequence).items = s.items ∧
    (s.endAttach journal result sequence).regions = s.regions ∧ (s.endAttach journal result sequence).mgmt = s.mgmt ∧
    (s.endAttach journal result sequence).pins = s.pins ∧ (s.endAttach journal result sequence).free = s.free ∧
    (s.endAttach journal result sequence).pending = s.pending := by
  simp [State.endAttach]

/-- `State.failAttach` leaves every field but filter, log, kept, downstream, upstream, out, events, hold, engine, due, attach. -/
@[simp] theorem State.failAttach_frame (s : State) (result : AttachResult) (sequence : Option Seq) :
    (s.failAttach result sequence).contexts = s.contexts ∧ (s.failAttach result sequence).items = s.items ∧
    (s.failAttach result sequence).regions = s.regions ∧ (s.failAttach result sequence).mgmt = s.mgmt ∧
    (s.failAttach result sequence).pins = s.pins ∧ (s.failAttach result sequence).free = s.free ∧
    (s.failAttach result sequence).pending = s.pending := by
  simp [State.failAttach]

end Sys2Proof.Machine
end

