-- ==== Sys2Proof/Laws/Parts.lean ====
section
/-! SUPPORT. The parts of a field that an operation leaves alone where it changes the field: the log writer's, the
downstream port's, the upstream port's, the event mask, what has been issued and shifted out. -/

namespace Sys2Proof.Machine

@[simp] theorem EventBlock.take_mask (b : EventBlock) (e : Event) : (b.take e).mask = b.mask := by
  unfold EventBlock.take
  split <;> rfl

@[simp] theorem State.sendResponse_parts (s : State) (tag : BitVec 6) (result : UpResult) :
    (s.sendResponse tag result).out.requests = s.out.requests ∧ (s.sendResponse tag result).out.mdo = s.out.mdo := by
  refine ⟨?_, ?_⟩ <;> rfl

@[simp] theorem State.freeUpTag_parts (s : State) (tag : BitVec 6) :
    (s.freeUpTag tag).upstream.intake = s.upstream.intake ∧ (s.freeUpTag tag).upstream.head = s.upstream.head ∧
    (s.freeUpTag tag).upstream.link = s.upstream.link := by
  refine ⟨?_, ?_, ?_⟩ <;> rfl

@[simp] theorem State.answerUp_parts (s : State) (tag : BitVec 6) (result : UpResult) :
    (s.answerUp tag result).upstream.intake = s.upstream.intake ∧
    (s.answerUp tag result).upstream.head = s.upstream.head ∧
    (s.answerUp tag result).upstream.link = s.upstream.link ∧ (s.answerUp tag result).out.requests = s.out.requests ∧
    (s.answerUp tag result).out.mdo = s.out.mdo := by
  refine ⟨?_, ?_, ?_, ?_, ?_⟩ <;> rfl

@[simp] theorem State.refuseRequest_parts (s : State) (r : UpRequest) (reason : Reason) :
    (s.refuseRequest r reason).upstream.intake = s.upstream.intake ∧
    (s.refuseRequest r reason).upstream.head = s.upstream.head ∧
    (s.refuseRequest r reason).upstream.link = s.upstream.link ∧
    (s.refuseRequest r reason).out.requests = s.out.requests ∧ (s.refuseRequest r reason).out.mdo = s.out.mdo ∧
    (s.refuseRequest r reason).events.mask = s.events.mask := by
  simp

@[simp] theorem State.withdrawRead_parts (s : State) (l : Line) :
    (s.withdrawRead l).downstream.anchorList = s.downstream.anchorList ∧
    (s.withdrawRead l).downstream.appendList = s.downstream.appendList ∧
    (s.withdrawRead l).downstream.forwardQueue = s.downstream.forwardQueue ∧
    (s.withdrawRead l).downstream.restoreList = s.downstream.restoreList ∧
    (s.withdrawRead l).downstream.scanList = s.downstream.scanList ∧
    (s.withdrawRead l).downstream.outstanding = s.downstream.outstanding ∧
    (s.withdrawRead l).downstream.order = s.downstream.order ∧
    (s.withdrawRead l).downstream.throttleRestore = s.downstream.throttleRestore ∧
    (s.withdrawRead l).downstream.throttleScan = s.downstream.throttleScan ∧
    (s.withdrawRead l).downstream.restoreCount = s.downstream.restoreCount ∧
    (s.withdrawRead l).downstream.scanCount = s.downstream.scanCount := by
  refine ⟨?_, ?_, ?_, ?_, ?_, ?_, ?_, ?_, ?_, ?_, ?_⟩ <;> rfl

@[simp] theorem State.withdrawAppend_parts (s : State) (l : Line) :
    (s.withdrawAppend l).log.ringSize = s.log.ringSize ∧ (s.withdrawAppend l).log.head = s.log.head ∧
    (s.withdrawAppend l).log.inFlight = s.log.inFlight ∧ (s.withdrawAppend l).log.tail = s.log.tail ∧
    (s.withdrawAppend l).log.generation = s.log.generation ∧ (s.withdrawAppend l).log.anchor = s.log.anchor ∧
    (s.withdrawAppend l).log.logFullArmed = s.log.logFullArmed ∧
    (s.withdrawAppend l).log.logLowArmed = s.log.logLowArmed ∧
    (s.withdrawAppend l).log.spaceWaiter = s.log.spaceWaiter := by
  refine ⟨?_, ?_, ?_, ?_, ?_, ?_, ?_, ?_, ?_⟩ <;> rfl

@[simp] theorem State.handAnchor_parts (s : State) (a : Addr) (data : List Byte) (flight : AnchorFlight) :
    (s.handAnchor a data flight).log.ringSize = s.log.ringSize ∧ (s.handAnchor a data flight).log.head = s.log.head ∧
    (s.handAnchor a data flight).log.inFlight = s.log.inFlight ∧
    (s.handAnchor a data flight).log.requests = s.log.requests ∧ (s.handAnchor a data flight).log.tail = s.log.tail ∧
    (s.handAnchor a data flight).log.generation = s.log.generation ∧
    (s.handAnchor a data flight).log.logFullArmed = s.log.logFullArmed ∧
    (s.handAnchor a data flight).log.logLowArmed = s.log.logLowArmed ∧
    (s.handAnchor a data flight).log.spaceWaiter = s.log.spaceWaiter ∧
    (s.handAnchor a data flight).downstream.appendList = s.downstream.appendList ∧
    (s.handAnchor a data flight).downstream.captureList = s.downstream.captureList ∧
    (s.handAnchor a data flight).downstream.forwardQueue = s.downstream.forwardQueue ∧
    (s.handAnchor a data flight).downstream.restoreList = s.downstream.restoreList ∧
    (s.handAnchor a data flight).downstream.scanList = s.downstream.scanList ∧
    (s.handAnchor a data flight).downstream.outstanding = s.downstream.outstanding ∧
    (s.handAnchor a data flight).downstream.order = s.downstream.order ∧
    (s.handAnchor a data flight).downstream.throttleRestore = s.downstream.throttleRestore ∧
    (s.handAnchor a data flight).downstream.throttleScan = s.downstream.throttleScan ∧
    (s.handAnchor a data flight).downstream.restoreCount = s.downstream.restoreCount ∧
    (s.handAnchor a data flight).downstream.scanCount = s.downstream.scanCount := by
  refine ⟨?_, ?_, ?_, ?_, ?_, ?_, ?_, ?_, ?_, ?_, ?_, ?_, ?_, ?_, ?_, ?_, ?_, ?_, ?_, ?_⟩ <;> rfl

@[simp] theorem State.issueAnchor_parts (s : State) (issuer : Issuer) (state : AnchorState) (tail : Seq) :
    (s.issueAnchor issuer state tail).log.ringSize = s.log.ringSize ∧
    (s.issueAnchor issuer state tail).log.head = s.log.head ∧
    (s.issueAnchor issuer state tail).log.inFlight = s.log.inFlight ∧
    (s.issueAnchor issuer state tail).log.requests = s.log.requests ∧
    (s.issueAnchor issuer state tail).log.tail = s.log.tail ∧
    (s.issueAnchor issuer state tail).log.logFullArmed = s.log.logFullArmed ∧
    (s.issueAnchor issuer state tail).log.logLowArmed = s.log.logLowArmed ∧
    (s.issueAnchor issuer state tail).log.spaceWaiter = s.log.spaceWaiter ∧
    (s.issueAnchor issuer state tail).downstream.appendList = s.downstream.appendList ∧
    (s.issueAnchor issuer state tail).downstream.captureList = s.downstream.captureList ∧
    (s.issueAnchor issuer state tail).downstream.forwardQueue = s.downstream.forwardQueue ∧
    (s.issueAnchor issuer state tail).downstream.restoreList = s.downstream.restoreList ∧
    (s.issueAnchor issuer state tail).downstream.scanList = s.downstream.scanList ∧
    (s.issueAnchor issuer state tail).downstream.outstanding = s.downstream.outstanding ∧
    (s.issueAnchor issuer state tail).downstream.order = s.downstream.order ∧
    (s.issueAnchor issuer state tail).downstream.throttleRestore = s.downstream.throttleRestore ∧
    (s.issueAnchor issuer state tail).downstream.throttleScan = s.downstream.throttleScan ∧
    (s.issueAnchor issuer state tail).downstream.restoreCount = s.downstream.restoreCount ∧
    (s.issueAnchor issuer state tail).downstream.scanCount = s.downstream.scanCount := by
  refine ⟨?_, ?_, ?_, ?_, ?_, ?_, ?_, ?_, ?_, ?_, ?_, ?_, ?_, ?_, ?_, ?_, ?_, ?_, ?_⟩ <;> rfl

@[simp] theorem State.handAttachAnchor_parts (s : State) (copy1 : Bool) (data : List Byte) (generation tail : Option Seq) :
    (s.handAttachAnchor copy1 data generation tail).log.ringSize = s.log.ringSize ∧
    (s.handAttachAnchor copy1 data generation tail).log.head = s.log.head ∧
    (s.handAttachAnchor copy1 data generation tail).log.inFlight = s.log.inFlight ∧
    (s.handAttachAnchor copy1 data generation tail).log.requests = s.log.requests ∧
    (s.handAttachAnchor copy1 data generation tail).log.tail = s.log.tail ∧
    (s.handAttachAnchor copy1 data generation tail).log.generation = s.log.generation ∧
    (s.handAttachAnchor copy1 data generation tail).log.logFullArmed = s.log.logFullArmed ∧
    (s.handAttachAnchor copy1 data generation tail).log.logLowArmed = s.log.logLowArmed ∧
    (s.handAttachAnchor copy1 data generation tail).log.spaceWaiter = s.log.spaceWaiter ∧
    (s.handAttachAnchor copy1 data generation tail).downstream.appendList = s.downstream.appendList ∧
    (s.handAttachAnchor copy1 data generation tail).downstream.captureList = s.downstream.captureList ∧
    (s.handAttachAnchor copy1 data generation tail).downstream.forwardQueue = s.downstream.forwardQueue ∧
    (s.handAttachAnchor copy1 data generation tail).downstream.restoreList = s.downstream.restoreList ∧
    (s.handAttachAnchor copy1 data generation tail).downstream.scanList = s.downstream.scanList ∧
    (s.handAttachAnchor copy1 data generation tail).downstream.outstanding = s.downstream.outstanding ∧
    (s.handAttachAnchor copy1 data generation tail).downstream.order = s.downstream.order ∧
    (s.handAttachAnchor copy1 data generation tail).downstream.throttleRestore = s.downstream.throttleRestore ∧
    (s.handAttachAnchor copy1 data generation tail).downstream.throttleScan = s.downstream.throttleScan ∧
    (s.handAttachAnchor copy1 data generation tail).downstream.restoreCount = s.downstream.restoreCount ∧
    (s.handAttachAnchor copy1 data generation tail).downstream.scanCount = s.downstream.scanCount := by
  refine ⟨?_, ?_, ?_, ?_, ?_, ?_, ?_, ?_, ?_, ?_, ?_, ?_, ?_, ?_, ?_, ?_, ?_, ?_, ?_, ?_⟩ <;> rfl

@[simp] theorem State.handScan_parts (s : State) (request : DownRequest) (step : AttachStep) (isWrite : Bool) :
    (s.handScan request step isWrite).downstream.anchorList = s.downstream.anchorList ∧
    (s.handScan request step isWrite).downstream.appendList = s.downstream.appendList ∧
    (s.handScan request step isWrite).downstream.captureList = s.downstream.captureList ∧
    (s.handScan request step isWrite).downstream.forwardQueue = s.downstream.forwardQueue ∧
    (s.handScan request step isWrite).downstream.restoreList = s.downstream.restoreList ∧
    (s.handScan request step isWrite).downstream.outstanding = s.downstream.outstanding ∧
    (s.handScan request step isWrite).downstream.order = s.downstream.order ∧
    (s.handScan request step isWrite).downstream.throttleRestore = s.downstream.throttleRestore ∧
    (s.handScan request step isWrite).downstream.throttleScan = s.downstream.throttleScan ∧
    (s.handScan request step isWrite).downstream.restoreCount = s.downstream.restoreCount ∧
    (s.handScan request step isWrite).downstream.scanCount = s.downstream.scanCount := by
  refine ⟨?_, ?_, ?_, ?_, ?_, ?_, ?_, ?_, ?_, ?_, ?_⟩ <;> rfl

@[simp] theorem State.handRestore_parts (s : State) (c : Ctx) (request : DownRequest) (step : ReplayStep) :
    (s.handRestore c request step).downstream.anchorList = s.downstream.anchorList ∧
    (s.handRestore c request step).downstream.appendList = s.downstream.appendList ∧
    (s.handRestore c request step).downstream.captureList = s.downstream.captureList ∧
    (s.handRestore c request step).downstream.forwardQueue = s.downstream.forwardQueue ∧
    (s.handRestore c request step).downstream.scanList = s.downstream.scanList ∧
    (s.handRestore c request step).downstream.outstanding = s.downstream.outstanding ∧
    (s.handRestore c request step).downstream.order = s.downstream.order ∧
    (s.handRestore c request step).downstream.throttleRestore = s.downstream.throttleRestore ∧
    (s.handRestore c request step).downstream.throttleScan = s.downstream.throttleScan ∧
    (s.handRestore c request step).downstream.restoreCount = s.downstream.restoreCount ∧
    (s.handRestore c request step).downstream.scanCount = s.downstream.scanCount := by
  refine ⟨?_, ?_, ?_, ?_, ?_, ?_, ?_, ?_, ?_, ?_, ?_⟩ <;> rfl

@[simp] theorem State.handAppend_parts (s : State) (q : Seq) (data : List Byte) :
    (s.handAppend q data).downstream.anchorList = s.downstream.anchorList ∧
    (s.handAppend q data).downstream.captureList = s.downstream.captureList ∧
    (s.handAppend q data).downstream.forwardQueue = s.downstream.forwardQueue ∧
    (s.handAppend q data).downstream.restoreList = s.downstream.restoreList ∧
    (s.handAppend q data).downstream.scanList = s.downstream.scanList ∧
    (s.handAppend q data).downstream.outstanding = s.downstream.outstanding ∧
    (s.handAppend q data).downstream.order = s.downstream.order ∧
    (s.handAppend q data).downstream.throttleRestore = s.downstream.throttleRestore ∧
    (s.handAppend q data).downstream.throttleScan = s.downstream.throttleScan ∧
    (s.handAppend q data).downstream.restoreCount = s.downstream.restoreCount ∧
    (s.handAppend q data).downstream.scanCount = s.downstream.scanCount := by
  refine ⟨?_, ?_, ?_, ?_, ?_, ?_, ?_, ?_, ?_, ?_, ?_⟩ <;> rfl

@[simp] theorem State.forwardHeld_parts (s : State) (r : UpRequest) :
    (s.forwardHeld r).downstream.anchorList = s.downstream.anchorList ∧
    (s.forwardHeld r).downstream.appendList = s.downstream.appendList ∧
    (s.forwardHeld r).downstream.captureList = s.downstream.captureList ∧
    (s.forwardHeld r).downstream.restoreList = s.downstream.restoreList ∧
    (s.forwardHeld r).downstream.scanList = s.downstream.scanList ∧
    (s.forwardHeld r).downstream.outstanding = s.downstream.outstanding ∧
    (s.forwardHeld r).downstream.order = s.downstream.order ∧
    (s.forwardHeld r).downstream.throttleRestore = s.downstream.throttleRestore ∧
    (s.forwardHeld r).downstream.throttleScan = s.downstream.throttleScan ∧
    (s.forwardHeld r).downstream.restoreCount = s.downstream.restoreCount ∧
    (s.forwardHeld r).downstream.scanCount = s.downstream.scanCount := by
  refine ⟨?_, ?_, ?_, ?_, ?_, ?_, ?_, ?_, ?_, ?_, ?_⟩ <;> rfl

@[simp] theorem State.enterForward_parts (s : State) (r : UpRequest) :
    (s.enterForward r).downstream.anchorList = s.downstream.anchorList ∧
    (s.enterForward r).downstream.appendList = s.downstream.appendList ∧
    (s.enterForward r).downstream.captureList = s.downstream.captureList ∧
    (s.enterForward r).downstream.restoreList = s.downstream.restoreList ∧
    (s.enterForward r).downstream.scanList = s.downstream.scanList ∧
    (s.enterForward r).downstream.outstanding = s.downstream.outstanding ∧
    (s.enterForward r).downstream.order = s.downstream.order ∧
    (s.enterForward r).downstream.throttleRestore = s.downstream.throttleRestore ∧
    (s.enterForward r).downstream.throttleScan = s.downstream.throttleScan ∧
    (s.enterForward r).downstream.restoreCount = s.downstream.restoreCount ∧
    (s.enterForward r).downstream.scanCount = s.downstream.scanCount ∧
    (s.enterForward r).upstream.intake = s.upstream.intake ∧ (s.enterForward r).upstream.head = s.upstream.head ∧
    (s.enterForward r).upstream.link = s.upstream.link := by
  refine ⟨?_, ?_, ?_, ?_, ?_, ?_, ?_, ?_, ?_, ?_, ?_, ?_, ?_, ?_⟩ <;> rfl

@[simp] theorem State.joinHold_parts (s : State) (r : UpRequest) (journaled : Bool) (newLines : List Line) :
    (s.joinHold r journaled newLines).upstream.intake = s.upstream.intake ∧
    (s.joinHold r journaled newLines).upstream.head = s.upstream.head ∧
    (s.joinHold r journaled newLines).upstream.link = s.upstream.link := by
  refine ⟨?_, ?_, ?_⟩ <;> rfl

@[simp] theorem State.addTag_parts (s : State) (r : UpRequest) :
    (s.addTag r).upstream.intake = s.upstream.intake ∧ (s.addTag r).upstream.head = s.upstream.head ∧
    (s.addTag r).upstream.link = s.upstream.link := by
  refine ⟨?_, ?_, ?_⟩ <;> rfl

@[simp] theorem State.handCapture_parts (s : State) (ref : CaptureRef) :
    (s.handCapture ref).downstream.anchorList = s.downstream.anchorList ∧
    (s.handCapture ref).downstream.appendList = s.downstream.appendList ∧
    (s.handCapture ref).downstream.forwardQueue = s.downstream.forwardQueue ∧
    (s.handCapture ref).downstream.restoreList = s.downstream.restoreList ∧
    (s.handCapture ref).downstream.scanList = s.downstream.scanList ∧
    (s.handCapture ref).downstream.outstanding = s.downstream.outstanding ∧
    (s.handCapture ref).downstream.order = s.downstream.order ∧
    (s.handCapture ref).downstream.throttleRestore = s.downstream.throttleRestore ∧
    (s.handCapture ref).downstream.throttleScan = s.downstream.throttleScan ∧
    (s.handCapture ref).downstream.restoreCount = s.downstream.restoreCount ∧
    (s.handCapture ref).downstream.scanCount = s.downstream.scanCount := by
  refine ⟨?_, ?_, ?_, ?_, ?_, ?_, ?_, ?_, ?_, ?_, ?_⟩ <;> rfl

@[simp] theorem State.askMarker_parts (s : State) (kind : MarkerKind) (c : Ctx) :
    (s.askMarker kind c).log.ringSize = s.log.ringSize ∧ (s.askMarker kind c).log.head = s.log.head ∧
    (s.askMarker kind c).log.inFlight = s.log.inFlight ∧ (s.askMarker kind c).log.tail = s.log.tail ∧
    (s.askMarker kind c).log.generation = s.log.generation ∧ (s.askMarker kind c).log.anchor = s.log.anchor ∧
    (s.askMarker kind c).log.logFullArmed = s.log.logFullArmed ∧
    (s.askMarker kind c).log.logLowArmed = s.log.logLowArmed ∧
    (s.askMarker kind c).log.spaceWaiter = s.log.spaceWaiter := by
  refine ⟨?_, ?_, ?_, ?_, ?_, ?_, ?_, ?_, ?_⟩ <;> rfl

@[simp] theorem State.completeCommit_parts (s : State) (c : Ctx) :
    (s.completeCommit c).events.mask = s.events.mask := by
  simp [State.completeCommit]

@[simp] theorem State.completeAbort_parts (s : State) (c : Ctx) :
    (s.completeAbort c).events.mask = s.events.mask := by
  simp [State.completeAbort]

@[simp] theorem State.failCommit_parts (s : State) (c : Ctx) :
    (s.failCommit c).events.mask = s.events.mask := by
  simp [State.failCommit]

@[simp] theorem State.stopEngines_parts (s : State) :
    (s.stopEngines).downstream.anchorList = s.downstream.anchorList ∧
    (s.stopEngines).downstream.appendList = s.downstream.appendList ∧
    (s.stopEngines).downstream.captureList = s.downstream.captureList ∧
    (s.stopEngines).downstream.forwardQueue = s.downstream.forwardQueue ∧
    (s.stopEngines).downstream.scanList = s.downstream.scanList ∧
    (s.stopEngines).downstream.outstanding = s.downstream.outstanding ∧
    (s.stopEngines).downstream.order = s.downstream.order ∧
    (s.stopEngines).downstream.throttleRestore = s.downstream.throttleRestore ∧
    (s.stopEngines).downstream.throttleScan = s.downstream.throttleScan ∧
    (s.stopEngines).downstream.restoreCount = s.downstream.restoreCount ∧
    (s.stopEngines).downstream.scanCount = s.downstream.scanCount := by
  refine ⟨?_, ?_, ?_, ?_, ?_, ?_, ?_, ?_, ?_, ?_, ?_⟩ <;> rfl

@[simp] theorem State.removeOutstanding_parts (s : State) (tag : BitVec 4) :
    (s.removeOutstanding tag).downstream.anchorList = s.downstream.anchorList ∧
    (s.removeOutstanding tag).downstream.appendList = s.downstream.appendList ∧
    (s.removeOutstanding tag).downstream.captureList = s.downstream.captureList ∧
    (s.removeOutstanding tag).downstream.forwardQueue = s.downstream.forwardQueue ∧
    (s.removeOutstanding tag).downstream.restoreList = s.downstream.restoreList ∧
    (s.removeOutstanding tag).downstream.scanList = s.downstream.scanList ∧
    (s.removeOutstanding tag).downstream.order = s.downstream.order ∧
    (s.removeOutstanding tag).downstream.throttleRestore = s.downstream.throttleRestore ∧
    (s.removeOutstanding tag).downstream.throttleScan = s.downstream.throttleScan ∧
    (s.removeOutstanding tag).downstream.restoreCount = s.downstream.restoreCount ∧
    (s.removeOutstanding tag).downstream.scanCount = s.downstream.scanCount := by
  refine ⟨?_, ?_, ?_, ?_, ?_, ?_, ?_, ?_, ?_, ?_, ?_⟩ <;> rfl

@[simp] theorem State.withdrawHanded_parts (s : State) :
    (s.withdrawHanded).downstream.appendList = s.downstream.appendList ∧
    (s.withdrawHanded).downstream.forwardQueue = s.downstream.forwardQueue ∧
    (s.withdrawHanded).downstream.outstanding = s.downstream.outstanding ∧
    (s.withdrawHanded).downstream.order = s.downstream.order ∧
    (s.withdrawHanded).downstream.throttleRestore = s.downstream.throttleRestore ∧
    (s.withdrawHanded).downstream.throttleScan = s.downstream.throttleScan ∧
    (s.withdrawHanded).downstream.restoreCount = s.downstream.restoreCount ∧
    (s.withdrawHanded).downstream.scanCount = s.downstream.scanCount := by
  refine ⟨?_, ?_, ?_, ?_, ?_, ?_, ?_, ?_⟩ <;> rfl

@[simp] theorem State.takePreImage_parts (s : State) (c : Ctx) (l : Line) (image : List Byte) :
    (s.takePreImage c l image).log.ringSize = s.log.ringSize ∧ (s.takePreImage c l image).log.tail = s.log.tail ∧
    (s.takePreImage c l image).log.generation = s.log.generation ∧
    (s.takePreImage c l image).log.anchor = s.log.anchor ∧
    (s.takePreImage c l image).log.logFullArmed = s.log.logFullArmed ∧
    (s.takePreImage c l image).log.logLowArmed = s.log.logLowArmed ∧
    (s.takePreImage c l image).log.spaceWaiter = s.log.spaceWaiter ∧
    (s.takePreImage c l image).downstream.anchorList = s.downstream.anchorList ∧
    (s.takePreImage c l image).downstream.captureList = s.downstream.captureList ∧
    (s.takePreImage c l image).downstream.forwardQueue = s.downstream.forwardQueue ∧
    (s.takePreImage c l image).downstream.restoreList = s.downstream.restoreList ∧
    (s.takePreImage c l image).downstream.scanList = s.downstream.scanList ∧
    (s.takePreImage c l image).downstream.outstanding = s.downstream.outstanding ∧
    (s.takePreImage c l image).downstream.order = s.downstream.order ∧
    (s.takePreImage c l image).downstream.throttleRestore = s.downstream.throttleRestore ∧
    (s.takePreImage c l image).downstream.throttleScan = s.downstream.throttleScan ∧
    (s.takePreImage c l image).downstream.restoreCount = s.downstream.restoreCount ∧
    (s.takePreImage c l image).downstream.scanCount = s.downstream.scanCount := by
  refine ⟨?_, ?_, ?_, ?_, ?_, ?_, ?_, ?_, ?_, ?_, ?_, ?_, ?_, ?_, ?_, ?_, ?_, ?_⟩ <;> rfl

@[simp] theorem State.takeMarker_parts (s : State) (kind : MarkerKind) (c : Ctx) (epoch : Epoch) (incomplete : Bool) :
    (s.takeMarker kind c epoch incomplete).log.ringSize = s.log.ringSize ∧
    (s.takeMarker kind c epoch incomplete).log.tail = s.log.tail ∧
    (s.takeMarker kind c epoch incomplete).log.generation = s.log.generation ∧
    (s.takeMarker kind c epoch incomplete).log.anchor = s.log.anchor ∧
    (s.takeMarker kind c epoch incomplete).log.logFullArmed = s.log.logFullArmed ∧
    (s.takeMarker kind c epoch incomplete).log.logLowArmed = s.log.logLowArmed ∧
    (s.takeMarker kind c epoch incomplete).log.spaceWaiter = s.log.spaceWaiter ∧
    (s.takeMarker kind c epoch incomplete).downstream.anchorList = s.downstream.anchorList ∧
    (s.takeMarker kind c epoch incomplete).downstream.captureList = s.downstream.captureList ∧
    (s.takeMarker kind c epoch incomplete).downstream.forwardQueue = s.downstream.forwardQueue ∧
    (s.takeMarker kind c epoch incomplete).downstream.restoreList = s.downstream.restoreList ∧
    (s.takeMarker kind c epoch incomplete).downstream.scanList = s.downstream.scanList ∧
    (s.takeMarker kind c epoch incomplete).downstream.outstanding = s.downstream.outstanding ∧
    (s.takeMarker kind c epoch incomplete).downstream.order = s.downstream.order ∧
    (s.takeMarker kind c epoch incomplete).downstream.throttleRestore = s.downstream.throttleRestore ∧
    (s.takeMarker kind c epoch incomplete).downstream.throttleScan = s.downstream.throttleScan ∧
    (s.takeMarker kind c epoch incomplete).downstream.restoreCount = s.downstream.restoreCount ∧
    (s.takeMarker kind c epoch incomplete).downstream.scanCount = s.downstream.scanCount := by
  refine ⟨?_, ?_, ?_, ?_, ?_, ?_, ?_, ?_, ?_, ?_, ?_, ?_, ?_, ?_, ?_, ?_, ?_, ?_⟩ <;> rfl

@[simp] theorem State.settleItem_parts (s : State) (i : CaptureItem) (c : Ctx) :
    (State.settleItem c s i).log.ringSize = s.log.ringSize ∧ (State.settleItem c s i).log.head = s.log.head ∧
    (State.settleItem c s i).log.inFlight = s.log.inFlight ∧ (State.settleItem c s i).log.tail = s.log.tail ∧
    (State.settleItem c s i).log.generation = s.log.generation ∧ (State.settleItem c s i).log.anchor = s.log.anchor ∧
    (State.settleItem c s i).log.logFullArmed = s.log.logFullArmed ∧
    (State.settleItem c s i).log.logLowArmed = s.log.logLowArmed ∧
    (State.settleItem c s i).log.spaceWaiter = s.log.spaceWaiter ∧
    (State.settleItem c s i).downstream.anchorList = s.downstream.anchorList ∧
    (State.settleItem c s i).downstream.appendList = s.downstream.appendList ∧
    (State.settleItem c s i).downstream.forwardQueue = s.downstream.forwardQueue ∧
    (State.settleItem c s i).downstream.restoreList = s.downstream.restoreList ∧
    (State.settleItem c s i).downstream.scanList = s.downstream.scanList ∧
    (State.settleItem c s i).downstream.outstanding = s.downstream.outstanding ∧
    (State.settleItem c s i).downstream.order = s.downstream.order ∧
    (State.settleItem c s i).downstream.throttleRestore = s.downstream.throttleRestore ∧
    (State.settleItem c s i).downstream.throttleScan = s.downstream.throttleScan ∧
    (State.settleItem c s i).downstream.restoreCount = s.downstream.restoreCount ∧
    (State.settleItem c s i).downstream.scanCount = s.downstream.scanCount := by
  unfold State.settleItem
  split <;> simp

@[simp] theorem State.settleItems_parts (s : State) (c : Ctx) (items : List CaptureItem) :
    (items.foldl (State.settleItem c) s).log.ringSize = s.log.ringSize ∧
    (items.foldl (State.settleItem c) s).log.head = s.log.head ∧
    (items.foldl (State.settleItem c) s).log.inFlight = s.log.inFlight ∧
    (items.foldl (State.settleItem c) s).log.tail = s.log.tail ∧
    (items.foldl (State.settleItem c) s).log.generation = s.log.generation ∧
    (items.foldl (State.settleItem c) s).log.anchor = s.log.anchor ∧
    (items.foldl (State.settleItem c) s).log.logFullArmed = s.log.logFullArmed ∧
    (items.foldl (State.settleItem c) s).log.logLowArmed = s.log.logLowArmed ∧
    (items.foldl (State.settleItem c) s).log.spaceWaiter = s.log.spaceWaiter ∧
    (items.foldl (State.settleItem c) s).downstream.anchorList = s.downstream.anchorList ∧
    (items.foldl (State.settleItem c) s).downstream.appendList = s.downstream.appendList ∧
    (items.foldl (State.settleItem c) s).downstream.forwardQueue = s.downstream.forwardQueue ∧
    (items.foldl (State.settleItem c) s).downstream.restoreList = s.downstream.restoreList ∧
    (items.foldl (State.settleItem c) s).downstream.scanList = s.downstream.scanList ∧
    (items.foldl (State.settleItem c) s).downstream.outstanding = s.downstream.outstanding ∧
    (items.foldl (State.settleItem c) s).downstream.order = s.downstream.order ∧
    (items.foldl (State.settleItem c) s).downstream.throttleRestore = s.downstream.throttleRestore ∧
    (items.foldl (State.settleItem c) s).downstream.throttleScan = s.downstream.throttleScan ∧
    (items.foldl (State.settleItem c) s).downstream.restoreCount = s.downstream.restoreCount ∧
    (items.foldl (State.settleItem c) s).downstream.scanCount = s.downstream.scanCount :=
  ⟨foldl_keeps (fun s : State => s.log.ringSize) _ (fun s x => by simp) _ _,
   foldl_keeps (fun s : State => s.log.head) _ (fun s x => by simp) _ _,
   foldl_keeps (fun s : State => s.log.inFlight) _ (fun s x => by simp) _ _,
   foldl_keeps (fun s : State => s.log.tail) _ (fun s x => by simp) _ _,
   foldl_keeps (fun s : State => s.log.generation) _ (fun s x => by simp) _ _,
   foldl_keeps (fun s : State => s.log.anchor) _ (fun s x => by simp) _ _,
   foldl_keeps (fun s : State => s.log.logFullArmed) _ (fun s x => by simp) _ _,
   foldl_keeps (fun s : State => s.log.logLowArmed) _ (fun s x => by simp) _ _,
   foldl_keeps (fun s : State => s.log.spaceWaiter) _ (fun s x => by simp) _ _,
   foldl_keeps (fun s : State => s.downstream.anchorList) _ (fun s x => by simp) _ _,
   foldl_keeps (fun s : State => s.downstream.appendList) _ (fun s x => by simp) _ _,
   foldl_keeps (fun s : State => s.downstream.forwardQueue) _ (fun s x => by simp) _ _,
   foldl_keeps (fun s : State => s.downstream.restoreList) _ (fun s x => by simp) _ _,
   foldl_keeps (fun s : State => s.downstream.scanList) _ (fun s x => by simp) _ _,
   foldl_keeps (fun s : State => s.downstream.outstanding) _ (fun s x => by simp) _ _,
   foldl_keeps (fun s : State => s.downstream.order) _ (fun s x => by simp) _ _,
   foldl_keeps (fun s : State => s.downstream.throttleRestore) _ (fun s x => by simp) _ _,
   foldl_keeps (fun s : State => s.downstream.throttleScan) _ (fun s x => by simp) _ _,
   foldl_keeps (fun s : State => s.downstream.restoreCount) _ (fun s x => by simp) _ _,
   foldl_keeps (fun s : State => s.downstream.scanCount) _ (fun s x => by simp) _ _⟩

@[simp] theorem State.refuseEntry_parts (s : State) (e : HoldEntry) (reason : Reason) :
    (State.refuseEntry reason s e).log.ringSize = s.log.ringSize ∧
    (State.refuseEntry reason s e).log.head = s.log.head ∧
    (State.refuseEntry reason s e).log.inFlight = s.log.inFlight ∧
    (State.refuseEntry reason s e).log.tail = s.log.tail ∧
    (State.refuseEntry reason s e).log.generation = s.log.generation ∧
    (State.refuseEntry reason s e).log.anchor = s.log.anchor ∧
    (State.refuseEntry reason s e).log.logFullArmed = s.log.logFullArmed ∧
    (State.refuseEntry reason s e).log.logLowArmed = s.log.logLowArmed ∧
    (State.refuseEntry reason s e).log.spaceWaiter = s.log.spaceWaiter ∧
    (State.refuseEntry reason s e).downstream.anchorList = s.downstream.anchorList ∧
    (State.refuseEntry reason s e).downstream.appendList = s.downstream.appendList ∧
    (State.refuseEntry reason s e).downstream.forwardQueue = s.downstream.forwardQueue ∧
    (State.refuseEntry reason s e).downstream.restoreList = s.downstream.restoreList ∧
    (State.refuseEntry reason s e).downstream.scanList = s.downstream.scanList ∧
    (State.refuseEntry reason s e).downstream.outstanding = s.downstream.outstanding ∧
    (State.refuseEntry reason s e).downstream.order = s.downstream.order ∧
    (State.refuseEntry reason s e).downstream.throttleRestore = s.downstream.throttleRestore ∧
    (State.refuseEntry reason s e).downstream.throttleScan = s.downstream.throttleScan ∧
    (State.refuseEntry reason s e).downstream.restoreCount = s.downstream.restoreCount ∧
    (State.refuseEntry reason s e).downstream.scanCount = s.downstream.scanCount ∧
    (State.refuseEntry reason s e).upstream.intake = s.upstream.intake ∧
    (State.refuseEntry reason s e).upstream.head = s.upstream.head ∧
    (State.refuseEntry reason s e).upstream.link = s.upstream.link ∧
    (State.refuseEntry reason s e).out.requests = s.out.requests ∧
    (State.refuseEntry reason s e).out.mdo = s.out.mdo ∧ (State.refuseEntry reason s e).events.mask = s.events.mask := by
  unfold State.refuseEntry
  split <;> simp

@[simp] theorem State.refuseEntries_parts (s : State) (reason : Reason) (l : List HoldEntry) :
    (l.foldl (State.refuseEntry reason) s).log.ringSize = s.log.ringSize ∧
    (l.foldl (State.refuseEntry reason) s).log.head = s.log.head ∧
    (l.foldl (State.refuseEntry reason) s).log.inFlight = s.log.inFlight ∧
    (l.foldl (State.refuseEntry reason) s).log.tail = s.log.tail ∧
    (l.foldl (State.refuseEntry reason) s).log.generation = s.log.generation ∧
    (l.foldl (State.refuseEntry reason) s).log.anchor = s.log.anchor ∧
    (l.foldl (State.refuseEntry reason) s).log.logFullArmed = s.log.logFullArmed ∧
    (l.foldl (State.refuseEntry reason) s).log.logLowArmed = s.log.logLowArmed ∧
    (l.foldl (State.refuseEntry reason) s).log.spaceWaiter = s.log.spaceWaiter ∧
    (l.foldl (State.refuseEntry reason) s).downstream.anchorList = s.downstream.anchorList ∧
    (l.foldl (State.refuseEntry reason) s).downstream.appendList = s.downstream.appendList ∧
    (l.foldl (State.refuseEntry reason) s).downstream.forwardQueue = s.downstream.forwardQueue ∧
    (l.foldl (State.refuseEntry reason) s).downstream.restoreList = s.downstream.restoreList ∧
    (l.foldl (State.refuseEntry reason) s).downstream.scanList = s.downstream.scanList ∧
    (l.foldl (State.refuseEntry reason) s).downstream.outstanding = s.downstream.outstanding ∧
    (l.foldl (State.refuseEntry reason) s).downstream.order = s.downstream.order ∧
    (l.foldl (State.refuseEntry reason) s).downstream.throttleRestore = s.downstream.throttleRestore ∧
    (l.foldl (State.refuseEntry reason) s).downstream.throttleScan = s.downstream.throttleScan ∧
    (l.foldl (State.refuseEntry reason) s).downstream.restoreCount = s.downstream.restoreCount ∧
    (l.foldl (State.refuseEntry reason) s).downstream.scanCount = s.downstream.scanCount ∧
    (l.foldl (State.refuseEntry reason) s).upstream.intake = s.upstream.intake ∧
    (l.foldl (State.refuseEntry reason) s).upstream.head = s.upstream.head ∧
    (l.foldl (State.refuseEntry reason) s).upstream.link = s.upstream.link ∧
    (l.foldl (State.refuseEntry reason) s).out.requests = s.out.requests ∧
    (l.foldl (State.refuseEntry reason) s).out.mdo = s.out.mdo ∧
    (l.foldl (State.refuseEntry reason) s).events.mask = s.events.mask :=
  ⟨foldl_keeps (fun s : State => s.log.ringSize) _ (fun s x => by simp) _ _,
   foldl_keeps (fun s : State => s.log.head) _ (fun s x => by simp) _ _,
   foldl_keeps (fun s : State => s.log.inFlight) _ (fun s x => by simp) _ _,
   foldl_keeps (fun s : State => s.log.tail) _ (fun s x => by simp) _ _,
   foldl_keeps (fun s : State => s.log.generation) _ (fun s x => by simp) _ _,
   foldl_keeps (fun s : State => s.log.anchor) _ (fun s x => by simp) _ _,
   foldl_keeps (fun s : State => s.log.logFullArmed) _ (fun s x => by simp) _ _,
   foldl_keeps (fun s : State => s.log.logLowArmed) _ (fun s x => by simp) _ _,
   foldl_keeps (fun s : State => s.log.spaceWaiter) _ (fun s x => by simp) _ _,
   foldl_keeps (fun s : State => s.downstream.anchorList) _ (fun s x => by simp) _ _,
   foldl_keeps (fun s : State => s.downstream.appendList) _ (fun s x => by simp) _ _,
   foldl_keeps (fun s : State => s.downstream.forwardQueue) _ (fun s x => by simp) _ _,
   foldl_keeps (fun s : State => s.downstream.restoreList) _ (fun s x => by simp) _ _,
   foldl_keeps (fun s : State => s.downstream.scanList) _ (fun s x => by simp) _ _,
   foldl_keeps (fun s : State => s.downstream.outstanding) _ (fun s x => by simp) _ _,
   foldl_keeps (fun s : State => s.downstream.order) _ (fun s x => by simp) _ _,
   foldl_keeps (fun s : State => s.downstream.throttleRestore) _ (fun s x => by simp) _ _,
   foldl_keeps (fun s : State => s.downstream.throttleScan) _ (fun s x => by simp) _ _,
   foldl_keeps (fun s : State => s.downstream.restoreCount) _ (fun s x => by simp) _ _,
   foldl_keeps (fun s : State => s.downstream.scanCount) _ (fun s x => by simp) _ _,
   foldl_keeps (fun s : State => s.upstream.intake) _ (fun s x => by simp) _ _,
   foldl_keeps (fun s : State => s.upstream.head) _ (fun s x => by simp) _ _,
   foldl_keeps (fun s : State => s.upstream.link) _ (fun s x => by simp) _ _,
   foldl_keeps (fun s : State => s.out.requests) _ (fun s x => by simp) _ _,
   foldl_keeps (fun s : State => s.out.mdo) _ (fun s x => by simp) _ _,
   foldl_keeps (fun s : State => s.events.mask) _ (fun s x => by simp) _ _⟩

@[simp] theorem State.refuseWhere_parts (s : State) (pick : HoldEntry → Bool) (reason : Reason) :
    (s.refuseWhere pick reason).log.ringSize = s.log.ringSize ∧ (s.refuseWhere pick reason).log.head = s.log.head ∧
    (s.refuseWhere pick reason).log.inFlight = s.log.inFlight ∧ (s.refuseWhere pick reason).log.tail = s.log.tail ∧
    (s.refuseWhere pick reason).log.generation = s.log.generation ∧
    (s.refuseWhere pick reason).log.anchor = s.log.anchor ∧
    (s.refuseWhere pick reason).log.logFullArmed = s.log.logFullArmed ∧
    (s.refuseWhere pick reason).log.logLowArmed = s.log.logLowArmed ∧
    (s.refuseWhere pick reason).log.spaceWaiter = s.log.spaceWaiter ∧
    (s.refuseWhere pick reason).downstream.anchorList = s.downstream.anchorList ∧
    (s.refuseWhere pick reason).downstream.appendList = s.downstream.appendList ∧
    (s.refuseWhere pick reason).downstream.forwardQueue = s.downstream.forwardQueue ∧
    (s.refuseWhere pick reason).downstream.restoreList = s.downstream.restoreList ∧
    (s.refuseWhere pick reason).downstream.scanList = s.downstream.scanList ∧
    (s.refuseWhere pick reason).downstream.outstanding = s.downstream.outstanding ∧
    (s.refuseWhere pick reason).downstream.order = s.downstream.order ∧
    (s.refuseWhere pick reason).downstream.throttleRestore = s.downstream.throttleRestore ∧
    (s.refuseWhere pick reason).downstream.throttleScan = s.downstream.throttleScan ∧
    (s.refuseWhere pick reason).downstream.restoreCount = s.downstream.restoreCount ∧
    (s.refuseWhere pick reason).downstream.scanCount = s.downstream.scanCount ∧
    (s.refuseWhere pick reason).upstream.intake = s.upstream.intake ∧
    (s.refuseWhere pick reason).upstream.head = s.upstream.head ∧
    (s.refuseWhere pick reason).upstream.link = s.upstream.link ∧
    (s.refuseWhere pick reason).out.requests = s.out.requests ∧ (s.refuseWhere pick reason).out.mdo = s.out.mdo ∧
    (s.refuseWhere pick reason).events.mask = s.events.mask := by
  simp [State.refuseWhere]

@[simp] theorem State.lookSpace_parts (s : State) :
    (s.lookSpace).log.ringSize = s.log.ringSize ∧ (s.lookSpace).log.head = s.log.head ∧
    (s.lookSpace).log.inFlight = s.log.inFlight ∧ (s.lookSpace).log.requests = s.log.requests ∧
    (s.lookSpace).log.tail = s.log.tail ∧ (s.lookSpace).log.generation = s.log.generation ∧
    (s.lookSpace).log.anchor = s.log.anchor ∧ (s.lookSpace).log.logLowArmed = s.log.logLowArmed ∧
    (s.lookSpace).events.mask = s.events.mask := by
  unfold State.lookSpace
  (repeat' split) <;> simp

@[simp] theorem State.lookLow_parts (s : State) :
    (s.lookLow).log.ringSize = s.log.ringSize ∧ (s.lookLow).log.head = s.log.head ∧
    (s.lookLow).log.inFlight = s.log.inFlight ∧ (s.lookLow).log.requests = s.log.requests ∧
    (s.lookLow).log.tail = s.log.tail ∧ (s.lookLow).log.generation = s.log.generation ∧
    (s.lookLow).log.anchor = s.log.anchor ∧ (s.lookLow).log.logFullArmed = s.log.logFullArmed ∧
    (s.lookLow).log.spaceWaiter = s.log.spaceWaiter ∧ (s.lookLow).events.mask = s.events.mask := by
  unfold State.lookLow
  (repeat' split) <;> simp

@[simp] theorem State.endSettling_parts (s : State) (c : Ctx) :
    (s.endSettling c).events.mask = s.events.mask := by
  unfold State.endSettling
  (repeat' split) <;> simp

@[simp] theorem State.nextReplay_parts (s : State) (c : Ctx) :
    (s.nextReplay c).log.ringSize = s.log.ringSize ∧ (s.nextReplay c).log.head = s.log.head ∧
    (s.nextReplay c).log.inFlight = s.log.inFlight ∧ (s.nextReplay c).log.tail = s.log.tail ∧
    (s.nextReplay c).log.generation = s.log.generation ∧ (s.nextReplay c).log.anchor = s.log.anchor ∧
    (s.nextReplay c).log.logFullArmed = s.log.logFullArmed ∧ (s.nextReplay c).log.logLowArmed = s.log.logLowArmed ∧
    (s.nextReplay c).log.spaceWaiter = s.log.spaceWaiter ∧
    (s.nextReplay c).downstream.anchorList = s.downstream.anchorList ∧
    (s.nextReplay c).downstream.appendList = s.downstream.appendList ∧
    (s.nextReplay c).downstream.captureList = s.downstream.captureList ∧
    (s.nextReplay c).downstream.forwardQueue = s.downstream.forwardQueue ∧
    (s.nextReplay c).downstream.scanList = s.downstream.scanList ∧
    (s.nextReplay c).downstream.outstanding = s.downstream.outstanding ∧
    (s.nextReplay c).downstream.order = s.downstream.order ∧
    (s.nextReplay c).downstream.throttleRestore = s.downstream.throttleRestore ∧
    (s.nextReplay c).downstream.throttleScan = s.downstream.throttleScan ∧
    (s.nextReplay c).downstream.restoreCount = s.downstream.restoreCount ∧
    (s.nextReplay c).downstream.scanCount = s.downstream.scanCount ∧ (s.nextReplay c).events.mask = s.events.mask := by
  unfold State.nextReplay
  (repeat' split) <;> simp

@[simp] theorem State.moveCommit_parts (s : State) (c : Ctx) :
    (s.moveCommit c).log.ringSize = s.log.ringSize ∧ (s.moveCommit c).log.head = s.log.head ∧
    (s.moveCommit c).log.inFlight = s.log.inFlight ∧ (s.moveCommit c).log.tail = s.log.tail ∧
    (s.moveCommit c).log.generation = s.log.generation ∧ (s.moveCommit c).log.anchor = s.log.anchor ∧
    (s.moveCommit c).log.logFullArmed = s.log.logFullArmed ∧ (s.moveCommit c).log.logLowArmed = s.log.logLowArmed ∧
    (s.moveCommit c).log.spaceWaiter = s.log.spaceWaiter ∧
    (s.moveCommit c).downstream.anchorList = s.downstream.anchorList ∧
    (s.moveCommit c).downstream.appendList = s.downstream.appendList ∧
    (s.moveCommit c).downstream.captureList = s.downstream.captureList ∧
    (s.moveCommit c).downstream.forwardQueue = s.downstream.forwardQueue ∧
    (s.moveCommit c).downstream.scanList = s.downstream.scanList ∧
    (s.moveCommit c).downstream.outstanding = s.downstream.outstanding ∧
    (s.moveCommit c).downstream.order = s.downstream.order ∧
    (s.moveCommit c).downstream.throttleRestore = s.downstream.throttleRestore ∧
    (s.moveCommit c).downstream.throttleScan = s.downstream.throttleScan ∧
    (s.moveCommit c).downstream.restoreCount = s.downstream.restoreCount ∧
    (s.moveCommit c).downstream.scanCount = s.downstream.scanCount ∧ (s.moveCommit c).events.mask = s.events.mask := by
  unfold State.moveCommit
  (repeat' split) <;> simp

@[simp] theorem State.moveSettling_parts (s : State) (c : Ctx) :
    (s.moveSettling c).log.ringSize = s.log.ringSize ∧ (s.moveSettling c).log.head = s.log.head ∧
    (s.moveSettling c).log.inFlight = s.log.inFlight ∧ (s.moveSettling c).log.tail = s.log.tail ∧
    (s.moveSettling c).log.generation = s.log.generation ∧ (s.moveSettling c).log.anchor = s.log.anchor ∧
    (s.moveSettling c).log.logFullArmed = s.log.logFullArmed ∧
    (s.moveSettling c).log.logLowArmed = s.log.logLowArmed ∧ (s.moveSettling c).log.spaceWaiter = s.log.spaceWaiter ∧
    (s.moveSettling c).downstream.anchorList = s.downstream.anchorList ∧
    (s.moveSettling c).downstream.appendList = s.downstream.appendList ∧
    (s.moveSettling c).downstream.captureList = s.downstream.captureList ∧
    (s.moveSettling c).downstream.forwardQueue = s.downstream.forwardQueue ∧
    (s.moveSettling c).downstream.scanList = s.downstream.scanList ∧
    (s.moveSettling c).downstream.outstanding = s.downstream.outstanding ∧
    (s.moveSettling c).downstream.order = s.downstream.order ∧
    (s.moveSettling c).downstream.throttleRestore = s.downstream.throttleRestore ∧
    (s.moveSettling c).downstream.throttleScan = s.downstream.throttleScan ∧
    (s.moveSettling c).downstream.restoreCount = s.downstream.restoreCount ∧
    (s.moveSettling c).downstream.scanCount = s.downstream.scanCount ∧ (s.moveSettling c).events.mask = s.events.mask := by
  unfold State.moveSettling
  (repeat' split) <;> simp

@[simp] theorem State.moveCovering_parts (s : State) (c : Ctx) :
    (s.moveCovering c).log.ringSize = s.log.ringSize ∧ (s.moveCovering c).log.head = s.log.head ∧
    (s.moveCovering c).log.inFlight = s.log.inFlight ∧ (s.moveCovering c).log.tail = s.log.tail ∧
    (s.moveCovering c).log.generation = s.log.generation ∧ (s.moveCovering c).log.anchor = s.log.anchor ∧
    (s.moveCovering c).log.logFullArmed = s.log.logFullArmed ∧
    (s.moveCovering c).log.logLowArmed = s.log.logLowArmed ∧ (s.moveCovering c).log.spaceWaiter = s.log.spaceWaiter ∧
    (s.moveCovering c).downstream.anchorList = s.downstream.anchorList ∧
    (s.moveCovering c).downstream.appendList = s.downstream.appendList ∧
    (s.moveCovering c).downstream.captureList = s.downstream.captureList ∧
    (s.moveCovering c).downstream.forwardQueue = s.downstream.forwardQueue ∧
    (s.moveCovering c).downstream.scanList = s.downstream.scanList ∧
    (s.moveCovering c).downstream.outstanding = s.downstream.outstanding ∧
    (s.moveCovering c).downstream.order = s.downstream.order ∧
    (s.moveCovering c).downstream.throttleRestore = s.downstream.throttleRestore ∧
    (s.moveCovering c).downstream.throttleScan = s.downstream.throttleScan ∧
    (s.moveCovering c).downstream.restoreCount = s.downstream.restoreCount ∧
    (s.moveCovering c).downstream.scanCount = s.downstream.scanCount ∧ (s.moveCovering c).events.mask = s.events.mask := by
  unfold State.moveCovering
  (repeat' split) <;> simp

@[simp] theorem State.moveReplaying_parts (s : State) (c : Ctx) :
    (s.moveReplaying c).log.ringSize = s.log.ringSize ∧ (s.moveReplaying c).log.head = s.log.head ∧
    (s.moveReplaying c).log.inFlight = s.log.inFlight ∧ (s.moveReplaying c).log.tail = s.log.tail ∧
    (s.moveReplaying c).log.generation = s.log.generation ∧ (s.moveReplaying c).log.anchor = s.log.anchor ∧
    (s.moveReplaying c).log.logFullArmed = s.log.logFullArmed ∧
    (s.moveReplaying c).log.logLowArmed = s.log.logLowArmed ∧
    (s.moveReplaying c).log.spaceWaiter = s.log.spaceWaiter ∧
    (s.moveReplaying c).downstream.anchorList = s.downstream.anchorList ∧
    (s.moveReplaying c).downstream.appendList = s.downstream.appendList ∧
    (s.moveReplaying c).downstream.captureList = s.downstream.captureList ∧
    (s.moveReplaying c).downstream.forwardQueue = s.downstream.forwardQueue ∧
    (s.moveReplaying c).downstream.scanList = s.downstream.scanList ∧
    (s.moveReplaying c).downstream.outstanding = s.downstream.outstanding ∧
    (s.moveReplaying c).downstream.order = s.downstream.order ∧
    (s.moveReplaying c).downstream.throttleRestore = s.downstream.throttleRestore ∧
    (s.moveReplaying c).downstream.throttleScan = s.downstream.throttleScan ∧
    (s.moveReplaying c).downstream.restoreCount = s.downstream.restoreCount ∧
    (s.moveReplaying c).downstream.scanCount = s.downstream.scanCount ∧
    (s.moveReplaying c).events.mask = s.events.mask := by
  unfold State.moveReplaying
  (repeat' split) <;> simp

@[simp] theorem State.moveMarking_parts (s : State) (c : Ctx) :
    (s.moveMarking c).log.ringSize = s.log.ringSize ∧ (s.moveMarking c).log.head = s.log.head ∧
    (s.moveMarking c).log.inFlight = s.log.inFlight ∧ (s.moveMarking c).log.tail = s.log.tail ∧
    (s.moveMarking c).log.generation = s.log.generation ∧ (s.moveMarking c).log.anchor = s.log.anchor ∧
    (s.moveMarking c).log.logFullArmed = s.log.logFullArmed ∧ (s.moveMarking c).log.logLowArmed = s.log.logLowArmed ∧
    (s.moveMarking c).log.spaceWaiter = s.log.spaceWaiter ∧
    (s.moveMarking c).downstream.anchorList = s.downstream.anchorList ∧
    (s.moveMarking c).downstream.appendList = s.downstream.appendList ∧
    (s.moveMarking c).downstream.captureList = s.downstream.captureList ∧
    (s.moveMarking c).downstream.forwardQueue = s.downstream.forwardQueue ∧
    (s.moveMarking c).downstream.scanList = s.downstream.scanList ∧
    (s.moveMarking c).downstream.outstanding = s.downstream.outstanding ∧
    (s.moveMarking c).downstream.order = s.downstream.order ∧
    (s.moveMarking c).downstream.throttleRestore = s.downstream.throttleRestore ∧
    (s.moveMarking c).downstream.throttleScan = s.downstream.throttleScan ∧
    (s.moveMarking c).downstream.restoreCount = s.downstream.restoreCount ∧
    (s.moveMarking c).downstream.scanCount = s.downstream.scanCount ∧ (s.moveMarking c).events.mask = s.events.mask := by
  unfold State.moveMarking
  (repeat' split) <;> simp

@[simp] theorem State.moveEngine_parts (s : State) (c : Ctx) :
    (s.moveEngine c).log.ringSize = s.log.ringSize ∧ (s.moveEngine c).log.head = s.log.head ∧
    (s.moveEngine c).log.inFlight = s.log.inFlight ∧ (s.moveEngine c).log.tail = s.log.tail ∧
    (s.moveEngine c).log.generation = s.log.generation ∧ (s.moveEngine c).log.anchor = s.log.anchor ∧
    (s.moveEngine c).log.logFullArmed = s.log.logFullArmed ∧ (s.moveEngine c).log.logLowArmed = s.log.logLowArmed ∧
    (s.moveEngine c).log.spaceWaiter = s.log.spaceWaiter ∧
    (s.moveEngine c).downstream.anchorList = s.downstream.anchorList ∧
    (s.moveEngine c).downstream.appendList = s.downstream.appendList ∧
    (s.moveEngine c).downstream.captureList = s.downstream.captureList ∧
    (s.moveEngine c).downstream.forwardQueue = s.downstream.forwardQueue ∧
    (s.moveEngine c).downstream.scanList = s.downstream.scanList ∧
    (s.moveEngine c).downstream.outstanding = s.downstream.outstanding ∧
    (s.moveEngine c).downstream.order = s.downstream.order ∧
    (s.moveEngine c).downstream.throttleRestore = s.downstream.throttleRestore ∧
    (s.moveEngine c).downstream.throttleScan = s.downstream.throttleScan ∧
    (s.moveEngine c).downstream.restoreCount = s.downstream.restoreCount ∧
    (s.moveEngine c).downstream.scanCount = s.downstream.scanCount ∧ (s.moveEngine c).events.mask = s.events.mask := by
  unfold State.moveEngine
  (repeat' split) <;> simp

@[simp] theorem State.moveEngines_parts (s : State) (l : List Ctx) :
    (l.foldl State.moveEngine s).log.ringSize = s.log.ringSize ∧ (l.foldl State.moveEngine s).log.head = s.log.head ∧
    (l.foldl State.moveEngine s).log.inFlight = s.log.inFlight ∧ (l.foldl State.moveEngine s).log.tail = s.log.tail ∧
    (l.foldl State.moveEngine s).log.generation = s.log.generation ∧
    (l.foldl State.moveEngine s).log.anchor = s.log.anchor ∧
    (l.foldl State.moveEngine s).log.logFullArmed = s.log.logFullArmed ∧
    (l.foldl State.moveEngine s).log.logLowArmed = s.log.logLowArmed ∧
    (l.foldl State.moveEngine s).log.spaceWaiter = s.log.spaceWaiter ∧
    (l.foldl State.moveEngine s).downstream.anchorList = s.downstream.anchorList ∧
    (l.foldl State.moveEngine s).downstream.appendList = s.downstream.appendList ∧
    (l.foldl State.moveEngine s).downstream.captureList = s.downstream.captureList ∧
    (l.foldl State.moveEngine s).downstream.forwardQueue = s.downstream.forwardQueue ∧
    (l.foldl State.moveEngine s).downstream.scanList = s.downstream.scanList ∧
    (l.foldl State.moveEngine s).downstream.outstanding = s.downstream.outstanding ∧
    (l.foldl State.moveEngine s).downstream.order = s.downstream.order ∧
    (l.foldl State.moveEngine s).downstream.throttleRestore = s.downstream.throttleRestore ∧
    (l.foldl State.moveEngine s).downstream.throttleScan = s.downstream.throttleScan ∧
    (l.foldl State.moveEngine s).downstream.restoreCount = s.downstream.restoreCount ∧
    (l.foldl State.moveEngine s).downstream.scanCount = s.downstream.scanCount ∧
    (l.foldl State.moveEngine s).events.mask = s.events.mask :=
  ⟨foldl_keeps (fun s : State => s.log.ringSize) _ (fun s x => by simp) _ _,
   foldl_keeps (fun s : State => s.log.head) _ (fun s x => by simp) _ _,
   foldl_keeps (fun s : State => s.log.inFlight) _ (fun s x => by simp) _ _,
   foldl_keeps (fun s : State => s.log.tail) _ (fun s x => by simp) _ _,
   foldl_keeps (fun s : State => s.log.generation) _ (fun s x => by simp) _ _,
   foldl_keeps (fun s : State => s.log.anchor) _ (fun s x => by simp) _ _,
   foldl_keeps (fun s : State => s.log.logFullArmed) _ (fun s x => by simp) _ _,
   foldl_keeps (fun s : State => s.log.logLowArmed) _ (fun s x => by simp) _ _,
   foldl_keeps (fun s : State => s.log.spaceWaiter) _ (fun s x => by simp) _ _,
   foldl_keeps (fun s : State => s.downstream.anchorList) _ (fun s x => by simp) _ _,
   foldl_keeps (fun s : State => s.downstream.appendList) _ (fun s x => by simp) _ _,
   foldl_keeps (fun s : State => s.downstream.captureList) _ (fun s x => by simp) _ _,
   foldl_keeps (fun s : State => s.downstream.forwardQueue) _ (fun s x => by simp) _ _,
   foldl_keeps (fun s : State => s.downstream.scanList) _ (fun s x => by simp) _ _,
   foldl_keeps (fun s : State => s.downstream.outstanding) _ (fun s x => by simp) _ _,
   foldl_keeps (fun s : State => s.downstream.order) _ (fun s x => by simp) _ _,
   foldl_keeps (fun s : State => s.downstream.throttleRestore) _ (fun s x => by simp) _ _,
   foldl_keeps (fun s : State => s.downstream.throttleScan) _ (fun s x => by simp) _ _,
   foldl_keeps (fun s : State => s.downstream.restoreCount) _ (fun s x => by simp) _ _,
   foldl_keeps (fun s : State => s.downstream.scanCount) _ (fun s x => by simp) _ _,
   foldl_keeps (fun s : State => s.events.mask) _ (fun s x => by simp) _ _⟩

@[simp] theorem State.runEngines_parts (s : State) :
    (s.runEngines).log.ringSize = s.log.ringSize ∧ (s.runEngines).log.head = s.log.head ∧
    (s.runEngines).log.inFlight = s.log.inFlight ∧ (s.runEngines).log.tail = s.log.tail ∧
    (s.runEngines).log.generation = s.log.generation ∧ (s.runEngines).log.anchor = s.log.anchor ∧
    (s.runEngines).log.logFullArmed = s.log.logFullArmed ∧ (s.runEngines).log.logLowArmed = s.log.logLowArmed ∧
    (s.runEngines).log.spaceWaiter = s.log.spaceWaiter ∧
    (s.runEngines).downstream.anchorList = s.downstream.anchorList ∧
    (s.runEngines).downstream.appendList = s.downstream.appendList ∧
    (s.runEngines).downstream.captureList = s.downstream.captureList ∧
    (s.runEngines).downstream.forwardQueue = s.downstream.forwardQueue ∧
    (s.runEngines).downstream.scanList = s.downstream.scanList ∧
    (s.runEngines).downstream.outstanding = s.downstream.outstanding ∧
    (s.runEngines).downstream.order = s.downstream.order ∧
    (s.runEngines).downstream.throttleRestore = s.downstream.throttleRestore ∧
    (s.runEngines).downstream.throttleScan = s.downstream.throttleScan ∧
    (s.runEngines).downstream.restoreCount = s.downstream.restoreCount ∧
    (s.runEngines).downstream.scanCount = s.downstream.scanCount ∧ (s.runEngines).events.mask = s.events.mask := by
  unfold State.runEngines
  (repeat' split) <;> simp

@[simp] theorem State.applyFault_parts (s : State) (c : Ctx) (cause : FaultCause) (address : Addr) :
    (s.applyFault c cause address).log.ringSize = s.log.ringSize ∧
    (s.applyFault c cause address).log.head = s.log.head ∧
    (s.applyFault c cause address).log.inFlight = s.log.inFlight ∧
    (s.applyFault c cause address).log.tail = s.log.tail ∧
    (s.applyFault c cause address).log.generation = s.log.generation ∧
    (s.applyFault c cause address).log.anchor = s.log.anchor ∧
    (s.applyFault c cause address).log.logLowArmed = s.log.logLowArmed ∧
    (s.applyFault c cause address).downstream.anchorList = s.downstream.anchorList ∧
    (s.applyFault c cause address).downstream.appendList = s.downstream.appendList ∧
    (s.applyFault c cause address).downstream.forwardQueue = s.downstream.forwardQueue ∧
    (s.applyFault c cause address).downstream.restoreList = s.downstream.restoreList ∧
    (s.applyFault c cause address).downstream.scanList = s.downstream.scanList ∧
    (s.applyFault c cause address).downstream.outstanding = s.downstream.outstanding ∧
    (s.applyFault c cause address).downstream.order = s.downstream.order ∧
    (s.applyFault c cause address).downstream.throttleRestore = s.downstream.throttleRestore ∧
    (s.applyFault c cause address).downstream.throttleScan = s.downstream.throttleScan ∧
    (s.applyFault c cause address).downstream.restoreCount = s.downstream.restoreCount ∧
    (s.applyFault c cause address).downstream.scanCount = s.downstream.scanCount ∧
    (s.applyFault c cause address).upstream.intake = s.upstream.intake ∧
    (s.applyFault c cause address).upstream.head = s.upstream.head ∧
    (s.applyFault c cause address).upstream.link = s.upstream.link ∧
    (s.applyFault c cause address).out.requests = s.out.requests ∧
    (s.applyFault c cause address).out.mdo = s.out.mdo ∧ (s.applyFault c cause address).events.mask = s.events.mask := by
  unfold State.applyFault
  dsimp only
  split <;> simp

@[simp] theorem State.reportFault_parts (s : State) (c : Ctx) (cause : FaultCause) (address : Addr) :
    (s.reportFault c cause address).log.ringSize = s.log.ringSize ∧
    (s.reportFault c cause address).log.head = s.log.head ∧
    (s.reportFault c cause address).log.inFlight = s.log.inFlight ∧
    (s.reportFault c cause address).log.tail = s.log.tail ∧
    (s.reportFault c cause address).log.generation = s.log.generation ∧
    (s.reportFault c cause address).log.anchor = s.log.anchor ∧
    (s.reportFault c cause address).log.logLowArmed = s.log.logLowArmed ∧
    (s.reportFault c cause address).downstream.anchorList = s.downstream.anchorList ∧
    (s.reportFault c cause address).downstream.appendList = s.downstream.appendList ∧
    (s.reportFault c cause address).downstream.forwardQueue = s.downstream.forwardQueue ∧
    (s.reportFault c cause address).downstream.restoreList = s.downstream.restoreList ∧
    (s.reportFault c cause address).downstream.scanList = s.downstream.scanList ∧
    (s.reportFault c cause address).downstream.outstanding = s.downstream.outstanding ∧
    (s.reportFault c cause address).downstream.order = s.downstream.order ∧
    (s.reportFault c cause address).downstream.throttleRestore = s.downstream.throttleRestore ∧
    (s.reportFault c cause address).downstream.throttleScan = s.downstream.throttleScan ∧
    (s.reportFault c cause address).downstream.restoreCount = s.downstream.restoreCount ∧
    (s.reportFault c cause address).downstream.scanCount = s.downstream.scanCount ∧
    (s.reportFault c cause address).upstream.intake = s.upstream.intake ∧
    (s.reportFault c cause address).upstream.head = s.upstream.head ∧
    (s.reportFault c cause address).upstream.link = s.upstream.link ∧
    (s.reportFault c cause address).out.requests = s.out.requests ∧
    (s.reportFault c cause address).out.mdo = s.out.mdo ∧ (s.reportFault c cause address).events.mask = s.events.mask := by
  unfold State.reportFault
  split <;> simp

@[simp] theorem State.withdrawAttach_parts (s : State) :
    (s.withdrawAttach).log.ringSize = s.log.ringSize ∧ (s.withdrawAttach).log.head = s.log.head ∧
    (s.withdrawAttach).log.inFlight = s.log.inFlight ∧ (s.withdrawAttach).log.requests = s.log.requests ∧
    (s.withdrawAttach).log.tail = s.log.tail ∧ (s.withdrawAttach).log.generation = s.log.generation ∧
    (s.withdrawAttach).log.logFullArmed = s.log.logFullArmed ∧
    (s.withdrawAttach).log.logLowArmed = s.log.logLowArmed ∧ (s.withdrawAttach).log.spaceWaiter = s.log.spaceWaiter ∧
    (s.withdrawAttach).downstream.appendList = s.downstream.appendList ∧
    (s.withdrawAttach).downstream.captureList = s.downstream.captureList ∧
    (s.withdrawAttach).downstream.forwardQueue = s.downstream.forwardQueue ∧
    (s.withdrawAttach).downstream.restoreList = s.downstream.restoreList ∧
    (s.withdrawAttach).downstream.outstanding = s.downstream.outstanding ∧
    (s.withdrawAttach).downstream.order = s.downstream.order ∧
    (s.withdrawAttach).downstream.throttleRestore = s.downstream.throttleRestore ∧
    (s.withdrawAttach).downstream.throttleScan = s.downstream.throttleScan ∧
    (s.withdrawAttach).downstream.restoreCount = s.downstream.restoreCount ∧
    (s.withdrawAttach).downstream.scanCount = s.downstream.scanCount ∧
    (s.withdrawAttach).attach.journal = s.attach.journal ∧ (s.withdrawAttach).attach.report = s.attach.report ∧
    (s.withdrawAttach).attach.drain = s.attach.drain ∧ (s.withdrawAttach).attach.quiet = s.attach.quiet := by
  unfold State.withdrawAttach
  dsimp only
  split <;> simp

@[simp] theorem State.stopIntake_parts (s : State) :
    (s.stopIntake).upstream.link = s.upstream.link ∧ (s.stopIntake).out.requests = s.out.requests ∧
    (s.stopIntake).out.mdo = s.out.mdo ∧ (s.stopIntake).events.mask = s.events.mask := by
  unfold State.stopIntake
  split <;> simp

@[simp] theorem State.enterDrained_parts (s : State) (detail : DrainDetail) :
    (s.enterDrained detail).attach.progress = s.attach.progress ∧
    (s.enterDrained detail).attach.report = s.attach.report ∧ (s.enterDrained detail).events.mask = s.events.mask := by
  simp

@[simp] theorem State.beginDrain_parts (s : State) :
    (s.beginDrain).log.ringSize = s.log.ringSize ∧ (s.beginDrain).log.head = s.log.head ∧
    (s.beginDrain).log.inFlight = s.log.inFlight ∧ (s.beginDrain).log.tail = s.log.tail ∧
    (s.beginDrain).log.generation = s.log.generation ∧ (s.beginDrain).log.logFullArmed = s.log.logFullArmed ∧
    (s.beginDrain).log.logLowArmed = s.log.logLowArmed ∧
    (s.beginDrain).downstream.appendList = s.downstream.appendList ∧
    (s.beginDrain).downstream.forwardQueue = s.downstream.forwardQueue ∧
    (s.beginDrain).downstream.outstanding = s.downstream.outstanding ∧
    (s.beginDrain).downstream.order = s.downstream.order ∧
    (s.beginDrain).downstream.throttleRestore = s.downstream.throttleRestore ∧
    (s.beginDrain).downstream.throttleScan = s.downstream.throttleScan ∧
    (s.beginDrain).downstream.restoreCount = s.downstream.restoreCount ∧
    (s.beginDrain).downstream.scanCount = s.downstream.scanCount ∧ (s.beginDrain).upstream.link = s.upstream.link ∧
    (s.beginDrain).attach.report = s.attach.report ∧ (s.beginDrain).out.requests = s.out.requests ∧
    (s.beginDrain).out.mdo = s.out.mdo ∧ (s.beginDrain).events.mask = s.events.mask := by
  unfold State.beginDrain
  dsimp only
  (repeat' split) <;> simp

@[simp] theorem State.drainIfWarned_parts (s : State) :
    (s.drainIfWarned).log.ringSize = s.log.ringSize ∧ (s.drainIfWarned).log.head = s.log.head ∧
    (s.drainIfWarned).log.inFlight = s.log.inFlight ∧ (s.drainIfWarned).log.tail = s.log.tail ∧
    (s.drainIfWarned).log.generation = s.log.generation ∧ (s.drainIfWarned).log.logFullArmed = s.log.logFullArmed ∧
    (s.drainIfWarned).log.logLowArmed = s.log.logLowArmed ∧
    (s.drainIfWarned).downstream.appendList = s.downstream.appendList ∧
    (s.drainIfWarned).downstream.forwardQueue = s.downstream.forwardQueue ∧
    (s.drainIfWarned).downstream.outstanding = s.downstream.outstanding ∧
    (s.drainIfWarned).downstream.order = s.downstream.order ∧
    (s.drainIfWarned).downstream.throttleRestore = s.downstream.throttleRestore ∧
    (s.drainIfWarned).downstream.throttleScan = s.downstream.throttleScan ∧
    (s.drainIfWarned).downstream.restoreCount = s.downstream.restoreCount ∧
    (s.drainIfWarned).downstream.scanCount = s.downstream.scanCount ∧
    (s.drainIfWarned).upstream.link = s.upstream.link ∧ (s.drainIfWarned).attach.report = s.attach.report ∧
    (s.drainIfWarned).out.requests = s.out.requests ∧ (s.drainIfWarned).out.mdo = s.out.mdo ∧
    (s.drainIfWarned).events.mask = s.events.mask := by
  unfold State.drainIfWarned
  split <;> simp

@[simp] theorem State.breakContext_parts (s : State) (c : Ctx) :
    (s.breakContext c).events.mask = s.events.mask := by
  unfold State.breakContext
  dsimp only
  (repeat' split) <;> simp

@[simp] theorem State.breakContexts_parts (s : State) (l : List Ctx) :
    (l.foldl State.breakContext s).events.mask = s.events.mask :=
  foldl_keeps (fun s : State => s.events.mask) _ (fun s x => by simp) _ _

@[simp] theorem State.breakJournal_parts (s : State) (cause : BreakCause) (sequence : Option Seq) :
    (s.breakJournal cause sequence).log.ringSize = s.log.ringSize ∧
    (s.breakJournal cause sequence).log.head = s.log.head ∧
    (s.breakJournal cause sequence).log.inFlight = s.log.inFlight ∧
    (s.breakJournal cause sequence).log.tail = s.log.tail ∧
    (s.breakJournal cause sequence).log.generation = s.log.generation ∧
    (s.breakJournal cause sequence).log.logFullArmed = s.log.logFullArmed ∧
    (s.breakJournal cause sequence).log.logLowArmed = s.log.logLowArmed ∧
    (s.breakJournal cause sequence).downstream.appendList = s.downstream.appendList ∧
    (s.breakJournal cause sequence).downstream.forwardQueue = s.downstream.forwardQueue ∧
    (s.breakJournal cause sequence).downstream.outstanding = s.downstream.outstanding ∧
    (s.breakJournal cause sequence).downstream.order = s.downstream.order ∧
    (s.breakJournal cause sequence).downstream.throttleRestore = s.downstream.throttleRestore ∧
    (s.breakJournal cause sequence).downstream.throttleScan = s.downstream.throttleScan ∧
    (s.breakJournal cause sequence).downstream.restoreCount = s.downstream.restoreCount ∧
    (s.breakJournal cause sequence).downstream.scanCount = s.downstream.scanCount ∧
    (s.breakJournal cause sequence).upstream.link = s.upstream.link ∧
    (s.breakJournal cause sequence).attach.report = s.attach.report ∧
    (s.breakJournal cause sequence).out.requests = s.out.requests ∧
    (s.breakJournal cause sequence).out.mdo = s.out.mdo ∧ (s.breakJournal cause sequence).events.mask = s.events.mask := by
  unfold State.breakJournal
  dsimp only
  split <;> simp

@[simp] theorem State.logError_parts (s : State) (cause : BreakCause) (sequence : Option Seq) :
    (s.logError cause sequence).log.ringSize = s.log.ringSize ∧ (s.logError cause sequence).log.head = s.log.head ∧
    (s.logError cause sequence).log.inFlight = s.log.inFlight ∧ (s.logError cause sequence).log.tail = s.log.tail ∧
    (s.logError cause sequence).log.generation = s.log.generation ∧
    (s.logError cause sequence).log.logFullArmed = s.log.logFullArmed ∧
    (s.logError cause sequence).log.logLowArmed = s.log.logLowArmed ∧
    (s.logError cause sequence).downstream.appendList = s.downstream.appendList ∧
    (s.logError cause sequence).downstream.forwardQueue = s.downstream.forwardQueue ∧
    (s.logError cause sequence).downstream.outstanding = s.downstream.outstanding ∧
    (s.logError cause sequence).downstream.order = s.downstream.order ∧
    (s.logError cause sequence).downstream.throttleRestore = s.downstream.throttleRestore ∧
    (s.logError cause sequence).downstream.throttleScan = s.downstream.throttleScan ∧
    (s.logError cause sequence).downstream.restoreCount = s.downstream.restoreCount ∧
    (s.logError cause sequence).downstream.scanCount = s.downstream.scanCount ∧
    (s.logError cause sequence).upstream.link = s.upstream.link ∧
    (s.logError cause sequence).attach.report = s.attach.report ∧
    (s.logError cause sequence).out.requests = s.out.requests ∧ (s.logError cause sequence).out.mdo = s.out.mdo ∧
    (s.logError cause sequence).events.mask = s.events.mask := by
  unfold State.logError
  (repeat' split) <;> simp

@[simp] theorem State.endAttach_parts (s : State) (journal : JournalState) (result : AttachResult) (sequence : Option Seq) :
    (s.endAttach journal result sequence).log.ringSize = s.log.ringSize ∧
    (s.endAttach journal result sequence).log.head = s.log.head ∧
    (s.endAttach journal result sequence).log.inFlight = s.log.inFlight ∧
    (s.endAttach journal result sequence).log.tail = s.log.tail ∧
    (s.endAttach journal result sequence).log.generation = s.log.generation ∧
    (s.endAttach journal result sequence).log.logFullArmed = s.log.logFullArmed ∧
    (s.endAttach journal result sequence).log.logLowArmed = s.log.logLowArmed ∧
    (s.endAttach journal result sequence).downstream.appendList = s.downstream.appendList ∧
    (s.endAttach journal result sequence).downstream.forwardQueue = s.downstream.forwardQueue ∧
    (s.endAttach journal result sequence).downstream.outstanding = s.downstream.outstanding ∧
    (s.endAttach journal result sequence).downstream.order = s.downstream.order ∧
    (s.endAttach journal result sequence).downstream.throttleRestore = s.downstream.throttleRestore ∧
    (s.endAttach journal result sequence).downstream.throttleScan = s.downstream.throttleScan ∧
    (s.endAttach journal result sequence).downstream.restoreCount = s.downstream.restoreCount ∧
    (s.endAttach journal result sequence).downstream.scanCount = s.downstream.scanCount ∧
    (s.endAttach journal result sequence).upstream.link = s.upstream.link ∧
    (s.endAttach journal result sequence).out.requests = s.out.requests ∧
    (s.endAttach journal result sequence).out.mdo = s.out.mdo ∧
    (s.endAttach journal result sequence).events.mask = s.events.mask := by
  simp [State.endAttach]

@[simp] theorem State.failAttach_parts (s : State) (result : AttachResult) (sequence : Option Seq) :
    (s.failAttach result sequence).log.ringSize = s.log.ringSize ∧
    (s.failAttach result sequence).log.head = s.log.head ∧
    (s.failAttach result sequence).log.inFlight = s.log.inFlight ∧
    (s.failAttach result sequence).log.tail = s.log.tail ∧
    (s.failAttach result sequence).log.generation = s.log.generation ∧
    (s.failAttach result sequence).log.logFullArmed = s.log.logFullArmed ∧
    (s.failAttach result sequence).log.logLowArmed = s.log.logLowArmed ∧
    (s.failAttach result sequence).downstream.appendList = s.downstream.appendList ∧
    (s.failAttach result sequence).downstream.forwardQueue = s.downstream.forwardQueue ∧
    (s.failAttach result sequence).downstream.outstanding = s.downstream.outstanding ∧
    (s.failAttach result sequence).downstream.order = s.downstream.order ∧
    (s.failAttach result sequence).downstream.throttleRestore = s.downstream.throttleRestore ∧
    (s.failAttach result sequence).downstream.throttleScan = s.downstream.throttleScan ∧
    (s.failAttach result sequence).downstream.restoreCount = s.downstream.restoreCount ∧
    (s.failAttach result sequence).downstream.scanCount = s.downstream.scanCount ∧
    (s.failAttach result sequence).upstream.link = s.upstream.link ∧
    (s.failAttach result sequence).out.requests = s.out.requests ∧
    (s.failAttach result sequence).out.mdo = s.out.mdo ∧ (s.failAttach result sequence).events.mask = s.events.mask := by
  simp [State.failAttach]

end Sys2Proof.Machine
end

