-- ==== Sys2Proof/Laws/Refusals.lean ====
section
/-! SUPPORT. What refusing hold entries does: the queue that is left, the responses made, the filter entries and lists it
only shrinks, the event records it only adds to. -/

namespace Sys2Proof.Machine

/-! ## Events -/

/-- The records stay, and at most one joins. -/
theorem EventBlock.take_prefix (b : EventBlock) (e : Event) : b.records <+: (b.take e).records := by
  unfold EventBlock.take
  split
  · exact List.prefix_append _ _
  · exact List.prefix_rfl

/-- The queue never holds more than 32 records (R160). -/
theorem EventBlock.take_length (b : EventBlock) (e : Event) (h : b.records.length ≤ 32) :
    (b.take e).records.length ≤ 32 := by
  unfold EventBlock.take
  split
  · simp
    omega
  · exact h

/-- With a place free the record joins (R161). -/
theorem EventBlock.take_of_room (b : EventBlock) (e : Event) (h : b.records.length < 32) :
    b.take e = { b with records := b.records ++ [e] } := by
  simp [EventBlock.take, h]

/-- Without one the record is dropped and the overrun flag set (R161). -/
theorem EventBlock.take_of_full (b : EventBlock) (e : Event) (h : 32 ≤ b.records.length) :
    b.take e = { b with overrun := true } := by
  simp [EventBlock.take, Nat.not_lt.mpr h]

theorem State.lookSpace_records (s : State) : s.events.records <+: s.lookSpace.events.records := by
  unfold State.lookSpace
  (repeat' split) <;> simp [EventBlock.take_prefix]

/-! ## One entry -/

theorem State.refuseEntry_out (s : State) (e : HoldEntry) (reason : Reason) :
    (State.refuseEntry reason s e).out =
      { s.out with responses := s.out.responses ++ [⟨e.request.tag, .error⟩] } := by
  unfold State.refuseEntry
  split <;> simp

theorem State.refuseEntry_tags (s : State) (e : HoldEntry) (reason : Reason) :
    (State.refuseEntry reason s e).upstream.tags = s.upstream.tags.filter fun t => t.tag ≠ e.request.tag := by
  unfold State.refuseEntry
  split <;> simp

theorem State.refuseEntry_events (s : State) (e : HoldEntry) (reason : Reason) :
    (State.refuseEntry reason s e).events = s.events.take (refusedEvent e.request reason) := by
  unfold State.refuseEntry
  split <;> simp

/-- Settling an item only removes filter entries. -/
theorem State.settleItem_filter (s : State) (c : Ctx) (i : CaptureItem) :
    (State.settleItem c s i).filter.Sublist s.filter := by
  unfold State.settleItem
  split <;> simp

theorem State.refuseEntry_filter (s : State) (e : HoldEntry) (reason : Reason) :
    (State.refuseEntry reason s e).filter.Sublist s.filter := by
  unfold State.refuseEntry
  split
  · simp
  · next c _ =>
    have h := foldl_invariant (fun t : State => t.filter.Sublist s.filter) (State.settleItem c)
      (fun t i ht => (State.settleItem_filter t c i).trans ht) e.items (s.refuseRequest e.request reason) (by simp)
    exact h

/-! ## All the entries a rule selects -/

theorem State.refuseEntries_out (s : State) (reason : Reason) (l : List HoldEntry) :
    (l.foldl (State.refuseEntry reason) s).out =
      { s.out with responses := s.out.responses ++ l.map fun e => ⟨e.request.tag, .error⟩ } := by
  induction l generalizing s with
  | nil => simp
  | cons x rest ih => simp [ih, State.refuseEntry_out]

/-- The selected unreleased entries leave the queue, and no other (R74). -/
@[simp] theorem State.refuseWhere_hold (s : State) (pick : HoldEntry → Bool) (reason : Reason) :
    (s.refuseWhere pick reason).hold = s.hold.filter fun e => e.released || !pick e := by
  simp [State.refuseWhere]

/-- Each of them is answered ERROR, in arrival order (R63, R74). -/
@[simp] theorem State.refuseWhere_out (s : State) (pick : HoldEntry → Bool) (reason : Reason) :
    (s.refuseWhere pick reason).out =
      { s.out with responses := s.out.responses ++
          (s.hold.filter fun e => !e.released && pick e).map fun e => ⟨e.request.tag, .error⟩ } := by
  simp [State.refuseWhere, State.refuseEntries_out]

theorem State.refuseWhere_filter (s : State) (pick : HoldEntry → Bool) (reason : Reason) :
    (s.refuseWhere pick reason).filter.Sublist s.filter := by
  unfold State.refuseWhere
  exact foldl_invariant (fun t : State => t.filter.Sublist s.filter) _
    (fun t e ht => (State.refuseEntry_filter t e reason).trans ht) _ _ (List.Sublist.refl _)

theorem State.refuseWhere_tags (s : State) (pick : HoldEntry → Bool) (reason : Reason) :
    (s.refuseWhere pick reason).upstream.tags.Sublist s.upstream.tags := by
  unfold State.refuseWhere
  refine foldl_invariant (fun t : State => t.upstream.tags.Sublist s.upstream.tags) _
    (fun t e ht => ?_) _ _ (List.Sublist.refl _)
  rw [State.refuseEntry_tags]
  exact List.filter_sublist.trans ht

theorem State.refuseWhere_eventsLength (s : State) (pick : HoldEntry → Bool) (reason : Reason)
    (h : s.events.records.length ≤ 32) : (s.refuseWhere pick reason).events.records.length ≤ 32 := by
  unfold State.refuseWhere
  refine foldl_invariant (fun t : State => t.events.records.length ≤ 32) _ (fun t e ht => ?_) _ _ h
  rw [State.refuseEntry_events]
  exact EventBlock.take_length _ _ ht

end Sys2Proof.Machine
end

