-- ==== Sys2Proof/Laws/Word.lean ====
section
/-! SUPPORT. Reading and writing one value of four. -/

namespace Sys2Proof

namespace Quad

variable {α β : Type}

@[simp] theorem get_set_self (q : Quad α) (c : Ctx) (x : α) : (q.set c x).get c = x := by
  fin_cases c <;> rfl

theorem get_set (q : Quad α) (c d : Ctx) (x : α) : (q.set c x).get d = if d = c then x else q.get d := by
  fin_cases c <;> fin_cases d <;> rfl

@[simp] theorem get_set_of_ne (q : Quad α) {c d : Ctx} (h : d ≠ c) (x : α) : (q.set c x).get d = q.get d := by
  rw [get_set, if_neg h]

@[simp] theorem set_set (q : Quad α) (c : Ctx) (x y : α) : (q.set c x).set c y = q.set c y := by
  fin_cases c <;> rfl

@[simp] theorem set_get (q : Quad α) (c : Ctx) : q.set c (q.get c) = q := by
  fin_cases c <;> rfl

@[simp] theorem get_map (f : α → β) (q : Quad α) (c : Ctx) : (q.map f).get c = f (q.get c) := by
  fin_cases c <;> rfl

@[simp] theorem get_all (x : α) (c : Ctx) : (all x).get c = x := by
  fin_cases c <;> rfl

theorem map_set (f : α → β) (q : Quad α) (c : Ctx) (x : α) : (q.set c x).map f = (q.map f).set c (f x) := by
  fin_cases c <;> rfl

/-- Two quadruples that agree for every context are equal. -/
theorem ext_get {q r : Quad α} (h : ∀ c, q.get c = r.get c) : q = r := by
  obtain ⟨a, b, c, d⟩ := q
  obtain ⟨a', b', c', d'⟩ := r
  have h0 : a = a' := h 0
  have h1 : b = b' := h 1
  have h2 : c = c' := h 2
  have h3 : d = d' := h 3
  subst h0 h1 h2 h3
  rfl

end Quad

end Sys2Proof
end

