-- ==== Sys2Proof/Laws/Engine.lean ====
section
/-! SUPPORT. What the epoch engine does when at most one procedure can go on, and what it never does. -/

namespace Sys2Proof.Machine

/-- Of four contexts, those that satisfy a test only one can satisfy. -/
theorem allContexts_filter_of_one (p : Ctx → Bool) (c : Ctx) (h : ∀ d, d ≠ c → p d = false) :
    allContexts.filter p = if p c then [c] else [] := by
  have h0 := h 0
  have h1 := h 1
  have h2 := h 2
  have h3 := h 3
  fin_cases c <;> simp_all [allContexts, List.filter] <;> split <;> simp_all

theorem allContexts_filter_of_none (p : Ctx → Bool) (h : ∀ d, p d = false) : allContexts.filter p = [] := by
  simp [allContexts, h]

/-- With no procedure ready nothing happens. -/
theorem State.runEngines_of_none (s : State) (h : ∀ c, s.engineReady c = false) : s.runEngines = s := by
  simp [State.runEngines, allContexts_filter_of_none _ h]

/-- With one context's procedure ready, that one goes on, and the free value is not asked. -/
theorem State.runEngines_of_one (s : State) (c : Ctx) (h : ∀ d, d ≠ c → s.engineReady d = false) :
    s.runEngines = if s.engineReady c then s.moveEngine c else s := by
  simp only [State.runEngines, allContexts_filter_of_one _ c h]
  cases s.engineReady c <;> rfl

/-- A procedure that is none moves nothing. -/
theorem State.engineReady_of_none (s : State) (c : Ctx) (h : (s.engine.get c).procedure = .none) :
    s.engineReady c = false := by
  simp [State.engineReady, h]

/-! ## One context's move leaves the others -/

/-- A move of `d` leaves the record and the progress of every other context. -/
theorem State.moveEngine_get (s : State) {c d : Ctx} (h : c ≠ d) :
    (s.moveEngine d).contexts.get c = s.contexts.get c ∧ (s.moveEngine d).engine.get c = s.engine.get c := by
  have settle : ∀ u : State, (u.moveSettling d).contexts.get c = u.contexts.get c ∧
      (u.moveSettling d).engine.get c = u.engine.get c := by
    intro u
    unfold State.moveSettling State.endSettling
    (repeat' split) <;> simp [h]
  have cover : ∀ u : State, (u.moveCovering d).contexts.get c = u.contexts.get c ∧
      (u.moveCovering d).engine.get c = u.engine.get c := by
    intro u
    unfold State.moveCovering State.endCovering
    (repeat' split) <;> simp [h]
  have replay : ∀ u : State, (u.moveReplaying d).contexts.get c = u.contexts.get c ∧
      (u.moveReplaying d).engine.get c = u.engine.get c := by
    intro u
    unfold State.moveReplaying State.nextReplay
    (repeat' split) <;> simp [h]
  have mark : ∀ u : State, (u.moveMarking d).contexts.get c = u.contexts.get c ∧
      (u.moveMarking d).engine.get c = u.engine.get c := by
    intro u
    unfold State.moveMarking
    (repeat' split) <;> simp [h]
  unfold State.moveEngine
  split
  · simp
  · unfold State.moveCommit
    (repeat' split) <;> simp [h]
  · rw [(mark _).1, (mark _).2, (replay _).1, (replay _).2, (cover _).1, (cover _).2, (settle _).1, (settle _).2]
    simp

theorem State.moveEngines_get (s : State) {c : Ctx} (l : List Ctx) (h : c ∉ l) :
    (l.foldl State.moveEngine s).contexts.get c = s.contexts.get c ∧
    (l.foldl State.moveEngine s).engine.get c = s.engine.get c := by
  induction l generalizing s with
  | nil => exact ⟨rfl, rfl⟩
  | cons d rest ih =>
    have hd : c ≠ d := fun e => h (e ▸ List.mem_cons_self ..)
    have hr := ih (s.moveEngine d) fun e => h (List.mem_cons_of_mem _ e)
    have hm := s.moveEngine_get hd
    exact ⟨hr.1.trans hm.1, hr.2.trans hm.2⟩

/-- A move only removes filter entries. -/
theorem State.moveEngine_filter (s : State) (d : Ctx) : (s.moveEngine d).filter.Sublist s.filter := by
  have settle : ∀ u : State, (u.moveSettling d).filter.Sublist u.filter := by
    intro u
    unfold State.moveSettling State.endSettling
    (repeat' split) <;> simp [List.filter_sublist.trans]
  have cover : ∀ u : State, (u.moveCovering d).filter = u.filter := by
    intro u
    unfold State.moveCovering State.endCovering
    split <;> simp
  have replay : ∀ u : State, (u.moveReplaying d).filter = u.filter := by
    intro u
    unfold State.moveReplaying State.nextReplay
    (repeat' split) <;> simp
  have mark : ∀ u : State, (u.moveMarking d).filter.Sublist u.filter := by
    intro u
    unfold State.moveMarking
    split <;> simp
  unfold State.moveEngine
  split
  · simp
  · unfold State.moveCommit
    (repeat' split) <;> simp
  · exact (mark _).trans (by rw [replay, cover]; exact settle s)

theorem State.moveEngines_filter (s : State) (l : List Ctx) : (l.foldl State.moveEngine s).filter.Sublist s.filter :=
  foldl_invariant (fun t : State => t.filter.Sublist s.filter) _
    (fun t d ht => (t.moveEngine_filter d).trans ht) _ _ (List.Sublist.refl _)

/-- A move only adds event records. -/
theorem State.moveEngine_records (s : State) (d : Ctx) : s.events.records <+: (s.moveEngine d).events.records := by
  have settle : ∀ u : State, u.events.records <+: (u.moveSettling d).events.records := by
    intro u
    unfold State.moveSettling State.endSettling State.completeAbort
    (repeat' split) <;> simp [EventBlock.take_prefix]
  have cover : ∀ u : State, (u.moveCovering d).events = u.events := by
    intro u
    unfold State.moveCovering State.endCovering
    split <;> simp
  have replay : ∀ u : State, (u.moveReplaying d).events = u.events := by
    intro u
    unfold State.moveReplaying State.nextReplay
    (repeat' split) <;> simp
  have mark : ∀ u : State, u.events.records <+: (u.moveMarking d).events.records := by
    intro u
    unfold State.moveMarking State.completeAbort
    split <;> simp [EventBlock.take_prefix]
  unfold State.moveEngine
  split
  · simp
  · unfold State.moveCommit State.completeCommit
    (repeat' split) <;> simp [EventBlock.take_prefix]
  · refine (settle s).trans ?_
    rw [← cover, ← replay]
    exact mark _

theorem State.moveEngines_records (s : State) (l : List Ctx) :
    s.events.records <+: (l.foldl State.moveEngine s).events.records :=
  foldl_invariant (fun t : State => s.events.records <+: t.events.records) _
    (fun t d ht => ht.trans (t.moveEngine_records d)) _ _ List.prefix_rfl

/-! ## Several at once -/

/-- Whatever number selects it, the order is one of all the members. -/
theorem orderBy_perm (l : List Ctx) (seed : Nat) : (orderBy l.length l seed).Perm l := by
  generalize hn : l.length = n
  induction n generalizing l seed with
  | zero => simp [List.length_eq_zero_iff.mp hn, orderBy]
  | succ n ih =>
    have hlt : seed % l.length < l.length := Nat.mod_lt _ (by omega)
    have hmem : l[seed % l.length] ∈ l := List.getElem_mem hlt
    unfold orderBy
    rw [List.getElem?_eq_getElem hlt]
    have hlen : (l.erase l[seed % l.length]).length = n := by
      rw [List.length_erase_of_mem hmem]
      omega
    exact ((ih _ _ hlen).cons _).trans (List.perm_cons_erase hmem).symm

/-- Every step of the engines is a run of moves, of ready contexts, each once; the counter of free values alone may
change besides. -/
theorem State.runEngines_moves (s : State) : ∃ (l : List Ctx) (n : Nat), l.Nodup ∧
    (∀ c, c ∈ l ↔ s.engineReady c = true) ∧ s.runEngines = l.foldl State.moveEngine { s with free := n } := by
  have hall : allContexts.Nodup := by decide
  have hmem : ∀ c, c ∈ allContexts.filter s.engineReady ↔ s.engineReady c = true := by
    intro c
    have : c ∈ allContexts := by
      fin_cases c <;> decide
    simp [this]
  unfold State.runEngines
  split
  · next h => exact ⟨[], s.free, List.nodup_nil, by simpa [h] using hmem, rfl⟩
  · next c h => exact ⟨[c], s.free, List.nodup_singleton c, by simpa [h] using hmem, rfl⟩
  · next cs _ _ =>
    have hp := orderBy_perm (allContexts.filter s.engineReady) (Config.procedureOrder s.free)
    exact ⟨_, s.free + 1, hp.nodup_iff.mpr (hall.filter _), fun c => hp.mem_iff.trans (hmem c), rfl⟩

/-- A context whose procedure cannot go on keeps its record and its progress. -/
theorem State.runEngines_get (s : State) {c : Ctx} (h : s.engineReady c = false) :
    s.runEngines.contexts.get c = s.contexts.get c ∧ s.runEngines.engine.get c = s.engine.get c := by
  obtain ⟨l, n, _, hl, he⟩ := s.runEngines_moves
  rw [he]
  exact State.moveEngines_get _ l fun hc => by simp [(hl c).mp hc] at h

theorem State.runEngines_filter (s : State) : s.runEngines.filter.Sublist s.filter := by
  obtain ⟨l, n, _, _, he⟩ := s.runEngines_moves
  rw [he]
  exact State.moveEngines_filter _ l

theorem State.runEngines_records (s : State) : s.events.records <+: s.runEngines.events.records := by
  obtain ⟨l, n, _, _, he⟩ := s.runEngines_moves
  rw [he]
  exact State.moveEngines_records { s with free := n } l

/-- A context whose procedure can go on makes its move once, from a state in which only other contexts have moved. -/
theorem State.runEngines_of_ready (s : State) {c : Ctx} (h : s.engineReady c = true) : ∃ (before after : List Ctx) (n : Nat),
    c ∉ before ∧ c ∉ after ∧ s.runEngines =
      after.foldl State.moveEngine ((before.foldl State.moveEngine { s with free := n }).moveEngine c) := by
  obtain ⟨l, n, hn, hl, he⟩ := s.runEngines_moves
  obtain ⟨before, after, rfl⟩ := List.append_of_mem ((hl c).mpr h)
  have hd := List.nodup_append.mp hn
  refine ⟨before, after, n, fun hc => hd.2.2 c hc c (List.mem_cons_self ..) rfl, (List.nodup_cons.mp hd.2.1).1, ?_⟩
  rw [he, List.foldl_append, List.foldl_cons]

end Sys2Proof.Machine
end

