-- ==== Sys2Proof/Laws/Filter.lean ====
section
/-! SUPPORT. The line filter as sorted data: what inserting, removing and updating do to its form and to a lookup. -/

namespace Sys2Proof.Machine

/-! ## Insertion (R23, R24) -/

theorem mem_insertEntry {e x : FilterEntry} {f : List FilterEntry} (h : x ∈ insertEntry e f) : x = e ∨ x ∈ f := by
  induction f with
  | nil => simpa [insertEntry] using h
  | cons y rest ih =>
    unfold insertEntry at h
    split at h
    · simpa using h
    · split at h
      · exact Or.inr h
      · rcases List.mem_cons.mp h with rfl | h
        · exact Or.inr (List.mem_cons_self ..)
        · exact (ih h).imp_right (List.mem_cons_of_mem _)

theorem mem_insertEntry_of_mem {e x : FilterEntry} {f : List FilterEntry} (h : x ∈ f) : x ∈ insertEntry e f := by
  induction f with
  | nil => cases h
  | cons y rest ih =>
    unfold insertEntry
    split
    · exact List.mem_cons_of_mem _ h
    · split
      · exact h
      · rcases List.mem_cons.mp h with rfl | h
        · exact List.mem_cons_self ..
        · exact List.mem_cons_of_mem _ (ih h)

/-- Inserting keeps the lines strictly rising. -/
theorem filterWf_insertEntry (e : FilterEntry) {f : List FilterEntry} (h : filterWf f) : filterWf (insertEntry e f) := by
  induction f with
  | nil => simp [insertEntry, filterWf]
  | cons y rest ih =>
    have hy : ∀ x ∈ rest, y.line < x.line := by
      intro x hx
      exact (List.pairwise_cons.mp h).1 x.line (List.mem_map_of_mem hx)
    have hr : filterWf rest := (List.pairwise_cons.mp h).2
    unfold insertEntry
    split
    · next hlt =>
      refine List.pairwise_cons.mpr ⟨?_, h⟩
      intro l hl
      obtain ⟨x, hx, rfl⟩ := List.mem_map.mp hl
      rcases List.mem_cons.mp hx with rfl | hx
      · exact hlt
      · exact BitVec.lt_trans hlt (hy x hx)
    · next hnlt =>
      split
      · exact h
      · next hne =>
        have hgt : y.line < e.line := BitVec.lt_of_le_ne (BitVec.not_lt.mp hnlt) fun he => hne he.symm
        refine List.pairwise_cons.mpr ⟨?_, ih hr⟩
        intro l hl
        obtain ⟨x, hx, rfl⟩ := List.mem_map.mp hl
        rcases mem_insertEntry hx with rfl | hx
        · exact hgt
        · exact hy x hx

/-- A lookup of another line does not see the new entry. -/
theorem find_insertEntry_of_ne (e : FilterEntry) (f : List FilterEntry) {l : Line} (h : l ≠ e.line) :
    (insertEntry e f).find? (fun x => x.line = l) = f.find? fun x => x.line = l := by
  induction f with
  | nil => simp [insertEntry, Ne.symm h]
  | cons y rest ih =>
    unfold insertEntry
    split
    · simp [List.find?_cons, Ne.symm h]
    · split
      · rfl
      · simp [List.find?_cons, ih]

/-- A lookup of its line finds the new entry, if the line had none or that very one. -/
theorem find_insertEntry_self (e : FilterEntry) (f : List FilterEntry)
    (h : ∀ x, f.find? (fun x => x.line = e.line) = some x → x = e) :
    (insertEntry e f).find? (fun x => x.line = e.line) = some e := by
  induction f with
  | nil => simp [insertEntry]
  | cons y rest ih =>
    unfold insertEntry
    split
    · simp
    · next hnlt =>
      split
      · next he =>
        have := h y (by simp [he])
        simp [this]
      · next hne =>
        have hy : y.line ≠ e.line := Ne.symm hne
        rw [List.find?_cons_of_neg (by simpa using hy)]
        exact ih fun x hx => h x (by rw [List.find?_cons_of_neg (by simpa using hy)]; exact hx)

/-! ## Shrinking and updating -/

/-- A filter with entries removed is one. -/
theorem filterWf_sublist {f g : List FilterEntry} (h : filterWf g) (hs : f.Sublist g) : filterWf f :=
  h.sublist (hs.map _)

/-- An update that leaves the lines keeps the form. -/
theorem filterWf_map {f : List FilterEntry} (h : filterWf f) (u : FilterEntry → FilterEntry)
    (hu : ∀ e, (u e).line = e.line) : filterWf (f.map u) := by
  unfold filterWf at *
  rw [List.map_map]
  have : (fun e => e.line) ∘ u = fun e : FilterEntry => e.line := funext hu
  rwa [this]

@[simp] theorem FilterEntry.logIfCovered_line (w : LogWriter) (e : FilterEntry) : (e.logIfCovered w).line = e.line := by
  unfold FilterEntry.logIfCovered
  (repeat' split) <;> rfl

@[simp] theorem FilterEntry.logIfCovered_owner (w : LogWriter) (e : FilterEntry) :
    (e.logIfCovered w).owner = e.owner := by
  unfold FilterEntry.logIfCovered
  (repeat' split) <;> rfl

@[simp] theorem FilterEntry.logIfCovered_seq (w : LogWriter) (e : FilterEntry) : (e.logIfCovered w).seq = e.seq := by
  unfold FilterEntry.logIfCovered
  (repeat' split) <;> rfl

/-- An entry LOGGED after the frontier has moved was LOGGED, or has a record sequence (R26). -/
theorem FilterEntry.logIfCovered_logged (w : LogWriter) (e : FilterEntry) (h : (e.logIfCovered w).state = .logged) :
    e.state = .logged ∨ e.seq ≠ none := by
  unfold FilterEntry.logIfCovered at h
  split at h
  · exact Or.inl h
  · next hs => exact Or.inr (by simp [hs])

/-! ## The CAPTURING entries of a write's new lines (R23) -/

theorem State.insertLines_filter (s : State) (c : Ctx) (lines : List Line) : (s.insertLines c lines).filter =
    lines.foldl (fun f l => insertEntry { line := l, owner := c, state := .capturing, seq := none } f) s.filter := by
  unfold State.insertLines
  induction lines generalizing s with
  | nil => rfl
  | cons l rest ih => simpa using ih (s.insertFilter _)

@[simp] theorem State.insertLines_frame (s : State) (c : Ctx) (lines : List Line) :
    (s.insertLines c lines).contexts = s.contexts ∧ (s.insertLines c lines).items = s.items ∧
    (s.insertLines c lines).log = s.log ∧ (s.insertLines c lines).hold = s.hold ∧
    (s.insertLines c lines).kept = s.kept ∧ (s.insertLines c lines).due = s.due ∧
    (s.insertLines c lines).engine = s.engine ∧ (s.insertLines c lines).attach = s.attach ∧
    (s.insertLines c lines).regions = s.regions ∧ (s.insertLines c lines).upstream = s.upstream ∧
    (s.insertLines c lines).downstream = s.downstream ∧ (s.insertLines c lines).events = s.events ∧
    (s.insertLines c lines).mgmt = s.mgmt ∧ (s.insertLines c lines).pins = s.pins ∧
    (s.insertLines c lines).out = s.out ∧ (s.insertLines c lines).free = s.free ∧
    (s.insertLines c lines).pending = s.pending := by
  unfold State.insertLines
  exact ⟨foldl_keeps (fun s : State => s.contexts) _ (fun s _ => by simp) _ _,
    foldl_keeps (fun s : State => s.items) _ (fun s _ => by simp) _ _,
    foldl_keeps (fun s : State => s.log) _ (fun s _ => by simp) _ _,
    foldl_keeps (fun s : State => s.hold) _ (fun s _ => by simp) _ _,
    foldl_keeps (fun s : State => s.kept) _ (fun s _ => by simp) _ _,
    foldl_keeps (fun s : State => s.due) _ (fun s _ => by simp) _ _,
    foldl_keeps (fun s : State => s.engine) _ (fun s _ => by simp) _ _,
    foldl_keeps (fun s : State => s.attach) _ (fun s _ => by simp) _ _,
    foldl_keeps (fun s : State => s.regions) _ (fun s _ => by simp) _ _,
    foldl_keeps (fun s : State => s.upstream) _ (fun s _ => by simp) _ _,
    foldl_keeps (fun s : State => s.downstream) _ (fun s _ => by simp) _ _,
    foldl_keeps (fun s : State => s.events) _ (fun s _ => by simp) _ _,
    foldl_keeps (fun s : State => s.mgmt) _ (fun s _ => by simp) _ _,
    foldl_keeps (fun s : State => s.pins) _ (fun s _ => by simp) _ _,
    foldl_keeps (fun s : State => s.out) _ (fun s _ => by simp) _ _,
    foldl_keeps (fun s : State => s.free) _ (fun s _ => by simp) _ _,
    foldl_keeps (fun s : State => s.pending) _ (fun s _ => by simp) _ _⟩

/-- A line that is not among the new ones is looked up as before. -/
theorem State.insertLines_other (s : State) (c : Ctx) (lines : List Line) {l : Line} (h : l ∉ lines) :
    (s.insertLines c lines).filterEntry l = s.filterEntry l := by
  unfold State.filterEntry
  rw [State.insertLines_filter]
  generalize s.filter = f
  induction lines generalizing f with
  | nil => rfl
  | cons x rest ih =>
    have hx : l ≠ x := fun e => h (e ▸ List.mem_cons_self ..)
    rw [List.foldl_cons, ih fun e => h (List.mem_cons_of_mem _ e)]
    exact find_insertEntry_of_ne _ _ hx

/-- A new line that had no entry is CAPTURING for the context, without a sequence (R23). -/
theorem State.insertLines_new (s : State) (c : Ctx) (lines : List Line) {l : Line} (h : l ∈ lines)
    (hs : s.filterEntry l = none) :
    (s.insertLines c lines).filterEntry l = some { line := l, owner := c, state := .capturing, seq := none } := by
  unfold State.filterEntry at *
  rw [State.insertLines_filter]
  have hf : ∀ x, s.filter.find? (fun e => e.line = l) = some x →
      x = { line := l, owner := c, state := .capturing, seq := none } := by simp [hs]
  clear hs
  generalize s.filter = f at hf
  induction lines generalizing f with
  | nil => cases h
  | cons x rest ih =>
    rw [List.foldl_cons]
    by_cases hx : l = x
    · subst hx
      have hn := find_insertEntry_self { line := l, owner := c, state := .capturing, seq := none } f hf
      by_cases hr : l ∈ rest
      · exact ih hr _ fun y hy => by rw [hn] at hy; exact (Option.some.inj hy).symm
      · have ho : ∀ (ls : List Line) (g : List FilterEntry), l ∉ ls →
            (ls.foldl (fun f l => insertEntry { line := l, owner := c, state := .capturing, seq := none } f) g).find?
              (fun e => e.line = l) = g.find? fun e => e.line = l := by
          intro ls
          induction ls with
          | nil => intro g _; rfl
          | cons y r ihr =>
            intro g hg
            rw [List.foldl_cons, ihr _ fun e => hg (List.mem_cons_of_mem _ e)]
            exact find_insertEntry_of_ne _ _ fun e : l = y => hg (e ▸ List.mem_cons_self ..)
        rw [ho rest _ hr]
        exact hn
    · refine ih ((List.mem_cons.mp h).resolve_left hx) _ fun y hy => hf y ?_
      rwa [find_insertEntry_of_ne _ _ hx] at hy

end Sys2Proof.Machine
end

