-- ==== Sys2Proof/Laws/Keeps.lean ====
section
/-! SUPPORT. What no event inside the bridge changes: configuration, the pins, the link's own state, the queue, the
requests on the link, what has been issued and shifted out; and responses are only added. -/

namespace Sys2Proof.Machine

/-- The parts of the state that only the host's frames, the pins, the masters and the arbiter change. -/
structure State.Keeps (s t : State) : Prop where
  items : t.items = s.items
  regions : t.regions = s.regions
  quotas : ∀ c, (t.contexts.get c).quota = (s.contexts.get c).quota
  order : t.downstream.order = s.downstream.order
  throttleRestore : t.downstream.throttleRestore = s.downstream.throttleRestore
  throttleScan : t.downstream.throttleScan = s.downstream.throttleScan
  mask : t.events.mask = s.events.mask
  mgmt : t.mgmt = s.mgmt
  pins : t.pins = s.pins
  pending : t.pending = s.pending
  link : t.upstream.link = s.upstream.link
  requests : t.out.requests = s.out.requests
  mdo : t.out.mdo = s.out.mdo
  responses : s.out.responses <+: t.out.responses

theorem State.Keeps.refl (s : State) : s.Keeps s :=
  ⟨rfl, rfl, fun _ => rfl, rfl, rfl, rfl, rfl, rfl, rfl, rfl, rfl, rfl, rfl, List.prefix_rfl⟩

theorem State.Keeps.trans {s t u : State} (h : s.Keeps t) (k : t.Keeps u) : s.Keeps u :=
  ⟨k.items.trans h.items, k.regions.trans h.regions, fun c => (k.quotas c).trans (h.quotas c), k.order.trans h.order,
   k.throttleRestore.trans h.throttleRestore, k.throttleScan.trans h.throttleScan, k.mask.trans h.mask,
   k.mgmt.trans h.mgmt, k.pins.trans h.pins, k.pending.trans h.pending, k.link.trans h.link,
   k.requests.trans h.requests, k.mdo.trans h.mdo, h.responses.trans k.responses⟩

/-- A fold of steps that keep, keeps. -/
theorem State.Keeps.foldl {α : Type} {f : State → α → State} (h : ∀ (s : State) x, s.Keeps (f s x)) (l : List α) (s : State) :
    s.Keeps (l.foldl f s) := by
  induction l generalizing s with
  | nil => exact .refl s
  | cons x rest ih => exact (h s x).trans (ih (f s x))

/-! ## Single updates -/

theorem State.raise_keeps (s : State) (e : Event) : s.Keeps (s.raise e) := by
  constructor <;> simp

theorem State.answerUp_keeps (s : State) (tag : BitVec 6) (result : UpResult) : s.Keeps (s.answerUp tag result) := by
  constructor <;> simp

theorem State.refuseRequest_keeps (s : State) (r : UpRequest) (reason : Reason) : s.Keeps (s.refuseRequest r reason) := by
  constructor <;> simp

/-- Replacing a record by one of the same quota keeps. -/
theorem State.setContext_keeps (s : State) (c : Ctx) (r : ContextRecord) (h : r.quota = (s.contexts.get c).quota) :
    s.Keeps (s.setContext c r) := by
  constructor <;> simp [Quad.get_set]
  intro d
  split
  · next hd => rw [hd, h]
  · rfl

theorem State.setProgress_keeps (s : State) (c : Ctx) (p : Progress) : s.Keeps (s.setProgress c p) := by
  constructor <;> simp

theorem State.noteDue_keeps (s : State) : s.Keeps s.noteDue := by
  constructor <;> simp

theorem State.lookSpace_keeps (s : State) : s.Keeps s.lookSpace := by
  constructor <;> simp

theorem State.lookLow_keeps (s : State) : s.Keeps s.lookLow := by
  constructor <;> simp

theorem State.removeLine_keeps (s : State) (l : Line) : s.Keeps (s.removeLine l) := by
  constructor <;> simp

theorem State.refuseWhere_keeps (s : State) (pick : HoldEntry → Bool) (reason : Reason) :
    s.Keeps (s.refuseWhere pick reason) := by
  constructor <;> simp

theorem State.handAttachAnchor_keeps (s : State) (copy1 : Bool) (data : List Byte) (g tail : Option Seq) :
    s.Keeps (s.handAttachAnchor copy1 data g tail) := by
  constructor <;> simp

theorem State.issueAnchor_keeps (s : State) (issuer : Issuer) (state : AnchorState) (tail : Seq) :
    s.Keeps (s.issueAnchor issuer state tail) := by
  constructor <;> simp

theorem State.handScan_keeps (s : State) (request : DownRequest) (step : AttachStep) (isWrite : Bool) :
    s.Keeps (s.handScan request step isWrite) := by
  constructor <;> simp

theorem State.setAttach_keeps (s : State) (p : AttachProgress) : s.Keeps (s.setAttach p) := by
  constructor <;> simp

theorem State.setJournal_keeps (s : State) (j : JournalState) : s.Keeps (s.setJournal j) := by
  constructor <;> simp

theorem State.followFrontier_keeps (s : State) : s.Keeps s.followFrontier := by
  constructor <;> simp

/-! ## The epoch engine -/

theorem State.completeCommit_keeps (s : State) (c : Ctx) : s.Keeps (s.completeCommit c) := by
  constructor <;> simp [Quad.get_set, ContextRecord.toIdle]
  intro d
  split
  · next hd => rw [hd]
  · rfl

theorem State.completeAbort_keeps (s : State) (c : Ctx) : s.Keeps (s.completeAbort c) := by
  constructor <;> simp [Quad.get_set, ContextRecord.toIdle]
  intro d
  split
  · next hd => rw [hd]
  · rfl

theorem State.askMarker_keeps (s : State) (kind : MarkerKind) (c : Ctx) : s.Keeps (s.askMarker kind c) := by
  constructor <;> simp

theorem State.handRestore_keeps (s : State) (c : Ctx) (request : DownRequest) (step : ReplayStep) :
    s.Keeps (s.handRestore c request step) := by
  constructor <;> simp

theorem State.settleFilter_keeps (s : State) (c : Ctx) : s.Keeps (s.settleFilter c) := by
  constructor <;> simp

theorem State.moveEngine_keeps (s : State) (c : Ctx) : s.Keeps (s.moveEngine c) := by
  have settle : ∀ u : State, u.Keeps (u.moveSettling c) := by
    intro u
    unfold State.moveSettling
    split
    · unfold State.endSettling
      dsimp only
      split
      · exact (u.settleFilter_keeps c).trans (State.completeAbort_keeps _ c)
      · exact (u.settleFilter_keeps c).trans (State.setProgress_keeps _ c _)
    · exact .refl u
  have cover : ∀ u : State, u.Keeps (u.moveCovering c) := by
    intro u
    unfold State.moveCovering
    split
    · exact u.setProgress_keeps c _
    · exact .refl u
  have replay : ∀ u : State, u.Keeps (u.moveReplaying c) := by
    intro u
    unfold State.moveReplaying State.nextReplay
    (repeat' split)
    · exact u.askMarker_keeps _ c
    · exact .refl u
    · exact u.handRestore_keeps c _ _
    · exact .refl u
  have mark : ∀ u : State, u.Keeps (u.moveMarking c) := by
    intro u
    unfold State.moveMarking
    split
    · exact u.completeAbort_keeps c
    · exact .refl u
  unfold State.moveEngine
  split
  · exact .refl s
  · unfold State.moveCommit
    (repeat' split)
    · exact s.completeCommit_keeps c
    · exact s.askMarker_keeps _ c
    · exact .refl s
    · exact s.completeCommit_keeps c
    · exact .refl s
    · exact .refl s
  · exact (((settle s).trans (cover _)).trans (replay _)).trans (mark _)

theorem State.runEngines_keeps (s : State) : s.Keeps s.runEngines := by
  obtain ⟨l, n, _, _, he⟩ := s.runEngines_moves
  rw [he]
  have h : s.Keeps { s with free := n } := by constructor <;> simp
  exact h.trans (.foldl State.moveEngine_keeps l _)

/-! ## Faults, breaks and drains -/

theorem State.failCommit_keeps (s : State) (c : Ctx) : s.Keeps (s.failCommit c) :=
  (s.raise_keeps _).trans (State.setProgress_keeps _ c _)

theorem State.reportFault_keeps (s : State) (c : Ctx) (cause : FaultCause) (address : Addr) :
    s.Keeps (s.reportFault c cause address) := by
  unfold State.reportFault
  split
  · unfold State.applyFault
    dsimp only
    refine State.Keeps.trans ?_ ((State.noteDue_keeps _).trans (State.lookSpace_keeps _))
    have h := ((s.setContext_keeps c ((s.contexts.get c).toFaulted cause) rfl).trans
      (State.refuseWhere_keeps _ (fun e => e.journaledOf c) .faulted)).trans
      (State.raise_keeps _ (faultEvent c cause (some address) (s.contexts.get c).recordCount))
    split
    · exact h.trans (State.failCommit_keeps _ c)
    · exact h
  · exact .refl s

theorem State.stopIntake_keeps (s : State) : s.Keeps s.stopIntake := by
  constructor <;> try simp
  unfold State.stopIntake
  split <;> simp

theorem State.enterDrained_keeps (s : State) (detail : DrainDetail) : s.Keeps (s.enterDrained detail) := by
  constructor <;> simp

theorem State.withdrawAttach_keeps (s : State) : s.Keeps s.withdrawAttach := by
  constructor <;> simp

theorem State.stopEngines_keeps (s : State) : s.Keeps s.stopEngines := by
  constructor <;> simp

theorem State.beginDrain_keeps (s : State) : s.Keeps s.beginDrain := by
  have h : ∀ a : AttachEngine, s.Keeps (((({ s with attach := a } : State).refuseWhere (fun _ => true)
      .draining).emptyRequests).stopEngines) := by
    intro a
    constructor <;> simp
  unfold State.beginDrain
  dsimp only
  split
  · split
    · exact (((h _).trans (State.withdrawAttach_keeps _)).trans (State.stopIntake_keeps _)).trans
        ((State.noteDue_keeps _).trans (State.enterDrained_keeps _ _))
    · exact ((h _).trans (State.stopIntake_keeps _)).trans
        ((State.noteDue_keeps _).trans (State.enterDrained_keeps _ _))
  · split
    · exact (((h _).trans (State.withdrawAttach_keeps _)).trans (State.stopIntake_keeps _)).trans
        (State.noteDue_keeps _)
    · exact ((h _).trans (State.stopIntake_keeps _)).trans (State.noteDue_keeps _)

theorem State.drainIfWarned_keeps (s : State) : s.Keeps s.drainIfWarned := by
  unfold State.drainIfWarned
  split
  · exact s.beginDrain_keeps
  · exact .refl s

theorem State.breakContext_keeps (s : State) (c : Ctx) : s.Keeps (s.breakContext c) := by
  unfold State.breakContext
  dsimp only
  split
  · have h := (s.setContext_keeps c ((s.contexts.get c).toFaulted .journalBroken) rfl).trans
      (State.raise_keeps _ (faultEvent c .journalBroken none (s.contexts.get c).recordCount))
    split
    · exact h.trans (State.failCommit_keeps _ c)
    · exact h.trans (State.setProgress_keeps _ c _)
  · exact .refl s

theorem State.breakJournal_keeps (s : State) (cause : BreakCause) (sequence : Option Seq) :
    s.Keeps (s.breakJournal cause sequence) := by
  unfold State.breakJournal
  dsimp only
  refine State.Keeps.trans ?_ ((State.noteDue_keeps _).trans (State.drainIfWarned_keeps _))
  have h1 : s.Keeps ((s.setJournal .broken).refuseWhere (fun e => e.journaled) .broken).emptyRequests := by
    constructor <;> simp
  have h2 : ∀ u : State, u.Keeps { u with downstream := { u.downstream with restoreList := [] } } := by
    intro u
    constructor <;> simp
  have h := ((h1.trans (h2 _)).trans (.foldl State.breakContext_keeps allContexts _)).trans
    (State.raise_keeps _ (brokenEvent cause sequence s.breakCount))
  split
  · exact h.trans (State.raise_keeps _ _)
  · exact h

theorem State.logError_keeps (s : State) (cause : BreakCause) (sequence : Option Seq) :
    s.Keeps (s.logError cause sequence) := by
  unfold State.logError
  (repeat' split)
  · exact s.breakJournal_keeps cause sequence
  · exact s.raise_keeps _
  · exact .refl s

/-! ## The attach -/

theorem State.endAttach_keeps (s : State) (journal : JournalState) (result : AttachResult) (sequence : Option Seq) :
    s.Keeps (s.endAttach journal result sequence) := by
  unfold State.endAttach
  have h : ∀ a : AttachEngine, s.Keeps { s with attach := a } := by
    intro a
    constructor <;> simp
  exact ((h _).trans (State.raise_keeps _ _)).trans (State.drainIfWarned_keeps _)

theorem State.failAttach_keeps (s : State) (result : AttachResult) (sequence : Option Seq) :
    s.Keeps (s.failAttach result sequence) := s.endAttach_keeps _ result sequence

theorem State.completeAttach_keeps (s : State) (result : AttachResult) (head generation : Seq) (epochs : Quad Epoch) :
    s.Keeps (s.completeAttach result head generation epochs) := by
  unfold State.completeAttach
  refine State.Keeps.trans ?_ (State.endAttach_keeps _ _ _ _)
  constructor <;> try simp
  intro c
  fin_cases c <;> rfl

theorem State.handSweep_keeps (s : State) : s.Keeps s.handSweep := by
  unfold State.handSweep
  dsimp only
  split
  · exact (s.handScan_keeps _ _ _).trans (State.setAttach_keeps _ _)
  · exact .refl s

theorem State.endSweep_keeps (s : State) : s.Keeps s.endSweep := by
  unfold State.endSweep
  (repeat' split)
  · exact s.failAttach_keeps _ _
  · exact (s.setAttach_keeps _).trans (State.handAttachAnchor_keeps _ _ _ _ _)
  · exact .refl s

theorem State.startFinal_keeps (s : State) : s.Keeps s.startFinal := by
  unfold State.startFinal
  split
  · exact .refl s
  · exact (s.setAttach_keeps _).trans (State.handAttachAnchor_keeps _ _ _ _ _)

theorem State.readSlot_keeps (s : State) (step : AttachStep) : s.Keeps (s.readSlot step) := s.handScan_keeps _ _ _

theorem State.stopScan_keeps (s : State) : s.Keeps s.stopScan := by
  unfold State.stopScan
  dsimp only
  split
  · exact (s.setAttach_keeps _).trans (State.readSlot_keeps _ _)
  · exact (s.setAttach_keeps _).trans (State.startFinal_keeps _)

theorem State.nextSequence_keeps (s : State) : s.Keeps s.nextSequence := by
  unfold State.nextSequence
  dsimp only
  (repeat' split)
  · exact .refl s
  · exact s.startFinal_keeps
  · exact (s.setAttach_keeps _).trans (State.readSlot_keeps _ _)

theorem State.scanAnswer_keeps (s : State) (step : AttachStep) (isWrite : Bool) (answer : Answer) :
    s.Keeps (s.scanAnswer step isWrite answer) := by
  unfold State.scanAnswer
  (repeat' split)
  · unfold State.sweepAnswer
    split
    · exact s.endSweep_keeps
    · refine State.Keeps.trans ?_ (State.endSweep_keeps _)
      constructor <;> simp
  · unfold State.anchorReadAnswer
    (repeat' split)
    · exact s.failAttach_keeps _ _
    · exact s.failAttach_keeps _ _
    · exact (s.setAttach_keeps _).trans (State.startFinal_keeps _)
    · exact (s.setAttach_keeps _).trans (State.readSlot_keeps _ _)
  · unfold State.scanReadAnswer
    dsimp only
    (repeat' split)
    · exact s.failAttach_keeps _ _
    · exact s.stopScan_keeps
    · exact (s.setAttach_keeps _).trans (State.stopScan_keeps _)
    · exact (s.setAttach_keeps _).trans (State.readSlot_keeps _ _)
  · unfold State.replayReadAnswer
    dsimp only
    (repeat' split)
    · exact s.failAttach_keeps _ _
    · exact s.failAttach_keeps _ _
    · exact s.handScan_keeps _ _ _
    · exact s.nextSequence_keeps
  · unfold State.replayWriteAnswer
    dsimp only
    split
    · exact s.failAttach_keeps _ _
    · exact (s.setAttach_keeps _).trans (State.nextSequence_keeps _)
  · exact .refl s
  · exact .refl s

theorem State.attachAnchorAnswer_keeps (s : State) (answer : Answer) : s.Keeps (s.attachAnchorAnswer answer) := by
  unfold State.attachAnchorAnswer
  (repeat' split)
  · unfold State.attachAnchorDone
    dsimp only
    (repeat' split)
    · exact (s.setAttach_keeps _).trans (State.handAttachAnchor_keeps _ _ _ _ _)
    · exact (s.setAttach_keeps _).trans (State.handSweep_keeps _)
    all_goals first | exact s.completeAttach_keeps _ _ _ _ | exact .refl s
  · unfold State.attachAnchorError
    split <;> exact s.failAttach_keeps _ _
  · exact .refl s

/-! ## Answers -/

theorem State.straightAnswer_keeps (s : State) (tag : BitVec 6) (answer : Answer) :
    s.Keeps (s.straightAnswer tag answer) := by
  unfold State.straightAnswer
  (repeat' split)
  · exact .refl s
  · exact s.answerUp_keeps _ _
  · exact (s.answerUp_keeps _ _).trans (State.raise_keeps _ _)

theorem State.removeForwarded_keeps (s : State) (tag : BitVec 6) : s.Keeps (s.removeForwarded tag) := by
  constructor <;> simp

theorem State.heldAnswer_keeps (s : State) (tag : BitVec 6) (answer : Answer) : s.Keeps (s.heldAnswer tag answer) := by
  unfold State.heldAnswer
  (repeat' split)
  · exact .refl s
  · exact (((s.answerUp_keeps _ _).trans (State.removeForwarded_keeps _ _)).trans (State.noteDue_keeps _)).trans
      (State.runEngines_keeps _)
  · next e _ _ =>
    have h := (((s.answerUp_keeps tag .error).trans
      (State.raise_keeps _ (failedEvent e.request.address e.ctx))).trans (State.removeForwarded_keeps _ tag)).trans
      (State.noteDue_keeps _)
    refine (h.trans ?_).trans (State.runEngines_keeps _)
    unfold State.reportForwardError
    (repeat' split)
    · exact .refl _
    · exact State.reportFault_keeps _ _ _ _
    · exact .refl _

theorem State.captureAnswer_keeps (s : State) (ref : CaptureRef) (answer : Answer) :
    s.Keeps (s.captureAnswer ref answer) := by
  unfold State.captureAnswer
  (repeat' split)
  · have h : s.Keeps { s with kept := s.kept.erase ref } := by constructor <;> simp
    exact (h.trans (State.removeLine_keeps _ _)).trans (State.runEngines_keeps _)
  · unfold State.buildRecord
    dsimp only
    refine State.Keeps.trans ?_ (State.lookSpace_keeps _)
    constructor <;> simp
  · have h : s.Keeps (s.dropItem ref.line) := by constructor <;> simp
    exact (h.trans (State.reportFault_keeps _ _ _ _)).trans (State.runEngines_keeps _)
  · exact .refl s

theorem State.appendAnswer_keeps (s : State) (q : Seq) (answer : Answer) : s.Keeps (s.appendAnswer q answer) := by
  have h : ∀ w : LogWriter, s.Keeps { s with log := w } := by
    intro w
    constructor <;> simp
  unfold State.appendAnswer
  split
  · exact ((h _).trans (State.followFrontier_keeps _)).trans (State.runEngines_keeps _)
  · exact (h _).trans (State.logError_keeps _ _ _)

theorem State.anchorAnswer_keeps (s : State) (answer : Answer) : s.Keeps (s.anchorAnswer answer) := by
  have log : ∀ (u : State) (w : LogWriter), u.Keeps { u with log := w } := by
    intro u w
    constructor <;> simp
  have attach : ∀ (u : State) (a : AttachEngine), u.Keeps { u with attach := a } := by
    intro u a
    constructor <;> simp
  have tail : ∀ (u : State) (t : Option Seq), u.Keeps (u.moveTail t) := by
    intro u t
    unfold State.moveTail
    split
    · exact .refl u
    · exact (log u _).trans (State.lookSpace_keeps _)
  have done : ∀ u : State, u.Keeps u.engineAnchorDone := by
    intro u
    unfold State.engineAnchorDone
    (repeat' split)
    · exact ((State.setJournal_keeps _ _).trans (State.raise_keeps _ _)).trans (State.drainIfWarned_keeps _)
    · exact attach _ _
    · exact .refl _
  unfold State.anchorAnswer
  split
  · exact .refl s
  · refine (log s { s.log with anchor := none }).trans ?_
    dsimp only
    (repeat' split)
    · exact State.attachAnchorAnswer_keeps _ _
    · exact tail _ _
    · exact (tail _ _).trans (done _)
    · unfold State.anchorError
      dsimp only
      (repeat' split)
      · exact (State.logError_keeps _ _ _).trans (attach _ _)
      · exact (State.logError_keeps _ _ _).trans (attach _ _)
      · exact State.logError_keeps _ _ _

theorem State.restoreAnswer_keeps (s : State) (c : Ctx) (step : ReplayStep) (answer : Answer) :
    s.Keeps (s.restoreAnswer c step answer) := by
  have skip : ∀ p : Progress, s.Keeps (s.setProgress c p).runEngines :=
    fun p => (s.setProgress_keeps c p).trans (State.runEngines_keeps _)
  unfold State.restoreAnswer
  dsimp only
  (repeat' split)
  · unfold State.restoreReadAnswer
    dsimp only
    (repeat' split)
    · exact s.handRestore_keeps c _ _
    · exact skip _
    · exact skip _
    · exact skip _
  · unfold State.restoreWriteAnswer
    split <;> exact skip _
  · exact s.setProgress_keeps c _
  · exact .refl s

/-- An answer keeps them, whatever it answers. -/
theorem State.takeAnswer_keeps (s : State) (tag : BitVec 4) (answer : Answer) : s.Keeps (s.takeAnswer tag answer) := by
  have remove : s.Keeps (s.removeOutstanding tag) := by
    constructor <;> simp
  unfold State.takeAnswer
  (repeat' split)
  · exact .refl s
  · exact remove
  · refine remove.trans ?_
    unfold State.routeAnswer
    split
    · exact State.anchorAnswer_keeps _ _
    · exact State.appendAnswer_keeps _ _ _
    · exact State.captureAnswer_keeps _ _ _
    · exact State.straightAnswer_keeps _ _ _
    · exact State.heldAnswer_keeps _ _ _
    · exact State.restoreAnswer_keeps _ _ _ _
    · exact State.scanAnswer_keeps _ _ _ _

/-! ## The bridge's own events -/

theorem State.setIntake_keeps (s : State) (intake : Intake) (head : Option UpRequest) :
    s.Keeps (s.setIntake intake head) := by
  constructor <;> simp

theorem State.joinHold_keeps (s : State) (r : UpRequest) (journaled : Bool) (newLines : List Line) :
    s.Keeps (s.joinHold r journaled newLines) := by
  constructor <;> simp

theorem State.handOn_keeps (s : State) (r : UpRequest) : s.Keeps (s.handOn r) := by
  unfold State.handOn
  (repeat' split)
  · exact (s.setIntake_keeps _ _).trans (State.refuseRequest_keeps _ _ _)
  · refine (s.setIntake_keeps .taking none).trans ?_
    unfold State.enterHold
    split
    · unfold State.admitWrite
      split
      · exact State.refuseRequest_keeps _ _ _
      · next c newLines _ =>
        have h : ∀ u : State, u.Keeps (u.insertLines c newLines) := by
          intro u
          constructor <;> simp
        exact ((h _).trans (State.joinHold_keeps _ _ _ _)).trans (State.noteDue_keeps _)
      · exact State.joinHold_keeps _ _ _ _
    · exact State.joinHold_keeps _ _ _ _
  · exact s.setIntake_keeps _ _
  · refine (s.setIntake_keeps .taking none).trans ?_
    constructor <;> simp
  · exact s.setIntake_keeps _ _

theorem State.reclassify_keeps (s : State) : s.Keeps s.reclassify := by
  unfold State.reclassify
  (repeat' split)
  · exact .refl s
  · exact s.handOn_keeps _
  · exact .refl s

theorem State.release_keeps (s : State) : s.Keeps s.release := by
  unfold State.release
  (repeat' split)
  · exact .refl s
  · refine State.Keeps.trans ?_ (State.noteDue_keeps _)
    constructor <;> simp
  · exact .refl s

theorem State.captureHanded_keeps (s : State) : s.Keeps s.captureHanded := by
  unfold State.captureHanded
  (repeat' split)
  · exact .refl s
  · constructor <;> simp
  · exact .refl s

theorem State.appendTake_keeps (s : State) : s.Keeps s.appendTake := by
  have get : ∀ (c d : Ctx) (r : ContextRecord), r.quota = (s.contexts.get c).quota →
      ((s.contexts.set c r).get d).quota = (s.contexts.get d).quota := by
    intro c d r h
    rw [Quad.get_set]
    split
    · next hd => rw [hd, h]
    · rfl
  unfold State.appendTake
  (repeat' split)
  · exact .refl s
  · next c l image _ =>
    refine State.Keeps.trans ?_ ((State.lookLow_keeps _).trans (State.lookSpace_keeps _))
    constructor <;> try simp
    exact fun d => get c d _ rfl
  · next kind c epoch incomplete _ =>
    refine State.Keeps.trans ?_
      (((State.lookLow_keeps _).trans (State.lookSpace_keeps _)).trans (State.runEngines_keeps _))
    constructor <;> try simp
    exact fun d => get c d _ rfl
  · exact .refl s

theorem State.reclaim_keeps (s : State) : s.Keeps s.reclaim := by
  unfold State.reclaim
  split
  · exact s.issueAnchor_keeps _ _ _
  · exact .refl s

theorem State.cleanAnchor_keeps (s : State) : s.Keeps s.cleanAnchor := by
  unfold State.cleanAnchor
  split
  · exact s.issueAnchor_keeps _ _ _
  · exact .refl s

theorem State.finalDrainAnchor_keeps (s : State) : s.Keeps s.finalDrainAnchor := by
  unfold State.finalDrainAnchor
  split
  · refine State.Keeps.trans ?_ (State.issueAnchor_keeps _ _ _ _)
    constructor <;> simp
  · exact .refl s

theorem State.endDrain_keeps (s : State) : s.Keeps s.endDrain := by
  unfold State.endDrain
  (repeat' split)
  · constructor <;> simp
  · constructor <;> simp
  · exact .refl s
  · exact .refl s

end Sys2Proof.Machine
end

