-- ==== Sys2Proof/Laws/Conditions.lean ====
section
/-! SUPPORT. The Bool conditions of the meanings as propositions, the release search, answers by their outstanding
entry, and one context at a fault and at a journal break. -/

namespace Sys2Proof.Machine

/-! ## Lines and the hold queue -/

theorem shareLine_eq_false_iff (a b : List Line) : shareLine a b = false ↔ ∀ l ∈ a, l ∉ b := by
  simp [shareLine]

theorem blocked_eq_false_iff (before : List HoldEntry) (e : HoldEntry) :
    blocked before e = false ↔ ∀ x ∈ before, x.released = true ∨ ∀ l ∈ x.lines, l ∉ e.lines := by
  simp only [blocked, List.any_eq_false, Bool.and_eq_true, not_and, Bool.not_eq_true', shareLine, List.any_eq_true,
    List.contains_iff_mem]
  refine forall₂_congr fun x _ => ?_
  cases x.released <;> simp

theorem State.readMustWait_iff (s : State) (lines : List Line) : s.readMustWait lines = true ↔
    (∃ e ∈ s.hold, e.released = false ∧ ∃ l ∈ e.lines, l ∈ lines) ∨
    ∃ l ∈ lines, ∃ f, s.filterEntry l = some f ∧ (s.contexts.get f.owner).state = .aborting := by
  simp only [State.readMustWait, Bool.or_eq_true, List.any_eq_true, Bool.and_eq_true, Bool.not_eq_true', shareLine,
    List.contains_iff_mem, State.ownedByAborting]
  constructor
  · rintro (⟨e, he, h, l, hl, hl'⟩ | ⟨l, hl, h⟩)
    · exact Or.inl ⟨e, he, h, l, hl, by simpa using hl'⟩
    · cases hf : s.filterEntry l with
      | none => simp [hf] at h
      | some f => simp [hf] at h; exact Or.inr ⟨l, hl, f, hf, h⟩
  · rintro (⟨e, he, h, l, hl, hl'⟩ | ⟨l, hl, f, hf, h⟩)
    · exact Or.inl ⟨e, he, h, l, hl, by simpa using hl'⟩
    · exact Or.inr ⟨l, hl, by simp [hf, h]⟩

/-- The first READY entry is what the release search finds. -/
theorem State.releaseFirst_append (s : State) (b before after : List HoldEntry) (e : HoldEntry)
    (h : ∀ early x late, before = early ++ x :: late → s.holdState (b ++ early) x ≠ .ready)
    (k : s.holdState (b ++ before) e = .ready) :
    s.releaseFirst b (before ++ e :: after) = some (e, before ++ { e with released := true } :: after) := by
  induction before generalizing b with
  | nil => simp at k; simp [State.releaseFirst, k]
  | cons x rest ih =>
    have hx : s.holdState b x ≠ .ready := by simpa using h [] x rest rfl
    have := ih (b ++ [x]) (fun early y late hh => by simpa using h (x :: early) y late (by simp [hh])) (by simpa using k)
    simp [State.releaseFirst, hx, this]

/-- Everything the release search can find. -/
theorem State.releaseFirst_eq_some {s : State} {b l : List HoldEntry} {x : HoldEntry × List HoldEntry}
    (h : s.releaseFirst b l = some x) : ∃ before after, l = before ++ x.1 :: after ∧
      x.2 = before ++ { x.1 with released := true } :: after ∧ s.holdState (b ++ before) x.1 = .ready := by
  induction l generalizing b x with
  | nil => simp [State.releaseFirst] at h
  | cons e rest ih =>
    unfold State.releaseFirst at h
    split at h
    · next hh => injection h with h; subst h; exact ⟨[], rest, rfl, rfl, by simpa using hh⟩
    · cases hr : s.releaseFirst (b ++ [e]) rest with
      | none => simp [hr] at h
      | some y =>
        simp [hr] at h
        subst h
        obtain ⟨before, after, e1, e2, e3⟩ := ih hr
        exact ⟨e :: before, after, by simp [e1], by simp [e2], by simpa using e3⟩

/-! ## Geometry, room and quota -/

/-- A valid geometry (R36). -/
theorem LogItems.valid_iff (g : LogItems) : g.valid = true ↔ (6 ≤ g.sizeExp ∧ g.sizeExp ≤ 24) ∧
    g.ringBase.toNat + 2 ^ g.sizeExp * 128 ≤ 2 ^ 40 ∧
    (g.anchorAddr.toNat + 128 ≤ g.ringBase.toNat ∨
      g.ringBase.toNat + 2 ^ g.sizeExp * 128 ≤ g.anchorAddr.toNat) := by
  unfold LogItems.valid
  simp only [Bool.and_eq_true, Bool.or_eq_true, decide_eq_true_eq, and_assoc]
  rfl

theorem State.quotaTest_iff (s : State) (c : Ctx) (k : Nat) : s.quotaTest c k = true ↔
    k = 0 ∨ (s.entryCount c + k ≤ (s.contexts.get c).quota ∧ k ≤ s.filterFree) := by
  unfold State.quotaTest
  simp only [Bool.or_eq_true, Bool.and_eq_true, decide_eq_true_eq]

theorem LogWriter.roomForPreImage_iff (w : LogWriter) :
    w.roomForPreImage = true ↔ w.inFlight.length < 16 ∧ 4 < w.freeSlots.toNat := by
  unfold LogWriter.roomForPreImage
  simp only [Bool.and_eq_true, decide_eq_true_eq]

theorem LogWriter.roomForMarker_iff (w : LogWriter) :
    w.roomForMarker = true ↔ w.inFlight.length < 16 ∧ 1 ≤ w.freeSlots.toNat := by
  unfold LogWriter.roomForMarker
  simp only [Bool.and_eq_true, decide_eq_true_eq]

/-! ## Answers -/

/-- An answer under a tag without an entry is discarded. -/
theorem State.takeAnswer_of_none {s : State} {tag : BitVec 4} (answer : Answer)
    (h : s.outstandingEntry tag = none) : s.takeAnswer tag answer = s := by
  simp [State.takeAnswer, h]

/-- An answer to an outstanding transaction is routed by its owner. -/
theorem State.takeAnswer_of_some {s : State} {tag : BitVec 4} {o : Outstanding} (answer : Answer)
    (h : s.outstandingEntry tag = some o) (w : s.mgmt.waiting = false) :
    s.takeAnswer tag answer = (s.removeOutstanding tag).routeAnswer o.owner answer := by
  simp [State.takeAnswer, h, w]

/-- While a soft reset waits, an answer removes its entry and is discarded. -/
theorem State.takeAnswer_of_waiting {s : State} {tag : BitVec 4} {o : Outstanding} (answer : Answer)
    (h : s.outstandingEntry tag = some o) (w : s.mgmt.waiting = true) :
    s.takeAnswer tag answer = s.removeOutstanding tag := by
  simp [State.takeAnswer, h, w]

/-! ## Contexts at a fault and at a break -/

/-- No drain begins while PFAIL_N is deasserted. -/
theorem State.drainIfWarned_of_pfail (s : State) (h : s.pins.pfail = false) : s.drainIfWarned = s := by
  simp [State.drainIfWarned, h]

/-- A fault of context `c`: its record and procedure, the others', and what stays in the hold queue. -/
theorem State.applyFault_get (s : State) (c : Ctx) (cause : FaultCause) (a : Addr)
    (hm : (s.engine.get c).procedure = (s.contexts.get c).state.procedure)
    (hc : (s.contexts.get c).state = .opened ∨ (s.contexts.get c).state = .committing) :
    (s.applyFault c cause a).contexts.get c =
      { s.contexts.get c with state := .faulted, faultCause := some cause } ∧
    ((s.applyFault c cause a).engine.get c).procedure = .none ∧
    (∀ d, d ≠ c → (s.applyFault c cause a).contexts.get d = s.contexts.get d ∧
      (s.applyFault c cause a).engine.get d = s.engine.get d) ∧
    (s.applyFault c cause a).hold = s.hold.filter (fun e => e.released || !(e.journaled && e.ctx == some c)) := by
  unfold State.applyFault
  dsimp only
  rcases hc with hc | hc
  · simp [hc, ContextRecord.toFaulted, hm, HoldEntry.journaledOf, CtxState.procedure]
    intro d hd
    simp [hd]
  · simp [hc, ContextRecord.toFaulted, HoldEntry.journaledOf, State.failCommit, Progress.reset]
    intro d hd
    simp [hd]

/-- One context at a break, seen from every context. -/
theorem State.breakContext_get (s : State) (c d : Ctx) :
    (s.breakContext d).contexts.get c =
      (if c = d ∧ (s.contexts.get c).state.breakable then (s.contexts.get c).toFaulted .journalBroken
       else s.contexts.get c) ∧
    (s.breakContext d).engine.get c =
      (if c = d ∧ (s.contexts.get c).state.breakable then .reset else s.engine.get c) := by
  unfold State.breakContext
  dsimp only
  by_cases hcd : c = d
  · subst hcd
    by_cases hb : (s.contexts.get c).state.breakable
    · rw [if_pos hb, if_pos (And.intro rfl hb), if_pos (And.intro rfl hb)]
      split <;> simp [State.failCommit]
    · rw [if_neg hb, if_neg (fun h => hb h.2), if_neg (fun h => hb h.2)]
      exact ⟨rfl, rfl⟩
  · have e : ¬ (c = d ∧ (s.contexts.get c).state.breakable = true) := fun h => hcd h.1
    simp only [if_neg e]
    by_cases hb : (s.contexts.get d).state.breakable
    · rw [if_pos hb]
      split <;> simp [hcd, State.failCommit]
    · rw [if_neg hb]
      exact ⟨rfl, rfl⟩

/-- A break over a list of contexts. -/
theorem State.breakContexts_get (s : State) (c : Ctx) (l : List Ctx) (hn : l.Nodup) :
    (l.foldl State.breakContext s).contexts.get c =
      (if c ∈ l ∧ (s.contexts.get c).state.breakable then (s.contexts.get c).toFaulted .journalBroken
       else s.contexts.get c) ∧
    (l.foldl State.breakContext s).engine.get c =
      (if c ∈ l ∧ (s.contexts.get c).state.breakable then .reset else s.engine.get c) := by
  induction l generalizing s with
  | nil => simp
  | cons d rest ih =>
    have hd := List.nodup_cons.mp hn
    have h := ih (s.breakContext d) hd.2
    have hb := s.breakContext_get c d
    rw [List.foldl_cons, h.1, h.2, hb.1, hb.2]
    by_cases hcd : c = d
    · subst hcd
      simp [hd.1]
    · simp [hcd]

/-! ## The lines of a request and their kind (R126, R136) -/

/-- The lines of a request that crosses no 256-byte boundary are those from its first byte's to its last byte's. -/
theorem mem_linesOf {a : Addr} {n : Nat} (h : 1 ≤ n) (hb : a.toNat % 256 + n ≤ 256) (l : Line) :
    l ∈ linesOf a n ↔ a.toNat / 64 ≤ l.toNat ∧ l.toNat ≤ (a.toNat + n - 1) / 64 := by
  have ha := a.isLt
  have hl := l.isLt
  have hof : (lineOf a).toNat = a.toNat / 64 := by
    simp [lineOf, Nat.shiftRight_eq_div_pow]
    omega
  simp only [linesOf, List.mem_map, List.mem_range]
  constructor
  · rintro ⟨i, hi, rfl⟩
    rw [BitVec.toNat_add, hof, BitVec.toNat_ofNat]
    omega
  · rintro ⟨h1, h2⟩
    refine ⟨l.toNat - a.toNat / 64, by omega, BitVec.eq_of_toNat_eq ?_⟩
    rw [BitVec.toNat_add, hof, BitVec.toNat_ofNat]
    omega

theorem linesOf_ne_nil (a : Addr) (n : Nat) : linesOf a n ≠ [] := by simp [linesOf]

/-- A request has a kind exactly when all its lines have it. -/
theorem State.requestKind_eq_some_iff (s : State) (r : UpRequest) (k : LineKind) :
    s.requestKind r = some k ↔ ∀ l ∈ r.lines, s.lineKind l = k := by
  have hn : r.lines ≠ [] := linesOf_ne_nil _ _
  unfold State.requestKind
  cases hl : r.lines with
  | nil => exact absurd hl hn
  | cons x rest =>
    have hall : (rest.map s.lineKind).all (· = s.lineKind x) = true ↔ ∀ l ∈ rest, s.lineKind l = s.lineKind x := by
      simp
    simp only [List.map_cons, List.mem_cons, forall_eq_or_imp]
    split
    · next h => exact ⟨fun e => Option.some.inj e ▸ ⟨rfl, hall.1 h⟩, fun e => congrArg some e.1⟩
    · next h => exact ⟨nofun, fun e => absurd (hall.2 fun l hx => (e.2 l hx).trans e.1.symm) h⟩

/-- It has none exactly when two of its lines differ. -/
theorem State.requestKind_eq_none_iff (s : State) (r : UpRequest) :
    s.requestKind r = none ↔ ∃ l ∈ r.lines, ∃ m ∈ r.lines, s.lineKind l ≠ s.lineKind m := by
  have hn : r.lines ≠ [] := linesOf_ne_nil _ _
  rw [Option.eq_none_iff_forall_ne_some]
  simp only [ne_eq, State.requestKind_eq_some_iff]
  constructor
  · intro h
    by_contra hc
    push Not at hc
    obtain ⟨x, hx⟩ := List.exists_mem_of_ne_nil _ hn
    exact h (s.lineKind x) fun l hl => hc l hl x hx
  · rintro ⟨l, hl, m, hm, hne⟩ k hk
    exact hne ((hk l hl).trans (hk m hm).symm)

end Sys2Proof.Machine
end

