-- ==== Sys2Proof/Laws/Settling.lean ====
section
/-! SUPPORT. What refusing hold entries does, exactly, in the words of the statements: the events, the tags, and the
settling of the entries' capture items by stage (R63, R74, R75). -/

namespace Sys2Proof.Machine

/-! ## Lists of events -/

@[simp] theorem EventBlock.takeAll_nil (b : EventBlock) : b.takeAll [] = b := rfl

@[simp] theorem EventBlock.takeAll_cons (b : EventBlock) (e : Event) (l : List Event) :
    b.takeAll (e :: l) = (b.take e).takeAll l := rfl

@[simp] theorem EventBlock.takeAll_append (b : EventBlock) (l m : List Event) :
    b.takeAll (l ++ m) = (b.takeAll l).takeAll m := List.foldl_append

theorem EventBlock.takeAll_prefix (b : EventBlock) (l : List Event) : b.records <+: (b.takeAll l).records := by
  induction l generalizing b with
  | nil => exact List.prefix_rfl
  | cons e rest ih => exact (b.take_prefix e).trans (ih _)

@[simp] theorem EventBlock.takeAll_mask (b : EventBlock) (l : List Event) : (b.takeAll l).mask = b.mask := by
  induction l generalizing b with
  | nil => rfl
  | cons e rest ih =>
    rw [EventBlock.takeAll_cons, ih]
    unfold EventBlock.take
    split <;> rfl

/-! ## Events and tags of refusals -/

theorem State.refuseEntries_events (s : State) (reason : Reason) (l : List HoldEntry) :
    (l.foldl (State.refuseEntry reason) s).events = s.events.takeAll (refusals l reason) := by
  induction l generalizing s with
  | nil => rfl
  | cons x rest ih =>
    rw [List.foldl_cons, ih, State.refuseEntry_events]
    rfl

theorem State.refuseEntries_tags (s : State) (reason : Reason) (l : List HoldEntry) :
    (l.foldl (State.refuseEntry reason) s).upstream.tags =
      s.upstream.tags.filter fun t => ∀ e ∈ l, t.tag ≠ e.request.tag := by
  induction l generalizing s with
  | nil => simp
  | cons x rest ih =>
    rw [List.foldl_cons, ih, State.refuseEntry_tags, List.filter_filter]
    congr 1
    funext t
    simp [Bool.and_comm]

/-- The events of a cause of R74: one REQUEST_REFUSED for each entry it refuses, in arrival order. -/
theorem State.refuseWhere_events (s : State) (pick : HoldEntry → Bool) (reason : Reason) :
    (s.refuseWhere pick reason).events =
      s.events.takeAll (refusals (s.hold.filter fun e => !e.released && pick e) reason) := by
  rw [State.refuseWhere, State.refuseEntries_events]

/-- The tags of the refused entries are free (R63). -/
theorem State.refuseWhere_tags_eq (s : State) (pick : HoldEntry → Bool) (reason : Reason) :
    (s.refuseWhere pick reason).upstream.tags = s.upstream.tags.filter fun t =>
      ∀ e ∈ s.hold.filter (fun e : HoldEntry => !e.released && pick e), t.tag ≠ e.request.tag := by
  rw [State.refuseWhere, State.refuseEntries_tags]

/-- Of the upstream port, refusals change the tag table alone. -/
theorem State.refuseWhere_upstream (s : State) (pick : HoldEntry → Bool) (reason : Reason) :
    (s.refuseWhere pick reason).upstream =
      { s.upstream with tags := s.tagsWithout (s.hold.filter fun e => !e.released && pick e) } := by
  have ext : ∀ p q : UpstreamPort, p.intake = q.intake → p.head = q.head → p.tags = q.tags → p.link = q.link →
      p = q := by
    intro p q h1 h2 h3 h4
    cases p
    cases q
    simp_all
  exact ext _ _ (by simp) (by simp) (s.refuseWhere_tags_eq pick reason) (by simp)

/-! ## The settling of items (R75) -/

/-- The items of one entry, by stage. -/
theorem State.settleItems_eq (s : State) (c : Ctx) (items : List CaptureItem) :
    (items.foldl (State.settleItem c) s).filter = s.filter.filter (fun f =>
      !((items.filter fun i => i.stage.dropped).map (·.line)).contains f.line) ∧
    (items.foldl (State.settleItem c) s).kept = s.kept ++
      (items.filter fun i => i.stage = .reading).map (fun i => ⟨c, i.line⟩) ∧
    (items.foldl (State.settleItem c) s).downstream.captureList = s.downstream.captureList.filter (fun x =>
      match x.owner with
      | .capture ref => !((items.filter fun i => i.stage = .pending true).map (·.line)).contains ref.line
      | _ => true) ∧
    (items.foldl (State.settleItem c) s).log.requests = s.log.requests.filter (fun r =>
      match r with
      | .preImage _ l _ => !((items.filter fun i => i.stage.isBuilt).map (·.line)).contains l
      | .marker _ _ _ _ => true) := by
  induction items generalizing s with
  | nil =>
    refine ⟨by simp, by simp, ?_, ?_⟩
    · refine (List.filter_eq_self.2 fun x _ => ?_).symm
      split <;> simp
    · refine (List.filter_eq_self.2 fun x _ => ?_).symm
      split <;> simp
  | cons i rest ih =>
    rw [List.foldl_cons]
    obtain ⟨h1, h2, h3, h4⟩ := ih (State.settleItem c s i)
    rw [h1, h2, h3, h4]
    have key : ∀ {α : Type} (p q r : α → Bool) (l : List α), (∀ x, (p x && q x) = r x) →
        (l.filter p).filter q = l.filter r := by
      intro α p q r l h
      rw [List.filter_filter]
      congr 1
      funext x
      rw [Bool.and_comm, h]
    have beq : ∀ a b : Line, (a == b) = decide (a = b) := fun _ _ => rfl
    obtain ⟨line, stage⟩ := i
    cases stage with
    | pending handed =>
      cases handed
      · refine ⟨key _ _ _ _ fun f => ?_, rfl, rfl, rfl⟩
        simp [Stage.dropped, -List.contains_eq_mem, beq]
      · refine ⟨key _ _ _ _ fun f => ?_, rfl, key _ _ _ _ fun x => ?_, rfl⟩
        · simp [Stage.dropped, -List.contains_eq_mem, beq]
        · obtain ⟨request, owner⟩ := x
          cases owner <;> simp [-List.contains_eq_mem, beq]
    | reading => exact ⟨rfl, by simp [State.settleItem], rfl, rfl⟩
    | built image =>
      refine ⟨key _ _ _ _ fun f => ?_, rfl, rfl, key _ _ _ _ fun x => ?_⟩
      · simp [Stage.dropped, -List.contains_eq_mem, beq]
      · cases x <;> simp [Stage.isBuilt, -List.contains_eq_mem, beq]
    | taken q => exact ⟨rfl, rfl, rfl, rfl⟩
    | covered q => exact ⟨rfl, rfl, rfl, rfl⟩

/-- What refusing entries, of any contexts, does to the filter, the items kept outside the queue, the reads handed and the
append requests (R29, R42, R75). -/
theorem State.refuseEntries_settledInto (s : State) (reason : Reason) (l : List HoldEntry) :
    s.settledInto (l.foldl (State.refuseEntry reason) s) l ∧
    (l.foldl (State.refuseEntry reason) s).log.requests = s.requestsWithout (tagged l) := by
  unfold State.settledInto State.filterWithout State.readsWithout State.requestsWithout
  induction l generalizing s with
  | nil =>
    refine ⟨⟨by simp [linesAt, tagged], by simp [keptReads], ?_⟩, ?_⟩
    · refine (List.filter_eq_self.2 fun x _ => ?_).symm
      split <;> simp [linesAt, tagged]
    · refine (List.filter_eq_self.2 fun x _ => ?_).symm
      split <;> simp [linesAt, tagged]
  | cons e rest ih =>
    rw [List.foldl_cons]
    obtain ⟨⟨h1, h2, h3⟩, h4⟩ := ih (State.refuseEntry reason s e)
    have key : ∀ {α : Type} (p q r : α → Bool) (l : List α), (∀ x, (p x && q x) = r x) →
        (l.filter p).filter q = l.filter r := by
      intro α p q r l h
      rw [List.filter_filter]
      congr 1
      funext x
      rw [Bool.and_comm, h]
    cases he : e.ctx with
    | none =>
      have ht : tagged (e :: rest) = tagged rest := by simp [tagged, he]
      have hk : keptReads (e :: rest) = keptReads rest := by simp [keptReads, he]
      have hr : State.refuseEntry reason s e = s.refuseRequest e.request reason := by rw [State.refuseEntry, he]
      rw [h1, h2, h3, h4, ht, hk, hr]
      exact ⟨⟨rfl, rfl, rfl⟩, rfl⟩
    | some c =>
      have ht : tagged (e :: rest) = e :: tagged rest := by simp [tagged, he]
      have hk : keptReads (e :: rest) =
          ((e.items.filter fun i => i.stage = .reading).map fun i => ⟨c, i.line⟩) ++ keptReads rest := by
        simp [keptReads, he]
      have hr : State.refuseEntry reason s e = e.items.foldl (State.settleItem c) (s.refuseRequest e.request reason) := by
        rw [State.refuseEntry, he]
      obtain ⟨k1, k2, k3, k4⟩ := State.settleItems_eq (s.refuseRequest e.request reason) c e.items
      rw [h1, h2, h3, h4, ht, hk, hr, k1, k2, k3, k4]
      refine ⟨⟨key _ _ _ _ fun f => ?_, ?_, key _ _ _ _ fun x => ?_⟩, key _ _ _ _ fun x => ?_⟩
      · simp [linesAt, List.flatMap_cons, -List.contains_eq_mem]
      · simp
      · obtain ⟨request, owner⟩ := x
        cases owner <;> simp [linesAt, List.flatMap_cons, -List.contains_eq_mem]
      · cases x <;> simp [linesAt, List.flatMap_cons, -List.contains_eq_mem]

/-- What a cause of R74 does to the capture items of the entries it selects (R29, R42, R75). -/
theorem State.refuseWhere_settledInto (s : State) (pick : HoldEntry → Bool) (reason : Reason) :
    s.settledInto (s.refuseWhere pick reason) (s.hold.filter fun e => !e.released && pick e) ∧
    (s.refuseWhere pick reason).log.requests =
      s.requestsWithout (tagged (s.hold.filter fun e => !e.released && pick e)) :=
  State.refuseEntries_settledInto _ reason _

/-- What a cause of R74 does, whole: the selected entries leave the queue, each answered ERROR with one event, its tag free
and its items settled by stage (R29, R42, R63, R74, R75). -/
theorem State.refuseWhere_eq (s : State) (pick : HoldEntry → Bool) (reason : Reason) :
    let l := s.hold.filter fun e => !e.released && pick e
    s.refuseWhere pick reason = { s with
      hold := s.hold.filter fun e => e.released || !pick e
      out := { s.out with responses := s.out.responses ++ l.map fun e => ⟨e.request.tag, .error⟩ }
      events := s.events.takeAll (refusals l reason)
      upstream := { s.upstream with tags := s.tagsWithout l }
      filter := s.filterWithout (tagged l)
      kept := s.kept ++ keptReads l
      downstream := { s.downstream with captureList := s.readsWithout (tagged l) }
      log := { s.log with requests := s.requestsWithout (tagged l) } } := by
  intro l
  obtain ⟨⟨h1, h2, h3⟩, h4⟩ := s.refuseWhere_settledInto pick reason
  have ext : ∀ p q : State, p.contexts = q.contexts → p.filter = q.filter → p.items = q.items → p.log = q.log →
      p.hold = q.hold → p.kept = q.kept → p.due = q.due → p.engine = q.engine → p.attach = q.attach →
      p.regions = q.regions → p.upstream = q.upstream → p.downstream = q.downstream → p.events = q.events →
      p.mgmt = q.mgmt → p.pins = q.pins → p.out = q.out → p.free = q.free → p.pending = q.pending → p = q := by
    intro p q
    cases p
    cases q
    rintro ⟨⟩ ⟨⟩ ⟨⟩ ⟨⟩ ⟨⟩ ⟨⟩ ⟨⟩ ⟨⟩ ⟨⟩ ⟨⟩ ⟨⟩ ⟨⟩ ⟨⟩ ⟨⟩ ⟨⟩ ⟨⟩ ⟨⟩ ⟨⟩
    rfl
  have extLog : ∀ p q : LogWriter, p.ringSize = q.ringSize → p.head = q.head → p.inFlight = q.inFlight →
      p.requests = q.requests → p.tail = q.tail → p.generation = q.generation → p.anchor = q.anchor →
      p.logFullArmed = q.logFullArmed → p.logLowArmed = q.logLowArmed → p.spaceWaiter = q.spaceWaiter → p = q := by
    intro p q
    cases p
    cases q
    rintro ⟨⟩ ⟨⟩ ⟨⟩ ⟨⟩ ⟨⟩ ⟨⟩ ⟨⟩ ⟨⟩ ⟨⟩ ⟨⟩
    rfl
  have extDown : ∀ p q : DownstreamPort, p.anchorList = q.anchorList → p.appendList = q.appendList →
      p.captureList = q.captureList → p.forwardQueue = q.forwardQueue → p.restoreList = q.restoreList →
      p.scanList = q.scanList → p.outstanding = q.outstanding → p.order = q.order →
      p.throttleRestore = q.throttleRestore → p.throttleScan = q.throttleScan → p.restoreCount = q.restoreCount →
      p.scanCount = q.scanCount → p = q := by
    intro p q
    cases p
    cases q
    rintro ⟨⟩ ⟨⟩ ⟨⟩ ⟨⟩ ⟨⟩ ⟨⟩ ⟨⟩ ⟨⟩ ⟨⟩ ⟨⟩ ⟨⟩ ⟨⟩
    rfl
  refine ext _ _ (by simp) h1 (by simp) (extLog _ _ (by simp) (by simp) (by simp) h4 (by simp) (by simp) (by simp)
    (by simp) (by simp) (by simp)) (by simp) h2 (by simp) (by simp) (by simp) (by simp) (s.refuseWhere_upstream pick reason)
    (extDown _ _ (by simp) (by simp) h3 (by simp) (by simp) (by simp) (by simp) (by simp) (by simp) (by simp) (by simp)
    (by simp)) (s.refuseWhere_events pick reason) (by simp) (by simp) (s.refuseWhere_out pick reason) (by simp) (by simp)

/-- The entries of one context all carry its tag. -/
theorem tagged_of_ctx {l : List HoldEntry} {c : Ctx} (h : ∀ e ∈ l, e.ctx = some c) : tagged l = l :=
  List.filter_eq_self.2 fun e he => by rw [h e he]; rfl

/-- The unreleased journaled entries of a context carry its tag. -/
theorem State.unreleasedOf_ctx {s : State} {c : Ctx} {e : HoldEntry} (h : e ∈ s.unreleasedOf c) : e.ctx = some c := by
  simp only [State.unreleasedOf, List.mem_filter, Bool.and_eq_true, beq_iff_eq] at h
  exact h.2.2.2

/-- The reads kept of the entries of one context. -/
theorem keptReads_of_ctx {l : List HoldEntry} {c : Ctx} (h : ∀ e ∈ l, e.ctx = some c) :
    keptReads l = (linesAt l (· = .reading)).map fun x => ⟨c, x⟩ := by
  induction l with
  | nil => rfl
  | cons e rest ih =>
    have hr := ih fun x hx => h x (List.mem_cons_of_mem _ hx)
    simp only [keptReads, linesAt, List.flatMap_cons, List.map_append] at hr ⊢
    rw [hr, h e List.mem_cons_self]
    simp [Function.comp_def]

/-- What a cause that selects the unreleased journaled entries of one context does to the filter, the items kept outside
the queue, the reads handed and the append requests (R29, R42, R75). -/
theorem State.refuseOf_settles (s : State) (c : Ctx) (pick : HoldEntry → Bool) (reason : Reason)
    (hp : ∀ e, pick e = (e.journaled && e.ctx == some c)) :
    (s.refuseWhere pick reason).filter = s.filterWithout (s.unreleasedOf c) ∧
    (s.refuseWhere pick reason).kept = s.kept ++ (linesAt (s.unreleasedOf c) (· = .reading)).map (fun x => ⟨c, x⟩) ∧
    (s.refuseWhere pick reason).downstream.captureList = s.readsWithout (s.unreleasedOf c) ∧
    (s.refuseWhere pick reason).log.requests = s.requestsLeft c := by
  have hu : (s.hold.filter fun e => !e.released && pick e) = s.unreleasedOf c := by
    simp only [hp]
    rfl
  obtain ⟨⟨h1, h2, h3⟩, h4⟩ := s.refuseWhere_settledInto pick reason
  rw [hu, tagged_of_ctx fun e he => State.unreleasedOf_ctx he] at h1 h3 h4
  rw [hu, keptReads_of_ctx fun e he => State.unreleasedOf_ctx he] at h2
  exact ⟨h1, h2, h3, h4⟩

/-! ## The replay list (R89) -/

theorem insertDescending_perm (tail : Seq) (e : FilterEntry) (l : List FilterEntry) :
    (insertDescending tail e l).Perm (e :: l) := by
  induction l with
  | nil => exact .refl _
  | cons x rest ih =>
    unfold insertDescending
    split
    · exact .refl _
    · exact (ih.cons x).trans (.swap e x rest)

theorem insertDescending_sorted (tail : Seq) (e : FilterEntry) (l : List FilterEntry)
    (h : l.Pairwise fun a b => distance tail (b.seq.getD tail) ≤ distance tail (a.seq.getD tail)) :
    (insertDescending tail e l).Pairwise fun a b => distance tail (b.seq.getD tail) ≤ distance tail (a.seq.getD tail) := by
  induction l with
  | nil => exact List.pairwise_singleton _ _
  | cons x rest ih =>
    obtain ⟨hx, hr⟩ := List.pairwise_cons.1 h
    unfold insertDescending
    split
    · next hle =>
      refine List.pairwise_cons.2 ⟨fun b hb => ?_, h⟩
      rcases List.mem_cons.1 hb with rfl | hb
      · exact hle
      · exact (hx b hb).trans hle
    · next hlt =>
      refine List.pairwise_cons.2 ⟨fun b hb => ?_, ih hr⟩
      rcases List.mem_cons.1 ((insertDescending_perm tail e rest).mem_iff.1 hb) with rfl | hb
      · exact (Nat.lt_of_not_le hlt).le
      · exact hx b hb

/-- The list the engine builds is the replay list of R89. -/
theorem State.replayListOf_replays (s : State) (c : Ctx) : s.replays c (s.replayListOf c) := by
  have h : ∀ l : List FilterEntry, (l.foldr (insertDescending s.log.tail) []).Perm l ∧
      (l.foldr (insertDescending s.log.tail) []).Pairwise fun a b =>
        distance s.log.tail (b.seq.getD s.log.tail) ≤ distance s.log.tail (a.seq.getD s.log.tail) := by
    intro l
    induction l with
    | nil => exact ⟨.refl _, .nil⟩
    | cons x rest ih =>
      exact ⟨(insertDescending_perm _ _ _).trans (ih.1.cons x), insertDescending_sorted _ _ _ ih.2⟩
  refine ⟨(h _).1, (h _).2.imp ?_⟩
  intro a b hab p q hp hq
  simpa [hp, hq, distance] using hab

end Sys2Proof.Machine
end

