-- ==== Sys2Proof/Laws/Breaks.lean ====
section
/-! SUPPORT. What a journal break does: its events in the order of R112, and every other effect (R17, R96, R112). -/

namespace Sys2Proof.Machine

/-! ## The events -/

/-- The events of one context at a break. -/
def State.breakEventsOf (s : State) (c : Ctx) : List Event :=
  let faulted : Event := { what := .contextFaulted .journalBroken, context := some c, address := none, sequence := none,
                           count := some (s.contexts.get c).recordCount }
  match (s.contexts.get c).state with
  | .idle => []
  | .opened => [faulted]
  | .committing =>
    [faulted, { what := .commitDone .failed, context := some c, address := none,
                sequence := some ((s.contexts.get c).epoch.setWidth 32),
                count := some (s.contexts.get c).recordCount }]
  | .aborting => [faulted]
  | .faulted => []

theorem State.breakContext_events (s : State) (c : Ctx) :
    (s.breakContext c).events = s.events.takeAll (s.breakEventsOf c) := by
  unfold State.breakContext State.breakEventsOf
  dsimp only
  cases h : (s.contexts.get c).state <;>
    simp [CtxState.breakable, State.raise, State.failCommit, faultEvent, commitEvent, ContextRecord.toFaulted]

theorem State.breakContexts_events (s : State) (l : List Ctx) (hn : l.Nodup) :
    (l.foldl State.breakContext s).events = s.events.takeAll (l.flatMap s.breakEventsOf) := by
  induction l generalizing s with
  | nil => rfl
  | cons d rest ih =>
    obtain ⟨h1, h2⟩ := List.nodup_cons.1 hn
    rw [List.foldl_cons, ih _ h2, State.breakContext_events, List.flatMap_cons, EventBlock.takeAll_append]
    congr 1
    refine List.flatMap_congr fun c hc => ?_
    have hne : c ≠ d := fun e => h1 (e ▸ hc)
    have hget := (State.breakContext_get s c d).1
    simp only [hne, false_and, if_false] at hget
    simp only [State.breakEventsOf, hget]

/-- The events of a break, while PFAIL_N is deasserted. -/
theorem State.breakJournal_events (s : State) (cause : BreakCause) (sequence : Option Seq)
    (hp : s.pins.pfail = false) :
    (s.breakJournal cause sequence).events = s.events.takeAll (s.breakEvents cause sequence) := by
  unfold State.breakJournal
  dsimp only
  obtain ⟨y, hy⟩ : ∃ y, y = ((s.setJournal .broken).refuseWhere (fun e => e.journaled) .broken).emptyRequests := ⟨_, rfl⟩
  rw [← hy]
  have ye : y.events =
      s.events.takeAll (refusals (s.hold.filter fun e => !e.released && e.journaled) .broken) := by
    rw [hy]
    simpa using (s.setJournal .broken).refuseWhere_events (fun e => e.journaled) .broken
  have yc : y.contexts = s.contexts := by
    rw [hy]
    simp
  have yp : y.pins = s.pins := by
    rw [hy]
    simp
  have yset : s.settledInto y (s.hold.filter fun e => !e.released && e.journaled) := by
    have h := ((s.setJournal .broken).refuseWhere_settledInto (fun e => e.journaled) .broken).1
    rw [hy]
    exact h
  have yup : y.upstream =
      { s.upstream with tags := s.tagsWithout (s.hold.filter fun e => !e.released && e.journaled) } := by
    have h := State.refuseWhere_upstream (s.setJournal .broken) (fun e => e.journaled) .broken
    rw [hy]
    exact h
  obtain ⟨z, hz⟩ : ∃ z : State, z = { y with downstream := { y.downstream with restoreList := [] } } := ⟨_, rfl⟩
  rw [← hz]
  have hb := State.breakContexts_events z allContexts (by decide)
  have hof : z.breakEventsOf = s.breakEventsOf := by
    funext c
    simp [State.breakEventsOf, hz, yc]
  have hcount : s.breakCount = (allContexts.filter fun c =>
      (s.contexts.get c).state = .opened ∨ (s.contexts.get c).state = .committing ∨
      (s.contexts.get c).state = .aborting).length := by
    unfold State.breakCount
    congr 2
    funext c
    cases (s.contexts.get c).state <;> simp [CtxState.breakable]
  have zp : z.pins = s.pins := by
    rw [hz]
    exact yp
  have ze : z.events = y.events := by
    rw [hz]
  rw [State.drainIfWarned_of_pfail _ (by split <;> simp [zp, hp])]
  have fold : s.breakEvents cause sequence =
      refusals (s.hold.filter fun e => !e.released && e.journaled) .broken ++ allContexts.flatMap s.breakEventsOf ++
      [brokenEvent cause sequence s.breakCount] ++
      (if s.attach.journal = .detaching then [detachEvent .failed none] else []) := by
    rw [hcount]
    rfl
  rw [fold]
  simp only [EventBlock.takeAll_append, ← ye]
  have e3 : ((List.foldl State.breakContext z allContexts).raise (brokenEvent cause sequence s.breakCount)).events =
      (y.events.takeAll (allContexts.flatMap s.breakEventsOf)).takeAll [brokenEvent cause sequence s.breakCount] := by
    simp [State.raise, hb, hof, ze]
  split <;>
  · simp only [State.noteDue_frame]
    rw [← e3]
    rfl

/-! ## Everything else -/

/-- What a break does beside its events, while PFAIL_N is deasserted: `x` is the state the refusals leave. -/
theorem State.breakJournal_spec (s : State) (cause : BreakCause) (sequence : Option Seq) (hp : s.pins.pfail = false) :
    ∃ t, t = s.breakJournal cause sequence ∧ t.attach = { s.attach with journal := .broken } ∧
      t.log.inFlight = s.log.inFlight ∧ t.log.requests = [] ∧ t.log.head = s.log.head ∧ t.log.tail = s.log.tail ∧
      t.log.generation = s.log.generation ∧ t.log.anchor = s.log.anchor ∧
      t.hold = s.hold.filter (fun e => e.released || !e.journaled) ∧
      t.out.responses = s.out.responses ++
        (s.hold.filter fun e => !e.released && e.journaled).map (fun e => ⟨e.request.tag, .error⟩) ∧
      (∀ c, t.contexts.get c = (if (s.contexts.get c).state.breakable then
          (s.contexts.get c).toFaulted .journalBroken else s.contexts.get c) ∧
        t.engine.get c = (if (s.contexts.get c).state.breakable then .reset else s.engine.get c)) ∧
      t.downstream.restoreList = [] ∧ t.downstream.appendList = s.downstream.appendList ∧
      t.downstream.forwardQueue = s.downstream.forwardQueue ∧
      s.settledInto t (s.hold.filter fun e => !e.released && e.journaled) ∧
      t.upstream = { s.upstream with tags := s.tagsWithout (s.hold.filter fun e => !e.released && e.journaled) } ∧
      t.mgmt = s.mgmt ∧ t.pins = s.pins := by
  refine ⟨_, rfl, ?_⟩
  unfold State.breakJournal
  dsimp only
  obtain ⟨y, hy⟩ : ∃ y, y = ((s.setJournal .broken).refuseWhere (fun e => e.journaled) .broken).emptyRequests := ⟨_, rfl⟩
  obtain ⟨y1, y2, y3, y4, y5, y6, y7, y8, y9, y10, y11, y12, y13, y14, y15, y16, y17⟩ : y.contexts = s.contexts ∧
      y.engine = s.engine ∧ y.hold = s.hold.filter (fun e => e.released || !e.journaled) ∧
      y.out.responses = s.out.responses ++
        (s.hold.filter fun e => !e.released && e.journaled).map (fun e => ⟨e.request.tag, .error⟩) ∧
      y.attach = { s.attach with journal := .broken } ∧ y.pins = s.pins ∧ y.mgmt = s.mgmt ∧
      y.upstream.intake = s.upstream.intake ∧ y.upstream.head = s.upstream.head ∧ y.log.requests = [] ∧
      y.log.inFlight = s.log.inFlight ∧ y.log.head = s.log.head ∧ y.log.tail = s.log.tail ∧
      y.log.generation = s.log.generation ∧ y.log.anchor = s.log.anchor ∧
      y.downstream.appendList = s.downstream.appendList ∧
      y.downstream.forwardQueue = s.downstream.forwardQueue := by
    rw [hy]
    simp [State.setJournal]
  rw [← hy]
  have yset : s.settledInto y (s.hold.filter fun e => !e.released && e.journaled) := by
    have h := ((s.setJournal .broken).refuseWhere_settledInto (fun e => e.journaled) .broken).1
    rw [hy]
    exact h
  have yup : y.upstream =
      { s.upstream with tags := s.tagsWithout (s.hold.filter fun e => !e.released && e.journaled) } := by
    have h := State.refuseWhere_upstream (s.setJournal .broken) (fun e => e.journaled) .broken
    rw [hy]
    exact h
  obtain ⟨z, hz⟩ : ∃ z : State, z = { y with downstream := { y.downstream with restoreList := [] } } := ⟨_, rfl⟩
  rw [← hz]
  have hall : ∀ c : Ctx, c ∈ allContexts := by decide
  have hb := fun c => State.breakContexts_get z c allContexts (by decide)
  have z1 : z.contexts = s.contexts ∧ z.engine = s.engine := by
    rw [hz]
    exact ⟨y1, y2⟩
  simp only [hall, true_and, z1.1, z1.2] at hb
  rw [State.drainIfWarned_of_pfail _ (by split <;> simp [hz, y6, hp])]
  split <;>
  · refine ⟨by simp [hz, y5], by simp [hz, y11], by simp [hz, y10], by simp [hz, y12], by simp [hz, y13],
      by simp [hz, y14], by simp [hz, y15], by simp [hz, y3], by simp [hz, y4], fun c => ?_, by simp [hz],
      by simp [hz, y16], by simp [hz, y17], ?_, by simp [hz, yup], by simp [hz, y7], by simp [hz, y6]⟩
    rotate_left
    · obtain ⟨h1, h2, h3⟩ := yset
      exact ⟨by simp [hz, h1], by simp [hz, h2], by simp [hz, h3]⟩
    simp only [State.noteDue_frame, State.raise_frame]
    exact hb c

end Sys2Proof.Machine
end

