-- ==== Sys2Proof/Laws/Bytes.lean ====
section
/-! SUPPORT. The two byte orders: a value's bytes, and the value they give back. -/

namespace Sys2Proof

/-! ## Most significant byte first: the link (R186) -/

@[simp] theorem length_bytesMsbFirst (n v : Nat) : (bytesMsbFirst n v).length = n := by
  simp [bytesMsbFirst]

/-- One byte more in front. -/
theorem bytesMsbFirst_succ (n v : Nat) :
    bytesMsbFirst (n + 1) v = BitVec.ofNat 8 (v >>> (8 * n)) :: bytesMsbFirst n v := by
  simp [bytesMsbFirst, List.range_succ]

theorem valueMsbFirst_append (a b : List Byte) :
    valueMsbFirst (a ++ b) = valueMsbFirst a * 256 ^ b.length + valueMsbFirst b := by
  unfold valueMsbFirst
  induction b using List.reverseRecOn with
  | nil => simp
  | append_singleton b x ih =>
    rw [← List.append_assoc, List.foldl_concat, List.foldl_concat, ih, List.length_append]
    simp only [List.length_singleton, pow_succ]
    ring

/-- A value survives the link as far as its bytes reach. -/
theorem valueMsbFirst_bytesMsbFirst (n v : Nat) : valueMsbFirst (bytesMsbFirst n v) = v % 256 ^ n := by
  induction n with
  | zero => simp [bytesMsbFirst, valueMsbFirst, Nat.mod_one]
  | succ n ih =>
    have hc : bytesMsbFirst (n + 1) v = [BitVec.ofNat 8 (v >>> (8 * n))] ++ bytesMsbFirst n v :=
      bytesMsbFirst_succ n v
    rw [hc, valueMsbFirst_append, ih, length_bytesMsbFirst]
    have h8 : 2 ^ (8 * n) = 256 ^ n := by
      rw [pow_mul]
      norm_num
    simp only [valueMsbFirst, List.foldl, BitVec.toNat_ofNat, Nat.shiftRight_eq_div_pow, h8, zero_mul, zero_add]
    rw [show (2 : Nat) ^ 8 = 256 from rfl, show 256 ^ (n + 1) = 256 ^ n * 256 from pow_succ 256 n, Nat.mod_mul]
    ring

namespace Machine

/-! ## Least significant byte first: persistent memory (12_formats.md) -/

@[simp] theorem length_bytesLsbFirst (n v : Nat) : (bytesLsbFirst n v).length = n := by
  simp [bytesLsbFirst]

theorem bytesLsbFirst_succ (n v : Nat) : bytesLsbFirst (n + 1) v = BitVec.ofNat 8 v :: bytesLsbFirst n (v / 256) := by
  simp only [bytesLsbFirst, List.range_succ_eq_map, List.map_cons, List.map_map]
  refine List.cons_eq_cons.mpr ⟨by simp, List.map_congr_left fun i _ => ?_⟩
  simp only [Function.comp, Nat.shiftRight_eq_div_pow, Nat.div_div_eq_div_mul, Nat.succ_eq_add_one]
  congr 2
  rw [show 8 * (i + 1) = 8 + 8 * i by ring, pow_add]
  norm_num

/-- A value survives memory as far as its bytes reach. -/
theorem valueLsbFirst_bytesLsbFirst (n v : Nat) : valueLsbFirst (bytesLsbFirst n v) = v % 256 ^ n := by
  induction n generalizing v with
  | zero => simp [bytesLsbFirst, valueLsbFirst, Nat.mod_one]
  | succ n ih =>
    have hv : valueLsbFirst (bytesLsbFirst (n + 1) v) =
        (BitVec.ofNat 8 v).toNat + 256 * valueLsbFirst (bytesLsbFirst n (v / 256)) := by
      rw [bytesLsbFirst_succ]
      rfl
    rw [hv, ih, BitVec.toNat_ofNat, show (2 : Nat) ^ 8 = 256 from rfl, Nat.pow_succ, mul_comm (256 ^ n) 256, Nat.mod_mul]

/-- The field between two parts of a list of bytes. -/
theorem fieldAt_append (a b c : List Byte) (offset n : Nat) (ha : a.length = offset) (hb : b.length = n) :
    fieldAt (a ++ (b ++ c)) offset n = valueLsbFirst b := by
  subst ha hb
  simp [fieldAt]

end Machine

end Sys2Proof
end

