-- ==== Sys2Proof/Laws/Frames.lean ====
section
/-! SUPPORT. What a frame does, by where the link stands: between frames, in a frame in progress, in one that RST_N cuts. -/

namespace Sys2Proof

/-- A command's frame is the bytes the command needs and the extra ones. -/
@[simp] theorem FrameCommand.bytes_length (command : FrameCommand) (extra : Nat) :
    (command.bytes extra).length = command.bytesNeeded + extra := by
  cases command <;>
    simp [FrameCommand.bytes, FrameCommand.bytesNeeded, bytesMsbFirst, Nat.add_comm, Nat.add_left_comm]

theorem ite_eq_some {α : Type} {c : Prop} [Decidable c] {a b : Option α} {x : α} {p : Prop}
    (h : (if c then a else b) = some x) (ha : a = some x → p) (hb : b = some x → p) : p := by
  split at h
  · exact ha h
  · exact hb h

/-- A frame that names a command is as long as its command needs (R172). -/
theorem bytesNeeded_le {frame : List Byte} {command : FrameCommand} (h : frameCommand frame = some command) :
    command.bytesNeeded ≤ frame.length := by
  rcases frame with _ | ⟨code, args⟩
  · cases h
  have one : ∀ c : FrameCommand, c.bytesNeeded = 1 → some c = some command →
      command.bytesNeeded ≤ (code :: args).length := by
    intro c hc he
    rw [← Option.some.inj he, hc]
    exact Nat.succ_le_succ (Nat.zero_le _)
  have two : ∀ (x : Byte) (rest : List Byte), 2 ≤ (code :: x :: rest).length :=
    fun _ _ => Nat.succ_le_succ (Nat.succ_le_succ (Nat.zero_le _))
  delta frameCommand at h
  dsimp only at h
  refine ite_eq_some h (one _ rfl) fun h => ?_
  refine ite_eq_some h (one _ rfl) fun h => ?_
  refine ite_eq_some h (fun h => ?_) fun h => ?_
  · rcases args with _ | ⟨x, _ | ⟨y, rest⟩⟩
    · cases h
    · cases h
    · rw [← Option.some.inj h]
      exact Nat.succ_le_succ (two _ _)
  refine ite_eq_some h (fun h => ?_) fun h => ?_
  · rcases args with _ | ⟨x, _ | ⟨y, rest⟩⟩
    · cases h
    · cases h
    · dsimp only at h
      split at h
      · rw [← Option.some.inj h]
        simp only [FrameCommand.bytesNeeded, List.length_cons]
        omega
      · cases h
  refine ite_eq_some h (fun h => ?_) fun h => ?_
  · rcases args with _ | ⟨x, rest⟩
    · cases h
    · rw [← Option.some.inj h]
      exact two x rest
  refine ite_eq_some h (one _ rfl) fun h => ?_
  refine ite_eq_some h (fun h => ?_) fun h => ?_
  · rcases args with _ | ⟨x, rest⟩
    · cases h
    · rw [← Option.some.inj h]
      exact two x rest
  refine ite_eq_some h (fun h => ?_) fun h => ?_
  · rcases args with _ | ⟨x, rest⟩
    · cases h
    · rw [← Option.some.inj h]
      exact two x rest
  refine ite_eq_some h (fun h => ?_) fun h => ?_
  · rcases args with _ | ⟨x, rest⟩
    · cases h
    · rw [← Option.some.inj h]
      exact two x rest
  refine ite_eq_some h (one _ rfl) fun h => ?_
  refine ite_eq_some h (one _ rfl) fun h => ?_
  refine ite_eq_some h (one _ rfl) fun h => ?_
  cases h

end Sys2Proof

namespace Sys2Proof.Machine

/-- The row of a command does what the command's frame does. -/
theorem exec_instr (command : FrameCommand) (extra : Nat) (s : State) :
    exec (command.instr extra) s = .next (s.frameOf command extra) := by
  cases command
  case set item index value =>
    rw [show (FrameCommand.set item index value).instr extra =
      if item = 0x01#8 then .setRegion index value extra
      else if item = 0x07#8 then .setQuota index value extra
      else if item = 0x05#8 then .setWatermark index value extra
      else if item = 0x0B#8 then .setEventMask index value extra
      else .set item index value extra from rfl]
    (repeat' split) <;> simp_all [exec, execSet, execSetRegion, execSetQuota, execSetWatermark, execSetEventMask]
  case attach mode =>
    rw [show (FrameCommand.attach mode).instr extra =
      if mode = 0x02#8 then .attachResume extra else .attachFormat mode extra from rfl]
    split <;> simp_all [exec, execAttachFormat, execAttachResume]
  all_goals rfl

theorem State.takesNoFrame_eq_false_iff (s : State) :
    s.takesNoFrame = false ↔ s.pins.rst = false ∧ s.mgmt.frame ≠ .discarded := by
  simp [State.takesNoFrame]

theorem State.takesNoFrame_eq_true_iff (s : State) :
    s.takesNoFrame = true ↔ s.pins.rst = true ∨ s.mgmt.frame = .discarded := by
  simp [State.takesNoFrame]

/-- Between frames a whole frame runs its command, and the old reply is shifted out (R170, R171). -/
theorem State.frame_of_none (s : State) (bytes : List Byte) (run : State → State × Reply) (hr : s.pins.rst = false)
    (hf : s.mgmt.frame = .none) : s.frame bytes run =
      { (run s).1 with
        mgmt := { (run s).1.mgmt with frame := .none, assembly := [], reply := some (run s).2 }
        out := { (run s).1.out with mdo := (run s).1.out.mdo ++ [shiftedOut s.mgmt.reply bytes.length] } } := by
  simp [State.frame, State.shift, State.shiftedBytes, State.takesNoFrame, FramePhase.clocked, hr, hf]

/-- The rest of a frame in progress runs the command of all its bytes (R170, log entry 14). -/
theorem State.frame_of_inProgress (s : State) (bytes : List Byte) (run : State → State × Reply) (n : Nat)
    (hr : s.pins.rst = false) (hf : s.mgmt.frame = .inProgress n) : s.frame bytes run =
      { (frameRun (s.mgmt.assembly ++ bytes) s).1 with
        mgmt := { (frameRun (s.mgmt.assembly ++ bytes) s).1.mgmt with
          frame := .none, assembly := [], reply := some (frameRun (s.mgmt.assembly ++ bytes) s).2 }
        out := { (frameRun (s.mgmt.assembly ++ bytes) s).1.out with
          mdo := (frameRun (s.mgmt.assembly ++ bytes) s).1.out.mdo ++
            [(shiftedOut s.mgmt.reply (n + bytes.length)).drop n] } } := by
  simp [State.frame, State.shift, State.shiftedBytes, State.takesNoFrame, FramePhase.clocked, hr, hf]

/-- While RST_N is asserted, and in a frame that RST_N has cut, nothing is taken and 00H is shifted out (R174). -/
theorem State.frame_of_cut (s : State) (bytes : List Byte) (run : State → State × Reply) (h : s.takesNoFrame = true) :
    s.frame bytes run =
      { s with
        mgmt := { s.mgmt with frame := .none, assembly := [] }
        out := { s.out with mdo := s.out.mdo ++ [List.replicate bytes.length 0] } } := by
  simp [State.frame, State.shift, State.shiftedBytes, h]

/-- Between frames a command row does what its command does. -/
theorem State.frameOf_of_none (s : State) (command : FrameCommand) (extra : Nat) (hr : s.pins.rst = false)
    (hf : s.mgmt.frame = .none) : s.frameOf command extra =
      { (runCommand command s).1 with
        mgmt := { (runCommand command s).1.mgmt with
          frame := .none, assembly := [], reply := some (runCommand command s).2 }
        out := { (runCommand command s).1.out with
          mdo := (runCommand command s).1.out.mdo ++
            [shiftedOut s.mgmt.reply (command.bytesNeeded + extra)] } } := by
  rw [State.frameOf, State.frame_of_none s _ _ hr hf, FrameCommand.bytes_length]

/-- The begun part of a frame changes the link's frame, its assembly buffer and MDO alone. -/
theorem State.beginFrame_eq (s : State) (bytes : List Byte) : s.beginFrame bytes =
    { s with
      mgmt := (s.beginFrame bytes).mgmt
      out := { s.out with mdo := s.out.mdo ++ [s.shiftedBytes bytes.length] } } := rfl

end Sys2Proof.Machine
end

