-- ==== Sys2Proof/Laws/Configuration.lean ====
section
/-! SUPPORT. What a command and a frame leave of configuration. -/

namespace Sys2Proof.Machine

/-- What keeps, keeps configuration. -/
theorem State.Keeps.configuration {s t : State} (h : s.Keeps t) : t.configuration = s.configuration := by
  have hq : t.contexts.map (·.quota) = s.contexts.map (·.quota) := by
    have := h.quotas
    simp only [Quad.map, Quad.mk.injEq]
    exact ⟨this 0, this 1, this 2, this 3⟩
  simp [State.configuration, h.items, h.regions, hq, h.order, h.throttleRestore, h.throttleScan, h.mask]

/-- No command but SET changes configuration. -/
theorem runCommand_configuration (c : FrameCommand) (s : State) (h : ∀ i x v, c ≠ .set i x v) :
    (runCommand c s).1.configuration = s.configuration := by
  have cc : ∀ b (run : State → Ctx → State × Reply), (∀ c, (run s c).1.configuration = s.configuration) →
      (s.contextCommand b run).1.configuration = s.configuration := by
    intro b run h; unfold State.contextCommand
    (repeat' split) <;> first | rfl | exact h _
  cases c with
  | set i x v => exact absurd rfl (h i x v)
  | nop => rfl
  | status => rfl
  | get i x => simp only [runCommand, State.getCommand]; (repeat' split) <;> rfl
  | attach m =>
    simp only [runCommand, State.unlessWaiting, State.attachCommand]
    (repeat' split) <;> try rfl
    unfold State.acceptAttach
    refine (State.Keeps.configuration (State.drainIfWarned_keeps _)).trans ?_
    split <;> rfl
  | detach =>
    simp only [runCommand, State.unlessWaiting, State.detachCommand]
    (repeat' split) <;> try rfl
    exact (State.Keeps.configuration (State.drainIfWarned_keeps (s.setJournal .detaching))).trans rfl
  | openEpoch b =>
    simp only [runCommand, State.unlessWaiting, State.openCommand]
    split
    · rfl
    refine cc b _ fun c => ?_
    unfold State.openContext
    dsimp only; split <;> try rfl
    exact State.Keeps.configuration (State.setContext_keeps _ _ _ rfl)
  | commit b =>
    simp only [runCommand, State.unlessWaiting, State.commitCommand]
    split
    · rfl
    refine cc b _ fun c => ?_
    unfold State.commitContext
    have hc : (s.acceptCommit c).configuration = s.configuration := by
      unfold State.acceptCommit
      exact State.Keeps.configuration ((State.setContext_keeps _ _ _ (by rfl)).trans ((State.setProgress_keeps _ _ _).trans
        (State.runEngines_keeps _)))
    dsimp only; split <;> first | rfl | exact hc
  | abort b =>
    simp only [runCommand, State.unlessWaiting, State.abortCommand]
    split
    · rfl
    have ha : ∀ c, (s.acceptAbort c).configuration = s.configuration := fun c => by
      unfold State.acceptAbort
      exact State.Keeps.configuration ((State.setContext_keeps _ _ _ (by rfl)).trans ((State.setProgress_keeps _ _ _).trans
        ((State.refuseWhere_keeps _ _ _).trans ((State.runEngines_keeps _).trans ((State.noteDue_keeps _).trans
          (State.lookSpace_keeps _))))))
    refine cc b _ fun c => ?_
    unfold State.abortContext
    dsimp only; split <;> first | rfl | exact ha c
  | popEvent => simp only [runCommand, State.popCommand]; split <;> rfl
  | clearOverrun => rfl
  | softReset =>
    simp only [runCommand, State.unlessWaiting, State.softResetCommand]
    split
    · rfl
    have hf : ∀ (l : List TagEntry) (s : State),
        (l.foldl (fun s e => s.sendResponse e.tag .error) s).configuration = s.configuration := by
      intro l; induction l with
      | nil => intro s; rfl
      | cons e l ih => intro s; rw [List.foldl_cons, ih]; rfl
    exact hf _ _

/-- A frame keeps configuration where its command does, and the command of all its bytes is no SET. -/
theorem State.frame_configuration (s : State) (bytes : List Byte) (run : State → State × Reply)
    (hr : (run s).1.configuration = s.configuration)
    (hp : ∀ n, s.pins.rst = false → s.mgmt.frame = .inProgress n →
      ∀ i x v, frameCommand (s.mgmt.assembly ++ bytes) ≠ some (.set i x v)) :
    (s.frame bytes run).configuration = s.configuration := by
  unfold State.frame
  split
  · rfl
  · next h =>
    dsimp only
    split
    · next n hn =>
      have hrst : s.pins.rst = false := by
        rw [Bool.not_eq_true, State.takesNoFrame_eq_false_iff] at h; exact h.1
      have : (frameRun (s.mgmt.assembly ++ bytes) s).1.configuration = s.configuration := by
        unfold frameRun
        cases hc : frameCommand (s.mgmt.assembly ++ bytes) with
        | none => rfl
        | some c => exact runCommand_configuration c s (fun i x v h => hp n hrst hn i x v (h ▸ hc))
      exact this
    · exact hr

end Sys2Proof.Machine
end

