-- ==== Sys2Proof/Laws/Covers.lean ====
section
/-! SUPPORT. Which operations can put a capture item in stage COVERED: none but the one that follows the frontier (R68). -/

namespace Sys2Proof.Machine

/-- Every COVERED item of `t` stood in the hold queue of `s`, in the entry of the same request. -/
def State.CoversNoMore (s t : State) : Prop :=
  ∀ e ∈ t.hold, ∀ x ∈ e.items, ∀ q, x.stage = .covered q → ∃ d ∈ s.hold, d.request = e.request ∧ x ∈ d.items

theorem State.CoversNoMore.of_hold {s t : State} (h : t.hold = s.hold) : s.CoversNoMore t := by
  intro e he x hx q _
  rw [h] at he
  exact ⟨e, he, rfl, hx⟩

theorem State.CoversNoMore.refl (s : State) : s.CoversNoMore s := .of_hold rfl

theorem State.CoversNoMore.trans {s t u : State} (h : s.CoversNoMore t) (k : t.CoversNoMore u) : s.CoversNoMore u := by
  intro e he x hx q hq
  obtain ⟨d, hd, hr, hx'⟩ := k e he x hx q hq
  obtain ⟨d', hd', hr', hx''⟩ := h d hd x hx' q hq
  exact ⟨d', hd', hr'.trans hr, hx''⟩

/-- A queue that only loses entries. -/
theorem State.CoversNoMore.of_subset {s t : State} (h : t.hold ⊆ s.hold) : s.CoversNoMore t :=
  fun e he _ hx _ _ => ⟨e, h he, rfl, hx⟩

theorem State.refuseWhere_covers (s : State) (pick : HoldEntry → Bool) (reason : Reason) :
    s.CoversNoMore (s.refuseWhere pick reason) := by
  refine .of_subset ?_
  rw [State.refuseWhere_hold]
  exact List.filter_sublist.subset

/-- A stage other than COVERED. -/
theorem State.setStage_covers (s : State) (l : Line) (stage : Stage) (h : ∀ q, stage ≠ .covered q) :
    s.CoversNoMore (s.setStage l stage) := by
  intro e he x hx q hq
  obtain ⟨d, hd, rfl⟩ := List.mem_map.1 he
  obtain ⟨y, hy, hyx⟩ := List.mem_map.1 hx
  refine ⟨d, hd, rfl, ?_⟩
  split at hyx
  · subst hyx
    exact absurd hq (h q)
  · exact hyx ▸ hy

theorem State.joinHold_covers (s : State) (r : UpRequest) (journaled : Bool) (newLines : List Line) :
    s.CoversNoMore (s.joinHold r journaled newLines) := by
  intro e he x hx q hq
  rcases List.mem_append.1 he with he | he
  · exact ⟨e, he, rfl, hx⟩
  · obtain rfl := List.mem_singleton.1 he
    obtain ⟨l, _, rfl⟩ := List.mem_map.1 hx
    cases hq

theorem State.handOn_covers (s : State) (r : UpRequest) : s.CoversNoMore (s.handOn r) := by
  unfold State.handOn
  (repeat' split)
  · exact .of_hold (by simp)
  · unfold State.enterHold
    split
    · unfold State.admitWrite
      split
      · exact .of_hold (by simp)
      · next c newLines _ =>
        have h : s.CoversNoMore ((s.setIntake .taking none).insertLines c newLines) := .of_hold (by simp)
        exact (h.trans (State.joinHold_covers _ r true newLines)).trans (.of_hold (by simp))
      · exact (State.CoversNoMore.of_hold (by simp)).trans (State.joinHold_covers _ _ _ _)
    · exact (State.CoversNoMore.of_hold (by simp)).trans (State.joinHold_covers _ _ _ _)
  · exact .of_hold (by simp)
  · exact .of_hold (by simp)
  · exact .of_hold (by simp)

theorem State.release_covers (s : State) : s.CoversNoMore s.release := by
  unfold State.release
  (repeat' split)
  · exact .refl s
  · next e hold h =>
    obtain ⟨before, after, e1, e2, _⟩ := State.releaseFirst_eq_some h
    dsimp only at e1 e2
    refine State.CoversNoMore.trans ?_ (.of_hold (by simp) : State.CoversNoMore (State.forwardHeld { s with hold := hold } e.request) _)
    intro x hx y hy q _
    have hx : x ∈ hold := hx
    rw [e2, List.mem_append, List.mem_cons] at hx
    rw [e1]
    rcases hx with hx | rfl | hx
    · exact ⟨x, by simp [hx], rfl, hy⟩
    · exact ⟨e, by simp, rfl, hy⟩
    · exact ⟨x, by simp [hx], rfl, hy⟩
  · exact .refl s

theorem State.beginDrain_covers (s : State) : s.CoversNoMore s.beginDrain := by
  have h : s.CoversNoMore (State.refuseWhere { s with attach := { s.attach with
      journal := .draining
      drain := { DrainRecord.reset with origin := some s.attach.journal } } } (fun _ => true) .draining) :=
    (State.CoversNoMore.of_hold rfl).trans (State.refuseWhere_covers _ _ _)
  refine h.trans (.of_hold ?_)
  unfold State.beginDrain State.stopIntake
  dsimp only
  (repeat' split) <;> simp

theorem State.drainIfWarned_covers (s : State) : s.CoversNoMore s.drainIfWarned := by
  unfold State.drainIfWarned
  split
  · exact s.beginDrain_covers
  · exact .refl s

theorem State.logError_covers (s : State) (cause : BreakCause) (sequence : Option Seq) :
    s.CoversNoMore (s.logError cause sequence) := by
  unfold State.logError
  (repeat' split)
  · have h : s.CoversNoMore ((s.setJournal .broken).refuseWhere (fun e => e.journaled) .broken) :=
      (State.CoversNoMore.of_hold rfl).trans (State.refuseWhere_covers _ _ _)
    refine (h.trans ?_).trans (State.drainIfWarned_covers _)
    refine .of_hold ?_
    dsimp only
    split <;> simp
  · exact .of_hold (by simp)
  · exact .refl s

theorem State.reportFault_covers (s : State) (c : Ctx) (cause : FaultCause) (address : Addr) :
    s.CoversNoMore (s.reportFault c cause address) := by
  unfold State.reportFault
  split
  · have h : s.CoversNoMore ((s.setContext c ((s.contexts.get c).toFaulted cause)).refuseWhere
        (fun e => e.journaledOf c) .faulted) :=
      (State.CoversNoMore.of_hold (by simp)).trans (State.refuseWhere_covers _ _ _)
    refine h.trans (.of_hold ?_)
    unfold State.applyFault
    dsimp only
    split <;> simp
  · exact .refl s

/-- The frontier covers a TAKEN item whose record lies at or below it. -/
theorem State.followFrontier_covers (s : State) : ∀ e ∈ s.followFrontier.hold, ∀ x ∈ e.items, ∀ q,
    x.stage = .covered q → ∃ d ∈ s.hold, d.request = e.request ∧
      (x ∈ d.items ∨ (s.log.covers q = true ∧ { x with stage := .taken q } ∈ d.items)) := by
  intro e he x hx q hq
  obtain ⟨d, hd, rfl⟩ := List.mem_map.1 he
  obtain ⟨y, hy, rfl⟩ := List.mem_map.1 hx
  refine ⟨d, hd, rfl, ?_⟩
  obtain ⟨line, stage⟩ := y
  cases stage <;> simp only [CaptureItem.coverIfCovered] at hq ⊢ <;> try exact .inl hy
  split at hq
  · next p hp =>
    injection hq with hq
    subst hq
    exact .inr ⟨hp, by simpa [hp] using hy⟩
  · cases hq

/-! ## The answers, and the frames of the management link -/

/-- Taking an item out of its entry covers nothing. -/
theorem State.dropItem_covers (s : State) (l) : s.CoversNoMore (s.dropItem l) := by
  intro e he x hx q hq
  obtain ⟨d, hd, rfl⟩ := List.mem_map.1 he
  exact ⟨d, hd, rfl, List.mem_of_mem_filter hx⟩

/-- No answer of the attach scan covers an item (R102 to R107). -/
theorem State.scanAnswer_covers (s : State) (step b a) : s.CoversNoMore (s.scanAnswer step b a) := by
  have fin : ∀ (u : State) j r q, u.CoversNoMore (u.endAttach j r q) := by
    intro u j r q
    unfold State.endAttach
    exact (State.CoversNoMore.of_hold (by simp)).trans (State.drainIfWarned_covers _)
  have es : ∀ u : State, u.CoversNoMore u.endSweep := by
    intro u; unfold State.endSweep State.failAttach
    (repeat' split)
    · exact fin _ _ _ _
    · exact .of_hold (by simp)
    · exact .refl u
  have sf : ∀ u : State, u.startFinal.hold = u.hold := by
    intro u; unfold State.startFinal; split <;> simp
  have ss : ∀ u : State, u.stopScan.hold = u.hold := by
    intro u; unfold State.stopScan State.readSlot; dsimp only; split <;> simp [sf]
  have ns : ∀ u : State, u.nextSequence.hold = u.hold := by
    intro u; unfold State.nextSequence State.readSlot; dsimp only; (repeat' split) <;> simp [sf]
  unfold State.scanAnswer
  (repeat' split)
  · unfold State.sweepAnswer
    split
    · exact es _
    · exact (State.CoversNoMore.of_hold rfl).trans (es _)
  · unfold State.anchorReadAnswer
    (repeat' split)
    · exact fin _ _ _ _
    · exact fin _ _ _ _
    · exact .of_hold (by simp [sf])
    · exact .of_hold (by simp [State.readSlot])
  · unfold State.scanReadAnswer
    dsimp only
    (repeat' split)
    · exact fin _ _ _ _
    · exact .of_hold (by simp [ss])
    · exact .of_hold (by simp [ss])
    · exact .of_hold (by simp [State.readSlot])
  · unfold State.replayReadAnswer
    dsimp only
    (repeat' split)
    · exact fin _ _ _ _
    · exact fin _ _ _ _
    · exact .of_hold (by simp)
    · exact .of_hold (by simp [ns])
  · unfold State.replayWriteAnswer
    dsimp only
    split
    · exact fin _ _ _ _
    · exact .of_hold (by simp [ns])
  · exact .refl s
  · exact .refl s

/-- No answer of an anchor write covers an item (R53, R56). -/
theorem State.anchorAnswer_covers (s : State) (a) : s.CoversNoMore (s.anchorAnswer a) := by
  have fin : ∀ (u : State) j r q, u.CoversNoMore (u.endAttach j r q) := by
    intro u j r q
    unfold State.endAttach
    exact (State.CoversNoMore.of_hold (by simp)).trans (State.drainIfWarned_covers _)
  have comp : ∀ (u : State) a b c d, u.CoversNoMore (u.completeAttach a b c d) := by
    intro u a b c d
    unfold State.completeAttach
    exact (State.CoversNoMore.of_hold (by simp)).trans (fin _ _ _ _)
  have mt : ∀ (u : State) t, (u.moveTail t).hold = u.hold := by
    intro u t; unfold State.moveTail; split <;> simp
  have aerr : ∀ (u : State) f, u.CoversNoMore (u.anchorError f) := by
    intro u f
    unfold State.anchorError
    dsimp only
    refine (State.logError_covers u .anchorError f.tail).trans ?_
    (repeat' split) <;> exact .of_hold rfl
  unfold State.anchorAnswer
  split
  · exact .refl s
  · refine (State.CoversNoMore.of_hold (s := s) (t := { s with log := { s.log with anchor := none } }) rfl).trans ?_
    dsimp only
    (repeat' split)
    · unfold State.attachAnchorAnswer
      (repeat' split)
      · unfold State.attachAnchorDone
        dsimp only
        have sw : ∀ u : State, u.startSweep.hold = u.hold := by
          intro u; unfold State.startSweep State.handSweep; dsimp only; split <;> simp
        (repeat' split) <;> first
          | exact .refl _
          | exact comp _ _ _ _ _
          | (exact (State.CoversNoMore.of_hold (by simp [sw])))
      · unfold State.attachAnchorError State.failAttach
        split <;> exact fin _ _ _ _
      · exact .refl _
    · exact .of_hold (by simp [mt])
    · unfold State.engineAnchorDone
      (repeat' split)
      · exact (State.CoversNoMore.of_hold (by simp [mt])).trans (State.drainIfWarned_covers _)
      · exact .of_hold (by simp [mt])
      · exact .of_hold (by simp [mt])
    · exact aerr _ _

/-- A capture read's answer covers no item: its record is yet to be appended (R67, R69). -/
theorem State.captureAnswer_covers (u : State) (ref : CaptureRef) (a) : u.CoversNoMore (u.captureAnswer ref a) := by
  unfold State.captureAnswer
  split
  · exact .of_hold (by simp)
  · split
    · cases a with
      | done data =>
        unfold State.buildRecord
        exact (State.setStage_covers u ref.line (.built (readBytes 64 data)) (fun q => by simp)).trans (.of_hold (by simp))
      | error =>
        exact ((State.dropItem_covers u ref.line).trans (State.reportFault_covers _ ref.ctx .captureError (lineAddress ref.line))).trans (.of_hold (by simp))
    · exact .refl u

/-- The answer to a FORWARDED hold entry covers no item (R72, R73). -/
theorem State.heldAnswer_covers (u : State) (tg) (a) : u.CoversNoMore (u.heldAnswer tg a) := by
  have rf : ∀ (v : State) t, v.CoversNoMore (v.removeForwarded t) := fun v t => .of_subset (List.eraseP_sublist.subset)
  unfold State.heldAnswer
  split
  · exact .refl u
  · next e _ =>
    have h : ∀ v : State, v.CoversNoMore (v.reportForwardError e) := by
      intro v
      unfold State.reportForwardError
      (repeat' split)
      · exact .refl _
      · exact State.reportFault_covers _ _ _ _
      · exact .refl _
    cases a with
    | done data =>
      have h1 : u.CoversNoMore (u.answerUp tg (doneResult e.request.isWrite e.request.length data)) := .of_hold (by simp)
      exact (h1.trans (rf _ tg)).trans (.of_hold (by simp))
    | error =>
      have h2 : u.CoversNoMore ((u.answerUp tg .error).raise (failedEvent e.request.address e.ctx)) := .of_hold (by simp)
      have h3 := (h2.trans (rf _ tg))
      have h4 : State.CoversNoMore _ (State.noteDue _) := State.CoversNoMore.of_hold (State.noteDue_frame (((u.answerUp tg .error).raise (failedEvent e.request.address e.ctx)).removeForwarded tg)).2.2.2.2.1
      exact ((h3.trans h4).trans (h _)).trans (.of_hold (by simp))

/-- No command of the management link covers an item. -/
theorem runCommand_covers (c : FrameCommand) (u : State) : u.CoversNoMore (runCommand c u).1 := by
  have uw : ∀ run : State → State × Reply, (u.CoversNoMore (run u).1) → u.CoversNoMore (State.unlessWaiting run u).1 := by
    intro run h; unfold State.unlessWaiting; split
    · exact .refl u
    · exact h
  have cc : ∀ b (run : State → Ctx → State × Reply), (∀ c, u.CoversNoMore (run u c).1) → u.CoversNoMore (u.contextCommand b run).1 := by
    intro b run h; unfold State.contextCommand
    (repeat' split) <;> first | exact .refl u | exact h _
  cases c with
  | nop => exact .refl u
  | status => exact .refl u
  | get item index => 
    refine .of_hold ?_
    show (State.getCommand item index u).1.hold = u.hold
    unfold State.getCommand
    (repeat' split) <;> rfl
  | set item index value =>
    refine .of_hold ?_
    show (State.setCommand item index value u).1.hold = u.hold
    unfold State.setCommand
    (repeat' split) <;> try rfl
    next it _ _ _ _ =>
      cases it <;> simp only [State.itemSet, State.setRegionItem, State.writeRegion, State.setGeometry, State.setWatermarkItem, State.setAnchorStepItem, State.setQuotaItem, State.setOrderItem, State.setThrottleRestoreItem, State.setThrottleScanItem, State.setMaskItem] <;> (repeat' split) <;> simp
  | attach mode =>
    refine uw _ ?_
    unfold State.attachCommand
    (repeat' split) <;> try exact .refl u
    unfold State.acceptAttach
    refine State.CoversNoMore.trans (State.CoversNoMore.of_hold ?_) (State.drainIfWarned_covers _)
    split <;> rfl
  | detach =>
    refine uw _ ?_
    unfold State.detachCommand
    (repeat' split) <;> try exact .refl u
    exact State.CoversNoMore.trans (State.CoversNoMore.of_hold (by simp)) (State.drainIfWarned_covers _)
  | openEpoch ctx =>
    refine uw _ (cc _ _ fun c => ?_)
    unfold State.openContext
    dsimp only
    split
    · exact .of_hold (by simp)
    · exact .refl u
  | commit ctx =>
    refine uw _ (cc _ _ fun c => ?_)
    unfold State.commitContext
    dsimp only
    split <;> try exact .refl u
    unfold State.acceptCommit
    exact .of_hold (by simp)
  | abort ctx =>
    refine uw _ (cc _ _ fun c => ?_)
    have h : u.CoversNoMore (u.acceptAbort c) := by
      unfold State.acceptAbort
      have h1 : u.CoversNoMore ((u.setContext c { u.contexts.get c with state := .aborting }).setProgress c (.start .abort)) := .of_hold (by simp)
      exact (h1.trans (State.refuseWhere_covers _ (fun e => e.journaledOf c) .aborted)).trans (.of_hold (by simp))
    unfold State.abortContext
    dsimp only
    split <;> first | exact .refl u | exact h
  | popEvent =>
    refine .of_hold ?_
    show (State.popCommand u).1.hold = u.hold
    unfold State.popCommand; split <;> rfl
  | clearOverrun => exact .of_hold rfl
  | softReset =>
    refine uw _ (.of_hold ?_)
    show (u.abandonUpstream).hold = u.hold
    unfold State.abandonUpstream
    have : ∀ (l : List TagEntry) (v : State), (l.foldl (fun s e => s.sendResponse e.tag .error) v).hold = v.hold := by
      intro l
      induction l with
      | nil => intro v; rfl
      | cons x r ih => intro v; rw [List.foldl_cons, ih]; rfl
    exact this _ _

/-- No frame of the management link, run or refused, covers an item. -/
theorem frameRun_covers (b : List Byte) (u : State) : u.CoversNoMore (frameRun b u).1 := by
  unfold frameRun
  cases frameCommand b with
  | some c => exact runCommand_covers _ _
  | none => exact .refl u

/-- A frame row covers no item where running its frame does not. -/
theorem State.frame_covers (s : State) (b run) (hr : s.CoversNoMore (run s).1) : s.CoversNoMore (s.frame b run) := by
  unfold State.frame
  split
  · exact .of_hold rfl
  · dsimp only
    split
    · exact (frameRun_covers (s.mgmt.assembly ++ b) s).trans (.of_hold rfl)
    · exact hr.trans (.of_hold rfl)

end Sys2Proof.Machine
end

