-- ==== Sys2Proof/Laws/Faults.lean ====
section
/-! SUPPORT. What a fault does to everything but the records of its context, in the words of the statements (R15, R74,
R75). -/

namespace Sys2Proof.Machine

/-- The refusals of a fault, their settling, and what else of the state is as it was (R15, R75). -/
theorem State.applyFault_spec (s : State) (c : Ctx) (cause : FaultCause) (a : Addr) :
    (s.applyFault c cause a).filter = s.filterWithout (s.unreleasedOf c) ∧
    (s.applyFault c cause a).kept = s.kept ++ keptReads (s.unreleasedOf c) ∧
    (s.applyFault c cause a).downstream = { s.downstream with captureList := s.readsWithout (s.unreleasedOf c) } ∧
    (s.applyFault c cause a).upstream = { s.upstream with tags := s.tagsWithout (s.unreleasedOf c) } ∧
    (s.applyFault c cause a).log.requests = s.requestsLeft c ∧
    (s.applyFault c cause a).log.inFlight = s.log.inFlight ∧ (s.applyFault c cause a).log.head = s.log.head ∧
    (s.applyFault c cause a).log.tail = s.log.tail ∧
    (s.applyFault c cause a).hold = s.hold.filter (fun e => e.released || !(e.journaled && e.ctx == some c)) := by
  have hu : (s.hold.filter fun e => !e.released && e.journaledOf c) = s.unreleasedOf c := rfl
  have ht : tagged (s.unreleasedOf c) = s.unreleasedOf c := tagged_of_ctx fun e he => State.unreleasedOf_ctx he
  unfold State.applyFault
  simp only [State.refuseWhere_eq]
  split <;>
    simp only [State.lookSpace_frame, State.lookSpace_parts, State.noteDue_frame, State.failCommit,
      State.setProgress_frame, State.raise_frame, State.setContext_frame, hu, ht, State.filterWithout, State.readsWithout,
      State.requestsWithout, State.requestsLeft, State.tagsWithout] <;>
    (refine ⟨?_, ?_, ?_, ?_, ?_, ?_, ?_, ?_, ?_⟩ <;> trivial)

/-- What lets a procedure go on, but for an abort in COVERING, rests on its progress record, the journaled entries, the reads
outstanding, and the log writer's pointers and appends (R83, R86, R88). -/
theorem State.engineReady_congr_of_notCovering {s t : State} {d : Ctx} (hg : t.engine.get d = s.engine.get d)
    (hj : t.journaledCount d = s.journaledCount d) (ho : t.downstream.outstanding = s.downstream.outstanding)
    (hi : t.log.inFlight = s.log.inFlight) (hh : t.log.head = s.log.head) (ht : t.log.tail = s.log.tail)
    (he : (s.engine.get d).procedure = .none ∨ (s.engine.get d).phase ≠ .covering) :
    t.engineReady d = s.engineReady d := by
  have hc : t.captureReads d = s.captureReads d := by simp only [State.captureReads, ho]
  have hu : t.appendsUnanswered d = s.appendsUnanswered d := by simp only [State.appendsUnanswered, hi]
  have hf : t.log.frontier = s.log.frontier := by
    rw [LogWriter.frontier, hi, hh, ht]
    rfl
  have hw : ∀ q, t.log.covers q = s.log.covers q := fun q => by simp only [LogWriter.covers, hf, ht]
  have hm : t.markerCovered d = s.markerCovered d := by simp only [State.markerCovered, hg, hw]
  unfold State.engineReady
  simp only [hg, hj, State.abortSettled, hc, hu, hm]
  rcases he with he | he
  · rw [he]
  · cases (s.engine.get d).procedure <;> cases hp : (s.engine.get d).phase <;> first | rfl | exact absurd hp he

/-- What lets a procedure of another context go on is as it was, unless it is an abort in COVERING. -/
theorem State.applyFault_engineReady (s : State) {c d : Ctx} (cause : FaultCause) (a : Addr) (h : d ≠ c)
    (he : (s.engine.get d).procedure = .none ∨ (s.engine.get d).phase ≠ .covering) :
    (s.applyFault c cause a).engineReady d = s.engineReady d := by
  obtain ⟨h1, h2, h3, h4, h5, h6, h7, h8, h9⟩ := s.applyFault_spec c cause a
  refine State.engineReady_congr_of_notCovering ?_ ?_ (by rw [h3]) h6 h7 h8 he
  · unfold State.applyFault
    dsimp only
    split <;> simp [State.failCommit, h]
  · simp only [State.journaledCount, h9, List.filter_filter]
    congr 1
    refine List.filter_congr fun e _ => ?_
    by_cases hd : e.ctx = some d
    · have : (e.ctx == some c) = false := by simp [hd, h]
      simp [this]
    · simp [hd]

end Sys2Proof.Machine
end

