-- ==== Sys2Proof/Laws/Formats.lean ====
section
/-! SUPPORT. The packings of items read back: region entries, requester orders; and the bytes of a field. -/

namespace Sys2Proof.Machine

/-! ## Requester orders (R187) -/

theorem requesterOfCode_code (r : Requester) : requesterOfCode r.code = some r := by
  cases r <;> rfl

theorem requesterOfCode_eq_some {n : Nat} {r : Requester} (h : requesterOfCode n = some r) : n = r.code := by
  unfold requesterOfCode at h
  (repeat' split at h) <;> simp_all <;> subst h <;> rfl

theorem Requester.code_lt (r : Requester) : r.code < 16 := by
  cases r <;> decide

/-- The value of six requesters, field by field. -/
theorem orderValue_toNat (a b c d e f : Requester) : (orderValue [a, b, c, d, e, f]).toNat =
    a.code + 16 * (b.code + 16 * (c.code + 16 * (d.code + 16 * (e.code + 16 * f.code)))) := by
  have ha := a.code_lt
  have hb := b.code_lt
  have hc := c.code_lt
  have hd := d.code_lt
  have he := e.code_lt
  have hf := f.code_lt
  simp only [orderValue, List.foldr, BitVec.toNat_ofNat]
  omega

/-- An order of the six requesters survives its packing. -/
theorem orderOfValue_orderValue {order : List Requester}
    (h : order.Perm [.anchor, .append, .capture, .forward, .restore, .scan]) :
    orderOfValue (orderValue order) = some order := by
  have hl := h.length_eq
  have hn : order.Nodup := h.nodup_iff.mpr (by decide)
  match order, hl with
  | [a, b, c, d, e, f], _ =>
    have ha := a.code_lt
    have hb := b.code_lt
    have hc := c.code_lt
    have hd := d.code_lt
    have he := e.code_lt
    have hf := f.code_lt
    have hv := orderValue_toNat a b c d e f
    have fields : [0, 1, 2, 3, 4, 5].map (fun i =>
        requesterOfCode ((orderValue [a, b, c, d, e, f]).toNat >>> (4 * i) % 16)) =
        [some a, some b, some c, some d, some e, some f] := by
      simp only [List.map_cons, List.map_nil, hv, Nat.shiftRight_eq_div_pow]
      refine List.cons_eq_cons.mpr ⟨?_, List.cons_eq_cons.mpr ⟨?_, List.cons_eq_cons.mpr ⟨?_,
        List.cons_eq_cons.mpr ⟨?_, List.cons_eq_cons.mpr ⟨?_, List.cons_eq_cons.mpr ⟨?_, rfl⟩⟩⟩⟩⟩⟩ <;>
        rw [← requesterOfCode_code] <;> congr 1 <;> omega
    have hlt : (orderValue [a, b, c, d, e, f]).toNat < 2 ^ 24 := by
      rw [hv]
      omega
    unfold orderOfValue
    simp only [fields]
    exact if_pos ⟨hlt, rfl, hn⟩

/-- What a value packs, if it packs an order, is an order of the six requesters, and its own. -/
theorem orderOfValue_eq_some {v : BitVec 64} {order : List Requester} (h : orderOfValue v = some order) :
    order.Perm [.anchor, .append, .capture, .forward, .restore, .scan] ∧ v = orderValue order := by
  unfold orderOfValue at h
  simp only at h
  split at h
  · next hc =>
    obtain ⟨hlt, hall, hnd⟩ := hc
    simp only [List.map_cons, List.map_nil, List.all_cons, List.all_nil, Bool.and_true, Bool.and_eq_true,
      Option.isSome_iff_exists, Nat.shiftRight_eq_div_pow] at hall
    obtain ⟨⟨a, ha⟩, ⟨b, hb⟩, ⟨c, hc⟩, ⟨d, hd⟩, ⟨e, he⟩, ⟨f, hf⟩⟩ := hall
    have ho : order = [a, b, c, d, e, f] := by
      rw [← Option.some.inj h]
      simp only [List.map_cons, List.map_nil, Nat.shiftRight_eq_div_pow, ha, hb, hc, hd, he, hf]
      rfl
    have hna : order.Nodup := by
      rw [← Option.some.inj h]
      exact hnd
    refine ⟨?_, ?_⟩
    · refine (List.subperm_of_subset hna fun x _ => ?_).perm_of_length_le (by simp [ho])
      cases x <;> decide
    · have ha := requesterOfCode_eq_some ha
      have hb := requesterOfCode_eq_some hb
      have hc := requesterOfCode_eq_some hc
      have hd := requesterOfCode_eq_some hd
      have he := requesterOfCode_eq_some he
      have hf := requesterOfCode_eq_some hf
      apply BitVec.eq_of_toNat_eq
      rw [ho, orderValue_toNat]
      omega
  · exact absurd h (by simp)

/-! ## Region entries (R187) -/

theorem RegionKind.code_lt (k : RegionKind) : k.code < 3 := by
  cases k <;> decide

theorem ClosedAction.code_lt (c : ClosedAction) : c.code < 2 := by
  cases c <;> decide

theorem RegionEntry.value_toNat (e : RegionEntry) : e.value.toNat = e.base.toNat + e.limit.toNat * 2 ^ 28 +
    e.kind.code * 2 ^ 56 + e.mask.toNat * 2 ^ 58 + e.closed.code * 2 ^ 62 + e.valid.toNat * 2 ^ 63 := by
  have hb := e.base.isLt
  have hl := e.limit.isLt
  have hm := e.mask.isLt
  have hk := e.kind.code_lt
  have hc := e.closed.code_lt
  have hv : e.valid.toNat < 2 := Bool.toNat_lt _
  have hi : (if e.valid then 1 else 0) = e.valid.toNat := by cases e.valid <;> rfl
  rw [RegionEntry.value, BitVec.toNat_ofNat, hi]
  omega

/-- The fields of a region entry's value, at their places (R187). -/
theorem RegionEntry.value_fields (e : RegionEntry) :
    e.value.extractLsb' 0 28 = e.base ∧ e.value.extractLsb' 28 28 = e.limit ∧
    e.value.extractLsb' 56 2 = BitVec.ofNat 2 e.kind.code ∧ e.value.extractLsb' 58 4 = e.mask ∧
    e.value.getLsbD 62 = decide (e.closed.code = 1) ∧ e.value.getLsbD 63 = decide (e.valid.toNat = 1) := by
  have hb := e.base.isLt
  have hl := e.limit.isLt
  have hm := e.mask.isLt
  have hk := e.kind.code_lt
  have hc := e.closed.code_lt
  have hv : e.valid.toNat < 2 := Bool.toNat_lt _
  have hn := e.value_toNat
  have bit (i : Nat) : e.value.getLsbD i = decide (e.value.toNat / 2 ^ i % 2 = 1) := by
    rw [BitVec.getLsbD, Nat.testBit_eq_decide_div_mod_eq]
  have field (i n : Nat) : (e.value.extractLsb' i n).toNat = e.value.toNat / 2 ^ i % 2 ^ n := by
    rw [BitVec.extractLsb'_toNat, Nat.shiftRight_eq_div_pow]
  have fbase : e.value.extractLsb' 0 28 = e.base := by
    apply BitVec.eq_of_toNat_eq
    rw [field, hn]
    omega
  have flimit : e.value.extractLsb' 28 28 = e.limit := by
    apply BitVec.eq_of_toNat_eq
    rw [field, hn]
    omega
  have fmask : e.value.extractLsb' 58 4 = e.mask := by
    apply BitVec.eq_of_toNat_eq
    rw [field, hn]
    omega
  have fkind : e.value.extractLsb' 56 2 = BitVec.ofNat 2 e.kind.code := by
    apply BitVec.eq_of_toNat_eq
    rw [field, hn, BitVec.toNat_ofNat]
    omega
  have fvalid : e.value.getLsbD 63 = decide (e.valid.toNat = 1) := by
    rw [bit, hn]
    congr 1
    apply propext
    omega
  have fclosed : e.value.getLsbD 62 = decide (e.closed.code = 1) := by
    rw [bit, hn]
    congr 1
    apply propext
    omega
  exact ⟨fbase, flimit, fkind, fmask, fclosed, fvalid⟩

/-- A region entry survives its packing. -/
theorem regionOfValue_value (e : RegionEntry) : regionOfValue e.value = some e := by
  obtain ⟨fbase, flimit, fkind, fmask, fclosed, fvalid⟩ := e.value_fields
  simp only [regionOfValue, fbase, flimit, fmask, fvalid, fclosed, fkind]
  obtain ⟨valid, kind, base, limit, mask, closed⟩ := e
  cases kind <;> cases closed <;> cases valid <;> rfl

end Sys2Proof.Machine
end

