-- ==== Sys2Proof/Laws/HoldStates.lean ====
section
/-! SUPPORT. The hold queue's conditions in the words of the statements: WAITING, READY, and when a capture read may be
handed (R60, R61, R66, R70). -/

namespace Sys2Proof.Machine

theorem State.waits_iff (s : State) (before : List HoldEntry) (e : HoldEntry) :
    s.holdState before e = .waiting ↔ s.waits before e := by
  have hb : blocked before e = true ↔ ∃ x ∈ before, x.released = false ∧ ∃ l ∈ x.lines, l ∈ e.lines := by
    simp [blocked, shareLine]
  have ho : s.ownedByAborting e.lines = true ↔
      ∃ l ∈ e.lines, ∃ f, s.filterEntry l = some f ∧ (s.contexts.get f.owner).state = .aborting := by
    simp only [State.ownedByAborting, List.any_eq_true]
    refine exists_congr fun l => and_congr_right fun _ => ?_
    cases s.filterEntry l <;> simp
  unfold State.holdState State.waits
  rw [← hb, ← ho]
  cases e.released
  · simp only [Bool.false_eq_true, if_false, true_and]
    by_cases h : (blocked before e || (!e.request.isWrite && s.ownedByAborting e.lines)) = true
    · rw [if_pos h]
      simp at h
      simp [h]
    · rw [if_neg h]
      simp only [Bool.or_eq_true, Bool.and_eq_true, Bool.not_eq_true'] at h
      simp only [h, iff_false]
      repeat' split
      all_goals simp
  · simp

theorem State.isReady_iff (s : State) (before : List HoldEntry) (e : HoldEntry) :
    s.holdState before e = .ready ↔ s.isReady before e := by
  rw [State.isReady, ← State.waits_iff]
  have hc : 0 < e.outstanding ↔ ¬ ∀ i ∈ e.items, ∃ q, i.stage = .covered q := by
    rw [Nat.pos_iff_ne_zero, HoldEntry.outstanding, ne_eq, List.length_eq_zero_iff, List.filter_eq_nil_iff]
    refine not_congr (forall₂_congr fun i _ => ?_)
    cases i.stage <;> simp
  have hp : ∀ p : Stage → Bool, (∀ q, p (.covered q) = false) → e.items.any (fun i => p i.stage) = true →
      ¬ ∀ i ∈ e.items, ∃ q, i.stage = .covered q := by
    intro p h ha hall
    obtain ⟨i, hi, hs⟩ := List.any_eq_true.1 ha
    obtain ⟨q, hq⟩ := hall i hi
    rw [hq, h] at hs
    cases hs
  unfold State.holdState
  cases e.released
  · simp only [Bool.false_eq_true, if_false, true_and]
    split
    · simp
    · split
      · next h => simpa using hp (fun x => match x with | .pending _ => true | .reading => true | _ => false) (fun _ => rfl) h
      · split
        · next h =>
          rw [Bool.and_eq_true] at h
          simpa using hp (fun x => match x with | .built _ => true | _ => false) (fun _ => rfl) h.2
        · split
          · next h => simpa using hc.1 h
          · next h => simpa using not_not.1 (fun hn => h (hc.2 hn))
  · simp

theorem mem_withEarlier {before l : List HoldEntry} {x : List HoldEntry × HoldEntry} :
    x ∈ withEarlier before l ↔ ∃ early late, l = early ++ x.2 :: late ∧ x.1 = before ++ early := by
  induction l generalizing before with
  | nil => simp [withEarlier]
  | cons e rest ih =>
    rw [withEarlier, List.mem_cons, ih]
    constructor
    · rintro (rfl | ⟨early, late, h1, h2⟩)
      · exact ⟨[], rest, rfl, by simp⟩
      · exact ⟨e :: early, late, by simp [h1], by simp [h2]⟩
    · rintro ⟨early, late, h1, h2⟩
      cases early with
      | nil =>
        simp at h1 h2
        exact .inl (Prod.ext h2 h1.1.symm)
      | cons y early =>
        simp at h1
        exact .inr ⟨early, late, h1.2, by simp [h2, h1.1]⟩

/-- The items offered are exactly those whose reads may be handed (R66). -/
theorem State.handable_iff (s : State) (ref : CaptureRef) : ref ∈ s.handable ↔ s.mayRead ref := by
  simp only [State.handable, List.mem_flatMap, State.mayRead, State.mayHand, ← State.waits_iff]
  constructor
  · rintro ⟨⟨before, e⟩, hx, hr⟩
    obtain ⟨early, late, hl, hb⟩ := mem_withEarlier.1 hx
    simp only [List.nil_append] at hb
    subst hb
    dsimp only at hr
    split at hr
    · cases hr
    next hw =>
    split at hr
    · cases hr
    next c hc =>
    obtain ⟨i, hi, hs⟩ := List.mem_filterMap.1 hr
    split at hs
    next h =>
      obtain rfl := Option.some.inj hs
      exact ⟨_, e, late, i, hl, hc, rfl, hi, h.1, hw, fun x hx hm => h.2 (List.any_eq_true.2 ⟨x, hx, by simpa using hm⟩)⟩
    · cases hs
  · rintro ⟨before, e, after, i, hl, hc, hline, hi, hst, hw, hcov⟩
    refine ⟨(before, e), mem_withEarlier.2 ⟨before, after, hl, rfl⟩, ?_⟩
    dsimp only
    rw [if_neg hw, hc]
    refine List.mem_filterMap.2 ⟨i, hi, ?_⟩
    rw [if_pos ⟨hst, by simpa using hcov⟩, hline]

theorem withEarlier_append (b l m : List HoldEntry) :
    withEarlier b (l ++ m) = withEarlier b l ++ withEarlier (b ++ l) m := by
  induction l generalizing b with
  | nil => simp [withEarlier]
  | cons e rest ih => simp [withEarlier, ih]

/-- The first item in arrival and line order whose read may be handed is the first offered (R66). -/
theorem State.handable_head (s : State) {before after : List HoldEntry} {e : HoldEntry} {c : Ctx}
    {earlier later : List CaptureItem} {i : CaptureItem} (hl : s.hold = before ++ e :: after) (hc : e.ctx = some c)
    (hi : e.items = earlier ++ i :: later) (hm : s.mayHand before e i) (he : ∀ j ∈ earlier, ¬ s.mayHand before e j)
    (hb : ∀ b x a j, before = b ++ x :: a → x.ctx ≠ none → ¬ s.mayHand b x j) :
    ∃ rest, s.handable = ⟨c, i.line⟩ :: rest := by
  obtain ⟨_, hst, hw, hcov⟩ := hm
  have hw' : s.holdState before e ≠ .waiting := fun h => hw ((s.waits_iff _ _).1 h)
  have free (j : CaptureItem) : (j.stage = .pending false ∧ ¬ before.any (fun x => x.lines.contains j.line)) ↔
      (j.stage = .pending false ∧ ∀ x ∈ before, j.line ∉ x.lines) := by simp
  have lead {l m : List CaptureRef} {x : CaptureRef} (hl : l = []) (hm : ∃ rest, m = x :: rest) :
      ∃ rest, l ++ m = x :: rest := by
    rw [hl]
    exact hm
  rw [State.handable, hl, withEarlier_append, List.flatMap_append]
  refine lead (List.flatMap_eq_nil_iff.2 fun y hy => ?_) ?_
  · obtain ⟨early, late, h, hb'⟩ := mem_withEarlier.1 hy
    rw [List.nil_append] at hb'
    obtain ⟨_, x⟩ := y
    dsimp only at h hb' ⊢
    subst hb'
    split
    · rfl
    next hn =>
    split
    · rfl
    next d hd =>
    refine List.filterMap_eq_nil_iff.2 fun j hj => if_neg fun hf => ?_
    exact hb _ x late j h (by simp [hd]) ⟨hj, hf.1, fun h => hn ((s.waits_iff _ _).2 h), by simpa using hf.2⟩
  · rw [withEarlier, List.flatMap_cons]
    simp only [List.nil_append]
    rw [if_neg hw', hc]
    dsimp only
    rw [hi, List.filterMap_append, List.append_assoc]
    refine lead (List.filterMap_eq_nil_iff.2 fun j hj => if_neg fun h => ?_) ?_
    · exact he j hj ⟨by simp [hi, hj], h.1, hw, ((free j).1 h).2⟩
    · rw [List.filterMap_cons, if_pos ((free i).2 ⟨hst, hcov⟩), List.cons_append]
      exact ⟨_, rfl⟩

end Sys2Proof.Machine
end

