-- ==== Sys2Proof/Laws/Layouts.lean ====
section
/-! SUPPORT. The reply bytes of the model are those of the tables of R175, R186 and R187, in the words of the statements. -/

namespace Sys2Proof.Machine

theorem mostFirst_eq (n v : Nat) : mostFirst n v = bytesMsbFirst n v := by
  refine List.ext_getElem (by simp [mostFirst]) fun i h1 h2 => ?_
  simp only [mostFirst, List.length_map, List.length_range] at h1
  simp [mostFirst, bytesMsbFirst, Nat.shiftRight_eq_div_pow, pow_mul, Nat.sub_sub, Nat.add_comm 1]

theorem bytesMsbFirst_one (v : Nat) : bytesMsbFirst 1 v = [BitVec.ofNat 8 v] := rfl

theorem flagByte_eq (a b c d : Bool) : flagByte a b c d = BitVec.ofNat 8 (bit a 0 + bit b 1 + bit c 2 + bit d 3) := by
  revert a b c d
  decide

theorem contextSetSize_eq (q : Quad Bool) : contextSetSize q = (allContexts.filter fun c => q.get c).length := by
  obtain ⟨a, b, c, d⟩ := q
  revert a b c d
  decide

/-- The status record's bytes are those of R186's table. -/
theorem StatusRecord.layout_eq (r : StatusRecord) : r.bytes = r.layout := by
  have hj : BitVec.ofNat 8 r.journal.code = r.journal.replyByte := by cases r.journal <;> rfl
  have hi : BitVec.ofNat 8 r.intake.code = r.intake.replyByte := by cases r.intake <;> rfl
  simp only [StatusRecord.bytes, StatusRecord.layout, bytesMsbFirst_one, mostFirst_eq, hj, hi, flagByte_eq,
    ← contextSetSize_eq, contextSetBits, BitVec.ofNat_add, Nat.mul_comm 16, List.cons_append, List.nil_append,
    List.append_assoc]
  rcases r.report.result with _ | x
  · rfl
  · cases x <;> rfl

/-- The bytes of CTX_INFO are those of R187's table. -/
theorem ContextRecord.layout_eq (r : ContextRecord) (entries : Nat) : r.bytes entries = r.layout entries := by
  have hs : BitVec.ofNat 8 r.state.code = r.state.replyByte := by cases r.state <;> rfl
  simp only [ContextRecord.bytes, ContextRecord.layout, bytesMsbFirst_one, mostFirst_eq, hs, flagByte_eq, BitVec.ofNat_add,
    bit, Bool.false_eq_true, if_false, BitVec.add_zero, List.cons_append, List.nil_append, List.append_assoc]
  rcases r.faultCause with _ | x
  · rfl
  · cases x <;> rfl

/-- The bytes of POP_EVENT are those of R186's table. -/
theorem Event.layout_eq (e : Event) (left : Nat) (overrun : Bool) : e.bytes left overrun = e.layout left overrun := by
  have hk : BitVec.ofNat 8 e.what.code = e.what.replyBytes.1 := by
    cases e.what with
    | requestRefused r => cases r <;> rfl
    | contextFaulted r => cases r <;> rfl
    | commitDone r => cases r <;> rfl
    | abortDone r => cases r <;> rfl
    | attachDone r => cases r <;> rfl
    | detachDone r => cases r <;> rfl
    | journalBroken r => cases r <;> rfl
    | drained r => cases r <;> rfl
    | _ => rfl
  have hd : BitVec.ofNat 8 e.what.detailCode = e.what.replyBytes.2 := by
    cases e.what with
    | requestRefused r => cases r <;> rfl
    | contextFaulted r => cases r <;> rfl
    | commitDone r => cases r <;> rfl
    | abortDone r => cases r <;> rfl
    | attachDone r => cases r <;> rfl
    | detachDone r => cases r <;> rfl
    | journalBroken r => cases r <;> rfl
    | drained r => cases r <;> rfl
    | _ => rfl
  have hn : e.count.getD 0 = (match e.count with | none => 0 | some n => n) := by cases e.count <;> rfl
  have ho : BitVec.ofNat 8 (bit overrun 0) = if overrun = true then 0x01 else 0x00 := by cases overrun <;> rfl
  simp only [Event.bytes, Event.layout, bytesMsbFirst_one, mostFirst_eq, hk, hd, hn, ho, flagByte_eq,
    List.cons_append, List.nil_append, List.append_assoc]
  cases e.context <;> rfl

/-- A region entry's value has the places of R187. -/
theorem RegionEntry.value_layout (e : RegionEntry) : e.value.extractLsb' 0 28 = e.base ∧
    e.value.extractLsb' 28 28 = e.limit ∧
    e.value.extractLsb' 56 2 = (match e.kind with | .pass => 0 | .guard => 1 | .journal => 2) ∧
    e.value.extractLsb' 58 4 = e.mask ∧ (e.value.getLsbD 62 = true ↔ e.closed = .refuse) ∧
    e.value.getLsbD 63 = e.valid := by
  obtain ⟨fbase, flimit, fkind, fmask, fclosed, fvalid⟩ := e.value_fields
  refine ⟨fbase, flimit, ?_, fmask, ?_, ?_⟩
  · rw [fkind]
    cases e.kind <;> rfl
  · rw [fclosed]
    cases e.closed <;> decide
  · rw [fvalid]
    cases e.valid <;> rfl

/-- The value of six requesters has the requester codes of R187, four bits each. -/
theorem orderValue_layout (a b c d e f : Requester) : (orderValue [a, b, c, d, e, f]).toNat =
    a.fieldCode + 16 * (b.fieldCode + 16 * (c.fieldCode + 16 * (d.fieldCode + 16 * (e.fieldCode + 16 * f.fieldCode)))) := by
  have hc : ∀ r : Requester, r.fieldCode = r.code := by
    intro r
    cases r <;> rfl
  simp only [orderValue_toNat, hc]

end Sys2Proof.Machine
end

