-- ==== Sys2Proof/Laws/Procedures.lean ====
section
/-! SUPPORT. Where a procedure goes when what it waits for has come about: past SETTLING, past COVERING, past an entry of its
replay list (R82 to R93). -/

namespace Sys2Proof.Machine

/-- Whether a procedure can go on is decided by its record, the journaled count, the log, the outstanding table and the filter. -/
theorem State.engineReady_congr {s t : State} {c : Ctx} (h1 : s.engine.get c = t.engine.get c)
    (h2 : s.journaledCount c = t.journaledCount c) (h3 : s.log = t.log)
    (h4 : s.downstream.outstanding = t.downstream.outstanding) (h5 : s.filter = t.filter) :
    s.engineReady c = t.engineReady c := by
  simp [State.engineReady, h1, h2, State.markerCovered, h3, State.abortSettled, State.captureReads, h4,
    State.appendsUnanswered, State.allLogged, h5]

/-- A replay list is empty exactly where the context owns no filter entry (R89). -/
theorem State.replayListOf_eq_nil_iff (s : State) (c : Ctx) : s.replayListOf c = [] ↔ ∀ f ∈ s.filter, f.owner ≠ c := by
  have h := (s.replayListOf_replays c).1
  constructor
  · intro hn f hf ho
    rw [hn] at h
    have := h.mem_iff.2 (show f ∈ s.filter.filter fun e => e.owner = c by simp [hf, ho])
    simp at this
  · intro hn
    have : s.filter.filter (fun e => e.owner = c) = [] := by
      simp only [List.filter_eq_nil_iff]
      intro f hf
      simp [hn f hf]
    rw [this] at h
    exact h.eq_nil

theorem State.allLogged_iff (s : State) (c : Ctx) :
    s.allLogged c = true ↔ ∀ f ∈ s.filter, f.owner = c → f.state = .logged := by
  simp only [State.allLogged, List.all_eq_true]
  refine forall₂_congr fun f _ => ?_
  by_cases h : f.owner = c <;> simp [h]

/-- COVERING ends, its entries all LOGGED: the move of an abort (R89, R90, R93). -/
theorem State.moveEngine_leavesCovering (s : State) (c : Ctx) (hp : (s.engine.get c).procedure = .abort)
    (hph : (s.engine.get c).phase = .covering) (hr : (s.engine.get c).replayStep = none)
    (hm : (s.engine.get c).markerSeq = none)
    (hl : ∀ f ∈ s.filter, f.owner = c → f.state = .logged ∧ f.seq ≠ none) : s.leavesCovering c (s.moveEngine c) := by
  have hal : s.allLogged c = true := (s.allLogged_iff c).2 fun f hf ho => (hl f hf ho).1
  have m1 : s.moveEngine c = ((s.endCovering c).moveReplaying c).moveMarking c := by
    simp [State.moveEngine, hp, State.moveSettling, State.moveCovering, hph, hal]
  rw [m1]
  refine ⟨fun ⟨f, hf, ho⟩ => ?_, fun hn => ?_⟩
  · have hrep := s.replayListOf_replays c
    cases hlist : s.replayListOf c with
    | nil => exact absurd ho ((s.replayListOf_eq_nil_iff c).1 hlist f hf)
    | cons e rest =>
      rw [hlist] at hrep
      have hmem : e ∈ s.filter.filter fun e => e.owner = c := hrep.1.mem_iff.1 List.mem_cons_self
      simp only [List.mem_filter, decide_eq_true_eq] at hmem
      obtain ⟨x, hx⟩ := Option.ne_none_iff_exists'.1 (hl e hmem.1 hmem.2).2
      refine ⟨e, rest, x, hrep, hx, ?_⟩
      have : (s.endCovering c).moveReplaying c = (s.endCovering c).handRestore c (s.restoreRead x) .read := by
        simp [State.endCovering, State.moveReplaying, hp, hr, State.nextReplay, hlist, hx, State.restoreRead]
      rw [this]
      simp [State.moveMarking, State.handRestore, State.endCovering, hlist, State.setProgress, State.restoreRead,
        readRequest, slotAddress, plainRead, State.readsRecord]
  · have hlist := (s.replayListOf_eq_nil_iff c).2 hn
    have : (s.endCovering c).moveReplaying c = (s.endCovering c).askMarker .aborted c := by
      simp [State.endCovering, State.moveReplaying, hp, hr, State.nextReplay, hlist]
    rw [this]
    simp [State.moveMarking, State.markerCovered, hm, State.askMarker, State.endCovering, hlist, State.setProgress,
      State.marks]

/-- SETTLING ends: the move of a procedure that is alone and waits for nothing more (R82, R83, R88). -/
theorem State.moveEngine_leavesSettling (s : State) (c : Ctx) (h : s.settlesAlone c) (hj : s.journaledCount c = 0)
    (ha : (s.engine.get c).procedure = .abort → s.captureReads c = 0 ∧ s.appendsUnanswered c = 0) :
    s.leavesSettling c (s.moveEngine c) := by
  obtain ⟨_, hph, hr, hm, hi⟩ := h
  refine ⟨fun hp => ⟨fun h0 => ?_, fun h0 => ?_⟩, fun hp => ?_⟩
  · simp [State.moveEngine, hp, State.moveCommit, hph, hj, h0, State.completeCommit, State.removeOwned,
      State.setContext, State.setProgress, State.raise, ContextRecord.toIdle, commitEvent, State.commitCompleted]
  · simp [State.moveEngine, hp, State.moveCommit, hph, hj, h0, State.askMarker, State.setProgress, State.marks, hi]
  have hs : s.abortSettled c = true := by simp [State.abortSettled, hj, ha hp]
  refine ⟨fun h0 => ?_, fun h0 => ?_⟩
  · have : s.moveSettling c = (s.settleFilter c).completeAbort c := by
      simp [State.moveSettling, hp, hph, hs, State.endSettling, h0]
    have e : ∀ u : State, (u.engine.get c).procedure = .none →
        ((u.moveCovering c).moveReplaying c).moveMarking c = u := by
      intro u hu
      simp [State.moveCovering, State.moveReplaying, State.moveMarking, hu]
    simp only [State.moveEngine, hp, this]
    rw [e _ (by simp [State.completeAbort, State.setProgress, Progress.reset])]
    simp only [State.completeAbort, State.settleFilter, State.removeOwned, State.setContext, State.setProgress,
      State.raise, ContextRecord.toIdle, abortEvent, State.abortCompleted, List.filter_filter]
    congr 2
    funext f
    by_cases hf : f.owner = c <;> simp [hf]
  · obtain ⟨u, hu⟩ : ∃ u, u = (s.filterSettled c).setProgress c { s.engine.get c with phase := .covering } := ⟨_, rfl⟩
    have h1 : s.moveSettling c = u := by
      rw [hu]
      simp [State.moveSettling, hp, hph, hs, State.endSettling, h0]
      rfl
    have h2 : s.moveEngine c = u.moveEngine c := by
      have : u.moveSettling c = u := by simp [State.moveSettling, hu]
      have hup : (u.engine.get c).procedure = .abort := by simp [hu, hp]
      simp only [State.moveEngine, hp, hup, this, h1]
    have hf : u.filter = (s.filterSettled c).filter := by rw [hu]; rfl
    refine ⟨fun ⟨f, hfm, ho, hst⟩ => ?_, fun hl => ?_⟩
    · have : u.allLogged c = false := by
        rw [← Bool.not_eq_true, State.allLogged_iff, hf]
        intro hall
        exact absurd (hall f hfm ho) (by simp [hst])
      have hue : u.engine.get c = { s.engine.get c with phase := .covering } := by simp [hu]
      have hstay : u.moveEngine c = u := by
        simp [State.moveEngine, State.moveSettling, State.moveCovering, State.moveReplaying, State.moveMarking, hue, hp, this]
      rw [h2, hstay, hu]
      rfl
    · rw [h2]
      have hseq : ∀ f ∈ u.filter, f.owner = c → f.state = .logged ∧ f.seq ≠ none := by
        intro f hfm ho
        rw [hf] at hfm
        refine ⟨hl f hfm ho, ?_⟩
        simp only [State.filterSettled, List.mem_filter] at hfm
        simpa [ho] using hfm.2
      have := u.moveEngine_leavesCovering c (by simp [hu, hp]) (by simp [hu]) (by simp [hu, hr]) (by simp [hu, hm]) hseq
      subst hu
      refine ⟨fun hx => ?_, fun hx => ?_⟩
      · obtain ⟨e, rest, q, k1, k2, k3⟩ := this.1 hx
        exact ⟨e, rest, q, k1, k2, by rw [k3]; simp [State.readsRecord, State.setProgress, State.filterSettled]⟩
      · rw [this.2 hx]
        simp [State.marks, State.setProgress, State.filterSettled]

/-- What the engines do where one procedure is alone, in SETTLING, and waits for nothing more (R82, R83, R88). -/
theorem State.runEngines_leavesSettling (s : State) (c : Ctx) (h : s.settlesAlone c) (hj : s.journaledCount c = 0)
    (hp : (s.engine.get c).procedure = .commit ∨
      ((s.engine.get c).procedure = .abort ∧ s.captureReads c = 0 ∧ s.appendsUnanswered c = 0)) :
    s.leavesSettling c s.runEngines := by
  have hr : s.engineReady c = true := by
    rcases hp with hp | hp
    · simp [State.engineReady, hp, h.2.1, hj]
    · simp [State.engineReady, hp.1, h.2.1, State.abortSettled, hj, hp.2]
  rw [s.runEngines_of_one c fun d hd => State.engineReady_of_none _ _ (h.1 d hd), if_pos hr]
  refine s.moveEngine_leavesSettling c h hj fun ha => ?_
  rcases hp with hp | hp
  · rw [hp] at ha; cases ha
  · exact hp.2

/-- The front entry of a replay list has been finished, restored or not, and no other procedure can go on: the next one's slot
is read, or the ABORTED marker asked for (R90 to R93). -/
theorem State.runEngines_finishesEntry (s : State) (c : Ctx) (e : FilterEntry) (rest : List FilterEntry) (done : Bool)
    (p : Progress)
    (hp : (s.engine.get c).procedure = .abort) (hph : (s.engine.get c).phase = .replaying)
    (hl : (s.engine.get c).replayList = e :: rest) (hm : (s.engine.get c).markerSeq = none) (ho : s.othersRest c)
    (hd : p = if done then { s.engine.get c with restored := (s.engine.get c).restored + 1 }
      else { s.engine.get c with incomplete := true }) :
    s.finishesEntry c p rest (s.setProgress c ((s.engine.get c).finishEntry done)).runEngines := by
  have hfe : (s.engine.get c).finishEntry done = { p with replayList := rest, replayStep := none } := by
    subst hd
    cases done <;> simp [Progress.finishEntry, hl]
  rw [hfe]
  obtain ⟨u, hu⟩ : ∃ u, u = s.setProgress c { p with replayList := rest, replayStep := none } := ⟨_, rfl⟩
  have hue : u.engine.get c = { p with replayList := rest, replayStep := none } := by simp [hu]
  have hpp : p.procedure = .abort ∧ p.phase = .replaying ∧ p.markerSeq = none := by
    subst hd
    cases done <;> exact ⟨hp, hph, hm⟩
  have hr : u.engineReady c = true := by simp [State.engineReady, hue, hpp]
  have hone : u.runEngines = u.moveEngine c := by
    rw [u.runEngines_of_one c fun d hdc => ?_, if_pos hr]
    rw [← ho d hdc]
    exact State.engineReady_congr (by simp [hu, hdc]) (by simp [hu, State.journaledCount]) (by simp [hu]) (by simp [hu])
      (by simp [hu])
  rw [← hu, hone]
  have hmv : u.moveEngine c = (u.nextReplay c).moveMarking c := by
    simp [State.moveEngine, hue, hpp, State.moveSettling, State.moveCovering, State.moveReplaying]
  rw [hmv]
  refine ⟨fun f more q hrest hq => ?_, fun hrest => ?_⟩
  · simp [State.nextReplay, hrest, hq, State.handRestore, State.moveMarking, State.setProgress, hpp,
      State.readsRecord, State.restoreRead, readRequest, slotAddress, plainRead, hu]
  · simp [State.nextReplay, hrest, State.askMarker, State.moveMarking, State.setProgress, State.markerCovered, hpp,
      State.marks, hu]

end Sys2Proof.Machine
end

