-- ==== Sys2Proof/Laws/Sequences.lean ====
section
/-! SUPPORT. Sequences by their distance from the anchored tail: the least of a list, and the durable frontier (R39, R50,
R106). -/

namespace Sys2Proof.Machine

/-- Two sequences at one distance are one sequence. -/
theorem distance_inj {tail a b : Seq} (h : distance tail a = distance tail b) : a = b := by
  have : a - tail = b - tail := BitVec.eq_of_toNat_eq h
  bv_omega

theorem leastFrom_append (tail : Seq) (l : List Seq) (q : Seq) :
    leastFrom tail (l ++ [q]) = some (match leastFrom tail l with
      | none => q
      | some b => if distance tail q < distance tail b then q else b) := by
  rw [leastFrom, List.foldl_append, ← leastFrom]
  cases leastFrom tail l with
  | none => rfl
  | some b =>
    by_cases h : distance tail q < distance tail b <;> simp only [List.foldl_cons, List.foldl_nil, h, if_true, if_false]

/-- The least of a list that is not empty is one of its members, and no member is nearer to the tail. -/
theorem leastFrom_spec (tail : Seq) (l : List Seq) (h : l ≠ []) :
    ∃ q, leastFrom tail l = some q ∧ q ∈ l ∧ ∀ x ∈ l, distance tail q ≤ distance tail x := by
  induction l using List.reverseRecOn with
  | nil => exact absurd rfl h
  | append_singleton l x ih =>
    rw [leastFrom_append]
    by_cases hl : l = []
    · subst hl
      exact ⟨x, rfl, by simp, by simp⟩
    · obtain ⟨q, h1, h2, h3⟩ := ih hl
      rw [h1]
      dsimp only
      split
      · next hlt =>
        refine ⟨x, rfl, by simp, fun y hy => ?_⟩
        rcases List.mem_append.1 hy with hy | hy
        · exact hlt.le.trans (h3 y hy)
        · rw [List.mem_singleton.1 hy]
      · next hlt =>
        refine ⟨q, rfl, by simp [h2], fun y hy => ?_⟩
        rcases List.mem_append.1 hy with hy | hy
        · exact h3 y hy
        · rw [List.mem_singleton.1 hy]
          exact Nat.le_of_not_lt hlt

/-- A member that no other is nearer than is the least. -/
theorem leastFrom_eq_some {tail : Seq} {l : List Seq} {q : Seq} (hq : q ∈ l)
    (h : ∀ x ∈ l, distance tail q ≤ distance tail x) : leastFrom tail l = some q := by
  obtain ⟨x, h1, h2, h3⟩ := leastFrom_spec tail l (List.ne_nil_of_mem hq)
  rw [h1, distance_inj (le_antisymm (h x h2) (h3 q hq))]

/-- What lies at or below the frontier is decided by the tail, the head and the appends in flight. -/
theorem LogWriter.covers_congr {w v : LogWriter} (q : Seq) (h1 : w.inFlight = v.inFlight) (h2 : w.head = v.head)
    (h3 : w.tail = v.tail) : w.covers q = v.covers q := by
  unfold LogWriter.covers LogWriter.frontier
  rw [h1, h2, h3]

/-- A sequence lies at or below the frontier when it is nearer to the tail than the lowest in flight, or than the head (R39). -/
theorem LogWriter.covers_iff (w : LogWriter) (q : Seq) : w.covers q = true ↔
    distance w.tail q < distance w.tail ((leastFrom w.tail (w.inFlight.map (·.seq))).getD w.head) := by
  have key : ∀ b : Seq, (b - 1 ≠ w.tail - 1 ∧ distance w.tail q ≤ distance w.tail (b - 1)) ↔
      distance w.tail q < distance w.tail b := by
    intro b
    unfold distance
    constructor
    · rintro ⟨h1, h2⟩
      have : b ≠ w.tail := fun h => h1 (by rw [h])
      bv_omega
    · intro h
      have : b ≠ w.tail := by rintro rfl; simp at h
      constructor
      · intro h1; exact this (by bv_omega)
      · bv_omega
  unfold LogWriter.covers LogWriter.frontier
  simp only [decide_eq_true_eq]
  cases leastFrom w.tail (w.inFlight.map (·.seq)) <;> exact key _

/-- A take covers nothing, the sequence taken least of all (R44, R47). -/
theorem LogWriter.covers_of_take {w v : LogWriter} {c : Ctx} {q : Seq} (h1 : v.tail = w.tail)
    (h2 : v.inFlight = w.inFlight ++ [{ seq := w.head, ctx := c, failed := false }]) (h : v.covers q = true) :
    w.covers q = true ∧ q ≠ w.head := by
  rw [LogWriter.covers_iff, h1, h2, List.map_append, List.map_singleton, leastFrom_append] at h
  rw [LogWriter.covers_iff]
  cases hl : leastFrom w.tail (w.inFlight.map (·.seq)) with
  | none =>
    simp only [hl, Option.getD_some, Option.getD_none] at h ⊢
    exact ⟨h, by rintro rfl; exact lt_irrefl _ h⟩
  | some b =>
    simp only [hl, Option.getD_some] at h ⊢
    split at h
    · next hlt => exact ⟨h.trans hlt, by rintro rfl; exact lt_irrefl _ h⟩
    · next hlt => exact ⟨h, by rintro rfl; exact hlt h⟩

/-- The greatest sequence below the head is the frontier while nothing is in flight (R39). -/
theorem LogWriter.frontier_of_idle (w : LogWriter) (h : w.inFlight = []) : w.frontier = w.head - 1 := by
  simp [LogWriter.frontier, h, leastFrom]

end Sys2Proof.Machine
end

