-- ==== Sys2Proof/Laws/Recovery.lean ====
section
/-! SUPPORT. The steps of an attach, in the words of the statements: the final anchor and its epochs, the end of the scan,
the end of a sequence, a failed attach (R104 to R109). -/

namespace Sys2Proof.Machine

/-- The next epoch of the final anchor is one that R107 allows. -/
theorem finalEpoch_carries (a : Epoch) (r : Recovery) : carriesEpoch a r (finalEpoch a r) := by
  have toInt_pos : ∀ d : Epoch, 0 < d.toInt ↔ 0 < d.toNat ∧ d.toNat < 2 ^ 23 := by
    intro d
    rw [BitVec.toInt_eq_toNat_cond]
    have := d.isLt
    split <;> omega
  unfold carriesEpoch finalEpoch
  cases r.latest with
  | none => rfl
  | some l =>
    dsimp only
    unfold greaterEpoch
    generalize l + 1 = b
    by_cases h1 : (b - a).toNat = 2 ^ 23
    · rw [if_neg (by omega), if_neg (by omega), if_pos h1]
      split
      · exact .inr rfl
      · exact .inl rfl
    · rw [if_neg h1]
      by_cases h2 : (b - a).toNat < 2 ^ 23
      · rw [if_pos h2]
        split
        · rfl
        · next h3 =>
          rw [toInt_pos] at h3
          have h0 : (b - a).toNat = 0 := by omega
          have : b - a = 0 := BitVec.eq_of_toNat_eq (by simpa using h0)
          bv_omega
      · rw [if_neg h2, if_pos (by omega), if_neg (by rw [toInt_pos]; omega)]

theorem AttachProgress.finalCopy_carries (p : AttachProgress) (a : AnchorCopy) (c : Ctx) :
    carriesEpoch (a.nextEpochs.get c) (p.recovery.get c) ((p.finalCopy a).nextEpochs.get c) := by
  fin_cases c <;> exact finalEpoch_carries _ _

theorem Recovery.unfinished_iff (p : AttachProgress) (c : Ctx) :
    (p.recovery.get c).unfinished = true ↔ p.leavesOpen c := by
  simp [Recovery.unfinished, AttachProgress.leavesOpen, Option.isSome_iff_ne_none]

theorem State.setAttach_self (s : State) : s.setAttach s.attach.progress = s := rfl

theorem State.setAttach_readSlot (s : State) (p : AttachProgress) (step : AttachStep) :
    (s.setAttach p).readSlot step = s.readsSlot p step := rfl

/-- An attach fails as R108 and R109 say, while PFAIL_N is deasserted. -/
theorem State.failAttach_fails (s : State) (result : AttachResult) (sequence : Option Seq)
    (hp : s.pins.pfail = false) : s.failsAttach result sequence (s.failAttach result sequence) := by
  unfold State.failsAttach State.failAttach State.endAttach
  dsimp only
  rw [State.drainIfWarned_of_pfail _ (by simp [hp])]
  rfl

theorem State.startFinal_begins (s : State) (p : AttachProgress) (a : AnchorCopy) (h : p.current = some a) :
    s.beginsFinal p a (s.setAttach p).startFinal := by
  refine ⟨(p.finalCopy a).nextEpochs, fun c => p.finalCopy_carries a c, ?_⟩
  simp only [State.startFinal, State.setAttach, h]
  rfl

theorem State.stopScan_ends (s : State) (p : AttachProgress) (a : AnchorCopy) (h : p.current = some a) :
    s.endsScan p a (s.setAttach p).stopScan := by
  have hany : (allContexts.any fun c => (p.recovery.get c).unfinished) = true ↔ ∃ c, p.leavesOpen c := by
    rw [List.any_eq_true]
    constructor
    · rintro ⟨c, _, hc⟩
      exact ⟨c, (Recovery.unfinished_iff p c).1 hc⟩
    · rintro ⟨c, hc⟩
      exact ⟨c, by fin_cases c <;> decide, (Recovery.unfinished_iff p c).2 hc⟩
  unfold State.stopScan
  dsimp only [State.setAttach]
  refine ⟨fun ho => ?_, fun ho => ?_⟩
  · rw [if_pos (hany.2 ho)]
    rfl
  · rw [if_neg fun hc => (hany.1 hc).elim ho]
    exact State.startFinal_begins s { p with headFound := p.position } a h

theorem State.nextSequence_ends (s : State) (p : AttachProgress) (a : AnchorCopy) (h : p.current = some a) :
    s.endsSequence p a (s.setAttach p).nextSequence := by
  obtain ⟨_, _, _, _, _, current, _, _, _, _, _, _⟩ := p
  dsimp only at h
  subst h
  unfold State.nextSequence
  dsimp only [State.setAttach]
  refine ⟨fun hq => ?_, fun hq => ?_⟩
  · rw [if_neg hq]
    rfl
  · rw [if_pos hq]
    exact State.startFinal_begins s _ a rfl

/-- The sequences the backward replay may end at. -/
theorem AttachProgress.mem_firsts (p : AttachProgress) (x : Seq) :
    (x ∈ allContexts.filterMap fun c =>
      if (p.recovery.get c).unfinished then (p.recovery.get c).first else none) ↔
    ∃ c, p.leavesOpen c ∧ (p.recovery.get c).first = some x := by
  rw [List.mem_filterMap]
  constructor
  · rintro ⟨c, _, h⟩
    split at h
    · next hu => exact ⟨c, (Recovery.unfinished_iff p c).1 hu, h⟩
    · cases h
  · rintro ⟨c, h, hf⟩
    exact ⟨c, by fin_cases c <;> decide, by rw [if_pos ((Recovery.unfinished_iff p c).2 h), hf]⟩

end Sys2Proof.Machine
end

