-- ==== Sys2Proof/Laws/Slots.lean ====
section
/-! SUPPORT. A field of a record slot as a value and as its bytes, least significant first (R183). -/

namespace Sys2Proof.Machine

theorem leastFirst_eq (n v : Nat) : leastFirst n v = bytesLsbFirst n v := by
  simp only [leastFirst, bytesLsbFirst, Nat.shiftRight_eq_div_pow]
  refine List.map_congr_left fun i _ => ?_
  rw [show (256 : Nat) = 2 ^ 8 from rfl, ← Nat.pow_mul]

theorem valueLsbFirst_lt (l : List Byte) : valueLsbFirst l < 256 ^ l.length := by
  induction l with
  | nil => simp [valueLsbFirst]
  | cons b l ih =>
    have h : valueLsbFirst (b :: l) = b.toNat + 256 * valueLsbFirst l := rfl
    have := b.isLt
    rw [h, List.length_cons, Nat.pow_succ]
    omega

/-- Bytes of one length with one value are the same bytes. -/
theorem valueLsbFirst_inj {a b : List Byte} (h : a.length = b.length) (hv : valueLsbFirst a = valueLsbFirst b) :
    a = b := by
  induction a generalizing b with
  | nil => cases b <;> simp_all
  | cons x a ih =>
    cases b with
    | nil => simp at h
    | cons y b =>
      have h1 : valueLsbFirst (x :: a) = x.toNat + 256 * valueLsbFirst a := rfl
      have h2 : valueLsbFirst (y :: b) = y.toNat + 256 * valueLsbFirst b := rfl
      have hx := x.isLt
      have hy := y.isLt
      rw [h1, h2] at hv
      have h3 : x.toNat = y.toNat := by omega
      rw [BitVec.eq_of_toNat_eq h3, ih (by simpa using h) (by omega)]

theorem length_bytesAt {slot : List Byte} {o n : Nat} (h : o + n ≤ slot.length) : (bytesAt slot o n).length = n := by
  simp [bytesAt]
  omega

/-- A field within the slot holds a value exactly when its bytes are that value's. -/
theorem fieldAt_eq_iff {slot : List Byte} {o n v : Nat} (h : o + n ≤ slot.length) (hv : v < 256 ^ n) :
    fieldAt slot o n = v ↔ bytesAt slot o n = leastFirst n v := by
  have hf : fieldAt slot o n = valueLsbFirst (bytesAt slot o n) := rfl
  rw [leastFirst_eq, hf]
  constructor
  · intro he
    refine valueLsbFirst_inj (by rw [length_bytesAt h, length_bytesLsbFirst]) ?_
    rw [valueLsbFirst_bytesLsbFirst, he, Nat.mod_eq_of_lt hv]
  · intro he
    rw [he, valueLsbFirst_bytesLsbFirst, Nat.mod_eq_of_lt hv]

theorem fieldAt_lt {slot : List Byte} {o n : Nat} (h : o + n ≤ slot.length) : fieldAt slot o n < 256 ^ n := by
  have := valueLsbFirst_lt (bytesAt slot o n)
  rwa [length_bytesAt h] at this

/-- A field's value read in a width that holds it. -/
theorem ofNat_fieldAt_eq_iff {slot : List Byte} {o n w : Nat} (x : BitVec w) (h : o + n ≤ slot.length)
    (hw : 256 ^ n = 2 ^ w) : BitVec.ofNat w (fieldAt slot o n) = x ↔ bytesAt slot o n = leastFirst n x.toNat := by
  rw [← fieldAt_eq_iff h (hw ▸ x.isLt)]
  have := fieldAt_lt h
  constructor
  · rintro rfl
    rw [BitVec.toNat_ofNat, Nat.mod_eq_of_lt (hw ▸ this)]
  · intro he
    rw [he, BitVec.ofNat_toNat, BitVec.setWidth_eq]

/-- The check field cleared, as the check word takes it (R185). -/
theorem checkCleared_eq (slot : List Byte) : checkCleared slot = clearCheck 24 slot := rfl

/-- The low bytes of a field are those of its value's remainder. -/
theorem bytesAt_take {slot : List Byte} {o n m : Nat} (h : o + n ≤ slot.length) (hm : m ≤ n) (v : Nat)
    (hv : v < 256 ^ m) : bytesAt slot o m = leastFirst m v ↔ fieldAt slot o n % 256 ^ m = v := by
  rw [← fieldAt_eq_iff (by omega) hv]
  have hsplit : bytesAt slot o n = bytesAt slot o m ++ bytesAt slot (o + m) (n - m) := by
    simp only [bytesAt]
    rw [← List.drop_drop, ← List.take_add]
    congr 1
    omega
  have hval : ∀ a b : List Byte, valueLsbFirst (a ++ b) = valueLsbFirst a + 256 ^ a.length * valueLsbFirst b := by
    intro a b
    induction a with
    | nil => simp [valueLsbFirst]
    | cons x a ih =>
      have h1 : valueLsbFirst (x :: (a ++ b)) = x.toNat + 256 * valueLsbFirst (a ++ b) := rfl
      have h2 : valueLsbFirst (x :: a) = x.toNat + 256 * valueLsbFirst a := rfl
      rw [List.cons_append, h1, h2, ih, List.length_cons, Nat.pow_succ]
      ring
  have hf : fieldAt slot o n = fieldAt slot o m + 256 ^ m * valueLsbFirst (bytesAt slot (o + m) (n - m)) := by
    have h1 : fieldAt slot o n = valueLsbFirst (bytesAt slot o n) := rfl
    rw [h1, hsplit, hval, length_bytesAt (by omega)]
    rfl
  rw [hf, Nat.add_mul_mod_self_left, Nat.mod_eq_of_lt (fieldAt_lt (by omega))]

/-- The kind byte of R183. -/
theorem slotKind_iff (slot : List Byte) (hlen : slot.length = 128) (kind : RecordKind) :
    slotKind slot = some kind ↔ bytesAt slot 8 1 =
      [match kind with | .preImage => 0x01 | .commit => 0x02 | .aborted => 0x03] := by
  have e : ∀ v : Nat, v < 256 → (fieldAt slot 8 1 = v ↔ bytesAt slot 8 1 = leastFirst 1 v) := fun v hv =>
    fieldAt_eq_iff (by omega) (by simpa using hv)
  have e1 := e 1 (by omega)
  have e2 := e 2 (by omega)
  have e3 := e 3 (by omega)
  rw [show leastFirst 1 1 = [(1:Byte)] from by decide] at e1
  rw [show leastFirst 1 2 = [(2:Byte)] from by decide] at e2
  rw [show leastFirst 1 3 = [(3:Byte)] from by decide] at e3
  unfold slotKind
  cases kind <;> dsimp only
  · rw [← e1]; (repeat' split) <;> simp_all
  · rw [← e2]; (repeat' split) <;> simp_all
  · rw [← e3]; (repeat' split) <;> simp_all

/-- The check word covers both lines of a PRE_IMAGE and the first of a marker (R185). -/
theorem slotCheckPasses_iff (slot : List Byte) (hlen : slot.length = 128) (kind : RecordKind) :
    slotCheckPasses slot kind = true ↔ bytesAt slot 24 4 = leastFirst 4 (checkWord
        (if kind = .preImage then checkCleared slot else (checkCleared slot).take 64)).toNat := by
  rw [← ofNat_fieldAt_eq_iff _ (by omega) (by norm_num)]
  simp only [slotCheckPasses, decide_eq_true_eq, checkCleared_eq]
  have h1 : slot.take 128 = slot := List.take_of_length_le (by omega)
  have h2 : clearCheck 24 (slot.take 64) = (clearCheck 24 slot).take 64 := by
    simp only [clearCheck]
    apply List.ext_getElem?
    intro i
    simp only [List.getElem?_take, List.getElem?_append, List.getElem?_drop, List.length_take, List.length_append,
      hlen]
    simp
    repeat' split
    all_goals first | rfl | omega
  cases kind
  · simp only [h1, if_true]; exact eq_comm
  · simp only [h2]; exact eq_comm
  · simp only [h2]; exact eq_comm

/-- All that an accepted slot says (R104). -/
theorem acceptSlot_eq_some_iff (slot : List Byte) (q : Seq) (r : SlotRecord) :
    acceptSlot slot q = some r ↔ slotKind slot = some r.kind ∧ fieldAt slot 9 1 = r.ctx.val ∧
      fieldAt slot 0 4 = recordSync ∧ slotCheckPasses slot r.kind ∧ slotSeq slot = q ∧
      (r.kind = .preImage → slotLineAddress slot % 64 = 0 ∧ slotLineAddress slot < 2 ^ 40) ∧
      r.epoch = slotEpoch slot ∧ r.line = lineOf (BitVec.ofNat 40 (slotLineAddress slot)) ∧
      r.image = slotImage slot := by
  obtain ⟨kind, c, e, l, im⟩ := r
  unfold acceptSlot
  dsimp only
  cases hk : slotKind slot with
  | none => simp
  | some k =>
    dsimp only
    by_cases h9 : fieldAt slot 9 1 < 4
    · rw [dif_pos h9]
      constructor
      · intro h
        split at h
        · next hc =>
          simp only [Option.some.injEq, SlotRecord.mk.injEq] at h
          obtain ⟨rfl, rfl, rfl, rfl, rfl⟩ := h
          exact ⟨rfl, rfl, hc.1, hc.2.1, hc.2.2.1, hc.2.2.2, rfl, rfl, rfl⟩
        · simp at h
      · rintro ⟨h1, h2, h3, h4, h5, h6, h7, h8, h9'⟩
        cases h1
        rw [if_pos ⟨h3, h4, h5, h6⟩]
        simp only [Option.some.injEq, SlotRecord.mk.injEq, true_and]
        exact ⟨Fin.ext h2, h7.symm, h8.symm, h9'.symm⟩
    · rw [dif_neg h9]
      simp only [false_iff, reduceCtorEq]
      rintro ⟨_, h2, _⟩
      exact h9 (h2 ▸ c.isLt)

/-- A line address within the space is that of its line. -/
theorem slotLineAddress_iff (slot : List Byte) (hlen : slot.length = 128) :
    (slotLineAddress slot % 64 = 0 ∧ slotLineAddress slot < 2 ^ 40) ↔
      bytesAt slot 16 8 = leastFirst 8 (lineOf (BitVec.ofNat 40 (slotLineAddress slot)) ++ 0#6).toNat := by
  unfold slotLineAddress
  have : ∀ l : Line, (l ++ 0#6).toNat < 256 ^ 8 := fun l => by have := (l ++ 0#6).isLt; omega
  rw [← fieldAt_eq_iff (by omega) (this _)]
  generalize fieldAt slot 16 8 = v
  simp only [lineOf, BitVec.toNat_append, BitVec.extractLsb'_toNat, BitVec.toNat_ofNat]
  simp [Nat.shiftLeft_eq, Nat.shiftRight_eq_div_pow]
  omega

/-! ## The fields of what the bridge writes (R183, R184) -/

/-- A field of bytes made of parts: the part at its place. -/
theorem fieldAt_parts (front back : List (List Byte)) {n v o : Nat} (ho : (front.map List.length).sum = o)
    (hv : v < 256 ^ n) : fieldAt (front ++ bytesLsbFirst n v :: back).flatten o n = v := by
  rw [List.flatten_append, List.flatten_cons, fieldAt_append _ _ _ o n (by simpa using ho) (by simp),
    valueLsbFirst_bytesLsbFirst, Nat.mod_eq_of_lt hv]

/-- The check field between two parts, cleared. -/
theorem clearCheck_parts (front back check : List Byte) {n : Nat} (hf : front.length = n) (hc : check.length = 4) :
    clearCheck n (front ++ (check ++ back)) = front ++ ([0, 0, 0, 0] ++ back) := by
  subst hf
  simp [clearCheck, List.drop_append, hc]

@[simp] theorem length_headerBytes (q : Seq) (k : RecordKind) (c : Ctx) (i : Bool) (e : Epoch) (a : Addr) (w : BitVec 32) :
    (headerBytes q k c i e a w).length = 64 := by simp [headerBytes]

/-- Every field of a header line reads back (R183). -/
theorem headerBytes_fields (q : Seq) (k : RecordKind) (c : Ctx) (i : Bool) (e : Epoch) (a : Addr) (w : BitVec 32) :
    fieldAt (headerBytes q k c i e a w) 0 4 = recordSync ∧ fieldAt (headerBytes q k c i e a w) 4 4 = q.toNat ∧
    fieldAt (headerBytes q k c i e a w) 8 1 = k.code ∧ fieldAt (headerBytes q k c i e a w) 9 1 = c.val ∧
    fieldAt (headerBytes q k c i e a w) 12 4 = e.toNat ∧ fieldAt (headerBytes q k c i e a w) 16 8 = a.toNat ∧
    fieldAt (headerBytes q k c i e a w) 24 4 = w.toNat := by
  have hq := q.isLt
  have he := e.isLt
  have ha := a.isLt
  have hw := w.isLt
  have hc := c.isLt
  have hk : k.code < 4 := by cases k <;> decide
  have hp : headerBytes q k c i e a w = [bytesLsbFirst 4 recordSync, bytesLsbFirst 4 q.toNat, bytesLsbFirst 1 k.code,
      bytesLsbFirst 1 c.val, [if i then 1 else 0], [0], bytesLsbFirst 4 e.toNat, bytesLsbFirst 8 a.toNat,
      bytesLsbFirst 4 w.toNat, List.replicate 36 0].flatten := by
    simp only [headerBytes, List.flatten_cons, List.flatten_nil, List.append_nil, List.append_assoc]
  rw [hp]
  exact ⟨fieldAt_parts [] _ rfl (by decide), fieldAt_parts [_] _ rfl (by omega), fieldAt_parts [_, _] _ rfl (by omega),
    fieldAt_parts [_, _, _] _ rfl (by omega), fieldAt_parts [_, _, _, _, _, _] _ rfl (by omega),
    fieldAt_parts [_, _, _, _, _, _, _] _ rfl (by omega), fieldAt_parts [_, _, _, _, _, _, _, _] _ rfl (by omega)⟩

/-- The check word of a header line, cleared (R185). -/
theorem clearCheck_headerBytes (q : Seq) (k : RecordKind) (c : Ctx) (i : Bool) (e : Epoch) (a : Addr) (w : BitVec 32)
    (rest : List Byte) :
    clearCheck 24 (headerBytes q k c i e a w ++ rest) = headerBytes q k c i e a 0 ++ rest := by
  have h (v : BitVec 32) : headerBytes q k c i e a v ++ rest = (bytesLsbFirst 4 recordSync ++ bytesLsbFirst 4 q.toNat ++
      bytesLsbFirst 1 k.code ++ bytesLsbFirst 1 c.val ++ [if i then 1 else 0] ++ [0] ++ bytesLsbFirst 4 e.toNat ++
      bytesLsbFirst 8 a.toNat) ++ (bytesLsbFirst 4 v.toNat ++ (List.replicate 36 0 ++ rest)) := by
    simp only [headerBytes, List.append_assoc]
  rw [h w, h 0, clearCheck_parts _ _ _ (by simp) (by simp)]
  rfl

@[simp] theorem length_anchorBytesWith (c : AnchorCopy) (w : BitVec 32) : (anchorBytesWith c w).length = 64 := by
  simp [anchorBytesWith]

/-- Every field of an anchor copy reads back (R184). -/
theorem anchorBytesWith_fields (c : AnchorCopy) (w : BitVec 32) :
    fieldAt (anchorBytesWith c w) 0 4 = anchorSync ∧ fieldAt (anchorBytesWith c w) 4 4 = c.generation.toNat ∧
    fieldAt (anchorBytesWith c w) 8 1 = c.state.code ∧ fieldAt (anchorBytesWith c w) 12 4 = c.tail.toNat ∧
    fieldAt (anchorBytesWith c w) 16 4 = c.nextEpochs.c0.toNat ∧
    fieldAt (anchorBytesWith c w) 20 4 = c.nextEpochs.c1.toNat ∧
    fieldAt (anchorBytesWith c w) 24 4 = c.nextEpochs.c2.toNat ∧
    fieldAt (anchorBytesWith c w) 28 4 = c.nextEpochs.c3.toNat ∧ fieldAt (anchorBytesWith c w) 32 4 = w.toNat := by
  have hg := c.generation.isLt
  have ht := c.tail.isLt
  have hw := w.isLt
  have h0 := c.nextEpochs.c0.isLt
  have h1 := c.nextEpochs.c1.isLt
  have h2 := c.nextEpochs.c2.isLt
  have h3 := c.nextEpochs.c3.isLt
  have hk : c.state.code < 4 := by cases c.state <;> decide
  have hp : anchorBytesWith c w = [bytesLsbFirst 4 anchorSync, bytesLsbFirst 4 c.generation.toNat,
      bytesLsbFirst 1 c.state.code, [0, 0, 0], bytesLsbFirst 4 c.tail.toNat, bytesLsbFirst 4 c.nextEpochs.c0.toNat,
      bytesLsbFirst 4 c.nextEpochs.c1.toNat, bytesLsbFirst 4 c.nextEpochs.c2.toNat,
      bytesLsbFirst 4 c.nextEpochs.c3.toNat, bytesLsbFirst 4 w.toNat, List.replicate 28 0].flatten := by
    simp only [anchorBytesWith, List.flatten_cons, List.flatten_nil, List.append_nil, List.append_assoc]
  rw [hp]
  exact ⟨fieldAt_parts [] _ rfl (by decide), fieldAt_parts [_] _ rfl (by omega), fieldAt_parts [_, _] _ rfl (by omega),
    fieldAt_parts [_, _, _, _] _ rfl (by omega), fieldAt_parts [_, _, _, _, _] _ rfl (by omega),
    fieldAt_parts [_, _, _, _, _, _] _ rfl (by omega), fieldAt_parts [_, _, _, _, _, _, _] _ rfl (by omega),
    fieldAt_parts [_, _, _, _, _, _, _, _] _ rfl (by omega), fieldAt_parts [_, _, _, _, _, _, _, _, _] _ rfl (by omega)⟩

/-- The check word of an anchor copy, cleared (R185). -/
theorem clearCheck_anchorBytesWith (c : AnchorCopy) (w : BitVec 32) :
    clearCheck 32 (anchorBytesWith c w) = anchorBytesWith c 0 := by
  have h (v : BitVec 32) : anchorBytesWith c v = (bytesLsbFirst 4 anchorSync ++ bytesLsbFirst 4 c.generation.toNat ++
      bytesLsbFirst 1 c.state.code ++ [0, 0, 0] ++ bytesLsbFirst 4 c.tail.toNat ++
      bytesLsbFirst 4 c.nextEpochs.c0.toNat ++ bytesLsbFirst 4 c.nextEpochs.c1.toNat ++
      bytesLsbFirst 4 c.nextEpochs.c2.toNat ++ bytesLsbFirst 4 c.nextEpochs.c3.toNat) ++
      (bytesLsbFirst 4 v.toNat ++ List.replicate 28 0) := by
    simp only [anchorBytesWith, List.append_assoc]
  rw [h w, h 0, clearCheck_parts _ _ _ (by simp) (by simp)]
  rfl

end Sys2Proof.Machine
end

