-- ==== Sys2Proof/Laws/Space.lean ====
section
/-! SUPPORT. LOG_FULL and LOG_LOW: the events a look at the free count raises, and what is armed after it (R48, R49). -/

namespace Sys2Proof.Machine

theorem LogWriter.fullEvents_eq (w : LogWriter) (j : JournalState) : w.fullEvents j =
    match w.frontPreImage with
    | some (.preImage c _ _) =>
      if j = .attached ∧ w.freeSlots.toNat ≤ 4 ∧ w.logFullArmed = true then
        [{ what := .logFull, context := some c, address := none, sequence := some w.head,
           count := some w.freeSlots.toNat }]
      else []
    | _ => [] := rfl

theorem LogWriter.lowEvents_eq (w : LogWriter) (watermark : Nat) : w.lowEvents watermark =
    if watermark ≠ 0 ∧ w.logLowArmed = true ∧ w.freeSlots.toNat < watermark then
      [{ what := .logLow, context := none, address := none, sequence := some w.head, count := some w.freeSlots.toNat }]
    else [] := rfl

/-- A look at the oldest PRE_IMAGE request raises its LOG_FULL and disarms LOG_FULL by that (R48). -/
theorem State.lookSpace_full (s : State) :
    s.lookSpace.log = { s.log with
      spaceWaiter := s.lookSpace.log.spaceWaiter
      logFullArmed := s.log.logFullArmed && (s.log.fullEvents s.attach.journal).isEmpty } ∧
    s.lookSpace.events = s.events.takeAll (s.log.fullEvents s.attach.journal) := by
  have hle : s.log.freeSlots ≤ 4 ↔ s.log.freeSlots.toNat ≤ 4 := by rw [BitVec.le_def]; rfl
  rw [LogWriter.fullEvents_eq]
  cases hf : s.log.frontPreImage with
  | none => simp [State.lookSpace, hf, EventBlock.takeAll]
  | some r =>
    cases r with
    | marker => simp [State.lookSpace, hf, EventBlock.takeAll]
    | preImage c l image =>
      have e : s.lookSpace =
          if s.attach.journal ≠ .attached then { s with log := { s.log with spaceWaiter := none } }
          else if s.log.freeSlots ≤ 4 then
            if s.log.logFullArmed then
              ({ s with log := { s.log with spaceWaiter := some l, logFullArmed := false } }).raise (logFullEvent s c)
            else { s with log := { s.log with spaceWaiter := some l } }
          else if s.log.spaceWaiter = some l then s
          else { s with log := { s.log with spaceWaiter := none } } := by
        simp only [State.lookSpace, hf]
      rw [e]
      simp only [hle]
      by_cases hj : s.attach.journal = .attached
      · by_cases hfr : s.log.freeSlots.toNat ≤ 4
        · cases s.log.logFullArmed <;> simp only [hj, hfr] <;> exact ⟨rfl, rfl⟩
        · simp only [hj, hfr]
          by_cases hw : s.log.spaceWaiter = some l
          · simp [hw, EventBlock.takeAll]
            rw [← hw]
          · simp [hw, EventBlock.takeAll]
      · simp [hj, EventBlock.takeAll]

/-- A look at WATERMARK raises its LOG_LOW and disarms LOG_LOW by that (R49). -/
theorem State.lookLow_low (s : State) :
    s.lookLow.log = { s.log with logLowArmed := s.log.logLowArmed && (s.log.lowEvents s.items.watermark).isEmpty } ∧
    s.lookLow.events = s.events.takeAll (s.log.lowEvents s.items.watermark) := by
  rw [LogWriter.lowEvents_eq]
  unfold State.lookLow
  split <;> exact ⟨by simp, rfl⟩

/-- The two looks that follow a take, LOG_LOW first (R44, log entry 19). -/
theorem State.lookLow_lookSpace (s : State) :
    s.lookLow.lookSpace.log = { s.log with
      spaceWaiter := s.lookLow.lookSpace.log.spaceWaiter
      logLowArmed := s.log.logLowArmed && (s.log.lowEvents s.items.watermark).isEmpty
      logFullArmed := s.log.logFullArmed && (s.log.fullEvents s.attach.journal).isEmpty } ∧
    s.lookLow.lookSpace.events =
      s.events.takeAll (s.log.lowEvents s.items.watermark ++ s.log.fullEvents s.attach.journal) := by
  have h := s.lookLow.lookSpace_full
  have hf : s.lookLow.log.fullEvents s.lookLow.attach.journal = s.log.fullEvents s.attach.journal := by
    rw [s.lookLow_low.1]
    simp [LogWriter.fullEvents]
  rw [hf, s.lookLow_low.1, s.lookLow_low.2] at h
  exact ⟨h.1, by rw [h.2, EventBlock.takeAll, EventBlock.takeAll, EventBlock.takeAll, List.foldl_append]⟩

end Sys2Proof.Machine
end

