-- ==== Sys2Proof/Tests/Slice0.lean ====
section
/-! SUPPORT. The model's own tests: ill-formed operands, the spec's fixed values and examples, and for each statement
with hypotheses a state and operands that meet them. -/

set_option maxRecDepth 40000

namespace Sys2Proof.Tests

open Sys2Proof.Machine

/-! ## Well-formedness -/

theorem test_wf_write_enables :
    (Instr.upstreamRequest (some ⟨1, 0, 2, .write [true] [0, 0] none⟩)).wellFormed = false := by decide

theorem test_wf_write_data :
    (Instr.upstreamRequest (some ⟨1, 0, 2, .write [true, true] [0] none⟩)).wellFormed = false := by decide

theorem test_wf_answer_too_long :
    (Instr.strayAnswer 0 (.done (List.replicate 257 0))).wellFormed = false := by decide

theorem test_wf_set_rows : ∀ item ∈ ([0x01, 0x05, 0x07, 0x0B] : List Byte),
    (Instr.set item 0 0 0).wellFormed = false := by decide

theorem test_wf_attach_mode : (Instr.attachFormat 0x02 0).wellFormed = false := by decide

theorem test_wf_malformed_frame : (Instr.malformedFrame (.ended [0x00])).wellFormed = false := by decide

theorem test_wf_good : (Instr.upstreamRequest (some ⟨1, 0, 1, .write [true] [0] (some 3)⟩)).wellFormed = true ∧
    (Instr.strayAnswer 0 (.done (List.replicate 256 0))).wellFormed = true ∧
    (Instr.malformedFrame (.ended [0x0B])).wellFormed = true ∧ (Instr.set 0x10 0 0 0).wellFormed = true := by decide

/-! ## Formats -/

/-- The check value of R185: the nine bytes "123456789". -/
theorem test_check_word :
    checkWord [0x31, 0x32, 0x33, 0x34, 0x35, 0x36, 0x37, 0x38, 0x39] = 0xE3069283 := by decide

theorem test_power_on_values : orderValue State.reset.downstream.order = 0x654321 ∧
    State.reset.events.mask.setWidth 64 = 0x7FF#64 ∧ (RegionEntry.reset).value = 0 := by decide

theorem test_frame_open : frameInstr [0x06, 0x01] = .openEpoch 1 0 ∧ frameInstr [0x5A, 0, 0] = .softReset 2 ∧
    frameInstr [0x03, 0x07, 0x02, 0, 0, 0, 0, 0, 0, 0x01, 0x00] = .setQuota 2 256 0 ∧
    frameInstr [0x04, 0x02] = .attachResume 0 ∧ frameInstr [0x02, 0x0F] = .malformedFrame (.ended [0x02, 0x0F]) := by decide

theorem test_table_word : decodeTableWord 8 0 = none ∧
    State.withFetchWord State.reset 8 0 = State.reset := ⟨rfl, rfl⟩

/-- The replies of the example of 12_formats.md 12.6, of an event, and of a status record with a recovered attach. -/
theorem test_reply_bytes :
    (Reply.okContext { ContextRecord.reset with
        state := .opened, epoch := 0xA3, nextEpoch := 0xA4, firstSeq := some 0x10F, recordCount := 3 } 3).bytes =
      [0x01, 0x02, 0x01, 0x00, 0x00, 0xA3, 0x00, 0x00, 0xA4, 0x00, 0x00, 0x01, 0x0F, 0x08, 0x00, 0x0C, 0x03] ∧
    (Reply.okEvent { what := .contextFaulted .forwardError, context := some 2, address := some 0x12345640,
                     sequence := none, count := some 3 } 5 true).bytes =
      [0x01, 0x03, 0x0B, 0x02, 0x02, 0x00, 0x12, 0x34, 0x56, 0x40, 0, 0, 0, 0, 0, 0, 0, 0x03, 0x05, 0x01] ∧
    (Reply.okStatus { journal := .attached, waiting := false, pfail := true, quiet := false
                      report := { result := some .recovered, scanned := 0x1234, contexts := ⟨true, false, true, false⟩,
                                  restored := 7 }
                      logFree := 64, filterFree := 510, holdEntries := 32, intake := .waitHold, upstreamTags := 5,
                      forwardEntries := 2, outstanding := 16, records := 9, overrun := true }).bytes =
      [0x01, 0x03, 0x0A, 0x03, 0x25, 0, 0, 0x12, 0x34, 0, 0, 0, 7, 0, 0, 0, 64, 0x01, 0xFE, 32, 0x02, 5, 2, 16, 9] ∧
    shiftedOut (some .busy) 3 = [0x02, 0, 0] := by decide

/-- A frame cut one byte short of what its command needs, and the codes on both sides of those that name commands. -/
theorem test_frame_cut : frameCommand (([0x03, 0x02, 0, 0, 0, 0, 0, 0, 0, 0, 1] : List Byte).take 10) = none ∧
    frameCommand [0x0B] = none ∧ frameCommand [0x59] = none ∧ frameCommand [0x5B] = none ∧ frameCommand [0xFF] = none ∧
    frameCommand [0x0A] = some .clearOverrun := by decide

/-! ## Small states -/

/-- The state a command leaves. -/
def after (i : Instr) (s : State) : State :=
  match exec i s with
  | .next t => t
  | _ => s

/-- Geometry: 64 slots at 10000H, the anchor slot at 8000H. -/
def geometry : LogItems := { LogItems.reset with ringBase := 0x10000, sizeExp := 6, anchorAddr := 0x8000 }

/-- A JOURNAL entry over pages 0 to 3, contexts 0 and 1 in its mask. -/
def journalEntry : RegionEntry :=
  { valid := true, kind := .journal, base := 0, limit := 3, mask := 0x3, closed := .forward }

/-- Attached, with context 1 OPEN at epoch 7. -/
def attached : State :=
  { State.reset with
    items := geometry
    log := { LogWriter.reset with ringSize := 64, generation := 1 }
    attach := { AttachEngine.reset with journal := .attached }
    regions := State.reset.regions.set 0 journalEntry
    contexts := State.reset.contexts.set 1
      { ContextRecord.reset with state := .opened, epoch := 7, nextEpoch := 8 } }

/-- A state in another journal state. -/
def inJournal (j : JournalState) : State := attached.setJournal j

/-- A state with context 1 in another state, and its procedure with it. -/
def inContext (c : CtxState) : State :=
  { attached with
    contexts := attached.contexts.set 1 { attached.contexts.get 1 with state := c }
    engine := attached.engine.set 1 { Progress.reset with procedure := c.procedure } }

/-- A write of two lines of context 1. -/
def write2 : UpRequest :=
  { tag := 5, address := 0x1020, length := 64,
    access := .write (List.replicate 64 true) (List.replicate 64 0xAB) (some 1) }

def read1 : UpRequest := { tag := 6, address := 0x1000, length := 8, access := .read }

def untagged : UpRequest :=
  { tag := 7, address := 0x1000, length := 1, access := .write [true] [1] none }

/-- A write of one byte at an address, tagged with context 1. -/
def writeAt (a : Addr) : UpRequest := { tag := 7, address := a, length := 1, access := .write [true] [1] (some 1) }

/-- A hold entry of context 1 on line 40H with its item at a stage. -/
def held (stage : Stage) : HoldEntry :=
  { request := writeAt 0x1000, journaled := true, items := [{ line := 0x40, stage := stage }], released := false }

/-- Attached, with that hold entry, its tag and its filter entry. -/
def holding (stage : Stage) : State :=
  { attached with
    hold := [held stage]
    filter := [{ line := 0x40, owner := 1, state := .capturing, seq := none }]
    upstream := { UpstreamPort.reset with tags := [(writeAt 0x1000).tagEntry .held] } }

/-- A state with one downstream transaction outstanding. -/
def waitingFor (s : State) (owner : Owner) : State :=
  { s with downstream := { s.downstream with outstanding := [{ tag := 2, owner := owner, lines := [] }] } }

/-- A forward entry of an untagged read. -/
def forwardEntry : Transaction :=
  { request := { address := 0x1000, length := 8, body := .read }, owner := .forward 6 .straight }

/-- A hold queue that is full, of reads on other lines. -/
def fullHold : List HoldEntry :=
  List.replicate 32 { request := { read1 with address := 0x2000 }, journaled := false, items := [], released := true }

/-- RST_N asserted. -/
def inReset : State := after .powerOnReset attached

/-! ## Rows by their effect -/

theorem test_open_close : (after (.openEpoch 0 0) attached).mgmt.reply = some (.okEpoch 0) ∧
    (after (.openEpoch 1 0) attached).mgmt.reply = some .busy ∧
    (after (.openEpoch 4 0) attached).mgmt.reply = some .badRange := by decide

theorem test_admit : (after (.upstreamRequest (some write2)) attached).filter =
    [{ line := 0x40, owner := 1, state := .capturing, seq := none },
     { line := 0x41, owner := 1, state := .capturing, seq := none }] := by decide

theorem test_capture_handed : (after .captureReadHanded (holding (.pending false))).downstream.captureList =
    [{ request := { address := 0x1000, length := 64, body := .read }, owner := .capture ⟨1, 0x40⟩ }] := by decide

theorem test_append_slot : (after (.appendTake ())
      { holding (.built []) with
        log := { attached.log with head := 65, tail := 10, requests := [.preImage 1 0x40 (List.replicate 64 0)] }
      }).downstream.appendList.map (fun t => (t.request.address, t.request.length)) = [(0x10080, 128)] := by decide

theorem test_anchor_copy : (after .cleanAnchorWrite (inJournal .detaching)).downstream.anchorList.map
    (fun t => (t.request.address, t.request.length)) = [(0x8000, 64)] := by decide

theorem test_drain_detached : (after .pfailAsserted (inJournal .detached)).attach.quiet = true := by decide

theorem test_reset_shifts_zero : (after (.nop 2) inReset).out.mdo = [[0, 0, 0]] := by decide

/-! ## States and operands that meet the hypotheses of the statements -/

/-- A legal state with work in it and a command waiting. -/
def busy : State := { holding (.pending false) with pending := [.captureReadHanded], due := [⟨1, 0x40⟩] }

theorem witness_legal : busy.legal ∧
    step busy = .next (after .captureReadHanded { busy with pending := [] }) := by
  refine ⟨⟨by unfold State.filterOk; decide, by unfold State.queuesOk; decide, by unfold State.locksOk; decide, ?_,
    by unfold State.modesOk; decide, by unfold State.resetOk; decide⟩, rfl⟩
  refine ⟨by unfold LogItems.legal; decide, ?_, by decide, by decide, by decide, by decide⟩
  simp only [RegionEntry.legal]
  decide

theorem witness_heldInReset : inReset.resetOk ∧ inReset.pins.rst = true ∧
    step { inReset with pending := [.grant] } = .next inReset := by
  refine ⟨?_, by decide, rfl⟩
  unfold State.resetOk
  decide

theorem witness_changes : Instr.grant.wellFormed = true ∧ Instr.grant.setsConfiguration = false ∧
    exec .grant attached = .next (after .grant attached) ∧ frameBytes .grant = none ∧
    exec (.nop 0) attached = .next (after (.nop 0) attached) := ⟨rfl, rfl, rfl, rfl, rfl⟩

theorem witness_emptyQueue : attached.pending = [] := rfl

theorem witness_frames : (attached.pins.rst = false ∧ attached.mgmt.frame = .none ∧ attached.mgmt.waiting = false) ∧ frameCommand [] = none ∧
    frameCommand [0x03, 0x02, 0, 0, 0, 0, 0, 0, 0, 0] = none ∧ (0x10 : Byte) ≤ 0x10 ∧ (16 : Byte) ≤ 16 ∧
    (4 : Byte) ≤ 4 := by decide

theorem witness_working : State.reset.working ∧ attached.working ∧ (inJournal .detached).working ∧
    attached.takesFrames ∧ attached.serving ∧ (inJournal .detached).serving ∧ (inContext .idle).serving := by
  unfold State.working State.serving State.takesFrames
  decide

/-- A frame in progress after the first byte of OPEN(1). -/
def midFrame : State := after (.malformedFrame (.begun [0x06])) attached

/-- The same frame once RST_N has been asserted and released again. -/
def cutFrame : State := after .rstRelease (after .powerOnReset midFrame)

theorem witness_midFrame : midFrame.mgmt.frame = .inProgress 1 ∧ midFrame.mgmt.assembly = [0x06] ∧
    midFrame.pins.rst = false ∧ (after .powerOnReset midFrame).mgmt.frame = .discarded ∧
    cutFrame.mgmt.frame = .discarded ∧ cutFrame.pins.rst = false ∧ cutFrame.pins.pfail = false ∧
    attached.mgmt.assembly = [] ∧ frameBytes (.malformedFrame (.ended [0x01])) = some [0x01] := by decide

/-- The end of a frame takes the command of all its bytes; of a cut frame nothing is taken. -/
theorem test_frame_parts :
    (after (.malformedFrame (.ended [0x01])) (after (.malformedFrame (.begun [0x06])) (inContext .idle))).mgmt.reply =
      some (.okEpoch 8) ∧
    (after (.malformedFrame (.ended [0x01])) cutFrame).mgmt.reply = none ∧
    (after (.malformedFrame (.ended [0x01])) cutFrame).mgmt.frame = .none ∧
    (after (.malformedFrame (.ended [0x01])) cutFrame).out.mdo = midFrame.out.mdo ++ [[0x00]] := by decide

/-- A frame whose last byte ends a SET(WATERMARK) of 256, and its first ten bytes alone. -/
def midSet : State := after (.malformedFrame (.begun [0x03, 0x05, 0, 0, 0, 0, 0, 0, 0, 1])) attached

theorem witness_configuration : (Instr.nop 0).setsConfiguration = false ∧ frameBytes (.nop 0) = some [0] ∧
    midFrame.mgmt.frame = .inProgress 1 ∧
    frameCommand (midFrame.mgmt.assembly ++ [0]) = some (.openEpoch 0) ∧
    frameCommand (midSet.mgmt.assembly ++ [0]) = some (.set 0x05 0 256) ∧
    (after (.nop 0) midSet).items.watermark = 256 := by decide

/-- The refusals of SET that precede the wait of a soft reset, at their boundary indices. -/
theorem test_set_refusals : (after (.set 0x0F 3 0 0) attached).mgmt.reply = some .badState ∧
    (after (.set 0x0F 4 0 0) attached).mgmt.reply = some .badRange ∧
    (after (.set 0x0E 0 0 0) attached).mgmt.reply = some .badState ∧
    (after (.set 0x10 0 0 0) attached).mgmt.reply = some .badRange ∧
    (after (.setQuota 4 0 0) attached).mgmt.reply = some .badRange ∧
    (after (.setQuota 3 0 0) attached).mgmt.reply = some .ok ∧
    (after (.setRegion 16 0 0) attached).mgmt.reply = some .badRange := by decide

theorem witness_order : [Requester.scan, .restore, .forward, .capture, .append, .anchor].Perm
      [.anchor, .append, .capture, .forward, .restore, .scan] ∧
    ∀ order : List Requester, order.Perm [.anchor, .append, .capture, .forward, .restore, .scan] →
      (0 : BitVec 64) ≠ orderValue order := by
  refine ⟨by decide, fun order h e => ?_⟩
  have k := orderOfValue_orderValue h
  rw [← e, show orderOfValue 0 = none by decide] at k
  exact nomatch k

theorem witness_region : journalEntry.valid = true ∧ journalEntry.base ≤ journalEntry.limit ∧
    (0 : BitVec 64).getLsbD 63 = false ∧ (0x8300000000000000 : BitVec 64).getLsbD 63 = true ∧
    (0x8300000000000000 : BitVec 64).extractLsb' 56 2 = 3#2 ∧ (16 : Byte) ≤ 16 ∧
    (∀ c, ((inContext .idle).contexts.get c).state = .idle) ∧ (inContext .idle).hold = [] := by decide

theorem witness_quotaAndMask : (attached.contexts.get 1).state ≠ .idle ∧ (attached.contexts.get 0).state = .idle ∧
    (512 : BitVec 64).toNat ≤ 512 ∧ (0x7FF : BitVec 64).toNat < 2 ^ 11 ∧ attached.mgmt.waiting = false ∧
    exec (.setEventMask 0 0x7FF 0) attached = .next (after (.setEventMask 0 0x7FF 0) attached) := by
  refine ⟨by decide, by decide, by decide, by decide, by decide, rfl⟩

/-- DETACHED, with a geometry. -/
def withGeometry (g : LogItems) : State := { State.reset with items := g }

theorem witness_attach : (0x00 : Byte) ≠ 0x01 ∧ (0x03 : Byte) ≠ 0x02 ∧ attached.attach.journal ≠ .detached ∧
    (withGeometry { geometry with sizeExp := 5 }).items.sizeExp < 6 ∧
    24 < (withGeometry { geometry with sizeExp := 25 }).items.sizeExp ∧
    2 ^ 40 < (withGeometry { geometry with ringBase := 0xFFFFFFF000 }).items.ringBase.toNat + 2 ^ 6 * 128 ∧
    (withGeometry { geometry with anchorAddr := 0x11F80 }).items.anchorAddr.toNat < 0x10000 + 2 ^ 6 * 128 ∧
    (withGeometry { geometry with anchorAddr := 0xFF80 }).items.anchorAddr.toNat + 128 ≤ 0x10000 ∧
    0x10000 + 2 ^ 6 * 128 ≤ (withGeometry { geometry with anchorAddr := 0x12000 }).items.anchorAddr.toNat ∧
    (withGeometry geometry).pins.pfail = false ∧ (withGeometry geometry).attach.journal = .detached := by decide

theorem witness_detach : (inJournal .detaching).attach.journal ≠ .attached ∧
    attached.attach.journal = .attached ∧ (∃ c, (attached.contexts.get c).state ≠ .idle) ∧
    ∀ c, ((inContext .idle).contexts.get c).state = .idle := by decide

theorem witness_open : (inContext .idle).attach.journal = .attached ∧
    ((inContext .idle).contexts.get 1).state = .idle ∧ (inContext .idle).filterOk ∧
    exec (.openEpoch 1 0) (inContext .idle) = .next (after (.openEpoch 1 0) (inContext .idle)) := by
  refine ⟨rfl, rfl, ?_, rfl⟩
  unfold State.filterOk
  decide

theorem witness_contextReplies : (4 : Byte) ≤ 4 ∧
    (∀ c : CtxState, ((inContext c).contexts.get 1).state = c ∧ (inContext c).attach.journal = .attached) ∧
    ((inContext .faulted).contexts.get 1).commitReply = .badState := by
  refine ⟨by decide, fun c => ⟨rfl, rfl⟩, by decide⟩

theorem witness_commit : (attached.contexts.get 1).state = .opened ∧ attached.othersRest 1 ∧
    (holding (.pending false)).journaledCount 1 ≠ 0 ∧ (holding (.pending false)).othersRest 1 ∧
    attached.journaledCount 1 = 0 ∧ (attached.contexts.get 1).recordCount = 0 := by
  unfold State.othersRest
  decide

/-- The hold entry of `holding`, released. -/
def releasedState : State := { holding (.covered 3) with hold := [{ held (.covered 3) with released := true }] }

theorem witness_abort : ((inContext .faulted).contexts.get 1).state = .faulted ∧
    (releasedState.contexts.get 1).state = .opened ∧
    releasedState.hold.any (fun e => e.released && e.journaled && e.ctx == some 1) = true ∧
    attached.hold.any (fun e => e.released && e.journaled && e.ctx == some 1) = false ∧
    attached.captureReads 1 = 0 ∧ attached.appendsUnanswered 1 = 0 ∧ (attached.contexts.get 1).recordCount = 0 := by
  decide

/-- Context 1 with two records counted, its filter entries given. -/
def withRecords (filter : List FilterEntry) : State :=
  { attached with
    contexts := attached.contexts.set 1 { attached.contexts.get 1 with recordCount := 2, firstSeq := some 0 }
    filter := filter
    log := { attached.log with head := 2 } }

/-- One append of context 1 unanswered. -/
def unsettled : State := { attached with log := { attached.log with inFlight := [{ seq := 0, ctx := 1, failed := false }] } }

theorem witness_abort_records :
    (∀ d, d ≠ 1 → ((withRecords []).engine.get d).procedure = .none) ∧
    ((withRecords []).contexts.get 1).recordCount ≠ 0 ∧ (withRecords []).appendsUnanswered 1 = 0 ∧
    unsettled.appendsUnanswered 1 ≠ 0 ∧ (waitingFor attached (.capture ⟨1, 0x40⟩)).captureReads 1 ≠ 0 ∧
    ((after (.abort 1 0) (withRecords [⟨0x40, 1, .capturing, some 1⟩])).engine.get 1).phase = .covering ∧
    ((after (.abort 1 0) (withRecords [⟨0x40, 1, .logged, some 0⟩, ⟨0x41, 1, .logged, some 1⟩])).engine.get 1).replayList =
      [⟨0x41, 1, .logged, some 1⟩, ⟨0x40, 1, .logged, some 0⟩] ∧
    ((after (.abort 1 0) (withRecords [])).engine.get 1).phase = .marking := by decide

/-- The refusals of an abort settle the items by stage. -/
theorem test_abort_settles : (after (.abort 1 0) (holding (.pending false))).filter = [] ∧
    (after (.abort 1 0) (holding .reading)).kept = [⟨1, 0x40⟩] ∧
    (after (.abort 1 0) (holding (.pending false))).events.records.map (·.what) =
      [.requestRefused .aborted, .abortDone .rolledBack] := by decide

/-- A full event queue. -/
def fullEvents : EventBlock := { EventBlock.reset with records := List.replicate 32 (drainedEvent .skipped none) }

theorem witness_events : { fullEvents with records := fullEvents.records.tail }.records.length < 32 ∧
    32 ≤ fullEvents.records.length ∧
    fullEvents.records = drainedEvent .skipped none :: List.replicate 31 (drainedEvent .skipped none) := by decide

/-- A soft reset waits for an answer. -/
def waiting : State := after (.softReset 0) (waitingFor attached .anchor)

theorem witness_waiting : waiting.mgmt.waiting = true ∧ waiting.pins.rst = false ∧
    waiting.downstream.outstanding ≠ [] ∧ (after (.strayAnswer 2 .error) waiting).mgmt.waiting = true ∧
    (after (.strayAnswer 2 .error) waiting).downstream.outstanding = [] ∧
    (after (.strayAnswer 2 .error) waiting).pins.pfail = false ∧ (3 : Byte) < 4 ∧ (15 : Byte) < 16 ∧
    frameBytes (.nop 0) = some [0] ∧ inReset.pins.rst = true := by decide

theorem witness_drain : (inJournal .detached).hold = [] ∧ (inJournal .detached).upstream.head = none ∧
    ({ inReset with pins := ⟨true, true⟩ } : State).powerOn = { inReset with pins := ⟨true, true⟩ } ∧
    ∀ j, (inJournal j).attach.journal = j ∧ (inJournal j).pins.pfail = false := by
  refine ⟨by decide, by decide, by decide, fun j => ⟨rfl, rfl⟩⟩

/-- An unjournaled hold entry and a head, in DETACHED. -/
def detachedWork : State :=
  { inJournal .detached with
    hold := [{ request := read1, journaled := false, items := [], released := false }]
    upstream := { UpstreamPort.reset with
      intake := .waitForward, head := some (writeAt 0x4000)
      tags := [read1.tagEntry .held, (writeAt 0x4000).tagEntry .head] } }

theorem witness_drainTurnsAway : detachedWork.attach.journal = .detached ∧
    (detachedWork.hold.filter fun e => !e.released).map (·.request) ++ detachedWork.upstream.head.toList =
      [read1, writeAt 0x4000] ∧
    (after .pfailAsserted detachedWork).events.records.map (·.what) =
      [.requestRefused .draining, .requestRefused .draining, .drained .skipped] ∧
    (after .pfailAsserted detachedWork).upstream.tags = [] := by decide

/-- Three unreleased entries of context 1: their items PENDING with the read handed, READING, and BUILT. -/
def staged (j : JournalState) (owner : Owner) : State :=
  let s := waitingFor (inJournal j) owner
  { s with
    hold := [(.pending true, 0x40), (.reading, 0x41), (.built [], 0x42)].map fun x =>
      { request := writeAt ((x.2 : Line) ++ 0#6), journaled := true, items := [{ line := x.2, stage := x.1 }],
        released := false }
    filter := [0x40, 0x41, 0x42].map fun l => { line := l, owner := 1, state := .capturing, seq := none }
    downstream := { s.downstream with
      captureList := [{ request := plainRead 0x1000 64, owner := .capture ⟨1, 0x40⟩ }] }
    log := { s.log with
      anchor := some { generation := some 1, tail := some 0, issuer := .logWriter, attaching := false }
      requests := [.preImage 1 0x42 []] } }

/-- What is left of the items: the lines in the filter, those kept outside the queue, the reads and requests. -/
def leftOver (s : State) : List Line × List CaptureRef × Nat × Nat :=
  (s.filter.map (·.line), s.kept, s.downstream.captureList.length, s.log.requests.length)

/-- The settling is the same for a drain, a break by an append, a break by an anchor, and a fault; where the read that
faults is the item's own, its entry goes with the item. -/
theorem test_settling :
    [after .pfailAsserted (staged .attached .anchor), after .pfailAsserted (staged .detached .anchor),
      after (.appendAnswer 2 .error) (staged .attached (.append 0)),
      after (.anchorWriteAnswer 2 .error) (staged .attached .anchor),
      after (.forwardedEntryAnswer 2 .error)
        { staged .attached (.forward 7 .held) with
          hold := { held (.covered 3) with released := true } :: (staged .attached .anchor).hold }].map leftOver =
      List.replicate 5 ([0x41], [⟨1, 0x41⟩], 0, 0) ∧
    leftOver (after (.captureReadAnswer 2 .error) (staged .attached (.capture ⟨1, 0x41⟩))) = ([], [], 0, 0) ∧
    leftOver (staged .attached .anchor) = ([0x40, 0x41, 0x42], [], 1, 1) := by decide

theorem witness_settling : (staged .attached (.capture ⟨1, 0x41⟩)).awaits
      { tag := 2, owner := .capture ⟨1, 0x41⟩, lines := [] } ∧ (staged .attached .anchor).kept = [] ∧
    (∃ e ∈ (staged .attached .anchor).hold, ∃ i ∈ e.items, i.line = 0x41 ∧ i.stage = .reading) ∧
    ((staged .attached (.capture ⟨1, 0x41⟩)).answered 2).othersRest 1 ∧ (staged .attached .anchor).modesOk ∧
    (∀ d, ((staged .attached .anchor).engine.get d).procedure = .none) ∧ (staged .attached .anchor).pins.pfail = false := by
  unfold State.awaits State.working State.othersRest State.modesOk
  decide

/-- An attach with a SCAN and an ANCHOR write handed and not granted, and one with its anchor write granted: a drain
withdraws what is not granted (R117). -/
theorem test_attach_withdrawn :
    let flight : AnchorFlight := { generation := none, tail := none, issuer := .attachEngine, attaching := true }
    let handed : List Transaction := [{ request := fullWrite 0x8000 (List.replicate 64 0), owner := .anchor }]
    let s : State := { inJournal .attaching with log := { LogWriter.reset with anchor := some flight } }
    let t := after .pfailAsserted { s with downstream := { s.downstream with anchorList := handed, scanList := handed } }
    t.attach.journal = .draining ∧ t.downstream.anchorList = [] ∧ t.downstream.scanList = [] ∧ t.log.anchor = none ∧
      t.attach.progress.step = .none ∧ (after .pfailAsserted s).log.anchor = some flight := by decide

/-- The wait of a soft reset is over while PFAIL_N is asserted. -/
def failedWait : State := after .pfailAsserted (after (.strayAnswer 2 .error) waiting)

theorem witness_volatilePfail : failedWait.mgmt.waiting = true ∧ failedWait.downstream.outstanding = [] ∧
    failedWait.pins.pfail = true ∧ failedWait.pins.rst = false ∧
    (after .volatileReset failedWait).attach.journal = .drained ∧
    (after .volatileReset failedWait).events.records = [drainedEvent .skipped none] := by decide

/-! ### The upstream port -/

/-- A state whose table is full of nothing but PASS and GUARD: entry 0 is GUARD. -/
def guarded : State :=
  { attached with regions := attached.regions.set 0 { journalEntry with kind := .guard, mask := 0 } }

/-- A write across the end of the anchor slot: two kinds. -/
def twoKinds : UpRequest :=
  { tag := 7, address := 0x8040, length := 128, access := .write (List.replicate 128 true) (List.replicate 128 0) none }

theorem witness_takesNext : attached.takesNext (some write2) write2 [] ∧ attached.passesForm write2 ∧
    attached.passesForm read1 ∧ attached.passesForm untagged ∧ attached.passesForm twoKinds ∧
    (holding (.pending false)).takesNext (some read1) read1 [] ∧ (holding (.pending false)).passesForm read1 := by
  unfold State.takesNext State.passesForm State.working
  decide

theorem witness_badForm : ({ read1 with length := 0 } : UpRequest).length = 0 ∧
    256 < ({ read1 with length := 257 } : UpRequest).length ∧
    256 < ({ read1 with address := 0x10FF, length := 2 } : UpRequest).address.toNat % 256 + 2 ∧
    (∃ e ∈ (holding (.pending false)).upstream.tags, e.tag = untagged.tag) ∧ ¬ inReset.working ∧
    (after (.softReset 0) attached).upstream.intake ≠ .taking := by
  unfold State.working
  decide

theorem witness_handOnRefusals : attached.requestKind twoKinds = none ∧
    guarded.requestKind untagged = some .guard ∧ attached.requestKind (writeAt 0x8000) = some .log ∧
    attached.requestKind (writeAt 0x11FFF) = some .log ∧
    (inJournal .attaching).requestKind read1 = some (.journal 0) := by decide

theorem witness_straight : attached.requestKind (writeAt 0x4000) = some .pass ∧
    attached.requestKind read1 = some (.journal 0) ∧ ¬ attached.mustWait read1 ∧
    attached.downstream.forwardQueue.length < 16 := by
  refine ⟨by decide, by decide, ?_, by decide⟩
  unfold State.mustWait
  rw [← State.readMustWait_iff]
  decide

/-- Both places full. -/
def full : State :=
  { attached with
    hold := fullHold
    downstream := { attached.downstream with forwardQueue := List.replicate 16 forwardEntry } }

theorem witness_headWaits : full.takesNext (some write2) write2 [] ∧ full.passesForm write2 ∧
    full.requestKind write2 = some (.journal 0) ∧ full.hold.length = 32 ∧
    full.downstream.forwardQueue.length = 16 ∧ full.requestKind (writeAt 0x4000) = some .pass := by
  unfold State.takesNext State.passesForm State.working
  decide

/-- A head that waits. -/
def headWaits (r : UpRequest) (intake : Intake) (s : State) : State :=
  { s with upstream := { s.upstream with head := some r, intake := intake, tags := [r.tagEntry .head] } }

theorem witness_reclassified (r : UpRequest) (intake : Intake) (s : State) :
    (headWaits r intake s).upstream.head = some r ∧ (headWaits r intake s).upstream.intake = intake ∧
    ((headWaits r intake s).working ↔ s.working) ∧ (headWaits r intake s).hold = s.hold ∧
    (headWaits r intake s).downstream = s.downstream ∧
    (headWaits r intake s).requestKind = s.requestKind := ⟨rfl, rfl, Iff.rfl, rfl, rfl, rfl⟩

theorem witness_refusesKind : attached.refusesKind twoKinds .malformed ∧ guarded.refusesKind untagged .guarded ∧
    attached.refusesKind (writeAt 0x8000) .logArea ∧ (inJournal .attaching).refusesKind read1 .recovering := by
  refine ⟨.inl (by decide), .inr (.inl (by decide)), .inr (.inr (.inl (by decide))),
    .inr (.inr (.inr ⟨rfl, ⟨0, by decide⟩, rfl, rfl⟩))⟩

theorem witness_goesStraight : attached.goesStraight (writeAt 0x4000) ∧ attached.goesStraight read1 ∧
    full.goesStraight (writeAt 0x4000) ∧ full.downstream.forwardQueue.length = 16 ∧
    attached.downstream.forwardQueue.length < 16 := by
  refine ⟨⟨.pass, by decide, .inl ⟨rfl, rfl⟩⟩, ⟨.journal 0, by decide, .inr ⟨rfl, ?_, fun _ => by decide⟩⟩,
    ⟨.pass, by decide, .inl ⟨rfl, rfl⟩⟩, by decide, by decide⟩
  unfold State.mustWait
  rw [← State.readMustWait_iff]
  decide

/-- A read that must wait, and no hold place. -/
def fullHeld : State := { holding (.pending false) with hold := held (.pending false) :: fullHold.tail }

theorem witness_readWaits : (holding (.pending false)).readWaits read1 ∧
    (holding (.pending false)).hold.length < 32 ∧ fullHeld.readWaits read1 ∧ fullHeld.hold.length = 32 := by
  have h : ∀ s : State, held (.pending false) ∈ s.hold → s.requestKind read1 = some (.journal 0) →
      s.attach.journal ≠ .attaching → s.readWaits read1 := fun s hs hk hj =>
    ⟨.journal 0, hk, rfl, .inl ⟨held (.pending false), hs, rfl, 0x40, by decide, by decide⟩, fun _ => hj⟩
  exact ⟨h _ (by decide) (by decide) (by decide), by decide, h _ List.mem_cons_self (by decide) (by decide), by decide⟩

/-- HEAD_RECLASSIFIED: a read whose place has come free goes on, also after a RELEASE alone (log entry 31). -/
theorem test_reclassified :
    (after .headReclassified (headWaits read1 .waitHold attached)).downstream.forwardQueue.length = 1 ∧
    (after .headReclassified (headWaits read1 .waitHold (holding (.pending false)))).hold.length = 2 ∧
    (after .headReclassified (after .release (headWaits read1 .waitHold (holding (.covered 3))))).upstream.head = none := by
  decide

/-- Context 1 with a quota. -/
def withQuota (n : Nat) : State :=
  { attached with contexts := attached.contexts.set 1 { attached.contexts.get 1 with quota := n } }

theorem witness_admitted : (withQuota 2).journalWrite write2 0 ∧
    ((withQuota 2).contexts.get 1).state = .opened ∧ ¬ (withQuota 2).hitsOther write2 ∧
    (withQuota 2).quotaPasses 1 ((withQuota 2).misses write2).length ∧ ((withQuota 2).misses write2).length = 2 ∧
    ((withQuota 2).regions.get 0).mask.getLsbD 1 = true ∧ write2.journalTag = some 1 := by
  refine ⟨by unfold State.journalWrite; decide, by decide, ?_, by unfold State.quotaPasses; decide, by decide,
    by decide, by decide⟩
  rintro ⟨l, _, f, h, _⟩
  exact absurd h (by simp [State.filterEntry, withQuota, attached, State.reset])

/-- The line of `held` belongs to context 0. -/
def otherOwner : State := { attached with filter := [{ line := 0x40, owner := 0, state := .logged, seq := some 1 }] }

theorem witness_admissionRefusals :
    (∀ j, (inJournal j).attach.journal = j ∧ (inJournal j).regions = attached.regions) ∧
    otherOwner.hitsOther write2 ∧ ((inContext .faulted).contexts.get 1).state = .faulted ∧
    (({ attached with regions := attached.regions.set 0 { journalEntry with mask := 0xD } } : State).regions.get
      0).mask.getLsbD 1 = false ∧
    ¬ (withQuota 1).quotaPasses 1 ((withQuota 1).misses write2).length ∧
    ({ otherOwner with filter := [{ line := 0x40, owner := 1, state := .logged, seq := some 1 }] } : State).hitsOwn
      write2 := by
  refine ⟨fun j => ⟨rfl, rfl⟩, ?_, by decide, by decide, by unfold State.quotaPasses; decide, ?_⟩
  · exact ⟨0x40, by decide, ⟨0x40, 0, .logged, some 1⟩, by decide, by decide⟩
  · exact ⟨0x40, by decide, ⟨0x40, 1, .logged, some 1⟩, by decide, by decide⟩

theorem witness_refusesAdmission : (inJournal .attaching).refusesAdmission write2 0 .recovering ∧
    (inJournal .broken).refusesAdmission write2 0 .broken ∧ (inJournal .detaching).refusesAdmission write2 0 .detached ∧
    otherOwner.refusesAdmission write2 0 .conflict := by
  refine ⟨.inl ⟨rfl, rfl⟩, .inr (.inl ⟨rfl, rfl⟩), .inr (.inr (.inl ⟨.inr rfl, rfl⟩)),
    .inr (.inr (.inr (.inl ⟨rfl, ⟨0x40, by decide, ⟨0x40, 0, .logged, some 1⟩, by decide, by decide⟩, rfl⟩)))⟩

theorem witness_unjournaled : attached.requestKind untagged = some (.journal 0) ∧ untagged.journalTag = none ∧
    ¬ attached.hitsOther untagged ∧ ¬ attached.hitsOwn untagged ∧
    (attached.regions.get 0).closed = .forward ∧ attached.hold.length < 32 ∧
    (holding (.pending false)).mustWait read1 := by
  refine ⟨by decide, by decide, ?_, ?_, by decide, by decide, Or.inl ⟨held (.pending false), by decide, by decide,
    0x40, by decide, by decide⟩⟩
  all_goals
    rintro ⟨l, _, f, h, _⟩
    exact absurd h (by simp [State.filterEntry, attached, State.reset])

theorem witness_lookup : ((attached.regions.get 0).valid = true ∧ (attached.regions.get 0).base ≤ (3 : BitVec 28) ∧
      (3 : BitVec 28) ≤ (attached.regions.get 0).limit) ∧ (∀ m : Fin 16, ¬ m < 0) ∧
    (∀ m, ¬ ((State.reset.regions.get m).valid = true)) ∧ (inJournal .detached).attach.journal = .detached ∧
    attached.attach.journal ≠ .detached ∧ attached.items.valid = true := by decide

theorem witness_lineKind : ({ attached with items := { geometry with sizeExp := 5 } } : State).items.valid = false ∧
    attached.lineKind 0x3FF = .pass ∧ attached.lineKind 0xFF = .journal 0 ∧ attached.lineKind 0x400 = .log ∧ attached.lineKind 0x47F = .log ∧
    attached.lineKind 0x480 = .pass ∧ attached.lineKind 0x200 = .log ∧ attached.lineKind 0x201 = .log ∧
    attached.lineKind 0x1FF = .pass ∧ (inJournal .detached).lineKind 0x400 = .pass := by decide

/-- The lines of a request at the ends of its range, and a request with lines of two kinds. -/
theorem witness_requestLines : (0x40 : Line) ∈ write2.lines ∧ (0x41 : Line) ∈ write2.lines ∧ (0x42 : Line) ∉ write2.lines ∧
    ({ read1 with address := 0xFFFFFFFFFF, length := 1 } : UpRequest).lines = [0x3FFFFFFFF] ∧
    (0x201 : Line) ∈ twoKinds.lines ∧ (0x202 : Line) ∈ twoKinds.lines ∧
    attached.lineKind 0x201 ≠ attached.lineKind 0x202 ∧ write2.lines.map attached.lineKind = [.journal 0, .journal 0] := by
  decide

/-! ### The hold queue, the arbiter, the answers -/

theorem witness_release : (holding (.covered 3)).hold = [] ++ held (.covered 3) :: [] ∧
    (held (.covered 3)).released = false ∧ (∀ i ∈ (held (.covered 3)).items, ∃ q, i.stage = .covered q) ∧
    (held (.covered 3)).request.isWrite = true ∧ (holding (.covered 3)).downstream.forwardQueue.length < 16 ∧
    exec .release (holding (.covered 3)) = .next (after .release (holding (.covered 3))) := by
  refine ⟨rfl, rfl, ?_, by decide, by decide, rfl⟩
  intro i hi
  simp [held] at hi
  exact ⟨3, by rw [hi]; rfl⟩

/-- The append of line 40H's record is outstanding. -/
def appending : State :=
  { waitingFor (holding (.taken 3)) (.append 3) with
    log := { attached.log with head := 4, inFlight := [{ seq := 3, ctx := 1, failed := false }] } }

theorem witness_covered : (after (.appendAnswer 2 (.done [])) appending).hold = [held (.covered 3)] ∧
    (after (.appendAnswer 2 (.done [])) appending).log.covers 3 = true := by decide

theorem witness_capture : busy.due = ⟨1, 0x40⟩ :: [] ∧ busy.handable = busy.due := by decide

theorem witness_mayRead : (holding (.pending false)).working ∧ (holding (.pending false)).mayRead ⟨1, 0x40⟩ ∧
    (holding (.pending false)).due = [] ∧ busy.mayRead ⟨1, 0x40⟩ ∧ busy.due = [] ++ ⟨1, 0x40⟩ :: [] ∧
    (∀ ref, ¬ attached.mayRead ref) ∧ ∀ ref, ¬ (holding .reading).mayRead ref := by
  simp only [← State.handable_iff]
  refine ⟨⟨rfl, rfl⟩, by decide, by decide, by decide, by decide, fun ref => ?_, fun ref => ?_⟩
  · rw [show attached.handable = [] by decide]
    exact List.not_mem_nil
  · rw [show (holding .reading).handable = [] by decide]
    exact List.not_mem_nil

/-- An earlier entry covers the line: the read is not handed, even once that entry is released (R66). -/
def behind (released : Bool) : State :=
  { holding (.pending false) with
    hold := [{ held (.covered 3) with released := released, items := [] }, held (.pending false)], due := [⟨1, 0x40⟩] }

theorem witness_behind : (∀ released ref, ¬ (behind released).mayRead ref) ∧
    ∀ released, exec .captureReadHanded (behind released) = .next (behind released) := by
  refine ⟨fun released ref => ?_, fun released => by cases released <;> rfl⟩
  rw [← State.handable_iff, show (behind released).handable = [] by cases released <;> decide]
  exact List.not_mem_nil

/-- The first item of the first entry, with nothing noted before: its conditions one by one. -/
theorem witness_firstItem : (holding (.pending false)).hold = [] ++ held (.pending false) :: [] ∧
    (held (.pending false)).items = [] ++ { line := 0x40, stage := .pending false } :: [] ∧
    (holding (.pending false)).mayHand [] (held (.pending false)) { line := 0x40, stage := .pending false } := by
  refine ⟨rfl, rfl, by decide, rfl, ?_, fun x hx => absurd hx List.not_mem_nil⟩
  rw [← State.waits_iff]
  decide

theorem witness_notReady : (∀ before e after, (holding (.taken 3)).hold = before ++ e :: after →
      ¬ (holding (.taken 3)).isReady before e) ∧ 16 ≤ full.downstream.forwardQueue.length ∧
    (holding (.covered 3)).isReady [] (held (.covered 3)) ∧
    exec .release (holding (.taken 3)) = .next (holding (.taken 3)) := by
  refine ⟨fun before e after h => ?_, by decide, (State.isReady_iff _ _ _).1 (by decide), rfl⟩
  have hl : before.length = 0 := by
    have := congrArg List.length h
    simp [holding] at this
    omega
  obtain rfl := List.eq_nil_of_length_eq_zero hl
  have he : e = held (.taken 3) := by
    have := (List.cons.inj h).1
    exact this.symm
  rw [he, ← State.isReady_iff]
  decide

/-- Two requesters wait; FORWARD is line-locked. -/
def granting : State :=
  { waitingFor attached .anchor with
    downstream := { attached.downstream with
      outstanding := [{ tag := 0, owner := .anchor, lines := [0x40] }]
      order := [.forward, .capture, .anchor, .append, .restore, .scan]
      forwardQueue := [forwardEntry]
      captureList := [{ request := readRequest 0x1040 64, owner := .capture ⟨1, 0x41⟩ }] } }

theorem witness_grant : (∀ o ∈ granting.downstream.outstanding, o.tag ≠ 1) ∧
    granting.downstream.ranking = [.forward] ++ .capture :: [.anchor, .append, .restore, .scan] ∧
    (∃ o ∈ granting.downstream.outstanding, ∃ l ∈ o.lines, l ∈ forwardEntry.request.lines) ∧
    (∀ o ∈ granting.downstream.outstanding, ∀ l ∈ o.lines, l ∉ (readRequest 0x1040 64).lines) ∧
    (after .grant granting).downstream.outstanding.map (·.tag) = [0, 1] := by
  refine ⟨by decide, by decide, ⟨{ tag := 0, owner := .anchor, lines := [0x40] }, by decide, 0x40, by decide,
    by decide⟩, ?_, by decide⟩
  intro o ho l hl
  simp [granting] at ho
  subst ho
  simp at hl
  subst hl
  decide

/-- A SCAN write waits alone: a sweep write with the sweep at a position, or another one, in a journal state. -/
def scanGrant (j : JournalState) (step : AttachStep) (position : Nat) : State :=
  let s := inJournal j
  { s with
    attach := { s.attach with progress := { AttachProgress.reset with
      step := step, ringBase := 0x10000, slots := 64, position := BitVec.ofNat 32 position } }
    downstream := { s.downstream with
      scanList := [{ request := fullWrite 0x10000 (List.replicate 64 0), owner := .scan step true }] } }

theorem witness_sweepGrant : ∀ position ∈ [1, 63, 64],
    (scanGrant .attaching .sweeping position).working ∧
    (scanGrant .attaching .sweeping position).attach.progress.step = .sweeping ∧
    (scanGrant .attaching .sweeping position).attach.progress.failed = false ∧
    ((scanGrant .attaching .sweeping position).attach.progress.position.toNat <
      (scanGrant .attaching .sweeping position).attach.progress.slots.toNat ↔ position ≠ 64) ∧
    (scanGrant .attaching .sweeping position).downstream.ranking =
      [.anchor, .append, .capture, .forward, .restore] ++ .scan :: [] ∧
    (∀ u ∈ [Requester.anchor, .append, .capture, .forward, .restore],
      (scanGrant .attaching .sweeping position).downstream.waiting u = []) := by
  unfold State.working
  decide

/-- The sweep goes on to the last slot and no further; no other grant and no other journal state hands a write. -/
theorem test_sweepGrant :
    (after .grant (scanGrant .attaching .sweeping 63)).downstream.scanList.map (·.request.address) = [0x11F80] ∧
    (after .grant (scanGrant .attaching .sweeping 63)).attach.progress.position = 64 ∧
    (after .grant (scanGrant .attaching .sweeping 64)).downstream.scanList = [] ∧
    (after .grant (scanGrant .attaching .replaying 1)).downstream.scanList = [] ∧
    (after .grant (scanGrant .draining .sweeping 1)).downstream.scanList = [] ∧
    (after .grant (scanGrant .drained .sweeping 1)).out.requests.length = 1 := by decide

theorem witness_lowerTags : ∀ u : BitVec 4, u < 1 → ∃ o ∈ granting.downstream.outstanding, o.tag = u := by
  intro u hu
  exact ⟨{ tag := 0, owner := .anchor, lines := [0x40] }, by simp [granting], by simp; bv_omega⟩

theorem witness_allTags : ∀ u : BitVec 4, u ∈ downstreamTags := by decide

theorem witness_awaits (owner : Owner) : (waitingFor attached owner).awaits { tag := 2, owner := owner, lines := [] } ∧
    (waitingFor attached owner).modesOk ∧ (waitingFor attached owner).attach.journal = .attached ∧
    (waitingFor attached owner).pins.pfail = false := by
  refine ⟨⟨⟨rfl, rfl⟩, rfl⟩, ?_, rfl, rfl⟩
  show attached.modesOk
  unfold State.modesOk
  decide

theorem witness_stray : (∀ o ∈ attached.downstream.outstanding, o.tag ≠ 3) ∧ waiting.mgmt.waiting = true := by decide

theorem witness_straightAnswer :
    (waitingFor { attached with upstream := { attached.upstream with tags := [read1.tagEntry .issued] } }
      (.forward 6 .straight)).upstream.tags.find? (fun x => x.tag = (read1.tagEntry .issued).tag) =
        some (read1.tagEntry .issued) := by decide

/-- A released entry whose answer is due. -/
def forwarded : State := waitingFor releasedState (.forward 7 .held)

theorem witness_forwardedEntry : forwarded.awaits { tag := 2, owner := .forward 7 .held, lines := [] } ∧
    forwarded.hold = [] ++ { held (.covered 3) with released := true } :: [] ∧
    (∀ c, (forwarded.answered 2).engineReady c = false) ∧ forwarded.modesOk ∧
    (held (.covered 3)).ctx = some 1 ∧ (forwarded.contexts.get 1).state = .opened := by
  refine ⟨⟨⟨rfl, rfl⟩, by decide⟩, by decide, by decide, ?_, by decide, by decide⟩
  unfold State.modesOk
  decide

/-- The released entry fails while another of its context is unreleased, in a state of the context. -/
def failing (c : CtxState) : State :=
  { forwarded with
    contexts := (inContext c).contexts
    engine := (inContext c).engine
    hold := [{ held (.covered 3) with released := true }, { held (.pending false) with request := writeAt 0x1080 }] }

theorem witness_failing : (∀ c ∈ [CtxState.opened, .committing],
      (failing c).awaits { tag := 2, owner := .forward 7 .held, lines := [] } ∧
      (∀ d, ((failing c).answered 2).engineReady d = false) ∧ (failing c).modesOk) ∧
    (after (.forwardedEntryAnswer 2 .error) (failing .committing)).events.records.map (·.what) =
      [.requestFailed, .requestRefused .faulted, .contextFaulted .forwardError, .commitDone .failed] ∧
    ({ held (.covered 3) with journaled := false } : HoldEntry).journaled = false ∧
    (failing .faulted).modesOk ∧ (failing .faulted).attach.journal = .attached ∧
    ((failing .faulted).contexts.get 1).state = .faulted := by
  unfold State.awaits State.working State.modesOk
  decide

/-- The last journaled entry of context 1 waits for its answer, in a state of the context that settles. -/
def lastEntry (c : CtxState) (records : Nat) (filter : List FilterEntry) : State :=
  { forwarded with
    contexts := (inContext c).contexts.set 1 { (inContext c).contexts.get 1 with recordCount := records }
    engine := (inContext c).engine
    filter := filter }

theorem witness_lastEntry : ∀ c ∈ [CtxState.committing, .aborting],
    (lastEntry c 0 []).awaits { tag := 2, owner := .forward 7 .held, lines := [] } ∧ (lastEntry c 0 []).settlesAlone 1 ∧
    (lastEntry c 0 []).hold = [] ++ { held (.covered 3) with released := true } :: [] ∧
    ((lastEntry c 0 []).engine.get 1).procedure = c.procedure ∧ (lastEntry c 0 []).captureReads 1 = 0 ∧
    (lastEntry c 0 []).appendsUnanswered 1 = 0 ∧ (∀ d, ((lastEntry c 0 []).answered 2).engineReady d = false) ∧
    (lastEntry c 0 []).modesOk := by
  unfold State.awaits State.working State.settlesAlone State.modesOk
  decide

/-- A state once the last entry of context 1 has been answered DONE. -/
def lastDone (s : State) : State := after (.forwardedEntryAnswer 2 (.done [])) s

/-- Where each settling leads: by the records of the context, and by the filter entries left to it. -/
theorem test_settling_ends :
    (lastDone (lastEntry .committing 0 [])).events.records.map (·.what) = [.commitDone .committed] ∧
    (lastDone (lastEntry .committing 1 [])).log.requests = [.marker .commit 1 7 false] ∧
    (lastDone (lastEntry .aborting 0 [])).events.records.map (·.what) = [.abortDone .rolledBack] ∧
    ((lastDone (lastEntry .aborting 1 [⟨0x40, 1, .capturing, some 9⟩])).engine.get 1).phase = .covering ∧
    ((lastDone (lastEntry .aborting 1 [⟨0x40, 1, .logged, some 3⟩])).engine.get 1).replayStep = some .read ∧
    (lastDone (lastEntry .aborting 1 [])).log.requests = [.marker .aborted 1 7 false] ∧
    (after (.forwardedEntryAnswer 2 .error) (lastEntry .aborting 0 [])).events.records.map (·.what) =
      [.requestFailed, .abortDone .rolledBack] := by decide

/-- A pre-image read is outstanding. -/
def reading : State := waitingFor (holding .reading) (.capture ⟨1, 0x40⟩)

theorem witness_preImageRead : reading.awaits { tag := 2, owner := .capture ⟨1, 0x40⟩, lines := [] } ∧
    ⟨1, 0x40⟩ ∉ reading.kept ∧ (∃ e ∈ reading.hold, ∃ i ∈ e.items, i.line = 0x40 ∧ i.stage = .reading) ∧
    reading.modesOk ∧ (reading.contexts.get 1).state = .opened ∧
    reading.events.records.length + reading.hold.length < 32 ∧
    ⟨1, 0x40⟩ ∈ ({ reading with kept := [⟨1, 0x40⟩] } : State).kept := by
  refine ⟨⟨⟨rfl, rfl⟩, by decide⟩, by decide, by decide, ?_, by decide, by decide, by decide⟩
  unfold State.modesOk
  decide

/-- That read, with a number of free slots and LOG_FULL armed or not. -/
def readingFull (free : BitVec 32) (armed : Bool) : State :=
  { reading with log := { attached.log with head := 64 - free, logFullArmed := armed } }

/-- LOG_FULL is raised with 4 free slots while armed, and in no other case. -/
theorem test_log_full :
    (after (.captureReadAnswer 2 (.done [])) (readingFull 4 true)).events.records.map (·.what) = [.logFull] ∧
    (after (.captureReadAnswer 2 (.done [])) (readingFull 4 true)).log.logFullArmed = false ∧
    (after (.captureReadAnswer 2 (.done [])) (readingFull 4 false)).events.records = [] ∧
    (after (.captureReadAnswer 2 (.done [])) (readingFull 4 false)).log.logFullArmed = false ∧
    (after (.captureReadAnswer 2 (.done [])) (readingFull 5 true)).events.records = [] := by decide

/-- The kept read that an abort of context 1 waits for. -/
def keptLast : State := { waitingFor (inContext .aborting) (.capture ⟨1, 0x40⟩) with kept := [⟨1, 0x40⟩] }

theorem witness_keptLast : keptLast.awaits { tag := 2, owner := .capture ⟨1, 0x40⟩, lines := [] } ∧
    keptLast.settlesAlone 1 ∧ (keptLast.engine.get 1).procedure = .abort ∧ keptLast.journaledCount 1 = 0 ∧
    (keptLast.answered 2).captureReads 1 = 0 ∧ keptLast.appendsUnanswered 1 = 0 ∧
    (after (.captureReadAnswer 2 .error) keptLast).events.records.map (·.what) = [.abortDone .rolledBack] := by
  unfold State.awaits State.working State.settlesAlone
  decide

/-- The read of a COMMITTING context. -/
def readingCommit : State :=
  { reading with contexts := (inContext .committing).contexts, engine := (inContext .committing).engine }

theorem witness_readingCommit : (readingCommit.contexts.get 1).state = .committing ∧ readingCommit.modesOk ∧
    (after (.captureReadAnswer 2 .error) readingCommit).events.records.map (·.what) =
      [.requestRefused .faulted, .contextFaulted .captureError, .commitDone .failed] := by
  unfold State.modesOk
  decide

/-! ### The log -/

/-- Attached, with append requests and a number of free slots. -/
def asking (requests : List AppendRequest) (free : BitVec 32) : State :=
  { inContext .committing with
    engine := attached.engine.set 1 { Progress.reset with procedure := .commit, phase := .marking }
    log := { attached.log with requests := requests, head := 64 - free } }

theorem witness_appendTake (image : List Byte) :
    (asking [.preImage 1 0x40 image] 5).log.requests = .preImage 1 0x40 image :: [] ∧
    4 < ((asking [.preImage 1 0x40 image] 5).log.ringSize -
      ((asking [.preImage 1 0x40 image] 5).log.head - (asking [.preImage 1 0x40 image] 5).log.tail)).toNat ∧
    (asking [.preImage 1 0x40 image] 5).log.inFlight.length < 16 ∧
    ((asking [.preImage 1 0x40 image] 4).log.ringSize -
      ((asking [.preImage 1 0x40 image] 4).log.head - (asking [.preImage 1 0x40 image] 4).log.tail)).toNat ≤ 4 := by
  refine ⟨rfl, ?_, ?_, ?_⟩ <;> simp [asking, inContext, attached, LogWriter.reset]

/-- An image of the right length. -/
def image64 : List Byte := List.replicate 64 0

/-- The events of a take that leaves 4 slots free, by the requests, the WATERMARK and what is armed. -/
def takeEvents (requests : List AppendRequest) (free : BitVec 32) (watermark : Nat) (armed : Bool) : List Happening :=
  (after (.appendTake ()) { asking requests free with
    items := { geometry with watermark := watermark }
    log := { (asking requests free).log with logFullArmed := armed, logLowArmed := armed } }).events.records.map (·.what)

/-- LOG_LOW and LOG_FULL at their boundaries: free 4 after the take against 5 and 4 as the WATERMARK, and 5 free. -/
theorem test_take_events :
    takeEvents [.preImage 1 0x40 image64, .preImage 1 0x41 image64] 5 5 true = [.logLow, .logFull] ∧
    takeEvents [.preImage 1 0x40 image64, .preImage 1 0x41 image64] 5 4 true = [.logFull] ∧
    takeEvents [.preImage 1 0x40 image64, .preImage 1 0x41 image64] 6 0 true = [] ∧
    takeEvents [.preImage 1 0x40 image64, .preImage 1 0x41 image64] 5 5 false = [] ∧
    takeEvents [.preImage 1 0x40 image64] 5 0 true = [] ∧
    takeEvents [.preImage 1 0x40 image64, .marker .commit 1 7 false] 5 5 true = [.logLow, .logFull] ∧
    takeEvents [.preImage 1 0x40 image64, .marker .commit 1 7 false] 5 5 false = [] := by decide

/-- A marker is taken ahead of a PRE_IMAGE request that waits, with many places left (R86). -/
theorem test_marker_ahead :
    (after (.appendTake ()) (asking [.preImage 1 0x40 [], .marker .commit 1 7 false] 5)).log.requests =
      [.preImage 1 0x40 []] := by decide

theorem witness_marker : (∀ d, (asking [.marker .commit 1 7 false] 1).engineReady d = false) ∧
    ((asking [.marker .commit 1 7 false] 1).engine.get 1).phase = .marking ∧
    1 ≤ ((asking [.marker .commit 1 7 false] 1).log.ringSize -
      ((asking [.marker .commit 1 7 false] 1).log.head - (asking [.marker .commit 1 7 false] 1).log.tail)).toNat ∧
    (asking [.marker .commit 1 7 false] 1).attach.journal = .attached := by decide

theorem witness_appendAnswer : (waitingFor attached (.append 3)).awaits { tag := 2, owner := .append 3, lines := [] } ∧
    (∀ c, ((waitingFor attached (.append 3)).engine.get c).procedure = .none) ∧
    (inJournal .detaching).attach.journal = .detaching := ⟨⟨⟨rfl, rfl⟩, rfl⟩, by decide, rfl⟩

/-- The append of sequence 3 is outstanding while context 1 runs a procedure, with a filter. -/
def procedureWaits (c : CtxState) (phase : Phase) (markerSeq : Option Seq) (filter : List FilterEntry) : State :=
  waitingFor { inContext c with
    engine := attached.engine.set 1
      { Progress.reset with procedure := c.procedure, phase := phase, markerSeq := markerSeq }
    filter := filter
    log := { attached.log with head := 4, inFlight := [{ seq := 3, ctx := 1, failed := false }] } } (.append 3)

theorem witness_procedureWaits (c : CtxState) (phase : Phase) (markerSeq : Option Seq) (filter : List FilterEntry) :
    (procedureWaits c phase markerSeq filter).awaits { tag := 2, owner := .append 3, lines := [] } ∧
    ((procedureWaits c phase markerSeq filter).engine.get 1).procedure = c.procedure ∧
    ((procedureWaits c phase markerSeq filter).engine.get 1).phase = phase ∧
    ((procedureWaits c phase markerSeq filter).engine.get 1).markerSeq = markerSeq ∧
    ((procedureWaits c phase markerSeq filter).engine.get 1).replayStep = none ∧
    (procedureWaits c phase markerSeq filter).filter = filter ∧
    ∀ d, d ≠ 1 → ((procedureWaits c phase markerSeq filter).engine.get d).procedure = .none := by
  refine ⟨⟨⟨rfl, rfl⟩, rfl⟩, rfl, rfl, rfl, rfl, rfl, ?_⟩
  intro d h
  fin_cases d
  · rfl
  · exact absurd rfl h
  · rfl
  · rfl

/-- An append answer lets a commit and a rollback complete, and a rollback begin its replay or ask for its marker. -/
theorem test_appendAnswer_moves :
    (after (.appendAnswer 2 (.done [])) (procedureWaits .committing .marking (some 3) [])).events.records.map (·.what) =
      [.commitDone .committed] ∧
    (after (.appendAnswer 2 (.done [])) (procedureWaits .aborting .marking (some 3) [])).events.records.map (·.what) =
      [.abortDone .rolledBack] ∧
    (after (.appendAnswer 2 (.done [])) (procedureWaits .committing .marking (some 9) [])).events.records = [] ∧
    ((after (.appendAnswer 2 (.done []))
      (procedureWaits .aborting .covering none [⟨0x40, 1, .capturing, some 3⟩])).engine.get 1).phase = .replaying ∧
    ((after (.appendAnswer 2 (.done []))
      (procedureWaits .aborting .covering none [⟨0x40, 1, .capturing, some 9⟩])).engine.get 1).phase = .covering ∧
    ((after (.appendAnswer 2 (.done [])) (procedureWaits .aborting .covering none [])).engine.get 1).phase = .marking := by
  decide

/-- A rollback that settles by this answer alone, and one that replays while the append is outstanding. -/
theorem witness_appendSettles :
    (procedureWaits .aborting .settling none []).settlesAlone 1 ∧
    (procedureWaits .aborting .settling none []).journaledCount 1 = 0 ∧
    (procedureWaits .aborting .settling none []).captureReads 1 = 0 ∧
    (procedureWaits .aborting .settling none []).appendsUnanswered 1 = 1 ∧
    (after (.appendAnswer 2 (.done [])) (procedureWaits .aborting .settling none [])).events.records.map (·.what) =
      [.abortDone .rolledBack] ∧
    (after (.appendAnswer 2 (.done []))
      { procedureWaits .aborting .replaying none [⟨0x40, 1, .logged, some 1⟩] with
        engine := attached.engine.set 1
          { Progress.reset with procedure := .abort, phase := .replaying, replayStep := some .read
                                replayList := [⟨0x40, 1, .logged, some 1⟩] } }).events.records = [] := by
  unfold State.settlesAlone
  decide

/-- An append error once the journal drains, has drained or is broken. -/
def lateAppend (j : JournalState) : State :=
  { waitingFor (inJournal j) (.append 3) with
    log := { attached.log with head := 4, inFlight := [{ seq := 3, ctx := 1, failed := false }] } }

theorem witness_lateAppend : (∀ j ∈ [JournalState.draining, .broken, .drained],
      (lateAppend j).awaits { tag := 2, owner := .append 3, lines := [] } ∧ (lateAppend j).attach.journal = j ∧
      (after (.appendAnswer 2 .error) (lateAppend j)).log.inFlight = [{ seq := 3, ctx := 1, failed := true }]) ∧
    (after (.appendAnswer 2 .error) (lateAppend .draining)).events.records.map (·.what) =
      [.journalBroken .appendError] ∧
    (after (.appendAnswer 2 .error) (lateAppend .drained)).events.records = [] := by
  unfold State.awaits State.working
  decide

/-- Attached with a ring of `slots` slots, `used` of them used. -/
def ringUsed (slots used : BitVec 32) : State :=
  { attached with log := { attached.log with ringSize := slots, head := used } }

theorem witness_reclaim : (ringUsed 64 64).working ∧ (ringUsed 64 64).log.anchor = none ∧
    min (ringUsed 64 64).items.anchorStep (ringUsed 64 64).log.ringSize.toNat ≤
      ((ringUsed 64 64).reclaimLimit - (ringUsed 64 64).log.tail).toNat ∧
    (ringUsed 64 59).log.freeSlots.toNat = 5 ∧
    0 < ((ringUsed 64 59).reclaimLimit - (ringUsed 64 59).log.tail).toNat ∧
    (∀ c, (attached.contexts.get c).state = .idle ∨ (attached.contexts.get c).firstSeq = none) ∧
    ((withRecords []).contexts.get 1).state ≠ .idle ∧ ((withRecords []).contexts.get 1).firstSeq = some 0 := by
  unfold State.working
  decide

/-- Not due one slot short of ANCHOR_STEP, nor with 6 free slots; due at the step, and with 5. -/
theorem test_reclaim_bounds : (ringUsed 128 63).reclaimDue = false ∧ (ringUsed 64 58).reclaimDue = false ∧
    (ringUsed 128 64).reclaimDue = true ∧ (ringUsed 64 59).reclaimDue = true ∧
    (ringUsed 64 0).reclaimDue = false := by decide

/-- A current anchor. -/
def anchor1 (state : AnchorState) : AnchorCopy := { generation := 1, state := state, tail := 0, nextEpochs := Quad.all 0 }

/-- An anchor write in flight. -/
def anchoring (j : JournalState) (issuer : Issuer) (attaching : Bool) (step : AttachStep) (state : AnchorState) : State :=
  let s := waitingFor (inJournal j) .anchor
  { s with
    log := { s.log with
      anchor := some { generation := some 1, tail := some 0, issuer := issuer, attaching := attaching } }
    attach := { s.attach with
      progress := { AttachProgress.reset with step := step, slots := 64, current := some (anchor1 state) } } }

theorem witness_anchorAnswer (j : JournalState) (issuer : Issuer) (attaching : Bool) (step : AttachStep)
    (state : AnchorState) :
    (anchoring j issuer attaching step state).awaits { tag := 2, owner := .anchor, lines := [] } ∧
    (anchoring j issuer attaching step state).log.anchor =
      some { generation := some 1, tail := some 0, issuer := issuer, attaching := attaching } ∧
    (anchoring j issuer attaching step state).attach.journal = j ∧
    (anchoring j issuer attaching step state).attach.progress.step = step ∧
    (anchoring j issuer attaching step state).attach.progress.current = some (anchor1 state) ∧
    (anchoring j issuer attaching step state).attach.progress.slots ≠ 0 ∧
    (anchoring j issuer attaching step state).pins.pfail = false :=
  ⟨⟨⟨rfl, rfl⟩, rfl⟩, rfl, rfl, rfl, rfl, by simp [anchoring], rfl⟩

/-- An anchor write in flight while a PRE_IMAGE request waits, with a number of used slots. -/
def anchoringFull (used : BitVec 32) (armed : Bool) : State :=
  let s := anchoring .attached .logWriter false .none .clean
  { s with log := { s.log with head := used, logFullArmed := armed, requests := [.preImage 1 0x40 []] } }

/-- DONE re-arms LOG_FULL with 5 free slots; with 4 the request is looked at with LOG_FULL as it was. -/
theorem test_anchor_full :
    (after (.anchorWriteAnswer 2 (.done [])) (anchoringFull 59 false)).log.logFullArmed = true ∧
    (after (.anchorWriteAnswer 2 (.done [])) (anchoringFull 59 false)).events.records = [] ∧
    (after (.anchorWriteAnswer 2 (.done [])) (anchoringFull 60 false)).log.logFullArmed = false ∧
    (after (.anchorWriteAnswer 2 (.done [])) (anchoringFull 60 true)).events.records.map (·.what) = [.logFull] := by
  decide

/-- What each anchor answer leads to. -/
theorem test_anchorAnswer :
    (after (.anchorWriteAnswer 2 (.done [])) (anchoring .detaching .attachEngine false .none .clean)).attach.journal =
      .detached ∧
    (after (.anchorWriteAnswer 2 .error) (anchoring .attached .logWriter false .none .clean)).attach.journal = .broken ∧
    (after (.anchorWriteAnswer 2 .error) (anchoring .draining .logWriter false .none .clean)).attach.drain.anchorError =
      true ∧
    (after (.anchorWriteAnswer 2 .error) (anchoring .drained .logWriter false .none .clean)).events.records = [] ∧
    (after (.anchorWriteAnswer 2 (.done [])) (anchoring .attaching .attachEngine true (.invalidating false)
      .clean)).attach.progress.step = .invalidating true ∧
    (after (.anchorWriteAnswer 2 (.done [])) (anchoring .attaching .attachEngine true (.invalidating true)
      .clean)).attach.progress.step = .sweeping ∧
    (after (.anchorWriteAnswer 2 (.done [])) (anchoring .attaching .attachEngine true .finalAnchor
      .active)).attach.report.result = some .recovered ∧
    (after (.anchorWriteAnswer 2 .error) (anchoring .attaching .attachEngine true .finalAnchor
      .clean)).attach.journal = .detached := by decide

/-! ### Rollback, recovery, drain -/

/-- A rollback that replays, with a list and a step. -/
def replaying (list : List FilterEntry) (step : ReplayStep) : State :=
  waitingFor { inContext .aborting with
    engine := attached.engine.set 1
      { Progress.reset with procedure := .abort, phase := .replaying, replayList := list, replayStep := some step } }
    (.restore 1 step)

/-- A LOGGED entry of context 1. -/
def logged (l : Line) (q : Seq) : FilterEntry := { line := l, owner := 1, state := .logged, seq := some q }

theorem witness_rollback (step : ReplayStep) :
    (replaying [logged 0x40 3, logged 0x41 1] step).awaits { tag := 2, owner := .restore 1 step, lines := [] } ∧
    ((replaying [logged 0x40 3, logged 0x41 1] step).engine.get 1).procedure = .abort ∧
    ((replaying [logged 0x40 3, logged 0x41 1] step).engine.get 1).phase = .replaying ∧
    ((replaying [logged 0x40 3, logged 0x41 1] step).engine.get 1).replayStep = some step ∧
    ((replaying [logged 0x40 0] step).engine.get 1).replayList = [logged 0x40 0] ∧
    ((replaying [logged 0x40 0] step).engine.get 1).markerSeq = none ∧
    ((replaying [logged 0x40 3, logged 0x41 1] step).answered 2).othersRest 1 := by
  refine ⟨⟨⟨rfl, rfl⟩, by cases step <;> decide⟩, rfl, rfl, rfl, rfl, rfl, ?_⟩
  unfold State.othersRest
  cases step <;> decide

/-- A record of context 1, epoch 7, of line 40H, sequence 3. -/
def record3 : List Byte := preImageBytes 3 1 7 0x40 (List.replicate 64 0x11)

theorem test_record_reads_back : restoreCheckPasses record3 3 1 7 0x40 = true := by decide +kernel

/-- Each check of R91 refuses a slot on its own. -/
theorem test_restore_checks : record3.length = 128 ∧ restoreCheckPasses (record3.set 0 0) 3 1 7 0x40 = false ∧
    restoreCheckPasses record3 4 1 7 0x40 = false ∧ restoreCheckPasses record3 3 2 7 0x40 = false ∧
    restoreCheckPasses record3 3 1 8 0x40 = false ∧ restoreCheckPasses record3 3 1 7 0x41 = false ∧
    restoreCheckPasses (record3.set 24 0) 3 1 7 0x40 = false ∧
    restoreCheckPasses (markerBytes 3 .commit 1 7 false ++ List.replicate 64 0) 3 1 7 0x40 = false := by
  decide +kernel

/-- The tests of R104 refuse a slot of another sequence, kind, context, line address or check word. -/
theorem test_record_refused : acceptSlot record3 4 = none ∧ acceptSlot (record3.set 0 0) 3 = none ∧
    acceptSlot (record3.set 8 4) 3 = none ∧ acceptSlot (record3.set 9 4) 3 = none ∧
    acceptSlot (record3.set 16 1) 3 = none ∧ acceptSlot (record3.set 24 0) 3 = none := by decide +kernel

/-- An entry that passes is written back; one that fails, and an ERROR, skip it; the next one, or the marker, follows. -/
theorem test_rollback_steps :
    ((after (.restoreReadAnswer 2 (.done record3)) (replaying [logged 0x40 3] .read)).engine.get 1).replayStep =
      some .write ∧
    (after (.restoreReadAnswer 2 (.done [])) (replaying [logged 0x40 3] .read)).log.requests =
      [.marker .aborted 1 7 true] ∧
    (after (.restoreReadAnswer 2 .error) (replaying [logged 0x40 3, logged 0x41 1] .read)).downstream.restoreList.map
      (·.request.address) = [0x10080] ∧
    (after (.restoreWriteAnswer 2 (.done [])) (replaying [logged 0x40 3] .write)).log.requests =
      [.marker .aborted 1 7 false] ∧
    ((after (.restoreWriteAnswer 2 .error) (replaying [logged 0x40 3, logged 0x41 1] .write)).engine.get 1).incomplete =
      true := by decide +kernel

theorem test_record_accepted :
    (acceptSlot record3 3).map (fun r => (r.ctx, r.epoch, r.line)) = some (1, 7, 0x40) := by decide +kernel

/-- An attach at a step, with a number of slots scanned and what the scan found of context 1. -/
def attachingAt (step : AttachStep) (isWrite : Bool) (position : Seq) (scanned : Nat) (found : Recovery) : State :=
  let s := waitingFor (inJournal .attaching) (.scan step isWrite)
  { s with attach := { s.attach with progress := { AttachProgress.reset with
      step := step, slots := 64, position := position, scanned := scanned
      recovery := (Quad.all Recovery.reset).set 1 found
      current := some (anchor1 .active) } } }

theorem witness_scan (step : AttachStep) (isWrite : Bool) (position : Seq) (scanned : Nat) (found : Recovery) :
    (attachingAt step isWrite position scanned found).awaits { tag := 2, owner := .scan step isWrite, lines := [] } ∧
    (attachingAt step isWrite position scanned found).attach.journal = .attaching ∧
    (attachingAt step isWrite position scanned found).attach.progress.step = step ∧
    (attachingAt step isWrite position scanned found).attach.progress.current = some (anchor1 .active) ∧
    ((attachingAt step isWrite position scanned found).attach.progress.scanned + 1 =
      (attachingAt step isWrite position scanned found).attach.progress.slots.toNat ↔ scanned = 63) ∧
    (attachingAt step isWrite position scanned found).pins.pfail = false ∧
    readAnchorCopy (List.replicate 64 0) = none ∧ acceptSlot (List.replicate 128 0) 3 = none := by
  refine ⟨⟨⟨rfl, rfl⟩, ?_⟩, rfl, rfl, rfl, ?_, rfl, by decide, by decide⟩
  · simp [attachingAt, waitingFor]
  · simp [attachingAt]

/-- An answer of a scan that a drain has ended is discarded (R117). -/
theorem test_scan_discarded :
    exec (.scanReadAnswer 2 .error) (waitingFor (inJournal .draining) (.scan .scanning false)) =
      .next (inJournal .draining) ∧
    exec (.scanWriteAnswer 2 .error) (waitingFor (inJournal .draining) (.scan .replaying true)) =
      .next (inJournal .draining) := ⟨rfl, rfl⟩

/-- What a scan found of an epoch that is open, and of one that has ended. -/
def foundOpen : Recovery := { latest := some 7, finished := false, first := some 3 }

def foundEnded : Recovery := { latest := some 7, finished := true, first := some 3 }

/-- Anchor slots read back: CLEAN, and ACTIVE. -/
theorem test_anchor_states :
    (currentAnchor (anchorBytes (anchor1 .clean) ++ List.replicate 64 0)).map (·.state) = some .clean ∧
    (currentAnchor (anchorBytes (anchor1 .active) ++ List.replicate 64 0)).map (·.state) = some .active := by
  decide +kernel

/-- The scan goes on, ends at the S-th slot, and ends at a slot not accepted. -/
theorem test_scan_steps :
    (after (.scanReadAnswer 2 (.done record3)) (attachingAt .scanning false 3 5 .reset)).attach.progress.step =
      .scanning ∧
    (after (.scanReadAnswer 2 (.done record3)) (attachingAt .scanning false 3 63 .reset)).attach.progress.step =
      .replaying ∧
    (after (.scanReadAnswer 2 (.done [])) (attachingAt .scanning false 3 5 foundEnded)).attach.progress.step =
      .finalAnchor := by decide +kernel

/-- A replay read is written back, or passed over. -/
theorem test_replay_steps :
    (after (.scanReadAnswer 2 (.done record3)) (attachingAt .replaying false 3 5 foundOpen)).downstream.scanList.map
      (·.request.address) = [0x1000] ∧
    (after (.scanReadAnswer 2 (.done record3)) (attachingAt .replaying false 3 5 foundEnded)).downstream.scanList.map
      (·.request.length) = [128] ∧
    (after (.scanReadAnswer 2 (.done [])) (attachingAt .replaying false 3 5 foundOpen)).attach.report.result =
      some .failedRestore := by decide +kernel

/-- A sweep write is outstanding beside another one, or alone, after an error or before. -/
def sweeping (other failed : Bool) : State :=
  let s := attachingAt .sweeping true 5 0 .reset
  { s with
    attach := { s.attach with progress := { s.attach.progress with failed := failed } }
    downstream := { s.downstream with outstanding := s.downstream.outstanding ++
      if other then [{ tag := 3, owner := .scan .sweeping true, lines := [] }] else [] } }

theorem witness_sweep (other failed : Bool) :
    (sweeping other failed).awaits { tag := 2, owner := .scan .sweeping true, lines := [] } ∧
    (sweeping other failed).downstream.scanList = [] ∧ (sweeping other failed).attach.progress.failed = failed ∧
    (sweeping other failed).pins.pfail = false ∧
    ((∃ o ∈ (sweeping other failed).downstream.outstanding, o.tag ≠ 2 ∧ o.owner = .scan .sweeping true) ↔
      other = true) := by
  cases other <;> cases failed <;> exact ⟨⟨⟨rfl, rfl⟩, by decide⟩, rfl, rfl, rfl, by decide⟩

theorem witness_leavesOpen : ∀ c, ({ AttachProgress.reset with recovery := (Quad.all Recovery.reset).set 1 foundOpen } :
    AttachProgress).leavesOpen c ↔ c = 1 := by
  unfold AttachProgress.leavesOpen
  decide

/-- Two contexts' records decide where a replay ends. -/
theorem witness_replayEnd :
    ({ AttachProgress.reset with recovery := (Quad.all Recovery.reset).set 1 ⟨some 7, false, some 3⟩ } :
      AttachProgress).replayEnd 0 = some 3 ∧
    ({ AttachProgress.reset with recovery := (Quad.all Recovery.reset).set 1 ⟨some 7, false, some 3⟩ } :
      AttachProgress).replayEnd 0 ≠ some 4 := by decide

theorem witness_engineAnchors : (inJournal .detaching).log.anchor = none ∧ (inJournal .detaching).hold = [] ∧
    (inJournal .detaching).log.inFlight = [] ∧
    (∀ origin ∈ [JournalState.attached, .detaching], (after .pfailAsserted (inJournal origin)).attach.journal = .draining ∧
      (after .pfailAsserted (inJournal origin)).attach.drain.origin = some origin ∧
      (after .pfailAsserted (inJournal origin)).attach.drain.finalIssued = false ∧
      (after .pfailAsserted (inJournal origin)).downstream.idle = true) := by decide

theorem witness_drained :
    (∀ origin ∈ [JournalState.broken, .attaching],
      (after .pfailAsserted (inJournal origin)).attach.journal = .draining ∧
      (after .pfailAsserted (inJournal origin)).attach.drain.detail = none ∧
      (after .pfailAsserted (inJournal origin)).attach.drain.origin = some origin ∧
      (after .pfailAsserted (inJournal origin)).downstream.idle = true) ∧
    ({ after .pfailAsserted attached with
        attach := { (after .pfailAsserted attached).attach with
          drain := { DrainRecord.reset with detail := some .written } } } : State).attach.drain.detail =
      some .written := by decide

/-- An anchor of a generation. -/
def anchorOf (generation : Seq) : List Byte := anchorBytes { anchor1 .active with generation := generation }

/-- The generation of the anchor that is current. -/
def currentGeneration (low high : List Byte) : Option Seq := (currentAnchor (low ++ high)).map (·.generation)

/-- A copy whose sync or check word fails is refused; the other one is current. Of two, the one serially greater is, and of
equal generations copy 0. -/
theorem test_anchor_current : (anchorOf 9).length = 64 ∧ readAnchorCopy ((anchorOf 9).set 0 0) = none ∧
    readAnchorCopy ((anchorOf 9).set 32 0) = none ∧ readAnchorCopy ((anchorOf 9).set 16 1) = none ∧
    currentGeneration ((anchorOf 9).set 0 0) (anchorOf 3) = some 3 ∧
    currentGeneration (anchorOf 3) ((anchorOf 9).set 33 0) = some 3 ∧
    currentGeneration (anchorOf 9) (anchorOf 3) = some 9 ∧ currentGeneration (anchorOf 3) (anchorOf 9) = some 9 ∧
    currentGeneration (anchorOf 0xFFFFFFFF) (anchorOf 1) = some 1 ∧
    currentGeneration (anchorOf 0) (anchorOf 0x7FFFFFFF) = some 0x7FFFFFFF ∧
    currentGeneration (anchorOf 0) (anchorOf 0x80000001) = some 0 ∧
    currentAnchor (anchorBytes (anchor1 .clean) ++ anchorBytes (anchor1 .active)) = some (anchor1 .clean) := by
  decide +kernel

theorem witness_anchors : ((0x80000000 : Seq) - 0).toNat = 2 ^ 31 ∧ 0 < ((1 : Seq) - 0xFFFFFFFF).toInt ∧
    readAnchorCopy (anchorOf 0) ≠ none ∧ readAnchorCopy (anchorOf 0x80000000) ≠ none := by decide +kernel

/-- The header of 12_formats.md 12.6, from its sync word to the byte before its check word, and the marker's flag. -/
theorem test_header_bytes :
    (preImageBytes 0x10F 2 0xA3 (0x12345640 >>> 6) (List.replicate 64 0)).take 24 =
      [0xA1, 0x57, 0x3C, 0x9E, 0x0F, 0x01, 0, 0, 0x01, 0x02, 0, 0, 0xA3, 0, 0, 0, 0x40, 0x56, 0x34, 0x12, 0, 0, 0, 0] ∧
    ((markerBytes 1 .aborted 3 5 true).drop 8).take 4 = [0x03, 0x03, 0x01, 0] ∧
    ((anchorBytes { anchor1 .clean with tail := 0x102 }).take 16) =
      [0x57, 0xA1, 0x3C, 0x9E, 1, 0, 0, 0, 0x01, 0, 0, 0, 0x02, 0x01, 0, 0] := by decide +kernel

theorem witness_formats : (Instr.openEpoch 1 0).wellFormed = true ∧ frameBytes (.openEpoch 1 0) = some [0x06, 0x01] ∧
    (List.replicate 64 (0 : Byte)).length = 64 ∧ (0 : BitVec 32) = 0xFFFFFFFF + 1 := by decide

end Sys2Proof.Tests
end

section
/-! What one command can do to the state, said once: the invariants of every step are proved case by case from it. -/

namespace Sys2Proof.Machine

/-- What taking a command can make of a state. A frame, whole or in part, runs at most one command of the host and changes the
link and MDO beside it. -/
inductive State.Moves (s : State) : State → Prop where
  | link (m : ManagementLink) (o : Outputs) : s.Moves { s with mgmt := m, out := o }
  | command (c : FrameCommand) (m : ManagementLink) (o : Outputs) :
      s.Moves { (runCommand c s).1 with mgmt := m, out := o }
  | powerOn : s.Moves s.powerOn
  | releaseReset : s.Moves s.releaseReset
  | assertPfail : s.Moves s.assertPfail
  | deassertPfail : s.Moves s.deassertPfail
  | volatileReset : s.Moves s.volatileReset
  | request (arrival : Option UpRequest) : s.Moves (s.arrive arrival).takeFromLink
  | reclassify : s.Moves s.reclassify
  | release : s.Moves s.release
  | captureHanded : s.Moves s.captureHanded
  | grant : s.Moves s.grant
  | answer (tag : BitVec 4) (a : Answer) : s.Moves (s.takeAnswer tag a)
  | appendTake : s.Moves s.appendTake
  | reclaim : s.Moves s.reclaim
  | cleanAnchor : s.Moves s.cleanAnchor
  | finalDrainAnchor : s.Moves s.finalDrainAnchor
  | endDrain : s.Moves s.endDrain

/-- The bytes of a frame run one command, or none. -/
theorem frameRun_moves (s : State) (bytes : List Byte) (m : ManagementLink) (o : Outputs) :
    s.Moves { (frameRun bytes s).1 with mgmt := m, out := o } := by
  unfold frameRun
  cases frameCommand bytes with
  | none => exact .link m o
  | some c => exact .command c m o

/-- A frame runs its own command, that of all the bytes of a frame in progress, or none. -/
theorem State.frame_moves (s : State) (bytes : List Byte) (run : State → State × Reply)
    (h : ∀ m o, s.Moves { (run s).1 with mgmt := m, out := o }) : s.Moves (s.frame bytes run) := by
  unfold State.frame
  split
  · exact .link _ _
  · dsimp only
    split
    · exact frameRun_moves s _ _ _
    · exact h _ _

theorem State.frameOf_moves (s : State) (c : FrameCommand) (extra : Nat) : s.Moves (s.frameOf c extra) :=
  s.frame_moves _ _ fun m o => .command c m o

/-- Every row of the table does one of these things. -/
theorem exec_moves {i : Instr} {s t : State} (h : exec i s = .next t) : s.Moves t := by
  cases i
  case malformedFrame part =>
    cases part <;> obtain rfl := Host.Outcome.next.inj h
    · exact s.frame_moves _ _ fun m o => frameRun_moves s _ m o
    · exact .link _ _
  all_goals obtain rfl := Host.Outcome.next.inj h
  case powerOnReset => exact .powerOn
  case rstRelease => exact .releaseReset
  case pfailAsserted => exact .assertPfail
  case pfailDeasserted => exact .deassertPfail
  case volatileReset => exact .volatileReset
  case upstreamRequest arrival => exact .request arrival
  case headReclassified => exact .reclassify
  case release => exact .release
  case captureReadHanded => exact .captureHanded
  case grant => exact .grant
  case appendTake => exact .appendTake
  case reclamationAnchorWrite => exact .reclaim
  case cleanAnchorWrite => exact .cleanAnchor
  case finalDrainAnchorWrite => exact .finalDrainAnchor
  case drained => exact .endDrain
  case straightAnswer | forwardedEntryAnswer | captureReadAnswer | appendAnswer | anchorWriteAnswer | restoreReadAnswer |
      restoreWriteAnswer | scanReadAnswer | scanWriteAnswer | strayAnswer => exact .answer _ _
  all_goals exact s.frameOf_moves _ _

/-- What every move keeps, every step keeps: a step changes the queue beside it. -/
theorem step_invariant {P : State → Prop} (hq : ∀ (s : State) (rest : List Instr), P s → P { s with pending := rest })
    (hm : ∀ s t : State, P s → s.Moves t → P t) {s t : State} (hs : P s) (h : step s = .next t) : P t := by
  unfold step at h
  split at h
  · obtain rfl := Host.Outcome.next.inj h
    exact hs
  · exact hm _ t (hq s _ hs) (exec_moves h)

end Sys2Proof.Machine
end

section
/-! The line filter keeps its form: most moves only take entries away, and a context turns IDLE only where it owns none
afterwards. Admission, an append's take and the frontier add and change entries, and are looked at each on its own. -/

namespace Sys2Proof.Machine

/-- `t` has no filter entry that `s` has not, and what is IDLE in `t` alone owns none there. -/
structure State.Narrows (s t : State) : Prop where
  filter : t.filter.Sublist s.filter
  idle : ∀ c, (t.contexts.get c).state = .idle → (s.contexts.get c).state = .idle ∨ ∀ e ∈ t.filter, e.owner ≠ c

theorem State.Narrows.of_eq {s t : State} (hf : t.filter = s.filter) (hc : t.contexts = s.contexts) : s.Narrows t :=
  ⟨hf ▸ List.Sublist.refl _, fun _ h => .inl (hc ▸ h)⟩

theorem State.Narrows.of_sublist {s t : State} (hf : t.filter.Sublist s.filter) (hc : t.contexts = s.contexts) :
    s.Narrows t :=
  ⟨hf, fun _ h => .inl (hc ▸ h)⟩

theorem State.Narrows.refl (s : State) : s.Narrows s := .of_eq rfl rfl

theorem State.Narrows.trans {s t u : State} (h : s.Narrows t) (k : t.Narrows u) : s.Narrows u := by
  refine ⟨k.filter.trans h.filter, fun c hc => ?_⟩
  rcases k.idle c hc with ht | ht
  · exact (h.idle c ht).imp_right fun hn e he => hn e (k.filter.subset he)
  · exact .inr ht

/-- What narrows a state with the same filter and contexts narrows this one. -/
theorem State.Narrows.after {s t u : State} (h : t.Narrows u) (hf : t.filter = s.filter) (hc : t.contexts = s.contexts) :
    s.Narrows u :=
  (State.Narrows.of_eq hf hc).trans h

theorem State.Narrows.foldl {α : Type} {f : State → α → State} (h : ∀ (s : State) x, s.Narrows (f s x)) (l : List α)
    (s : State) : s.Narrows (l.foldl f s) := by
  induction l generalizing s with
  | nil => exact .refl s
  | cons x rest ih => exact (h s x).trans (ih (f s x))

/-- What narrows keeps the form of the filter. -/
theorem State.Narrows.filterOk {s t : State} (h : s.Narrows t) (hs : s.filterOk) : t.filterOk := by
  obtain ⟨hw, hl, hi⟩ := hs
  refine ⟨filterWf_sublist hw h.filter, fun e he => hl e (h.filter.subset he), fun c hc e he => ?_⟩
  rcases h.idle c hc with hs | hn
  · exact hi c hs e (h.filter.subset he)
  · exact hn e he

/-- The form of the filter rests on the filter and on which contexts are IDLE. -/
theorem State.filterOk.congr {s t : State} (hs : s.filterOk) (hf : t.filter = s.filter) (hc : t.contexts = s.contexts) :
    t.filterOk := (State.Narrows.of_eq hf hc).filterOk hs

/-! ## The epoch engine, faults, breaks and drains -/

/-- A context that is IDLE after a record changed was IDLE before, unless the new record made it so. -/
theorem idle_of_set {q : Quad ContextRecord} {c d : Ctx} {r : ContextRecord}
    (h : r.state = .idle → (q.get c).state = .idle) (hd : ((q.set c r).get d).state = .idle) :
    (q.get d).state = .idle := by
  rw [Quad.get_set] at hd
  split at hd
  · next e => exact e ▸ h hd
  · exact hd

theorem State.setContext_narrows (s : State) (c : Ctx) (r : ContextRecord)
    (h : r.state = .idle → (s.contexts.get c).state = .idle) : s.Narrows (s.setContext c r) := by
  exact ⟨by simp, fun d hd => .inl (idle_of_set h hd)⟩

theorem State.setProgress_narrows (s : State) (c : Ctx) (p : Progress) : s.Narrows (s.setProgress c p) :=
  .of_eq (by simp) (by simp)

/-- A context that returns to IDLE releases its entries (R12, R28). -/
theorem State.toIdle_narrows {s t : State} {c : Ctx} (hf : t.filter = s.filter.filter fun e => e.owner ≠ c)
    (hc : t.contexts = s.contexts.set c (s.contexts.get c).toIdle) : s.Narrows t := by
  refine ⟨hf ▸ List.filter_sublist, fun d hd => ?_⟩
  by_cases h : d = c
  · refine .inr fun e he => ?_
    rw [hf] at he
    simpa [h] using (List.mem_filter.1 he).2
  · rw [hc, Quad.get_set_of_ne _ h] at hd
    exact .inl hd

theorem State.completeCommit_narrows (s : State) (c : Ctx) : s.Narrows (s.completeCommit c) :=
  State.toIdle_narrows (c := c) (by simp) (by simp)

theorem State.completeAbort_narrows (s : State) (c : Ctx) : s.Narrows (s.completeAbort c) :=
  State.toIdle_narrows (c := c) (by simp) (by simp)

theorem State.moveSettling_narrows (s : State) (c : Ctx) : s.Narrows (s.moveSettling c) := by
  have settled : s.Narrows (s.settleFilter c) := .of_sublist List.filter_sublist (by simp)
  unfold State.moveSettling
  split
  · unfold State.endSettling
    dsimp only
    split
    · exact settled.trans (State.completeAbort_narrows _ c)
    · exact settled.trans (State.setProgress_narrows _ c _)
  · exact .refl s

theorem State.moveCovering_narrows (s : State) (c : Ctx) : s.Narrows (s.moveCovering c) := by
  unfold State.moveCovering
  split
  · exact s.setProgress_narrows c _
  · exact .refl s

theorem State.moveReplaying_narrows (s : State) (c : Ctx) : s.Narrows (s.moveReplaying c) := by
  unfold State.moveReplaying
  split
  · exact .of_eq (by simp) (by simp)
  · exact .refl s

theorem State.moveMarking_narrows (s : State) (c : Ctx) : s.Narrows (s.moveMarking c) := by
  unfold State.moveMarking
  split
  · exact s.completeAbort_narrows c
  · exact .refl s

theorem State.moveCommit_narrows (s : State) (c : Ctx) : s.Narrows (s.moveCommit c) := by
  unfold State.moveCommit
  (repeat' split)
  · exact s.completeCommit_narrows c
  · exact .of_eq (by simp) (by simp)
  · exact .refl s
  · exact s.completeCommit_narrows c
  · exact .refl s
  · exact .refl s

theorem State.moveEngine_narrows (s : State) (c : Ctx) : s.Narrows (s.moveEngine c) := by
  unfold State.moveEngine
  split
  · exact .refl s
  · exact s.moveCommit_narrows c
  · exact (((s.moveSettling_narrows c).trans (State.moveCovering_narrows _ c)).trans
      (State.moveReplaying_narrows _ c)).trans (State.moveMarking_narrows _ c)

theorem State.runEngines_narrows (s : State) : s.Narrows s.runEngines := by
  obtain ⟨l, n, _, _, he⟩ := s.runEngines_moves
  rw [he]
  exact (State.Narrows.foldl State.moveEngine_narrows l _).after rfl rfl

theorem State.refuseWhere_narrows (s : State) (pick : HoldEntry → Bool) (reason : Reason) :
    s.Narrows (s.refuseWhere pick reason) :=
  .of_sublist (s.refuseWhere_filter pick reason) (by simp)

theorem State.reportFault_narrows (s : State) (c : Ctx) (cause : FaultCause) (address : Addr) :
    s.Narrows (s.reportFault c cause address) := by
  unfold State.reportFault
  split
  · unfold State.applyFault
    dsimp only
    have faulted : s.Narrows ((s.setContext c ((s.contexts.get c).toFaulted cause)).refuseWhere
        (fun e => e.journaledOf c) .faulted) :=
      (s.setContext_narrows c _ (by simp [ContextRecord.toFaulted])).trans (State.refuseWhere_narrows _ _ _)
    split <;> exact faulted.trans (.of_eq (by simp) (by simp))
  · exact .refl s

theorem State.beginDrain_narrows (s : State) : s.Narrows s.beginDrain := by
  have refused : ∀ a : AttachEngine,
      s.Narrows (({ s with attach := a } : State).refuseWhere (fun _ => true) .draining) :=
    fun a => (State.refuseWhere_narrows _ _ _).after rfl rfl
  unfold State.beginDrain
  dsimp only
  have begun := refused { s.attach with
    journal := .draining, drain := { DrainRecord.reset with origin := some s.attach.journal } }
  (repeat' split) <;> exact begun.trans (.of_eq (by simp) (by simp))

theorem State.drainIfWarned_narrows (s : State) : s.Narrows s.drainIfWarned := by
  unfold State.drainIfWarned
  split
  · exact s.beginDrain_narrows
  · exact .refl s

theorem State.breakContext_narrows (s : State) (c : Ctx) : s.Narrows (s.breakContext c) := by
  have faulted := s.setContext_narrows c ((s.contexts.get c).toFaulted .journalBroken) (by simp [ContextRecord.toFaulted])
  unfold State.breakContext
  dsimp only
  split
  · split <;> exact faulted.trans (.of_eq (by simp) (by simp))
  · exact .refl s

theorem State.breakJournal_narrows (s : State) (cause : BreakCause) (sequence : Option Seq) :
    s.Narrows (s.breakJournal cause sequence) := by
  have refused : s.Narrows ((s.setJournal .broken).refuseWhere (fun e => e.journaled) .broken) :=
    (State.refuseWhere_narrows _ _ _).after rfl rfl
  have emptied : ∀ u : State, u.Narrows u.emptyRequests := fun _ => .of_eq (by simp) (by simp)
  have withdrawn : ∀ u : State, u.Narrows { u with downstream := { u.downstream with restoreList := [] } } :=
    fun _ => .of_eq rfl rfl
  have broken := ((refused.trans (emptied _)).trans (withdrawn _)).trans (.foldl State.breakContext_narrows allContexts _)
  unfold State.breakJournal
  dsimp only
  refine State.Narrows.trans ?_ (State.drainIfWarned_narrows _)
  split <;> exact broken.trans (.of_eq (by simp) (by simp))

theorem State.logError_narrows (s : State) (cause : BreakCause) (sequence : Option Seq) :
    s.Narrows (s.logError cause sequence) := by
  unfold State.logError
  (repeat' split)
  · exact s.breakJournal_narrows cause sequence
  · exact .of_eq (by simp) (by simp)
  · exact .refl s

/-! ## The attach -/

theorem State.endAttach_narrows (s : State) (journal : JournalState) (result : AttachResult) (sequence : Option Seq) :
    s.Narrows (s.endAttach journal result sequence) :=
  (State.drainIfWarned_narrows _).after rfl rfl

theorem State.completeAttach_narrows (s : State) (result : AttachResult) (head generation : Seq) (epochs : Quad Epoch) :
    s.Narrows (s.completeAttach result head generation epochs) := by
  refine State.Narrows.trans ⟨by simp, fun c hc => .inl ?_⟩ (State.endAttach_narrows _ _ _ _)
  revert hc
  fin_cases c <;> exact id

theorem State.handSweep_narrows (s : State) : s.Narrows s.handSweep := by
  unfold State.handSweep
  dsimp only
  split
  · exact .of_eq (by simp) (by simp)
  · exact .refl s

theorem State.endSweep_narrows (s : State) : s.Narrows s.endSweep := by
  unfold State.endSweep
  (repeat' split)
  · exact s.endAttach_narrows _ _ _
  · exact .of_eq (by simp) (by simp)
  · exact .refl s

theorem State.startFinal_narrows (s : State) : s.Narrows s.startFinal := by
  unfold State.startFinal
  split
  · exact .refl s
  · exact .of_eq (by simp) (by simp)

theorem State.stopScan_narrows (s : State) : s.Narrows s.stopScan := by
  unfold State.stopScan
  dsimp only
  split
  · exact .of_eq (by simp [State.readSlot]) (by simp [State.readSlot])
  · exact (State.startFinal_narrows _).after (by simp) (by simp)

theorem State.nextSequence_narrows (s : State) : s.Narrows s.nextSequence := by
  unfold State.nextSequence
  dsimp only
  (repeat' split)
  · exact .refl s
  · exact s.startFinal_narrows
  · exact .of_eq (by simp [State.readSlot]) (by simp [State.readSlot])

theorem State.scanAnswer_narrows (s : State) (step : AttachStep) (isWrite : Bool) (answer : Answer) :
    s.Narrows (s.scanAnswer step isWrite answer) := by
  have set : ∀ p, s.Narrows (s.setAttach p) := fun p => .of_eq (by simp) (by simp)
  have read : ∀ p st, s.Narrows ((s.setAttach p).readSlot st) := fun p st =>
    .of_eq (by simp [State.readSlot]) (by simp [State.readSlot])
  have fail : ∀ r q, s.Narrows (s.failAttach r q) := fun r q => s.endAttach_narrows _ r q
  unfold State.scanAnswer
  (repeat' split)
  · unfold State.sweepAnswer
    split
    · exact s.endSweep_narrows
    · exact (State.endSweep_narrows _).after rfl rfl
  · unfold State.anchorReadAnswer
    (repeat' split)
    · exact fail _ _
    · exact fail _ _
    · exact (set _).trans (State.startFinal_narrows _)
    · exact read _ _
  · unfold State.scanReadAnswer
    dsimp only
    (repeat' split)
    · exact fail _ _
    · exact s.stopScan_narrows
    · exact (set _).trans (State.stopScan_narrows _)
    · exact read _ _
  · unfold State.replayReadAnswer
    dsimp only
    (repeat' split)
    · exact fail _ _
    · exact fail _ _
    · exact .of_eq (by simp) (by simp)
    · exact s.nextSequence_narrows
  · unfold State.replayWriteAnswer
    dsimp only
    split
    · exact fail _ _
    · exact (set _).trans (State.nextSequence_narrows _)
  · exact .refl s
  · exact .refl s

theorem State.attachAnchorAnswer_narrows (s : State) (answer : Answer) : s.Narrows (s.attachAnchorAnswer answer) := by
  unfold State.attachAnchorAnswer
  (repeat' split)
  · unfold State.attachAnchorDone
    dsimp only
    (repeat' split)
    · exact .of_eq (by simp) (by simp)
    · exact (State.handSweep_narrows _).after (by simp) (by simp)
    · exact s.completeAttach_narrows _ _ _ _
    · exact .refl s
    · exact s.completeAttach_narrows _ _ _ _
    · exact s.completeAttach_narrows _ _ _ _
    · exact .refl s
  · unfold State.attachAnchorError
    split <;> exact s.endAttach_narrows _ _ _
  · exact .refl s

/-! ## The other answers -/

theorem State.straightAnswer_narrows (s : State) (tag : BitVec 6) (answer : Answer) :
    s.Narrows (s.straightAnswer tag answer) := by
  unfold State.straightAnswer
  (repeat' split) <;> exact .of_eq (by simp) (by simp)

theorem State.heldAnswer_narrows (s : State) (tag : BitVec 6) (answer : Answer) : s.Narrows (s.heldAnswer tag answer) := by
  unfold State.heldAnswer
  (repeat' split)
  · exact .refl s
  · exact (State.runEngines_narrows _).after (by simp) (by simp)
  · refine State.Narrows.trans ?_ (State.runEngines_narrows _)
    unfold State.reportForwardError
    (repeat' split)
    · exact .of_eq (by simp) (by simp)
    · exact (State.reportFault_narrows _ _ _ _).after (by simp) (by simp)
    · exact .of_eq (by simp) (by simp)

theorem State.captureAnswer_narrows (s : State) (ref : CaptureRef) (answer : Answer) :
    s.Narrows (s.captureAnswer ref answer) := by
  have settled : s.Narrows (State.removeLine { s with kept := s.kept.erase ref } ref.line) :=
    .of_sublist List.filter_sublist rfl
  have dropped : s.Narrows (s.dropItem ref.line) := .of_sublist List.filter_sublist rfl
  unfold State.captureAnswer
  (repeat' split)
  · exact settled.trans (State.runEngines_narrows _)
  · exact .of_eq (by simp [State.buildRecord]) (by simp [State.buildRecord])
  · exact (dropped.trans (State.reportFault_narrows _ _ _ _)).trans (State.runEngines_narrows _)
  · exact .refl s

theorem State.anchorAnswer_narrows (s : State) (answer : Answer) : s.Narrows (s.anchorAnswer answer) := by
  have tail : ∀ (u : State) (q : Option Seq), u.Narrows (u.moveTail q) := by
    intro u q
    unfold State.moveTail
    split
    · exact .refl u
    · exact .of_eq (by simp) (by simp)
  have done : ∀ u : State, u.Narrows u.engineAnchorDone := by
    intro u
    unfold State.engineAnchorDone
    (repeat' split)
    · exact (State.drainIfWarned_narrows _).after (by simp) (by simp)
    · exact .of_eq rfl rfl
    · exact .refl u
  have cleared : s.Narrows { s with log := { s.log with anchor := none } } := .of_eq rfl rfl
  unfold State.anchorAnswer
  split
  · exact .refl s
  · refine cleared.trans ?_
    dsimp only
    (repeat' split)
    · exact State.attachAnchorAnswer_narrows _ _
    · exact tail _ _
    · exact (tail _ _).trans (done _)
    · unfold State.anchorError
      dsimp only
      (repeat' split)
      · exact (State.logError_narrows _ _ _).trans (.of_eq rfl rfl)
      · exact (State.logError_narrows _ _ _).trans (.of_eq rfl rfl)
      · exact State.logError_narrows _ _ _

theorem State.restoreAnswer_narrows (s : State) (c : Ctx) (step : ReplayStep) (answer : Answer) :
    s.Narrows (s.restoreAnswer c step answer) := by
  have skip : ∀ p : Progress, s.Narrows (s.setProgress c p).runEngines :=
    fun p => (s.setProgress_narrows c p).trans (State.runEngines_narrows _)
  unfold State.restoreAnswer
  dsimp only
  (repeat' split)
  · unfold State.restoreReadAnswer
    dsimp only
    (repeat' split)
    · exact .of_eq (by simp) (by simp)
    · exact skip _
    · exact skip _
    · exact skip _
  · unfold State.restoreWriteAnswer
    split <;> exact skip _
  · exact s.setProgress_narrows c _
  · exact .refl s

/-- The frontier turns entries LOGGED that have their sequence (R26). -/
theorem State.followFrontier_filterOk {s : State} (h : s.filterOk) : s.followFrontier.filterOk := by
  obtain ⟨hw, hl, hi⟩ := h
  refine ⟨filterWf_map hw _ fun e => e.logIfCovered_line s.log, fun e he hs => ?_, fun c hc e he => ?_⟩
  · obtain ⟨d, hd, rfl⟩ := List.mem_map.1 he
    rw [FilterEntry.logIfCovered_seq]
    exact (d.logIfCovered_logged s.log hs).elim (hl d hd) id
  · obtain ⟨d, hd, rfl⟩ := List.mem_map.1 he
    rw [FilterEntry.logIfCovered_owner]
    exact hi c (by simpa using hc) d hd

theorem State.appendAnswer_filterOk {s : State} (q : Seq) (answer : Answer) (h : s.filterOk) :
    (s.appendAnswer q answer).filterOk := by
  unfold State.appendAnswer
  split
  · exact (State.runEngines_narrows _).filterOk (State.followFrontier_filterOk (h.congr rfl rfl))
  · exact (State.logError_narrows _ _ _).filterOk (h.congr rfl rfl)

/-- Whatever an answer answers, the filter keeps its form. -/
theorem State.takeAnswer_filterOk {s : State} (tag : BitVec 4) (answer : Answer) (h : s.filterOk) :
    (s.takeAnswer tag answer).filterOk := by
  have hr : (s.removeOutstanding tag).filterOk := h.congr (by simp) (by simp)
  unfold State.takeAnswer
  (repeat' split)
  · exact h
  · exact hr
  · unfold State.routeAnswer
    split
    · exact (State.anchorAnswer_narrows _ _).filterOk hr
    · exact State.appendAnswer_filterOk _ _ hr
    · exact (State.captureAnswer_narrows _ _ _).filterOk hr
    · exact (State.straightAnswer_narrows _ _ _).filterOk hr
    · exact (State.heldAnswer_narrows _ _ _).filterOk hr
    · exact (State.restoreAnswer_narrows _ _ _ _).filterOk hr
    · exact (State.scanAnswer_narrows _ _ _ _).filterOk hr

/-! ## The upstream port, the log's take and the bridge's other events -/

/-- The new CAPTURING entries of a context that is not IDLE (R23). -/
theorem State.insertLines_filterOk {s : State} (c : Ctx) (lines : List Line) (hc : (s.contexts.get c).state ≠ .idle)
    (h : s.filterOk) : (s.insertLines c lines).filterOk := by
  refine (foldl_invariant (fun u : State => u.filterOk ∧ u.contexts = s.contexts) _ ?_ lines s ⟨h, rfl⟩).1
  rintro u l ⟨⟨hw, hl, hi⟩, hu⟩
  refine ⟨⟨filterWf_insertEntry _ hw, fun e he hs => ?_, fun d hd e he => ?_⟩, hu⟩
  · rcases mem_insertEntry he with rfl | he
    · cases hs
    · exact hl e he hs
  · rcases mem_insertEntry he with rfl | he
    · rintro rfl
      exact hc (hu ▸ hd)
    · exact hi d hd e he

/-- Only a write of an OPEN context is journaled (R62). -/
theorem State.admission_journaled {s : State} {r : UpRequest} {region : RegionEntry} {c : Ctx} {lines : List Line}
    (h : s.admission r region = .journaled c lines) : (s.contexts.get c).state = .opened := by
  have closed : ∀ b a, closedDecision b a ≠ .journaled c lines := by
    intro b a hb
    unfold closedDecision at hb
    (repeat' split at hb) <;> cases hb
  unfold State.admission at h
  dsimp only at h
  (repeat' split at h)
  case h_2.isFalse.isTrue =>
    cases h
    assumption
  all_goals simp [closed] at h

theorem State.handOn_filterOk {s : State} (r : UpRequest) (h : s.filterOk) : (s.handOn r).filterOk := by
  unfold State.handOn
  (repeat' split)
  · exact h.congr (by simp) (by simp)
  · unfold State.enterHold
    split
    · unfold State.admitWrite
      split
      · exact h.congr (by simp) (by simp)
      · next c lines ha =>
        have open_ := State.admission_journaled ha
        have inserted := State.insertLines_filterOk (s := s.setIntake .taking none) c lines
          (by rw [open_]; simp) (h.congr (by simp) (by simp))
        exact inserted.congr (by simp) (by simp)
      · exact h.congr (by simp) (by simp)
    · exact h.congr (by simp) (by simp)
  · exact h.congr (by simp) (by simp)
  · exact h.congr (by simp) (by simp)
  · exact h.congr (by simp) (by simp)

theorem State.takeFromLink_filterOk {s : State} (h : s.filterOk) : s.takeFromLink.filterOk := by
  unfold State.takeFromLink
  (repeat' split)
  · exact h
  · unfold State.takeRequest
    split
    · exact h.congr (by simp) (by simp)
    · exact State.handOn_filterOk _ (h.congr (by simp) (by simp))
  · exact h

/-- A taken PRE_IMAGE gives its line's entry the sequence (R25). -/
theorem State.takePreImage_filterOk {s : State} (c : Ctx) (l : Line) (image : List Byte) (h : s.filterOk) :
    (s.takePreImage c l image).filterOk := by
  have he : (s.takePreImage c l image).filter =
      s.filter.map fun e => if e.line = l then { e with seq := some s.log.head } else e := rfl
  have hc : (s.takePreImage c l image).contexts =
      s.contexts.set c ((s.contexts.get c).countRecord s.log.head) := rfl
  obtain ⟨hw, hl, hi⟩ := h
  refine ⟨?_, fun e he' hs => ?_, fun d hd e he' => ?_⟩
  · rw [he]
    exact filterWf_map hw _ fun e => by split <;> rfl
  · rw [he] at he'
    obtain ⟨x, hx, rfl⟩ := List.mem_map.1 he'
    by_cases hx' : x.line = l
    · simp [hx']
    · rw [if_neg hx'] at hs ⊢
      exact hl x hx hs
  · rw [he] at he'
    obtain ⟨x, hx, rfl⟩ := List.mem_map.1 he'
    have hd' : (s.contexts.get d).state = .idle := by
      rw [hc] at hd
      exact idle_of_set (r := (s.contexts.get c).countRecord s.log.head) id hd
    have := hi d hd' x hx
    split <;> exact this

theorem State.appendTake_filterOk {s : State} (h : s.filterOk) : s.appendTake.filterOk := by
  unfold State.appendTake
  (repeat' split)
  · exact h
  · next c l image _ => exact (State.takePreImage_filterOk c l image h).congr (by simp) (by simp)
  · next kind c epoch incomplete _ =>
    have taken : s.Narrows (s.takeMarker kind c epoch incomplete) := 
      ⟨by simp, fun d hd => .inl (idle_of_set (r := { s.contexts.get c with marker := true }) id hd)⟩
    have looked := (State.runEngines_narrows (s.takeMarker kind c epoch incomplete).lookLow.lookSpace).after
      (s := s.takeMarker kind c epoch incomplete) (by simp) (by simp)
    exact (taken.trans looked).filterOk h
  · exact h

theorem State.told_narrows (s : State) (owner : Owner) : s.Narrows (s.told owner) := by
  unfold State.told
  (repeat' split)
  · exact .of_eq (by simp) (by simp)
  · exact .of_eq (by simp) (by simp)
  · exact s.handSweep_narrows
  · exact .refl s
  · exact .refl s

theorem State.grant_narrows (s : State) : s.Narrows s.grant := by
  unfold State.grant
  (repeat' split)
  · exact (State.told_narrows _ _).after rfl rfl
  · exact .refl s
  · exact .refl s

theorem State.release_narrows (s : State) : s.Narrows s.release := by
  unfold State.release
  (repeat' split)
  · exact .refl s
  · exact .of_eq (by simp) (by simp)
  · exact .refl s

theorem State.captureHanded_narrows (s : State) : s.Narrows s.captureHanded := by
  unfold State.captureHanded
  (repeat' split)
  · exact .refl s
  · exact .of_eq (by simp) (by simp)
  · exact .refl s

theorem State.reclaim_narrows (s : State) : s.Narrows s.reclaim := by
  unfold State.reclaim
  split <;> exact .of_eq (by simp) (by simp)

theorem State.cleanAnchor_narrows (s : State) : s.Narrows s.cleanAnchor := by
  unfold State.cleanAnchor
  split <;> exact .of_eq (by simp) (by simp)

theorem State.finalDrainAnchor_narrows (s : State) : s.Narrows s.finalDrainAnchor := by
  unfold State.finalDrainAnchor
  split <;> exact .of_eq (by simp) (by simp)

theorem State.endDrain_narrows (s : State) : s.Narrows s.endDrain := by
  unfold State.endDrain
  (repeat' split) <;> exact .of_eq (by simp) (by simp)

/-! ## The host's commands and the resets -/

/-- SET changes a quota at most, of all there is in the context records. -/
theorem State.itemSet_narrows (s : State) (item : Item) (index : Byte) (v : BitVec 64) :
    s.Narrows (s.itemSet item index v).1 := by
  have geometry : ∀ ok g, s.Narrows (s.setGeometry ok g).1 := by
    intro ok g
    unfold State.setGeometry
    (repeat' split) <;> exact .of_eq rfl rfl
  have region : ∀ e, s.Narrows (s.writeRegion index e).1 := by
    intro e
    unfold State.writeRegion
    split <;> exact .of_eq rfl rfl
  cases item
  case quota =>
    show s.Narrows (s.setQuotaItem index v).1
    unfold State.setQuotaItem
    dsimp only
    (repeat' split)
    · exact .refl s
    · exact s.setContext_narrows _ _ id
    · exact .refl s
  case region =>
    show s.Narrows (s.setRegionItem index v).1
    unfold State.setRegionItem
    (repeat' split)
    · exact region _
    · exact .refl s
    · exact .refl s
    · exact region _
  case ringBase | sizeExp | anchorAddr => exact geometry _ _
  case watermark | anchorStep | arbOrder | throttleRestore | throttleScan | eventMask =>
    simp only [State.itemSet, State.setWatermarkItem, State.setAnchorStepItem, State.setOrderItem,
      State.setThrottleRestoreItem, State.setThrottleScanItem, State.setMaskItem]
    split <;> exact .of_eq rfl rfl
  case logHead | logTail | logFree | ctxInfo => exact .refl s

theorem State.setCommand_narrows (s : State) (code index : Byte) (v : BitVec 64) :
    s.Narrows (s.setCommand code index v).1 := by
  unfold State.setCommand
  (repeat' split)
  case h_2.isFalse.isFalse.isFalse => exact s.itemSet_narrows _ _ _
  all_goals exact .refl s

theorem State.contextCommand_narrows (s : State) (b : Byte) (run : State → Ctx → State × Reply)
    (h : ∀ c, s.Narrows (run s c).1) : s.Narrows (s.contextCommand b run).1 := by
  unfold State.contextCommand
  (repeat' split)
  · exact .refl s
  · exact .refl s
  · exact h _

theorem State.acceptCommit_narrows (s : State) (c : Ctx) : s.Narrows (s.acceptCommit c) :=
  ((s.setContext_narrows c { s.contexts.get c with state := .committing } (by simp)).trans
    (State.setProgress_narrows _ c _)).trans (State.runEngines_narrows _)

theorem State.acceptAbort_narrows (s : State) (c : Ctx) : s.Narrows (s.acceptAbort c) := by
  have run := (((s.setContext_narrows c { s.contexts.get c with state := .aborting } (by simp)).trans
    (State.setProgress_narrows _ c (.start .abort))).trans
    (State.refuseWhere_narrows _ (fun e => e.journaledOf c) .aborted)).trans (State.runEngines_narrows _)
  unfold State.acceptAbort
  exact run.trans (.of_eq (by simp) (by simp))

theorem State.acceptAttach_narrows (s : State) (mode : AttachMode) : s.Narrows (s.acceptAttach mode) := by
  unfold State.acceptAttach
  refine (State.drainIfWarned_narrows _).after ?_ ?_ <;>
    cases mode <;> simp [State.startFormat, State.startResume]

theorem State.abandonUpstream_narrows (s : State) : s.Narrows s.abandonUpstream :=
  State.Narrows.trans (.foldl (fun _ _ => .of_eq (by simp) (by simp)) s.upstream.tags s) (.of_eq rfl rfl)

/-- No command of the host breaks the form of the filter. -/
theorem runCommand_narrows (s : State) (c : FrameCommand) : s.Narrows (runCommand c s).1 := by
  have waits : ∀ run : State → State × Reply, s.Narrows (run s).1 → s.Narrows (State.unlessWaiting run s).1 := by
    intro run h
    unfold State.unlessWaiting
    split
    · exact .refl s
    · exact h
  cases c with
  | nop | status | clearOverrun => exact .of_eq rfl rfl
  | get item index =>
    simp only [runCommand, State.getCommand]
    (repeat' split) <;> exact .refl s
  | popEvent =>
    simp only [runCommand, State.popCommand]
    split <;> exact .of_eq rfl rfl
  | set item index v => exact s.setCommand_narrows item index v
  | attach mode =>
    refine waits _ ?_
    unfold State.attachCommand
    (repeat' split)
    case h_2.isFalse.isTrue => exact s.acceptAttach_narrows _
    all_goals exact .refl s
  | detach =>
    refine waits _ ?_
    unfold State.detachCommand
    (repeat' split)
    · exact .refl s
    · exact (State.drainIfWarned_narrows _).after rfl rfl
    · exact .refl s
  | openEpoch b =>
    refine waits _ (s.contextCommand_narrows b _ fun c => ?_)
    unfold State.openContext
    dsimp only
    split
    · exact s.setContext_narrows c _ (by simp [ContextRecord.openEpoch])
    · exact .refl s
  | commit b =>
    refine waits _ (s.contextCommand_narrows b _ fun c => ?_)
    unfold State.commitContext
    dsimp only
    split
    case h_2 => exact s.acceptCommit_narrows c
    all_goals exact .refl s
  | abort b =>
    refine waits _ (s.contextCommand_narrows b _ fun c => ?_)
    unfold State.abortContext
    dsimp only
    split
    case h_2 | h_5 => exact s.acceptAbort_narrows c
    all_goals exact .refl s
  | softReset => exact waits _ (s.abandonUpstream_narrows.trans (.of_eq rfl rfl))

/-- An empty filter has the form. -/
theorem State.filterOk_of_empty {s : State} (h : s.filter = []) : s.filterOk := by
  simp [State.filterOk, filterWf, h]

/-- Every move keeps the form of the filter. -/
theorem State.Moves.filterOk {s t : State} (hs : s.filterOk) (h : s.Moves t) : t.filterOk := by
  cases h with
  | link m o => exact hs
  | command c m o => exact ((runCommand_narrows s c).filterOk hs).congr rfl rfl
  | powerOn => exact State.filterOk_of_empty rfl
  | releaseReset =>
    unfold State.releaseReset
    split
    · exact ((State.drainIfWarned_narrows _).after rfl rfl).filterOk hs
    · exact hs
  | assertPfail => exact ((State.drainIfWarned_narrows _).after rfl rfl).filterOk hs
  | deassertPfail => exact hs
  | volatileReset =>
    unfold State.volatileReset
    split
    · exact (State.drainIfWarned_narrows _).filterOk (State.filterOk_of_empty rfl)
    · exact hs
  | request arrival => exact State.takeFromLink_filterOk (hs.congr (by simp) (by simp))
  | reclassify =>
    unfold State.reclassify
    (repeat' split)
    · exact hs
    · exact State.handOn_filterOk _ hs
    · exact hs
  | release => exact s.release_narrows.filterOk hs
  | captureHanded => exact s.captureHanded_narrows.filterOk hs
  | grant => exact s.grant_narrows.filterOk hs
  | answer tag a => exact State.takeAnswer_filterOk tag a hs
  | appendTake => exact State.appendTake_filterOk hs
  | reclaim => exact s.reclaim_narrows.filterOk hs
  | cleanAnchor => exact s.cleanAnchor_narrows.filterOk hs
  | finalDrainAnchor => exact s.finalDrainAnchor_narrows.filterOk hs
  | endDrain => exact s.endDrain_narrows.filterOk hs

/-- Settles O3: the form is kept by every move, most of which only narrow the filter. -/
theorem stepKeepsTheFilterForm : Obligations.StepKeepsTheFilterForm :=
  fun _ _ hs h => step_invariant (P := State.filterOk) (fun _ _ hq => hq) (fun _ _ hq => State.Moves.filterOk hq) hs h

end Sys2Proof.Machine
end

section
/-! Configuration stays legal: only a SET and the resets write configuration, and each writes legal values. -/

namespace Sys2Proof.Machine

/-- The reset contents of every item are legal (R1, R35, R120, R153). -/
theorem State.reset_configuration_legal : State.reset.configuration.legal := by
  refine ⟨by simp [State.configuration, State.reset, LogItems.reset, LogItems.legal], fun i => .inl ?_, fun c => ?_,
    List.Perm.refl _, by decide, by decide⟩
  · exact Vector.getElem_replicate i.isLt
  · fin_cases c <;> decide

/-- Configuration with new values of one kind is legal when they are. -/
theorem Configuration.legal.setItems {g : Configuration} (h : g.legal) {items : LogItems} (hi : items.legal) :
    { g with items := items }.legal := ⟨hi, h.2⟩

theorem Configuration.legal.setRegion {g : Configuration} (h : g.legal) (n : Nat) (hn : n < 16) {e : RegionEntry}
    (he : e.legal) : { g with regions := g.regions.set n e }.legal := by
  obtain ⟨hi, hr, hrest⟩ := h
  refine ⟨hi, fun i => ?_, hrest⟩
  rw [show (g.regions.set n e).get i = (g.regions.set n e)[i.val] from rfl, Vector.getElem_set]
  split
  · exact he
  · exact hr i

theorem Configuration.legal.setQuota {g : Configuration} (h : g.legal) (c : Ctx) {n : Nat} (hn : n ≤ 512) :
    { g with quotas := g.quotas.set c n }.legal := by
  obtain ⟨hi, hr, hq, hrest⟩ := h
  refine ⟨hi, hr, fun d => ?_, hrest⟩
  show (g.quotas.set c n).get d ≤ 512
  rw [Quad.get_set]
  split
  · exact hn
  · exact hq d

/-- SET of a geometry item: taken in range and in DETACHED alone (R35). -/
theorem State.setGeometry_legal {s : State} {ok : Bool} {g : LogItems} (h : s.configuration.legal)
    (hg : ok = true → g.legal) : (s.setGeometry ok g).1.configuration.legal := by
  unfold State.setGeometry
  (repeat' split)
  · exact h
  · next hok _ => exact h.setItems (hg (by simpa using hok))
  · exact h

/-- SET of a region entry takes what passes the checks of R121, or the reset contents. -/
theorem State.setRegionItem_legal {s : State} (index : Byte) (v : BitVec 64) (h : s.configuration.legal) :
    (s.setRegionItem index v).1.configuration.legal := by
  have write : ∀ e : RegionEntry, e.legal → (s.writeRegion index e).1.configuration.legal := by
    intro e he
    unfold State.writeRegion
    split
    · exact h.setRegion (index.toNat % 16) (Nat.mod_lt _ (by decide)) he
    · exact h
  unfold State.setRegionItem
  (repeat' split)
  · exact write _ (.inl rfl)
  · exact h
  · exact h
  · next hv _ e he hc =>
    have hvalid : e.valid = true := by
      unfold regionOfValue at he
      dsimp only at he
      (repeat' split at he) <;> cases he <;> simpa using hv
    rw [not_or, not_not, BitVec.not_lt] at hc
    exact write e (.inr ⟨hvalid, hc⟩)

/-- SET of a quota takes at most 512 (R13). -/
theorem State.setQuotaItem_legal {s : State} (index : Byte) (v : BitVec 64) (h : s.configuration.legal) :
    (s.setQuotaItem index v).1.configuration.legal := by
  unfold State.setQuotaItem
  dsimp only
  (repeat' split)
  · exact h
  · next hv _ =>
    have := h.setQuota (ctxOfIndex index) (Nat.not_lt.1 hv)
    simpa [State.configuration, Quad.map_set] using this
  · exact h

/-- Every SET writes a value its rule accepts (R177). -/
theorem State.itemSet_legal {s : State} (item : Item) (index : Byte) (v : BitVec 64) (h : s.configuration.legal) :
    (s.itemSet item index v).1.configuration.legal := by
  obtain ⟨⟨hring, hexp, hanchor, hlow, hhigh, hmark⟩, hregions, hquotas, horder, hrestore, hscan⟩ := h
  have h : s.configuration.legal :=
    ⟨⟨hring, hexp, hanchor, hlow, hhigh, hmark⟩, hregions, hquotas, horder, hrestore, hscan⟩
  cases item with
  | region => exact State.setRegionItem_legal index v h
  | ringBase =>
    refine State.setGeometry_legal h fun hv => ⟨?_, hexp, hanchor, hlow, hhigh, hmark⟩
    simp only [Bool.and_eq_true, decide_eq_true_eq, beq_iff_eq] at hv
    simpa [Nat.mod_eq_of_lt hv.1] using hv.2
  | sizeExp =>
    refine State.setGeometry_legal h fun hv => ⟨hring, .inr ?_, hanchor, hlow, hhigh, hmark⟩
    simpa using hv
  | anchorAddr =>
    refine State.setGeometry_legal h fun hv => ⟨hring, hexp, ?_, hlow, hhigh, hmark⟩
    simp only [Bool.and_eq_true, decide_eq_true_eq, beq_iff_eq] at hv
    simpa [Nat.mod_eq_of_lt hv.1] using hv.2
  | watermark =>
    show (s.setWatermarkItem v).1.configuration.legal
    unfold State.setWatermarkItem
    split
    · exact h
    · next hv => exact h.setItems ⟨hring, hexp, hanchor, hlow, hhigh, Nat.not_lt.1 hv⟩
  | anchorStep =>
    show (s.setAnchorStepItem v).1.configuration.legal
    unfold State.setAnchorStepItem
    split
    · next hv => exact h.setItems ⟨hring, hexp, hanchor, hv.1, hv.2, hmark⟩
    · exact h
  | quota => exact State.setQuotaItem_legal index v h
  | arbOrder =>
    show (s.setOrderItem v).1.configuration.legal
    unfold State.setOrderItem
    split
    · exact h
    · next order hv => exact ⟨h.1, hregions, hquotas, (orderOfValue_eq_some hv).1, hrestore, hscan⟩
  | throttleRestore =>
    show (s.setThrottleRestoreItem v).1.configuration.legal
    unfold State.setThrottleRestoreItem
    split
    · exact h
    · next hv => exact ⟨h.1, hregions, hquotas, horder, Nat.not_lt.1 hv, hscan⟩
  | throttleScan =>
    show (s.setThrottleScanItem v).1.configuration.legal
    unfold State.setThrottleScanItem
    split
    · exact h
    · next hv => exact ⟨h.1, hregions, hquotas, horder, hrestore, Nat.not_lt.1 hv⟩
  | eventMask =>
    show (s.setMaskItem v).1.configuration.legal
    unfold State.setMaskItem
    split <;> exact h
  | logHead | logTail | logFree | ctxInfo => exact h

theorem runCommand_legal {s : State} (c : FrameCommand) (h : s.configuration.legal) :
    (runCommand c s).1.configuration.legal := by
  by_cases hc : ∃ code index v, c = .set code index v
  · obtain ⟨code, index, v, rfl⟩ := hc
    show (s.setCommand code index v).1.configuration.legal
    unfold State.setCommand
    (repeat' split)
    case h_2.isFalse.isFalse.isFalse => exact State.itemSet_legal _ _ _ h
    all_goals exact h
  · rw [runCommand_configuration c s fun i x v e => hc ⟨i, x, v, e⟩]
    exact h

/-! ## What writes no configuration -/

/-- A grant counts for the throttles and leaves their limits and the order (R154). -/
theorem State.grant_configuration (s : State) : s.grant.configuration = s.configuration := by
  have port : ∀ tag r t, (s.downstream.grant tag r t).order = s.downstream.order ∧
      (s.downstream.grant tag r t).throttleRestore = s.downstream.throttleRestore ∧
      (s.downstream.grant tag r t).throttleScan = s.downstream.throttleScan := by
    intro tag r t
    cases r <;> exact ⟨rfl, rfl, rfl⟩
  have told : ∀ (u : State) o, (u.told o).configuration = u.configuration := by
    intro u o
    unfold State.told
    (repeat' split)
    · rfl
    · rfl
    · exact u.handSweep_keeps.configuration
    · rfl
    · rfl
  unfold State.grant
  (repeat' split)
  · next tag r t _ _ =>
    obtain ⟨ho, hr, hs⟩ := port tag r t
    unfold State.issue
    rw [told]
    simp [State.configuration, ho, hr, hs]
  · rfl
  · rfl

theorem State.arrive_keeps_configuration (s : State) (arrival : Option UpRequest) :
    (s.arrive arrival).takeFromLink.configuration = s.configuration := by
  unfold State.takeFromLink
  (repeat' split)
  · rfl
  · unfold State.takeRequest
    split
    · simp [State.configuration]
    · exact (State.handOn_keeps _ _).configuration
  · rfl

/-- The soft reset values keep configuration (R181). -/
theorem State.softValues_configuration (s : State) : s.softValues.configuration = s.configuration := rfl

/-- Every move keeps configuration legal. -/
theorem State.Moves.legal {s t : State} (hs : s.configuration.legal) (h : s.Moves t) : t.configuration.legal := by
  have warned : ∀ u : State, u.configuration = s.configuration → u.drainIfWarned.configuration.legal :=
    fun u hu => (u.drainIfWarned_keeps.configuration.trans hu) ▸ hs
  have keeps : ∀ {u : State}, s.Keeps u → u.configuration.legal := fun hk => hk.configuration ▸ hs
  cases h with
  | link m o => exact hs
  | command c m o => exact runCommand_legal c hs
  | powerOn => exact State.reset_configuration_legal
  | releaseReset =>
    unfold State.releaseReset
    split
    · exact warned _ rfl
    · exact hs
  | assertPfail => exact warned _ rfl
  | deassertPfail => exact hs
  | volatileReset =>
    unfold State.volatileReset
    split
    · exact warned _ s.softValues_configuration
    · exact hs
  | request arrival => exact (s.arrive_keeps_configuration arrival) ▸ hs
  | reclassify => exact keeps s.reclassify_keeps
  | release => exact keeps s.release_keeps
  | captureHanded => exact keeps s.captureHanded_keeps
  | grant => exact s.grant_configuration ▸ hs
  | answer tag a => exact keeps (s.takeAnswer_keeps tag a)
  | appendTake => exact keeps s.appendTake_keeps
  | reclaim => exact keeps s.reclaim_keeps
  | cleanAnchor => exact keeps s.cleanAnchor_keeps
  | finalDrainAnchor => exact keeps s.finalDrainAnchor_keeps
  | endDrain => exact keeps s.endDrain_keeps

/-- Settles O6: configuration stays legal at every move. -/
theorem stepKeepsTheConfigurationLegal : Obligations.StepKeepsTheConfigurationLegal :=
  fun _ _ hs h => step_invariant (P := fun s => s.configuration.legal) (fun _ _ hq => hq)
    (fun _ _ hq => State.Moves.legal hq) hs h

end Sys2Proof.Machine
end

section
/-! The host's commands on contexts and items (R4, R5, R7, R13, R49, R165), the reset values and the volatile reset. -/

namespace Sys2Proof.Machine

/-! ## Frames -/

/-- A whole frame between frames runs its command and leaves its reply (R170, R171). -/
theorem State.frameOf_afterFrame {s : State} (h : s.takesFrames) (command : FrameCommand) (extra : Nat) :
    s.frameOf command extra =
      s.afterFrame (command.bytesNeeded + extra) (runCommand command s).1 (runCommand command s).2 :=
  s.frameOf_of_none command extra h.1 h.2

/-- A frame whose command is known to leave `t` and reply `r`. -/
theorem State.frameOf_of_run {s t : State} {r : Reply} (h : s.takesFrames) {command : FrameCommand} (extra : Nat)
    (hr : runCommand command s = (t, r)) :
    s.frameOf command extra = s.afterFrame (command.bytesNeeded + extra) t r := by
  rw [State.frameOf_afterFrame h, hr]

@[simp] theorem ctxOfByte_ctxByte (c : Ctx) : ctxOfByte (ctxByte c) = some c := by
  fin_cases c <;> rfl

@[simp] theorem ctxOfIndex_ctxByte (c : Ctx) : ctxOfIndex (ctxByte c) = c := by
  fin_cases c <;> rfl

theorem ctxOfByte_eq_none {b : Byte} (h : 4 ≤ b) : ctxOfByte b = none := by
  have : ¬ b.toNat < 4 := by simpa [BitVec.le_def] using h
  simp [ctxOfByte, this]

/-! ## SET (R13, R49, R165, R177) -/

/-- SET(QUOTA) of a context that the index names (R13). -/
theorem setCommand_quota (s : State) (c : Ctx) (v : BitVec 64) (hw : s.mgmt.waiting = false) :
    runCommand (.set 0x07 (ctxByte c) v) s =
      (if v.toNat ≤ 512 ∧ (s.contexts.get c).state = .idle then
        { s with contexts := s.contexts.set c { s.contexts.get c with quota := v.toNat } } else s,
       if v.toNat ≤ 512 then (if (s.contexts.get c).state = .idle then .ok else .busy) else .badRange) := by
  have hi : Item.quota.indexOk (ctxByte c) = true := by fin_cases c <;> rfl
  have hrun : runCommand (.set 0x07 (ctxByte c) v) s = s.setQuotaItem (ctxByte c) v := by
    simp [runCommand, State.setCommand, itemOfCode, hi, Item.readOnly, hw, State.itemSet]
  rw [hrun]
  simp only [State.setQuotaItem, ctxOfIndex_ctxByte]
  by_cases hv : v.toNat ≤ 512
  · have : ¬ 512 < v.toNat := by omega
    by_cases hc : (s.contexts.get c).state = .idle <;> simp [hv, this, hc, State.setContext]
  · simp [hv, Nat.not_le.1 hv]

/-- SET(QUOTA) with an index that names no context, also while a soft reset waits (R177). -/
theorem setCommand_quotaIndex (s : State) {index : Byte} (v : BitVec 64) (h : 4 ≤ index) :
    runCommand (.set 0x07 index v) s = (s, .badRange) := by
  have hi : Item.quota.indexOk index = false := by simpa [Item.indexOk, BitVec.le_def] using h
  simp [runCommand, State.setCommand, itemOfCode, hi]

/-- SET(WATERMARK), which re-arms LOG_LOW (R35, R49). -/
theorem setCommand_watermark (s : State) (index : Byte) (v : BitVec 64) (hw : s.mgmt.waiting = false) :
    runCommand (.set 0x05 index v) s =
      (if v.toNat ≤ 0x1000000 then
        { s with items := { s.items with watermark := v.toNat }, log := { s.log with logLowArmed := true } } else s,
       if v.toNat ≤ 0x1000000 then .ok else .badRange) := by
  have hrun : runCommand (.set 0x05 index v) s = s.setWatermarkItem v := by
    simp [runCommand, State.setCommand, itemOfCode, Item.indexOk, Item.readOnly, hw, State.itemSet]
  rw [hrun, State.setWatermarkItem]
  by_cases hv : v.toNat ≤ 0x1000000 <;> simp [hv]

/-- SET(EVENT_MASK), taken also while a soft reset waits (R165, R176). -/
theorem setCommand_eventMask (s : State) (index : Byte) (v : BitVec 64) :
    runCommand (.set 0x0B index v) s =
      (if v.toNat < 2 ^ 11 then { s with events := { s.events with mask := v.setWidth 11 } } else s,
       if v.toNat < 2 ^ 11 then .ok else .badRange) := by
  have hrun : runCommand (.set 0x0B index v) s = s.setMaskItem v := by
    simp [runCommand, State.setCommand, itemOfCode, Item.indexOk, Item.readOnly, State.itemSet]
  rw [hrun, State.setMaskItem]
  by_cases hv : v.toNat < 2 ^ 11
  · rw [if_pos hv, if_pos hv, if_pos hv]
  · rw [if_neg hv, if_neg hv, if_neg hv]

/-- Every event kind has one of the eleven enables (R162, R165). -/
theorem Happening.code_le (h : Happening) : h.code - 1 < 11 := by
  cases h <;> simp [Happening.code]

/-- Settles O16, each SET by the rule of its item; ATTN_N then follows the new enables (R166). -/
theorem setQuotaWatermarkAndEventMask : Obligations.SetQuotaWatermarkAndEventMask := by
  refine ⟨fun s c v extra hs => congrArg _ (State.frameOf_of_run hs.1 extra (setCommand_quota s c v hs.2)),
    fun s index v extra hs => ?_⟩
  have mask : exec (.setEventMask index v extra) s = .next (s.afterFrame (11 + extra)
      (if v.toNat < 2 ^ 11 then { s with events := { s.events with mask := v.setWidth 11 } } else s)
      (if v.toNat < 2 ^ 11 then .ok else .badRange)) :=
    congrArg _ (State.frameOf_of_run hs extra (setCommand_eventMask s index v))
  refine ⟨fun hi => congrArg _ (State.frameOf_of_run hs extra (setCommand_quotaIndex s v hi)),
    fun hw => congrArg _ (State.frameOf_of_run hs extra (setCommand_watermark s index v hw)), mask, fun t ht hv => ?_⟩
  rw [mask] at ht
  obtain rfl := Host.Outcome.next.inj ht
  rw [if_pos hv]
  simp [State.afterFrame, EventBlock.attention, Happening.code_le]

/-! ## OPEN, COMMIT, ABORT (R4, R5, R7) -/

/-- The three commands on a context differ in their third step alone (R4). -/
def runsOnContext (command : FrameCommand) (b : Byte) (run : State → Ctx → State × Reply) : Prop :=
  runCommand command = State.unlessWaiting fun u => u.contextCommand b run

theorem openEpoch_runsOnContext (b : Byte) : runsOnContext (.openEpoch b) b State.openContext := rfl

theorem commit_runsOnContext (b : Byte) : runsOnContext (.commit b) b State.commitContext := rfl

theorem abort_runsOnContext (b : Byte) : runsOnContext (.abort b) b State.abortContext := rfl

/-- A command on a context that does not exist (R4, the first step). -/
theorem State.frameOf_badContext {s : State} {command : FrameCommand} {b : Byte} {run : State → Ctx → State × Reply}
    (hs : s.serving) (h : runsOnContext command b run) (extra : Nat) (hb : 4 ≤ b) :
    s.frameOf command extra = s.afterFrame (command.bytesNeeded + extra) s .badRange := by
  refine State.frameOf_of_run hs.1 extra ?_
  rw [h]
  simp [State.unlessWaiting, hs.2, State.contextCommand, ctxOfByte_eq_none hb]

/-- A command on a context outside ATTACHED (R4, the second step). -/
theorem State.frameOf_notAttached {s : State} {command : FrameCommand} {c : Ctx} {run : State → Ctx → State × Reply}
    (hs : s.serving) (h : runsOnContext command (ctxByte c) run) (extra : Nat) (hj : s.attach.journal ≠ .attached) :
    s.frameOf command extra = s.afterFrame (command.bytesNeeded + extra) s .badState := by
  refine State.frameOf_of_run hs.1 extra ?_
  rw [h]
  simp [State.unlessWaiting, hs.2, State.contextCommand, hj]

/-- A command on a context in ATTACHED is decided by the context's state (R4, the third step). -/
theorem State.frameOf_context {s : State} {command : FrameCommand} {c : Ctx} {run : State → Ctx → State × Reply}
    (hs : s.serving) (h : runsOnContext command (ctxByte c) run) (extra : Nat) (hj : s.attach.journal = .attached) :
    s.frameOf command extra = s.afterFrame (command.bytesNeeded + extra) (run s c).1 (run s c).2 := by
  refine State.frameOf_of_run hs.1 extra ?_
  rw [h]
  simp [State.unlessWaiting, hs.2, State.contextCommand, hj]

/-- OPEN replies by R4's table, and changes nothing but in IDLE. -/
theorem State.openContext_reply (s : State) (c : Ctx) :
    (s.openContext c).2 = (s.contexts.get c).openReply ∧
      ((∀ e, (s.contexts.get c).openReply ≠ .okEpoch e) → (s.openContext c).1 = s) := by
  unfold State.openContext ContextRecord.openReply
  dsimp only
  cases (s.contexts.get c).state <;> simp

/-- COMMIT replies by R4's table, and changes nothing but in OPEN. -/
theorem State.commitContext_reply (s : State) (c : Ctx) :
    (s.commitContext c).2 = (s.contexts.get c).commitReply ∧
      ((∀ e, (s.contexts.get c).commitReply ≠ .okEpoch e) → (s.commitContext c).1 = s) := by
  unfold State.commitContext ContextRecord.commitReply
  dsimp only
  cases (s.contexts.get c).state <;> simp

/-- ABORT replies by R4's table, and changes nothing but in OPEN and FAULTED. -/
theorem State.abortContext_reply (s : State) (c : Ctx) :
    (s.abortContext c).2 = (s.contexts.get c).abortReply ∧
      ((∀ e, (s.contexts.get c).abortReply ≠ .okEpoch e) → (s.abortContext c).1 = s) := by
  unfold State.abortContext ContextRecord.abortReply
  dsimp only
  cases (s.contexts.get c).state <;> simp

/-- A command on a context in ATTACHED whose reply is known, and which changes nothing where it is not accepted. -/
theorem State.frameOf_contextReply {s : State} {command : FrameCommand} {c : Ctx} {run : State → Ctx → State × Reply}
    {r : Reply} (hs : s.serving) (h : runsOnContext command (ctxByte c) run) (extra : Nat)
    (hj : s.attach.journal = .attached) (hr : (run s c).2 = r ∧ ((∀ e, r ≠ .okEpoch e) → (run s c).1 = s)) :
    ∃ t, Host.Outcome.next (φ := Fault) (ρ := Refusal) (s.frameOf command extra) = .next t ∧ t.mgmt.reply = some r ∧
      ((∀ e, r ≠ .okEpoch e) → t = s.afterFrame (command.bytesNeeded + extra) s r) := by
  obtain ⟨rfl, hx⟩ := hr
  have frame := State.frameOf_context hs h extra hj
  exact ⟨_, rfl, by rw [frame]; rfl, fun he => by rw [frame, hx he]⟩

/-- Settles O20: the first two steps refuse alike for the three commands, the third by the context's state. -/
theorem contextCommandsReplyByState : Obligations.ContextCommandsReplyByState := by
  intro s extra hs
  refine ⟨fun b hb => ⟨?_, ?_, ?_⟩, fun c hj => ⟨?_, ?_, ?_⟩, fun c hj => ⟨?_, ?_, ?_⟩⟩
  · exact congrArg _ (State.frameOf_badContext hs (openEpoch_runsOnContext b) extra hb)
  · exact congrArg _ (State.frameOf_badContext hs (commit_runsOnContext b) extra hb)
  · exact congrArg _ (State.frameOf_badContext hs (abort_runsOnContext b) extra hb)
  · exact congrArg _ (State.frameOf_notAttached hs (openEpoch_runsOnContext _) extra hj)
  · exact congrArg _ (State.frameOf_notAttached hs (commit_runsOnContext _) extra hj)
  · exact congrArg _ (State.frameOf_notAttached hs (abort_runsOnContext _) extra hj)
  · exact State.frameOf_contextReply hs (openEpoch_runsOnContext _) extra hj (s.openContext_reply c)
  · exact State.frameOf_contextReply hs (commit_runsOnContext _) extra hj (s.commitContext_reply c)
  · exact State.frameOf_contextReply hs (abort_runsOnContext _) extra hj (s.abortContext_reply c)

/-- Settles O19: OPEN in IDLE, and no entry is owned in IDLE. -/
theorem openBeginsANewEpoch : Obligations.OpenBeginsANewEpoch := by
  intro s c extra hs hj hc
  have run : s.openContext c =
      (s.setContext c (s.contexts.get c).openEpoch, .okEpoch (s.contexts.get c).nextEpoch) := by
    simp [State.openContext, hc]
  have opened := State.frameOf_context hs (openEpoch_runsOnContext (ctxByte c)) extra hj
  rw [run] at opened
  replace opened := congrArg (Host.Outcome.next (φ := Fault) (ρ := Refusal)) opened
  refine ⟨opened, fun hf t ht => ?_⟩
  obtain rfl := Host.Outcome.next.inj (ht.symm.trans opened)
  have none : ∀ e ∈ s.filter, ¬ e.owner = c := hf.2.2 c hc
  simpa [State.entryCount, State.afterFrame] using none

/-- The context is COMMITTING and its procedure has begun (R7, R81). -/
def State.beginCommit (s : State) (c : Ctx) : State :=
  (s.setContext c { s.contexts.get c with state := .committing }).setProgress c (.start .commit)

@[simp] theorem State.beginCommit_engine (s : State) (c : Ctx) :
    (s.beginCommit c).engine = s.engine.set c { Progress.reset with procedure := .commit } := rfl

@[simp] theorem State.beginCommit_contexts (s : State) (c : Ctx) :
    (s.beginCommit c).contexts = s.contexts.set c { s.contexts.get c with state := .committing } := rfl

@[simp] theorem State.beginCommit_journaledCount (s : State) (c d : Ctx) :
    (s.beginCommit c).journaledCount d = s.journaledCount d := rfl

/-- Where no other engine waits for what has come about, the commit makes its first move, if no journaled entry is left. -/
theorem State.acceptCommit_eq (s : State) (c : Ctx) (ho : s.othersRest c) :
    s.acceptCommit c = if s.journaledCount c = 0 then (s.beginCommit c).moveCommit c else s.beginCommit c := by
  have others : ∀ d, d ≠ c → (s.beginCommit c).engineReady d = false := fun d hd =>
    (State.engineReady_congr (s := s.beginCommit c) (t := s) (by simp [hd]) rfl rfl rfl rfl).trans (ho d hd)
  show (s.beginCommit c).runEngines = _
  rw [State.runEngines_of_one _ c others]
  by_cases h : s.journaledCount c = 0 <;> simp [State.engineReady, Progress.reset, State.moveEngine, h]

/-- Settles O21: with no other engine ready, the commit's first move is decided by the counts (R82, R83). -/
theorem commitRunsAsFarAsItCan : Obligations.CommitRunsAsFarAsItCan := by
  intro s c extra hs hj hc ho
  have run : ∀ t, s.acceptCommit c = t → exec (.commit (ctxByte c) extra) s =
      .next (s.afterFrame (2 + extra) t (.okEpoch (s.contexts.get c).epoch)) := by
    rintro t rfl
    have accepted := State.frameOf_context hs (commit_runsOnContext (ctxByte c)) extra hj
    rw [show s.commitContext c = (s.acceptCommit c, .okEpoch (s.contexts.get c).epoch) by
      simp [State.commitContext, hc]] at accepted
    exact congrArg _ accepted
  refine ⟨fun h => run _ ?_, fun h hr => run _ ?_, fun h hr => run _ ?_⟩ <;> rw [s.acceptCommit_eq c ho]
  · rw [if_neg h]
    rfl
  · rw [if_pos h]
    have move : (s.beginCommit c).moveCommit c = (s.beginCommit c).completeCommit c := by
      simp [State.moveCommit, Progress.reset, h, hr]
    rw [move]
    simp [State.completeCommit, State.beginCommit, State.removeOwned, State.setContext, State.setProgress, State.raise,
      ContextRecord.toIdle, commitEvent, hr]
  · rw [if_pos h]
    have move : (s.beginCommit c).moveCommit c = (s.beginCommit c).askMarker .commit c := by
      simp [State.moveCommit, Progress.reset, h, hr]
    rw [move]
    simp [State.askMarker, State.beginCommit, State.setContext, State.setProgress, Progress.start]

end Sys2Proof.Machine
end

section
/-! The reset values, and the volatile reset with the drain that may follow it (R2, R114, R118, R181, R182). -/

namespace Sys2Proof.Machine

/-- The reset state is legal. -/
theorem State.reset_legal : State.reset.legal := by
  refine ⟨State.filterOk_of_empty rfl, ?_, ?_, State.reset_configuration_legal, ?_, ?_⟩
  · simp [State.queuesOk, State.reset, DownstreamPort.reset, UpstreamPort.reset, EventBlock.reset, ManagementLink.reset]
  · simp [State.locksOk, State.reset, DownstreamPort.reset]
  · refine ⟨by decide, by decide, by decide, fun c => ?_⟩
    simp [State.reset, Progress.reset, ContextRecord.reset, CtxState.procedure]
  · intro h
    cases h

/-- Settles O2: the state is legal, and each value is the one its table gives. -/
theorem resetStateHoldsTheResetValues : Obligations.ResetStateHoldsTheResetValues := by
  refine ⟨State.reset_legal, fun c => Quad.get_all _ c, ?_⟩
  refine ⟨rfl, rfl, rfl, rfl, rfl, rfl, rfl, rfl, rfl, rfl, rfl, rfl, rfl, rfl, fun c => Quad.get_all _ c, rfl, rfl, rfl, rfl,
    rfl, rfl, fun n => ?_, ?_⟩
  · exact Vector.getElem_replicate n.isLt
  · simp [State.reset, UpstreamPort.reset, DownstreamPort.reset, EventBlock.reset, ManagementLink.reset]

/-- The soft reset value of a context is its reset value with its own quota (R2). -/
theorem State.softValues_contexts (s : State) (c : Ctx) :
    s.softValues.contexts.get c = { State.reset.contexts.get c with quota := (s.contexts.get c).quota } := by
  have reset : State.reset.contexts.get c = .reset := Quad.get_all _ c
  rw [reset]
  exact Quad.get_map ContextRecord.softReset s.contexts c

/-- A drain right after the soft reset values: nothing is held, due or at the head, so from DETACHED it ends at once (R114,
R118). -/
theorem State.softValues_beginDrain (s : State) : s.softValues.beginDrain =
    { s.softValues with
      attach := { AttachEngine.reset with
        journal := .drained
        quiet := true
        drain := { DrainRecord.reset with origin := some .detached, detail := some .skipped } }
      events := { records := [drainedEvent .skipped none], overrun := false, mask := s.events.mask }
      upstream := { UpstreamPort.reset with intake := .stopped, link := s.upstream.link } } := rfl

/-- After the soft reset values a drain follows exactly where PFAIL_N is asserted and RST_N is not (R114). -/
theorem State.softValues_drainIfWarned (s : State) : s.softValues.drainIfWarned =
    if s.pins.pfail = true ∧ s.pins.rst = false then s.softValues.beginDrain else s.softValues := by
  unfold State.drainIfWarned
  refine if_congr ?_ rfl rfl
  simp [State.softValues, State.live, AttachEngine.reset, JournalState.drainable]

/-- Settles O30: the soft values keep configuration, and so does the drain that a PFAIL_N still asserted starts. -/
theorem volatileResetKeepsConfiguration : Obligations.VolatileResetKeepsConfiguration := by
  intro s
  refine ⟨fun h => ?_, fun hw ho => ?_⟩
  · refine congrArg Host.Outcome.next (if_neg ?_)
    rintro ⟨hw, ho⟩
    rcases h with h | h
    · exact absurd hw (by simp [h])
    · exact h ho
  · refine ⟨s.softValues.drainIfWarned, congrArg Host.Outcome.next (if_pos ⟨hw, ho⟩),
      s.softValues.drainIfWarned_keeps.configuration.trans s.softValues_configuration, ?_⟩
    rw [State.softValues_drainIfWarned]
    have contexts := s.softValues_contexts
    split
    · next hp =>
      rw [State.softValues_beginDrain]
      refine ⟨rfl, rfl, rfl, rfl, rfl, contexts, rfl, rfl, rfl, rfl, rfl, rfl, rfl, rfl, rfl, rfl, rfl, rfl, rfl, rfl, rfl,
        rfl, fun h => ?_, fun _ _ => ⟨rfl, rfl, rfl⟩⟩
      exact absurd hp.1 (by simp [h])
    · next hp =>
      exact ⟨rfl, rfl, rfl, rfl, rfl, contexts, rfl, rfl, rfl, rfl, rfl, rfl, rfl, rfl, rfl, rfl, rfl, rfl, rfl, rfl, rfl,
        rfl, fun _ => ⟨rfl, rfl, rfl⟩, fun h hr => absurd ⟨h, hr⟩ hp⟩

end Sys2Proof.Machine
end

section
/-! The log writer's takes (R43, R44, R48, R49, R86) and the frontier after a durable append (R26, R39, R46, R68). -/

namespace Sys2Proof.Machine

/-! ## What is taken -/

/-- With no marker asked for, the oldest PRE_IMAGE is taken while there is room for it (R43). -/
theorem LogWriter.nextTake_of_noMarker {w : LogWriter} (h : ∀ x ∈ w.requests, x.isMarker = false) :
    w.nextTake = if w.roomForPreImage then w.frontPreImage else none := by
  have hm : w.frontMarker = none := by
    simpa [LogWriter.frontMarker, List.find?_eq_none] using h
  unfold LogWriter.nextTake
  rw [hm, ite_self]

/-- The oldest marker is taken ahead of the PRE_IMAGE requests before it (R86). -/
theorem LogWriter.nextTake_of_marker {w : LogWriter} {before after : List AppendRequest} {m : AppendRequest}
    (h : w.requests = before ++ m :: after) (hb : ∀ x ∈ before, x.isMarker = false) (hm : m.isMarker = true)
    (hr : w.roomForMarker = true) : w.nextTake = some m := by
  have hnone : before.find? (fun r => r.isMarker) = none := by simpa [List.find?_eq_none] using hb
  have hf : w.frontMarker = some m := by
    rw [LogWriter.frontMarker, h, List.find?_append, hnone]
    simp [hm]
  unfold LogWriter.nextTake
  rw [if_pos hr, hf]

/-- A take that is not possible changes nothing. -/
theorem State.appendTake_of_none {s : State} (h : s.log.nextTake = none) : s.appendTake = s := by
  unfold State.appendTake
  split
  · rw [h]
  · rfl

theorem State.appendTake_of_preImage {s : State} {c : Ctx} {l : Line} {image : List Byte} (hs : s.working)
    (hj : s.attach.journal = .attached) (h : s.log.nextTake = some (.preImage c l image)) :
    s.appendTake = (s.takePreImage c l image).lookLow.lookSpace := by
  have hl : s.live = true := by simp [State.live, hs.1, hs.2]
  unfold State.appendTake
  rw [if_pos ⟨hl, hj⟩, h]

theorem State.appendTake_of_marker {s : State} {kind : MarkerKind} {c : Ctx} {epoch : Epoch} {incomplete : Bool}
    (hs : s.working) (hj : s.attach.journal = .attached)
    (h : s.log.nextTake = some (.marker kind c epoch incomplete)) :
    s.appendTake = (s.takeMarker kind c epoch incomplete).lookLow.lookSpace.runEngines := by
  have hl : s.live = true := by simp [State.live, hs.1, hs.2]
  unfold State.appendTake
  rw [if_pos ⟨hl, hj⟩, h]

/-- Settles O48: with no marker asked for the front request is a PRE_IMAGE, and the two looks follow its take. -/
theorem preImageAppendTakesTheHead : Obligations.PreImageAppendTakesTheHead := by
  refine ⟨fun s hm hn => congrArg Host.Outcome.next (State.appendTake_of_none ?_), ?_⟩
  · rw [LogWriter.nextTake_of_noMarker hm]
    rcases hn with hn | hn | hn
    · simp [LogWriter.frontPreImage, hn]
    · simp [LogWriter.roomForPreImage, Nat.not_lt.2 hn]
    · have : ¬ 4 < s.log.freeSlots.toNat := Nat.not_lt.2 hn
      simp [LogWriter.roomForPreImage, this]
  · intro s rest c l image w hs hj hreq hrest hin hfree hw
    have hm : ∀ x ∈ s.log.requests, x.isMarker = false := by
      rw [hreq]
      exact List.forall_mem_cons.2 ⟨rfl, hrest⟩
    have next : s.log.nextTake = some (.preImage c l image) := by
      rw [LogWriter.nextTake_of_noMarker hm, if_pos (s.log.roomForPreImage_iff.2 ⟨hin, hfree⟩)]
      simp [LogWriter.frontPreImage, hreq, AppendRequest.isMarker]
    have log : (s.takePreImage c l image).log = w := by
      rw [hw]
      show s.log.take (.preImage c l image) c = _
      simp [LogWriter.take, hreq]
    obtain ⟨looked, raised⟩ := (s.takePreImage c l image).lookLow_lookSpace
    have attach : (s.takePreImage c l image).attach.journal = .attached := by simpa using hj
    rw [log, attach] at looked raised
    exact ⟨_, congrArg Host.Outcome.next (State.appendTake_of_preImage hs hj next), looked, raised,
      by simp; rfl, by simp; rfl, by simp; rfl, by simp; rfl, by simp, by simp, by simp, by simp, by simp, by simp, by simp⟩

/-! ## The marker's take -/

/-- A procedure that can go on after a change could before, if each thing it may wait for had come about before. -/
theorem State.engineReady_mono {s t : State} {d : Ctx} (he : t.engine.get d = s.engine.get d)
    (hj : t.journaledCount d = s.journaledCount d) (ha : t.abortSettled d = true → s.abortSettled d = true)
    (hl : t.allLogged d = true → s.allLogged d = true) (hm : t.markerCovered d = true → s.markerCovered d = true)
    (h : t.engineReady d = true) : s.engineReady d = true := by
  unfold State.engineReady at h ⊢
  simp only [he, hj] at h ⊢
  cases hp : (s.engine.get d).procedure <;> cases hph : (s.engine.get d).phase <;> simp only [hp, hph] at h ⊢
  case commit.marking | abort.marking => exact hm h
  case abort.settling => exact ha h
  case abort.covering => exact hl h
  all_goals exact h

/-- The take of a marker lets no procedure go on: what it covers was covered before, and the marker is not (R44, R84). -/
theorem State.takeMarker_engineReady {s t : State} {c : Ctx} (h : ∀ d, s.engineReady d = false)
    (hc : (s.engine.get c).phase = .marking)
    (he : t.engine = s.engine.set c { s.engine.get c with markerSeq := some s.log.head }) (hf : t.filter = s.filter)
    (hh : t.hold = s.hold) (ho : t.downstream.outstanding = s.downstream.outstanding) (ht : t.log.tail = s.log.tail)
    (hi : t.log.inFlight = s.log.inFlight ++ [{ seq := s.log.head, ctx := c, failed := false }]) (d : Ctx) :
    t.engineReady d = false := by
  have covered : ∀ q, t.log.covers q = true → s.log.covers q = true ∧ q ≠ s.log.head :=
    fun q => LogWriter.covers_of_take ht hi
  by_cases hd : d = c
  · subst hd
    have notCovered : t.markerCovered d = false := by
      simp only [State.markerCovered, he, Quad.get_set_self]
      exact Bool.not_eq_true _ ▸ fun hq => (covered _ hq).2 rfl
    simp only [State.engineReady, he, Quad.get_set_self, hc, notCovered]
    cases (s.engine.get d).procedure <;> rfl
  · have same : t.engine.get d = s.engine.get d := by rw [he, Quad.get_set_of_ne _ hd]
    rw [← Bool.not_eq_true]
    refine fun hr => absurd (State.engineReady_mono same ?_ ?_ ?_ ?_ hr) (by simp [h d])
    · simp only [State.journaledCount, hh]
    · have appends : t.appendsUnanswered d = s.appendsUnanswered d := by
        simp [State.appendsUnanswered, hi, Ne.symm hd]
      simp only [State.abortSettled, State.journaledCount, State.captureReads, hh, ho, appends]
      exact id
    · simp only [State.allLogged, hf]
      exact id
    · simp only [State.markerCovered, same]
      cases (s.engine.get d).markerSeq with
      | none => exact id
      | some q => exact fun hq => (covered q hq).1

/-- Settles O49: the marker is taken ahead of what was asked for before it, and no procedure moves by its take. -/
theorem markerUsesTheReserve : Obligations.MarkerUsesTheReserve := by
  intro s before after kind c epoch incomplete w hs hj hreq hb hin hready hc hfree hw
  have next : s.log.nextTake = some (.marker kind c epoch incomplete) :=
    LogWriter.nextTake_of_marker hreq hb rfl (s.log.roomForMarker_iff.2 ⟨hin, hfree⟩)
  have first : AppendRequest.marker kind c epoch incomplete ∉ before := fun hm => by cases hb _ hm
  have log : (s.takeMarker kind c epoch incomplete).log = w := by
    rw [hw]
    show s.log.take (.marker kind c epoch incomplete) c = _
    simp [LogWriter.take, hreq, List.erase_append_right _ first]
  obtain ⟨looked, raised⟩ := (s.takeMarker kind c epoch incomplete).lookLow_lookSpace
  have rest : (s.takeMarker kind c epoch incomplete).lookLow.lookSpace.runEngines =
      (s.takeMarker kind c epoch incomplete).lookLow.lookSpace :=
    State.runEngines_of_none _ (State.takeMarker_engineReady hready hc (by simp; rfl) (by simp) (by simp) (by simp)
      (by simp) (by simp [log, hw]))
  have attach : (s.takeMarker kind c epoch incomplete).attach.journal = .attached := by simpa using hj
  rw [log, attach] at looked raised
  exact ⟨_, congrArg Host.Outcome.next ((State.appendTake_of_marker hs hj next).trans rest), looked, raised,
    by simp; rfl, by simp; rfl, by simp; rfl, by simp, by simp, by simp, by simp, by simp, by simp, by simp, by simp⟩

/-! ## The frontier -/

/-- The appends in flight leave the frontier one below the nearest to the tail (R39). -/
theorem LogWriter.frontier_of_least {w : LogWriter} {a : InFlight} (ha : a ∈ w.inFlight)
    (h : ∀ b ∈ w.inFlight, distance w.tail a.seq ≤ distance w.tail b.seq) : w.frontier = a.seq - 1 := by
  have least : leastFrom w.tail (w.inFlight.map (·.seq)) = some a.seq :=
    leastFrom_eq_some (List.mem_map_of_mem ha) (by simpa using h)
  simp [LogWriter.frontier, least]

/-- An answer that is awaited is routed with its entry removed (R155). -/
theorem State.takeAnswer_of_awaits {s : State} {o : Outstanding} (h : s.awaits o) (a : Answer) :
    s.takeAnswer o.tag a = (s.answered o.tag).routeAnswer o.owner a :=
  State.takeAnswer_of_some a h.2 h.1.2

/-- Following the frontier keeps the journaled entries of every context. -/
@[simp] theorem State.followFrontier_journaledCount (s : State) (c : Ctx) :
    s.followFrontier.journaledCount c = s.journaledCount c := by
  simp [State.journaledCount, List.filter_map, Function.comp_def, HoldEntry.ctx]

/-- A procedure that waits for more cannot go on. -/
theorem State.engineReady_of_waits {s : State} {c : Ctx}
    (h : (s.engine.get c).procedure = .none ∨ (s.engine.get c).phase = .stopped ∨
      ((s.engine.get c).phase = .settling ∧ (s.journaledCount c ≠ 0 ∨
        ((s.engine.get c).procedure = .abort ∧ (s.captureReads c ≠ 0 ∨ s.appendsUnanswered c ≠ 0)))) ∨
      ((s.engine.get c).phase = .replaying ∧ (s.engine.get c).replayStep ≠ none) ∨
      ((s.engine.get c).phase = .marking ∧ ∀ m, (s.engine.get c).markerSeq = some m → s.log.covers m = false) ∨
      ((s.engine.get c).phase = .covering ∧ ∃ f ∈ s.filter, f.owner = c ∧ f.state = .capturing)) :
    s.engineReady c = false := by
  rcases h with hp | hph | ⟨hph, hw⟩ | ⟨hph, hw⟩ | ⟨hph, hw⟩ | ⟨hph, f, hf, hfc, hfs⟩
  · exact s.engineReady_of_none c hp
  · cases hp : (s.engine.get c).procedure <;> simp [State.engineReady, hp, hph]
  · rcases hw with hw | ⟨hp, hw⟩
    · cases hp : (s.engine.get c).procedure <;> simp [State.engineReady, hp, hph, State.abortSettled, hw]
    · rcases hw with hw | hw <;> simp [State.engineReady, hp, hph, State.abortSettled, hw]
  · cases hp : (s.engine.get c).procedure <;> simp [State.engineReady, hp, hph, hw]
  · have uncovered : s.markerCovered c = false := by
      unfold State.markerCovered
      cases hm : (s.engine.get c).markerSeq with
      | none => rfl
      | some m => exact hw m hm
    cases hp : (s.engine.get c).procedure <;> simp [State.engineReady, hp, hph, uncovered]
  · have open_ : s.allLogged c = false := by
      rw [← Bool.not_eq_true, State.allLogged_iff]
      exact fun hall => absurd (hall f hf hfc) (by simp [hfs])
    cases hp : (s.engine.get c).procedure <;> simp [State.engineReady, hp, hph, open_]

/-- A commit or a rollback whose marker is covered completes (R84, R93). -/
theorem State.moveEngine_of_covered {s : State} {c : Ctx} (hph : (s.engine.get c).phase = .marking)
    (hm : s.markerCovered c = true) :
    ((s.engine.get c).procedure = .commit → s.moveEngine c = s.commitCompleted c) ∧
    ((s.engine.get c).procedure = .abort → s.moveEngine c = s.abortCompleted c) := by
  refine ⟨fun hp => ?_, fun hp => ?_⟩
  · simp only [State.moveEngine, hp, State.moveCommit, hph, hm, if_true]
    rfl
  · have move : s.moveEngine c = s.completeAbort c := by
      simp [State.moveEngine, hp, State.moveSettling, State.moveCovering, State.moveReplaying, State.moveMarking, hph, hm]
    rw [move]
    rfl

/-- A procedure that is alone and can go on does. -/
theorem State.runEngines_alone {s : State} {c : Ctx} (h : ∀ d, d ≠ c → (s.engine.get d).procedure = .none)
    (hr : s.engineReady c = true) : s.runEngines = s.moveEngine c := by
  rw [s.runEngines_of_one c fun d hd => s.engineReady_of_none d (h d hd), if_pos hr]

/-- Settles O50: the filter and the items follow the frontier, then the one procedure that waited moves on. -/
theorem durableAppendMovesTheFrontier : Obligations.DurableAppendMovesTheFrontier := by
  refine ⟨fun w => ⟨w.frontier_of_idle, fun a ha h => LogWriter.frontier_of_least ha h, fun q => ?_⟩, ?_⟩
  · unfold LogWriter.covers
    exact decide_eq_true_iff
  intro s tag lines q data w moved haw hw hmoved
  have followed : moved = ({ s.answered tag with log := w } : State).followFrontier := by
    rw [hmoved]
    rfl
  have taken : exec (.appendAnswer tag (.done data)) s = .next moved.runEngines := by
    rw [followed, hw]
    exact congrArg Host.Outcome.next (State.takeAnswer_of_awaits haw (.done data))
  have counts : ∀ c, moved.journaledCount c = s.journaledCount c := by
    intro c
    rw [followed, State.followFrontier_journaledCount]
    rfl
  have engine : moved.engine = s.engine := by
    rw [hmoved]
    rfl
  have log : moved.log = w := by rw [hmoved]
  rw [taken]
  refine ⟨fun hwait => ?_, fun c halone =>
    ⟨fun m hph hm hcov => ?_, fun hp hset hj hr ha => ?_, fun hp hph hrs hms hl => ?_⟩⟩
  · refine congrArg Host.Outcome.next (State.runEngines_of_none _ fun c => State.engineReady_of_waits ?_)
    rw [engine, counts, log]
    exact hwait c
  · rw [← engine] at hph hm halone ⊢
    have covered : moved.markerCovered c = true := by
      rw [← log] at hcov
      simp [State.markerCovered, hm, hcov]
    have move := State.moveEngine_of_covered hph covered
    have ready : ∀ p, p ≠ .none → (moved.engine.get c).procedure = p → moved.engineReady c = true := by
      rintro p hp rfl
      cases hp' : (moved.engine.get c).procedure <;> simp_all [State.engineReady]
    refine ⟨fun hp => ?_, fun hp => ?_⟩
    · rw [State.runEngines_alone halone (ready _ (by simp) hp), move.1 hp]
    · rw [State.runEngines_alone halone (ready _ (by simp) hp), move.2 hp]
  · refine ⟨_, rfl, moved.runEngines_leavesSettling c ?_ ((counts c).trans hj) (.inr ⟨by rw [engine, hp], hr, ha⟩)⟩
    unfold State.settlesAlone at hset ⊢
    rw [engine]
    exact hset
  · rw [← engine] at hp hph hrs hms halone
    have ready : moved.engineReady c = true := by
      simp only [State.engineReady, hp, hph]
      exact (moved.allLogged_iff c).2 fun f hf ho => (hl f hf ho).1
    refine ⟨_, rfl, ?_⟩
    rw [State.runEngines_alone halone ready]
    exact moved.moveEngine_leavesCovering c hp hph hrs hms hl

end Sys2Proof.Machine
end

section
/-! A write error of the log (R47, R55, R56, R112), and the answer of every anchor write (R53, R102, R107, R111, R116). -/

namespace Sys2Proof.Machine

/-! ## The break -/

/-- A write error in ATTACHED or DETACHING breaks the journal, in any other state but DRAINING it says nothing (R112). -/
theorem State.logError_breaks {s : State} (cause : BreakCause) (sequence : Option Seq)
    (h : s.attach.journal = .attached ∨ s.attach.journal = .detaching) :
    s.logError cause sequence = s.breakJournal cause sequence := if_pos h

theorem State.logError_draining {s : State} (cause : BreakCause) (sequence : Option Seq)
    (h : s.attach.journal = .draining) : s.logError cause sequence = s.raise (brokenEvent cause sequence 0) := by
  simp [State.logError, h]

theorem State.logError_late {s : State} (cause : BreakCause) (sequence : Option Seq)
    (h : s.attach.journal = .broken ∨ s.attach.journal = .drained) : s.logError cause sequence = s := by
  rcases h with h | h <;> simp [State.logError, h]

/-- What a break does to one context, by its state (R17, R96). -/
theorem State.broken_context {s t : State} {c : Ctx}
    (h : t.contexts.get c = (if (s.contexts.get c).state.breakable then
        (s.contexts.get c).toFaulted .journalBroken else s.contexts.get c) ∧
      t.engine.get c = (if (s.contexts.get c).state.breakable then .reset else s.engine.get c)) :
    ((s.contexts.get c).state = .opened ∨ (s.contexts.get c).state = .committing ∨
        (s.contexts.get c).state = .aborting →
      t.contexts.get c = { s.contexts.get c with state := .faulted, faultCause := some .journalBroken } ∧
      t.engine.get c = .reset) ∧
    ((s.contexts.get c).state = .idle ∨ (s.contexts.get c).state = .faulted →
      t.contexts.get c = s.contexts.get c ∧ t.engine.get c = s.engine.get c) := by
  refine ⟨fun hs => ?_, fun hs => ?_⟩
  · have : (s.contexts.get c).state.breakable = true := by
      rcases hs with hs | hs | hs <;> rw [hs] <;> rfl
    rwa [if_pos this, if_pos this] at h
  · have : ¬ (s.contexts.get c).state.breakable = true := by
      rcases hs with hs | hs <;> rw [hs] <;> simp [CtxState.breakable]
    rwa [if_neg this, if_neg this] at h

/-- The append of a sequence has answered ERROR under a tag and is marked (R47, R155). -/
def State.appendFailed (s : State) (tag : BitVec 4) (q : Seq) : State :=
  { s.answered tag with log := s.log.markFailed q }

theorem exec_appendAnswer_error {s : State} {tag : BitVec 4} {lines : List Line} {q : Seq}
    (haw : s.awaits { tag := tag, owner := .append q, lines := lines }) :
    exec (.appendAnswer tag .error) s = .next ((s.appendFailed tag q).logError .appendError (some q)) :=
  congrArg Host.Outcome.next (State.takeAnswer_of_awaits haw .error)

/-- Settles O51: in ATTACHED and DETACHING the marked append's error is the break of R112. -/
theorem appendErrorBreaksTheJournal : Obligations.AppendErrorBreaksTheJournal := by
  refine ⟨fun s tag lines q haw hp hj => ?_, fun s marked tag lines q haw hm => ⟨fun hj => ?_, fun hj => ?_⟩⟩
  · rw [exec_appendAnswer_error haw, State.logError_breaks (s := s.appendFailed tag q) _ _ hj]
    have events := (s.appendFailed tag q).breakJournal_events .appendError (some q) hp
    obtain ⟨t, rfl, hattach, hflight, hreq, hhead, htail, hgen, hanchor, hhold, hout, hctx, hrestore, happend, hforward,
      hsettled, hup, hmgmt, hpins⟩ := (s.appendFailed tag q).breakJournal_spec .appendError (some q) hp
    exact ⟨_, rfl, hattach, events, hflight, hreq, hhead, htail, hgen, hanchor, hhold, hout,
      fun c => State.broken_context (hctx c), hrestore, happend, hforward, hsettled, hup, hmgmt, hpins⟩
  · rw [exec_appendAnswer_error haw, State.logError_draining (s := s.appendFailed tag q) _ _ hj, hm]
    rfl
  · rw [exec_appendAnswer_error haw, State.logError_late (s := s.appendFailed tag q) _ _ hj, hm]
    rfl

/-! ## The anchor writes of a working journal -/

/-- The answer to an anchor write that no attach has issued (R53, R56). -/
theorem State.takeAnswer_anchor {s : State} {tag : BitVec 4} {lines : List Line} {flight : AnchorFlight} (a : Answer)
    (haw : s.awaits { tag := tag, owner := .anchor, lines := lines }) (hf : s.log.anchor = some flight)
    (ha : flight.attaching = false) :
    s.takeAnswer tag a = match a with
      | .done _ =>
        match flight.issuer with
        | .logWriter => (s.anchorAnswered tag).moveTail flight.tail
        | .attachEngine => ((s.anchorAnswered tag).moveTail flight.tail).engineAnchorDone
      | .error => (s.anchorAnswered tag).anchorError flight := by
  refine (State.takeAnswer_of_awaits haw a).trans ?_
  show (s.answered tag).anchorAnswer a = _
  unfold State.anchorAnswer
  rw [show (s.answered tag).log.anchor = some flight from hf]
  dsimp only
  rw [ha]
  cases a <;> rfl

/-- The tail moves, the warnings are armed anew, and the oldest PRE_IMAGE request is looked at (R48, R49, R53). -/
theorem State.moveTail_spec {s : State} {limit : Seq} {w : LogWriter}
    (hw : w = { s.log with
      tail := limit
      logFullArmed := s.log.logFullArmed || decide (4 < (s.log.ringSize - (s.log.head - limit)).toNat)
      logLowArmed := s.log.logLowArmed || decide (s.items.watermark ≠ 0 ∧
        s.items.watermark ≤ (s.log.ringSize - (s.log.head - limit)).toNat) }) :
    (s.moveTail (some limit)).log = { w with
      spaceWaiter := (s.moveTail (some limit)).log.spaceWaiter
      logFullArmed := w.logFullArmed && (w.fullEvents s.attach.journal).isEmpty } ∧
    (s.moveTail (some limit)).events = s.events.takeAll (w.fullEvents s.attach.journal) := by
  have armed : ({ s.log with tail := limit } : LogWriter).rearm s.items.watermark = w := by
    rw [hw]
    unfold LogWriter.rearm
    rw [Bool.decide_and]
    rfl
  have looked := State.lookSpace_full { s with log := w }
  unfold State.moveTail
  dsimp only
  rw [armed]
  exact looked

/-- A move of the tail leaves everything but the log writer and the events. -/
theorem State.moveTail_frame (s : State) (q : Option Seq) :
    (s.moveTail q).contexts = s.contexts ∧ (s.moveTail q).filter = s.filter ∧ (s.moveTail q).hold = s.hold ∧
    (s.moveTail q).engine = s.engine ∧ (s.moveTail q).attach = s.attach ∧ (s.moveTail q).upstream = s.upstream ∧
    (s.moveTail q).downstream = s.downstream ∧ (s.moveTail q).pins = s.pins ∧ (s.moveTail q).out = s.out := by
  unfold State.moveTail
  split <;> simp

/-- Outside ATTACHED no LOG_FULL is raised (R43, R48). -/
theorem LogWriter.fullEvents_of_notAttached (w : LogWriter) {j : JournalState} (h : j ≠ .attached) :
    w.fullEvents j = [] := by
  rw [LogWriter.fullEvents_eq]
  split
  · rw [if_neg fun hj => h hj.1]
  · rfl

/-- The attach engine's own write ends a detach, or makes a drain's detail WRITTEN; it changes nothing else but by the
DETACH_DONE event (R111, R116). -/
theorem State.engineAnchorDone_spec (s : State)
    (hp : s.pins.pfail = false ∨ s.attach.journal = .draining ∨ s.attach.journal = .drained) :
    (s.engineAnchorDone.log = s.log ∧ s.engineAnchorDone.contexts = s.contexts ∧ s.engineAnchorDone.filter = s.filter ∧
      s.engineAnchorDone.hold = s.hold ∧ s.engineAnchorDone.engine = s.engine ∧
      s.engineAnchorDone.upstream = s.upstream ∧ s.engineAnchorDone.downstream = s.downstream ∧
      s.engineAnchorDone.out = s.out) ∧
    (s.attach.journal = .detaching → s.engineAnchorDone.attach = { s.attach with journal := .detached } ∧
      s.engineAnchorDone.events = s.events.take (detachEvent .detached (some s.log.head))) ∧
    (s.attach.journal = .draining → s.engineAnchorDone.events = s.events ∧
      s.engineAnchorDone.attach = (if s.attach.drain.finalIssued = true then
        { s.attach with drain := { s.attach.drain with detail := some .written } } else s.attach)) := by
  by_cases hd : s.attach.journal = .detaching
  · have hpf : s.pins.pfail = false := by simpa [hd] using hp
    have done : s.engineAnchorDone = (s.setJournal .detached).raise (detachEvent .detached (some s.log.head)) := by
      unfold State.engineAnchorDone
      rw [if_pos hd, State.drainIfWarned_of_pfail _ (by simpa using hpf)]
    rw [done]
    simp [hd]
  · by_cases hr : s.attach.journal = .draining ∧ s.attach.drain.finalIssued = true
    · have done : s.engineAnchorDone =
          { s with attach := { s.attach with drain := { s.attach.drain with detail := some .written } } } := by
        unfold State.engineAnchorDone
        rw [if_neg hd, if_pos hr]
      rw [done]
      simp [hr.1, hr.2]
    · have done : s.engineAnchorDone = s := by
        unfold State.engineAnchorDone
        rw [if_neg hd, if_neg hr]
      rw [done]
      have unissued : s.attach.journal = .draining → ¬ s.attach.drain.finalIssued = true := fun h hf => hr ⟨h, hf⟩
      exact ⟨⟨rfl, rfl, rfl, rfl, rfl, rfl, rfl, rfl⟩, fun h => absurd h hd, fun h => ⟨rfl, (if_neg (unissued h)).symm⟩⟩

/-- An error of a write that no attach has issued, by the journal state (R56, R112, R115, R116). -/
theorem State.anchorError_spec {s : State} (flight : AnchorFlight) :
    (s.attach.journal = .attached ∨ s.attach.journal = .detaching →
      s.anchorError flight = s.breakJournal .anchorError flight.tail) ∧
    (s.attach.journal = .draining → s.anchorError flight =
      { s with
        attach := { s.attach with drain :=
          if flight.issuer = .attachEngine ∧ s.attach.drain.finalIssued = true then
            { s.attach.drain with detail := some .failed }
          else { s.attach.drain with anchorError := true } }
        events := s.events.take (brokenEvent .anchorError flight.tail 0) }) ∧
    (s.attach.journal = .broken ∨ s.attach.journal = .drained → s.anchorError flight = s) := by
  refine ⟨fun h => ?_, fun h => ?_, fun h => ?_⟩ <;> unfold State.anchorError <;> dsimp only
  · rw [State.logError_breaks _ _ h, if_neg (by rcases h with h | h <;> simp [h])]
  · rw [State.logError_draining _ _ h, if_pos h]
    split <;> rfl
  · rw [State.logError_late _ _ h, if_neg (by rcases h with h | h <;> simp [h])]

/-! ## The anchor writes of an attach -/

/-- The answer to an anchor write that an attach has issued is that attach's, if it still runs (R53, R117). -/
theorem exec_anchorAnswer_attaching {s : State} {tag : BitVec 4} {lines : List Line} {flight : AnchorFlight} (a : Answer)
    (haw : s.awaits { tag := tag, owner := .anchor, lines := lines }) (hf : s.log.anchor = some flight)
    (ha : flight.attaching = true) :
    exec (.anchorWriteAnswer tag a) s = .next ((s.anchorAnswered tag).attachAnchorAnswer a) := by
  refine congrArg Host.Outcome.next ((State.takeAnswer_of_awaits haw a).trans ?_)
  show (s.answered tag).anchorAnswer a = _
  unfold State.anchorAnswer
  rw [show (s.answered tag).log.anchor = some flight from hf]
  dsimp only
  rw [if_pos ha]
  rfl

theorem State.attachAnchorAnswer_done {s : State} (data : List Byte) (hj : s.attach.journal = .attaching) :
    s.attachAnchorAnswer (.done data) = s.attachAnchorDone := if_pos hj

theorem State.attachAnchorAnswer_error {s : State} (hj : s.attach.journal = .attaching) :
    s.attachAnchorAnswer .error = s.attachAnchorError := if_pos hj

/-- The next epochs loaded, context by context (R3). -/
theorem State.loadNextEpochs_get (s : State) (e : Quad Epoch) (c : Ctx) :
    (s.loadNextEpochs e).contexts.get c = { s.contexts.get c with nextEpoch := e.get c } := by
  fin_cases c <;> rfl

/-- An attach completes, PFAIL_N deasserted: the pointers and the next epochs are loaded (R3, R41, R109). -/
theorem State.completeAttach_attaches (s : State) (result : AttachResult) (head generation : Seq) (epochs : Quad Epoch)
    (hp : s.pins.pfail = false) :
    s.attaches result head generation (s.completeAttach result head generation epochs) ∧
      ∀ c, (s.completeAttach result head generation epochs).contexts.get c =
        { s.contexts.get c with nextEpoch := epochs.get c } := by
  have done : s.completeAttach result head generation epochs = _ := State.drainIfWarned_of_pfail _ hp
  rw [done]
  exact ⟨rfl, s.loadNextEpochs_get epochs⟩

/-- The first sweep write of a ring that has a slot goes to its base (R102). -/
theorem State.startSweep_begins {s : State} (h : s.attach.progress.slots ≠ 0) : s.startSweep = s.beginsSweep := by
  have some_slot : 0 < s.attach.progress.slots.toNat := by
    rw [Nat.pos_iff_ne_zero]
    exact fun h0 => h (BitVec.eq_of_toNat_eq h0)
  have first : slotAddress s.attach.progress.ringBase s.attach.progress.slots 0 = s.attach.progress.ringBase := by
    simp [slotAddress]
  have begun : s.startSweep = ((s.setAttach { s.attach.progress with step := .sweeping, position := 0 }).handScan
      (writeRequest (slotAddress s.attach.progress.ringBase s.attach.progress.slots 0) zeroLine) .sweeping true).setAttach
      { s.attach.progress with step := .sweeping, position := 1 } := if_pos some_slot
  rw [begun, first]
  rfl

/-- What an answered anchor write does to an attach that runs, by its step (R102, R107, R108). -/
theorem State.attachAnchorDone_of_step {s : State} (hp : s.pins.pfail = false) :
    (s.attach.progress.step = .invalidating false → s.attachAnchorDone = s.zeroesCopy1) ∧
    (s.attach.progress.step = .invalidating true → s.attach.progress.slots ≠ 0 → s.attachAnchorDone = s.beginsSweep) ∧
    (s.attach.progress.step = .formatAnchor →
      s.attaches .formatted 0 1 s.attachAnchorDone ∧
      ∀ c, s.attachAnchorDone.contexts.get c = { s.contexts.get c with nextEpoch := 0 }) ∧
    (∀ a, s.attach.progress.step = .finalAnchor → s.attach.progress.current = some a →
      s.attaches (if a.state = .clean then .clean else .recovered) s.attach.progress.headFound (a.generation + 1)
        s.attachAnchorDone ∧
      ∀ c, ∃ e, carriesEpoch (a.nextEpochs.get c) (s.attach.progress.recovery.get c) e ∧
        s.attachAnchorDone.contexts.get c = { s.contexts.get c with nextEpoch := e }) := by
  refine ⟨fun hs => ?_, fun hs hn => ?_, fun hs => ?_, fun a hs ha => ?_⟩
  · unfold State.attachAnchorDone
    simp only [hs]
    rfl
  · rw [← State.startSweep_begins hn]
    unfold State.attachAnchorDone
    simp only [hs]
  · have done : s.attachAnchorDone = s.completeAttach .formatted 0 1 (Quad.all 0) := by
      unfold State.attachAnchorDone
      simp only [hs]
    rw [done]
    obtain ⟨attached, loaded⟩ := s.completeAttach_attaches .formatted 0 1 (Quad.all 0) hp
    refine ⟨attached, fun c => (loaded c).trans ?_⟩
    fin_cases c <;> rfl
  · have done : s.attachAnchorDone = s.completeAttach (if a.state = .clean then .clean else .recovered)
        s.attach.progress.headFound (a.generation + 1) (s.attach.progress.finalCopy a).nextEpochs := by
      unfold State.attachAnchorDone
      simp only [hs, ha]
    rw [done]
    obtain ⟨attached, loaded⟩ := s.completeAttach_attaches (if a.state = .clean then .clean else .recovered)
      s.attach.progress.headFound (a.generation + 1) (s.attach.progress.finalCopy a).nextEpochs hp
    exact ⟨attached, fun c => ⟨_, s.attach.progress.finalCopy_carries a c, loaded c⟩⟩

theorem State.attachAnchorError_of_step {s : State} (hp : s.pins.pfail = false) :
    ((∃ second, s.attach.progress.step = .invalidating second) ∨ s.attach.progress.step = .formatAnchor →
      s.failsAttach .failedWrite none s.attachAnchorError) ∧
    (s.attach.progress.step = .finalAnchor →
      s.failsAttach .failedWrite (some s.attach.progress.headFound) s.attachAnchorError) := by
  unfold State.attachAnchorError
  refine ⟨?_, fun h => ?_⟩
  · rintro (⟨second, h⟩ | h) <;> simp only [h] <;> exact s.failAttach_fails _ _ hp
  · simp only [h]
    exact s.failAttach_fails _ _ hp

/-- The answer of an anchor write that no attach has issued, as one command's result. -/
theorem exec_anchorAnswer {s : State} {tag : BitVec 4} {lines : List Line} {flight : AnchorFlight} (a : Answer)
    (haw : s.awaits { tag := tag, owner := .anchor, lines := lines }) (hf : s.log.anchor = some flight)
    (ha : flight.attaching = false) :
    exec (.anchorWriteAnswer tag a) s = .next (match a with
      | .done _ =>
        match flight.issuer with
        | .logWriter => (s.anchorAnswered tag).moveTail flight.tail
        | .attachEngine => ((s.anchorAnswered tag).moveTail flight.tail).engineAnchorDone
      | .error => (s.anchorAnswered tag).anchorError flight) :=
  congrArg Host.Outcome.next (State.takeAnswer_anchor a haw hf ha)

/-- Settles O53: outside an attach by the tail's move or the error's reading in the journal state, in one by its step. -/
theorem anchorAnswerMovesTheTail : Obligations.AnchorAnswerMovesTheTail := by
  refine ⟨fun s tag lines data g limit issuer haw hf hp => ⟨fun w hw => ?_, fun hj => ?_, fun hj => ?_, fun hj => ?_⟩,
    fun s tag lines data g tail haw hf => ⟨fun hj a => ?_, fun hj hp => ?_⟩⟩
  · have moved := State.moveTail_spec (s := s.anchorAnswered tag) (limit := limit) hw
    obtain ⟨hlog, hevents⟩ := moved
    obtain ⟨hcontexts, hfilter, hhold, hengine, hattach, hup, hdown, hpins, hout⟩ :=
      (s.anchorAnswered tag).moveTail_frame (some limit)
    rw [exec_anchorAnswer (.done data) haw hf rfl]
    cases issuer with
    | logWriter =>
      exact ⟨_, rfl, hlog, fun _ => ⟨hattach, hevents⟩, fun h => by simp at h, fun h => by simp at h, hcontexts,
        hfilter, hhold, hengine, hup, hdown, hout⟩
    | attachEngine =>
      obtain ⟨⟨elog, econtexts, efilter, ehold, eengine, eup, edown, eout⟩, detached, drained⟩ :=
        ((s.anchorAnswered tag).moveTail (some limit)).engineAnchorDone_spec (by rw [hpins, hattach]; exact hp)
      rw [hattach] at detached drained
      have quiet (hj : s.attach.journal ≠ .attached) :
          ((s.anchorAnswered tag).moveTail (some limit)).events = s.events := by
        rw [hevents]
        exact (congrArg _ (LogWriter.fullEvents_of_notAttached _ hj)).trans rfl
      have hhead : ((s.anchorAnswered tag).moveTail (some limit)).log.head = s.log.head := by rw [hlog, hw]
      refine ⟨_, rfl, ?_, fun h => by simp at h, fun _ hj => ?_, fun _ hj => ?_, econtexts.trans hcontexts,
        efilter.trans hfilter, ehold.trans hhold, eengine.trans hengine, eup.trans hup, edown.trans hdown,
        eout.trans hout⟩
      · rw [elog]
        exact hlog
      · obtain ⟨eattach, eevents⟩ := detached hj
        rw [quiet (by simp [hj]), hhead] at eevents
        exact ⟨eattach, eevents⟩
      · obtain ⟨eevents, eattach⟩ := drained hj
        rw [quiet (by simp [hj])] at eevents
        exact ⟨eevents, eattach⟩
  · have unwarned : s.pins.pfail = false := by
      rcases hj with hj | hj <;> simpa [hj] using hp
    rw [exec_anchorAnswer .error haw hf rfl]
    dsimp only
    rw [((s.anchorAnswered tag).anchorError_spec _).1 hj]
    have events := (s.anchorAnswered tag).breakJournal_events .anchorError (some limit) unwarned
    obtain ⟨t, rfl, hattach, hflight, hreq, hhead, htail, hgen, hanchor, hhold, hout, hctx, hrestore, happend, hforward,
      hsettled, hup, -, -⟩ := (s.anchorAnswered tag).breakJournal_spec .anchorError (some limit) unwarned
    exact ⟨_, rfl, hattach, events, hanchor, hreq, htail, hhead, hgen, hflight, hhold, hout, hsettled, hup, hrestore,
      happend, hforward, fun c => State.broken_context (hctx c)⟩
  · rw [exec_anchorAnswer .error haw hf rfl]
    exact congrArg Host.Outcome.next (((s.anchorAnswered tag).anchorError_spec _).2.1 hj)
  · rw [exec_anchorAnswer .error haw hf rfl]
    exact congrArg Host.Outcome.next (((s.anchorAnswered tag).anchorError_spec _).2.2 hj)
  · rw [exec_anchorAnswer_attaching a haw hf rfl]
    exact congrArg Host.Outcome.next (if_neg hj)
  · rw [exec_anchorAnswer_attaching (.done data) haw hf rfl, exec_anchorAnswer_attaching .error haw hf rfl,
      State.attachAnchorAnswer_done (s := s.anchorAnswered tag) data hj,
      State.attachAnchorAnswer_error (s := s.anchorAnswered tag) hj]
    obtain ⟨invalidated, zeroed, formatted, final⟩ := State.attachAnchorDone_of_step (s := s.anchorAnswered tag) hp
    obtain ⟨unwritten, unfinished⟩ := State.attachAnchorError_of_step (s := s.anchorAnswered tag) hp
    exact ⟨fun h => congrArg _ (invalidated h), fun h hn => congrArg _ (zeroed h hn), fun h => ⟨_, rfl, formatted h⟩,
      fun a h ha => ⟨_, rfl, final a h ha⟩, fun h => ⟨_, rfl, unwritten h⟩, fun h => ⟨_, rfl, unfinished h⟩⟩

end Sys2Proof.Machine
end

section
/-! The fault of a context as an answer applies it (R14, R15, R69, R73): the failed pre-image read, and the answer of a
FORWARDED hold entry (R59, R72, R73, R76). -/

namespace Sys2Proof.Machine

/-! ## The fault, then the engines -/

/-- The progress of the faulted context: a commit ends, no other field moves (R15, R85). -/
theorem State.applyFault_progress (s : State) (c : Ctx) (cause : FaultCause) (a : Addr) :
    (s.applyFault c cause a).engine.get c =
      if (s.contexts.get c).state = .committing then .reset else s.engine.get c := by
  unfold State.applyFault
  dsimp only
  split <;> simp [State.failCommit]

/-- The events of a fault in the order of R15, before the look at the oldest PRE_IMAGE request. -/
theorem State.applyFault_records (s : State) (c : Ctx) (cause : FaultCause) (a : Addr) :
    (s.events.takeAll (refusals (s.unreleasedOf c) .faulted ++ s.faultEvents c cause a)).records <+:
      (s.applyFault c cause a).events.records := by
  have refused := State.refuseWhere_events (s.setContext c ((s.contexts.get c).toFaulted cause))
    (fun e => e.journaledOf c) .faulted
  have pick : ((s.setContext c ((s.contexts.get c).toFaulted cause)).hold.filter fun e => !e.released && e.journaledOf c) =
    s.unreleasedOf c := rfl
  rw [pick] at refused
  unfold State.applyFault
  dsimp only
  refine List.IsPrefix.trans ?_ (State.lookSpace_records _)
  unfold State.faultEvents
  split
  · simp [State.failCommit, refused, EventBlock.takeAll, faultEvent, commitEvent]
    exact List.prefix_rfl
  · simp [refused, EventBlock.takeAll, faultEvent]

theorem State.applyFault_responses (s : State) (c : Ctx) (cause : FaultCause) (a : Addr) :
    (s.applyFault c cause a).out = { s.out with
      responses := s.out.responses ++ (s.unreleasedOf c).map fun e => ⟨e.request.tag, .error⟩ } := by
  unfold State.applyFault
  dsimp only
  split <;> simp [State.failCommit, State.refuseWhere_out] <;> rfl

/-- A fault applied by an answer, the engines run after it: of the faulted context nothing moves more, and nothing of the
filter or the requests where no other procedure can go on (R14, R15, R75). -/
theorem State.applyFault_runEngines (s : State) (c : Ctx) (cause : FaultCause) (a : Addr)
    (hm : (s.engine.get c).procedure = (s.contexts.get c).state.procedure)
    (hc : (s.contexts.get c).state = .opened ∨ (s.contexts.get c).state = .committing) {t : State}
    (ht : t = (s.applyFault c cause a).runEngines) :
    t.contexts.get c = { s.contexts.get c with state := .faulted, faultCause := some cause } ∧
    t.engine.get c = (if (s.contexts.get c).state = .committing then .reset else s.engine.get c) ∧
    (∀ d, d ≠ c → (s.engine.get d).procedure = .none →
      t.contexts.get d = s.contexts.get d ∧ t.engine.get d = s.engine.get d) ∧
    t.hold = s.hold.filter (fun e => e.released || !(e.journaled && e.ctx == some c)) ∧
    t.filter.Sublist s.filter ∧
    t.out = { s.out with
      responses := s.out.responses ++ (s.unreleasedOf c).map fun e => ⟨e.request.tag, .error⟩ } ∧
    (s.events.takeAll (refusals (s.unreleasedOf c) .faulted ++ s.faultEvents c cause a)).records <+: t.events.records ∧
    t.upstream = { s.upstream with tags := s.tagsWithout (s.unreleasedOf c) } ∧
    t.kept = s.kept ++ keptReads (s.unreleasedOf c) ∧ t.downstream.captureList = s.readsWithout (s.unreleasedOf c) ∧
    t.attach = s.attach ∧ t.mgmt = s.mgmt ∧ t.pins = s.pins ∧
    t.log.head = s.log.head ∧ t.log.tail = s.log.tail ∧ t.log.inFlight = s.log.inFlight ∧
    (s.othersRest c → (∀ d, d ≠ c → (s.engine.get d).procedure = .none ∨ (s.engine.get d).phase ≠ .covering) →
      t.filter = s.filterWithout (s.unreleasedOf c) ∧ t.log.requests = s.requestsLeft c) := by
  obtain ⟨record, stopped, others, -⟩ := s.applyFault_get c cause a hm hc
  obtain ⟨hfilter, hkept, hdown, hup, hreq, -, -, -, hhold⟩ := s.applyFault_spec c cause a
  have own : (s.applyFault c cause a).engineReady c = false := State.engineReady_of_none _ _ stopped
  obtain ⟨keptRecord, keptProgress⟩ := State.runEngines_get _ own
  subst ht
  refine ⟨keptRecord.trans record, keptProgress.trans (s.applyFault_progress c cause a), fun d hd hn => ?_, by simp [hhold],
    ?_, by simp [s.applyFault_responses], (s.applyFault_records c cause a).trans (State.runEngines_records _), by simp [hup],
    by simp [hkept], by simp [hdown], by simp, by simp, by simp, by simp, by simp, by simp, fun rest uncovered => ?_⟩
  · obtain ⟨record', progress'⟩ := others d hd
    have unready : (s.applyFault c cause a).engineReady d = false :=
      State.engineReady_of_none _ _ (by rw [progress', hn])
    obtain ⟨keptRecord', keptProgress'⟩ := State.runEngines_get _ unready
    exact ⟨keptRecord'.trans record', keptProgress'.trans progress'⟩
  · refine (State.runEngines_filter _).trans ?_
    rw [hfilter]
    exact List.filter_sublist
  · have idle : ∀ d, (s.applyFault c cause a).engineReady d = false := fun d => by
      by_cases hd : d = c
      · rw [hd, own]
      · rw [s.applyFault_engineReady cause a hd (uncovered d hd), rest d hd]
    rw [State.runEngines_of_none _ idle]
    exact ⟨hfilter, hreq⟩

/-! ## The failed pre-image read (R69) -/

/-- The state once an item whose read has failed has left its entry (R69, R155). -/
def State.readFailed (s : State) (tag : BitVec 4) (l : Line) : State := (s.answered tag).dropItem l

theorem exec_captureAnswer_error {s : State} {tag : BitVec 4} {lines : List Line} {ref : CaptureRef}
    (haw : s.awaits { tag := tag, owner := .capture ref, lines := lines }) (hk : ref ∉ s.kept)
    (hr : ∃ e ∈ s.hold, ∃ i ∈ e.items, i.line = ref.line ∧ i.stage = .reading) (hj : s.attach.journal = .attached)
    (hc : (s.contexts.get ref.ctx).state = .opened ∨ (s.contexts.get ref.ctx).state = .committing) :
    exec (.captureReadAnswer tag .error) s =
      .next ((s.readFailed tag ref.line).applyFault ref.ctx .captureError (ref.line ++ 0#6)).runEngines := by
  refine congrArg Host.Outcome.next ((State.takeAnswer_of_awaits haw .error).trans ?_)
  have outside : ¬ (s.answered tag).kept.contains ref = true := fun h => hk (List.contains_iff_mem.1 h)
  have reading : ((s.answered tag).hold.any fun e => e.items.any fun i => i.readingLine ref.line) = true := by
    obtain ⟨e, he, i, hi, hl, hs⟩ := hr
    simp only [List.any_eq_true]
    exact ⟨e, he, i, hi, by simp [CaptureItem.readingLine, hl, hs]⟩
  have captured : (s.answered tag).captureAnswer ref .error =
      ((s.readFailed tag ref.line).reportFault ref.ctx .captureError (lineAddress ref.line)).runEngines := by
    unfold State.captureAnswer
    rw [if_neg outside, if_pos reading]
    rfl
  refine captured.trans (congrArg State.runEngines (if_pos ⟨?_, ?_⟩))
  · exact hj
  · exact hc

/-- The failed item leaves its entry, whatever else the entry is stays (R69). -/
theorem State.readFailed_unreleasedOf (s : State) (tag : BitVec 4) (l : Line) (c : Ctx) :
    (s.readFailed tag l).unreleasedOf c = (s.unreleasedOf c).map fun e => e.dropItem l := by
  show (s.hold.map fun e => e.dropItem l).filter _ = _
  rw [List.filter_map]
  rfl

theorem dropItem_refusals (l : Line) (entries : List HoldEntry) (reason : Reason) :
    refusals (entries.map fun e => e.dropItem l) reason = refusals entries reason :=
  List.map_map

theorem HoldEntry.dropItem_eq (e : HoldEntry) (l : Line) :
    e.dropItem l = { e with items := e.items.filter fun i => ¬(i.line = l ∧ i.stage = .reading) } := by
  unfold HoldEntry.dropItem
  congr 1
  refine List.filter_congr fun i _ => ?_
  cases hs : i.stage <;> simp [CaptureItem.readingLine, hs]

theorem State.readFailed_tagsWithout (s : State) (tag : BitVec 4) (l : Line) (entries : List HoldEntry) :
    (s.readFailed tag l).tagsWithout (entries.map fun e => e.dropItem l) = s.tagsWithout entries := by
  simp [State.tagsWithout, State.readFailed, HoldEntry.dropItem]
  rfl

/-- What another procedure waits for, a failed read of this context's item leaves as it was (R69). -/
theorem State.readFailed_engineReady {s : State} {tag : BitVec 4} {l : Line} {d : Ctx}
    (he : (s.engine.get d).procedure = .none ∨ (s.engine.get d).phase ≠ .covering) :
    (s.readFailed tag l).engineReady d = (s.answered tag).engineReady d := by
  refine State.engineReady_congr_of_notCovering (s := s.answered tag) rfl ?_ rfl rfl rfl rfl he
  simp only [State.journaledCount, State.readFailed, State.dropItem, State.removeLine]
  rw [List.filter_map, List.length_map]
  rfl

/-- Settles O47: the failed item leaves its entry, then the fault of R15 is applied to its context. -/
theorem failedPreImageReadFaultsTheContext : Obligations.FailedPreImageReadFaultsTheContext := by
  intro s tag lines ref haw hk hmodes hr hj hc
  obtain ⟨-, -, -, procedures⟩ := hmodes
  obtain ⟨record, progress, others, hold, filter, out, events, upstream, kept, reads, attach, mgmt, pins, head, tail,
    flight, rest⟩ := (s.readFailed tag ref.line).applyFault_runEngines ref.ctx .captureError (ref.line ++ 0#6)
      (procedures ref.ctx) hc rfl
  rw [State.readFailed_unreleasedOf] at out events upstream kept reads rest
  rw [dropItem_refusals] at events
  rw [State.readFailed_tagsWithout] at upstream
  refine ⟨_, exec_captureAnswer_error haw hk hr hj hc, record, progress, others, fun x hx => ?_, ?_, ?_, attach, head,
    tail, flight, mgmt, pins, events, upstream, fun left hleft => ?_⟩
  · rw [hold, List.mem_filter] at hx
    have stays := hx.2
    simp only [Bool.or_eq_true, Bool.not_eq_true', Bool.and_eq_false_iff, beq_eq_false_iff_ne] at stays
    exact stays
  · have gone : ∀ f ∈ (s.readFailed tag ref.line).filter, f.line ≠ ref.line := fun f hf => by
      simpa using (List.mem_filter.1 hf).2
    exact List.find?_eq_none.2 fun f hf => by simpa using gone f (filter.subset hf)
  · rw [out, List.map_map]
    rfl
  · have same : left = (s.unreleasedOf ref.ctx).map fun e => e.dropItem ref.line :=
      hleft.trans (List.map_congr_left fun e _ => (e.dropItem_eq ref.line).symm)
    rw [← same] at kept reads rest
    refine ⟨kept, reads, fun quiet uncovered => ?_⟩
    obtain ⟨hfilter, hreq⟩ := rest
      (fun d hd => (State.readFailed_engineReady (uncovered d hd)).trans (quiet d hd)) uncovered
    refine ⟨hfilter.trans ?_, hreq.trans ?_⟩
    · show ((s.filter.filter fun f => f.line ≠ ref.line).filter _) = (s.filter.filter _).filter _
      rw [List.filter_filter, List.filter_filter]
      exact List.filter_congr fun f _ => Bool.and_comm _ _
    · show (s.readFailed tag ref.line).requestsWithout _ = _
      rw [State.readFailed_unreleasedOf, ← same]
      rfl

end Sys2Proof.Machine
end

section
/-! The answer of a FORWARDED hold entry (R59, R72, R73, R76). -/

namespace Sys2Proof.Machine

/-! ## The entry leaves the hold queue -/

/-- The state once the FORWARDED entry `e` has been answered, its hold queue left with `rest` and its events with `b` (R59,
R72, R141). -/
def State.entryAnswered (s : State) (tag : BitVec 4) (rest : List HoldEntry) (due : List CaptureRef) (e : HoldEntry)
    (r : UpResult) (b : EventBlock) : State :=
  { s.answered tag with
    hold := rest
    due := due
    upstream := { s.upstream with tags := s.upstream.tags.filter fun x => x.tag ≠ e.request.tag }
    out := { s.out with responses := s.out.responses ++ [⟨e.request.tag, r⟩] }
    events := b }

/-- The same after an ERROR, with its event (R73). -/
def State.entryFailed (s : State) (tag : BitVec 4) (rest : List HoldEntry) (due : List CaptureRef) (e : HoldEntry) : State :=
  s.entryAnswered tag rest due e .error (s.events.take (downstreamFailure e.request.address e.ctx))

/-- The entry of an upstream tag, the first FORWARDED one that carries it, leaves the queue. -/
theorem eraseForwarded_eq {before after : List HoldEntry} {e : HoldEntry} (he : e.released = true)
    (hb : ∀ x ∈ before, x.released = true → x.request.tag ≠ e.request.tag) :
    (before ++ e :: after).eraseP (fun x => x.released && x.request.tag == e.request.tag) = before ++ after := by
  have earlier : ∀ x ∈ before, ¬ (x.released && x.request.tag == e.request.tag) = true := fun x hx h => by
    obtain ⟨released, same⟩ := Bool.and_eq_true_iff.1 h
    exact hb x hx released (beq_iff_eq.1 same)
  rw [List.eraseP_append_right _ earlier, List.eraseP_cons_of_pos (by simp [he])]

theorem State.forwardedEntry_eq {s : State} {before after : List HoldEntry} {e : HoldEntry}
    (h : s.hold = before ++ e :: after) (he : e.released = true)
    (hb : ∀ x ∈ before, x.released = true → x.request.tag ≠ e.request.tag) :
    s.forwardedEntry e.request.tag = some e := by
  have none_before : before.find? (fun x => x.released && x.request.tag == e.request.tag) = none :=
    List.find?_eq_none.2 fun x hx h => by
      obtain ⟨released, same⟩ := Bool.and_eq_true_iff.1 h
      exact hb x hx released (beq_iff_eq.1 same)
  rw [State.forwardedEntry, h, List.find?_append, none_before]
  simp [he]

section
variable {s : State} {tag : BitVec 4} {lines : List Line} {before after : List HoldEntry} {e : HoldEntry}

theorem State.removeForwarded_noteDue {u : State} (h : u.hold = before ++ e :: after) (he : e.released = true)
    (hb : ∀ x ∈ before, x.released = true → x.request.tag ≠ e.request.tag) :
    ∃ due, (u.removeForwarded e.request.tag).noteDue = { u with hold := before ++ after, due := due } := by
  refine ⟨(u.removeForwarded e.request.tag).noteDue.due, ?_⟩
  rw [← eraseForwarded_eq he hb, ← h]
  rfl

theorem exec_heldAnswer_done (haw : s.awaits { tag := tag, owner := .forward e.request.tag .held, lines := lines })
    (h : s.hold = before ++ e :: after) (he : e.released = true)
    (hb : ∀ x ∈ before, x.released = true → x.request.tag ≠ e.request.tag) (data : List Byte) :
    ∃ due, exec (.forwardedEntryAnswer tag (.done data)) s = .next (s.entryAnswered tag (before ++ after) due e
      (doneResult e.request.isWrite e.request.length data) s.events).runEngines := by
  obtain ⟨due, left⟩ := State.removeForwarded_noteDue
    (u := (s.answered tag).answerUp e.request.tag (doneResult e.request.isWrite e.request.length data))
    h he hb
  refine ⟨due, congrArg Host.Outcome.next ((State.takeAnswer_of_awaits haw _).trans ?_)⟩
  dsimp only [State.routeAnswer, State.heldAnswer]
  rw [State.forwardedEntry_eq (s := s.answered tag) h he hb]
  dsimp only
  rw [left]
  rfl

theorem exec_heldAnswer_error (haw : s.awaits { tag := tag, owner := .forward e.request.tag .held, lines := lines })
    (h : s.hold = before ++ e :: after) (he : e.released = true)
    (hb : ∀ x ∈ before, x.released = true → x.request.tag ≠ e.request.tag) :
    ∃ due, exec (.forwardedEntryAnswer tag .error) s =
      .next ((s.entryFailed tag (before ++ after) due e).reportForwardError e).runEngines := by
  obtain ⟨due, left⟩ := State.removeForwarded_noteDue
    (u := ((s.answered tag).answerUp e.request.tag .error).raise (failedEvent e.request.address e.ctx))
    h he hb
  refine ⟨due, congrArg Host.Outcome.next ((State.takeAnswer_of_awaits haw _).trans ?_)⟩
  dsimp only [State.routeAnswer, State.heldAnswer]
  rw [State.forwardedEntry_eq (s := s.answered tag) h he hb]
  dsimp only
  rw [left]
  rfl

/-- The procedures but that of the context of a journaled entry wait for what they waited for (R76). -/
theorem State.entryAnswered_engineReady {due : List CaptureRef} {r : UpResult} {b : EventBlock} {d : Ctx}
    (h : s.hold = before ++ e :: after) (hd : ¬ (e.journaled = true ∧ e.ctx = some d)) :
    (s.entryAnswered tag (before ++ after) due e r b).engineReady d = (s.answered tag).engineReady d := by
  have uncounted : (e.journaled && e.ctx == some d) = false := by simpa using hd
  refine State.engineReady_congr rfl ?_ rfl rfl rfl
  show ((before ++ after).filter fun x => x.journaled && x.ctx == some d).length =
    (s.hold.filter fun x => x.journaled && x.ctx == some d).length
  rw [h]
  simp [List.filter_append, uncounted]

theorem State.entryAnswered_tagsWithout {rest l : List HoldEntry} {due : List CaptureRef} {r : UpResult} {b : EventBlock} :
    (s.entryAnswered tag rest due e r b).tagsWithout l = s.upstream.tags.filter fun x =>
      x.tag ≠ e.request.tag ∧ ∀ u ∈ l, x.tag ≠ u.request.tag := by
  show (s.upstream.tags.filter _).filter _ = _
  rw [List.filter_filter]
  congr 1
  funext x
  rw [Bool.decide_and, Bool.and_comm]

/-- What is answered is released, so no unreleased entry has left. -/
theorem State.entryAnswered_unreleasedOf {due : List CaptureRef} {r : UpResult} {b : EventBlock} (c : Ctx)
    (h : s.hold = before ++ e :: after) (he : e.released = true) :
    (s.entryAnswered tag (before ++ after) due e r b).unreleasedOf c = s.unreleasedOf c := by
  show (before ++ after).filter _ = s.hold.filter _
  rw [h]
  simp [List.filter_append, he]

end

/-! ## The report of FORWARD_ERROR -/

theorem State.reportForwardError_none {s : State} {e : HoldEntry}
    (h : ∀ c, e.journaled = true → e.ctx = some c → s.attach.journal ≠ .attached ∨
      ((s.contexts.get c).state ≠ .opened ∧ (s.contexts.get c).state ≠ .committing)) :
    s.reportForwardError e = s := by
  unfold State.reportForwardError
  split
  · rfl
  · next c hc =>
    split
    · next hj =>
      refine if_neg fun ⟨attached, active⟩ => ?_
      rcases h c hj hc with h | ⟨unopened, uncommitting⟩
      · exact h attached
      · exact active.elim unopened uncommitting
    · rfl

theorem State.reportForwardError_fault {s : State} {e : HoldEntry} {c : Ctx} (hj : e.journaled = true)
    (hc : e.ctx = some c) (ha : s.attach.journal = .attached)
    (hs : (s.contexts.get c).state = .opened ∨ (s.contexts.get c).state = .committing) :
    s.reportForwardError e = s.applyFault c .forwardError e.request.address := by
  unfold State.reportForwardError
  rw [hc]
  exact (if_pos hj).trans (if_pos ⟨ha, hs⟩)

@[simp] theorem State.reportForwardError_frame (s : State) (e : HoldEntry) :
    (s.reportForwardError e).attach = s.attach ∧ (s.reportForwardError e).mgmt = s.mgmt ∧
    (s.reportForwardError e).pins = s.pins := by
  unfold State.reportForwardError
  (repeat' split) <;> simp

/-! ## A procedure that waited for the entry alone -/

theorem CtxState.procedure_eq_abort {c : CtxState} (h : c.procedure = .abort) : c = .aborting := by
  cases c <;> simp [CtxState.procedure] at h ⊢

theorem State.answered_captureReads {s : State} (tag : BitVec 4) {c : Ctx} (h : s.captureReads c = 0) :
    (s.answered tag).captureReads c = 0 := by
  simp only [State.captureReads, List.length_eq_zero_iff] at h ⊢
  exact List.sublist_nil.1 (h ▸ List.filter_sublist.filter _)

theorem State.entryAnswered_leavesSettling {s : State} {tag : BitVec 4} {rest : List HoldEntry} {due : List CaptureRef}
    {e : HoldEntry} {r : UpResult} {b : EventBlock} {c : Ctx} (hs : s.settlesAlone c)
    (hrest : ∀ x ∈ rest, x.journaled = false ∨ x.ctx ≠ some c)
    (hp : (s.engine.get c).procedure = .commit ∨
      ((s.engine.get c).procedure = .abort ∧ s.captureReads c = 0 ∧ s.appendsUnanswered c = 0)) :
    State.leavesSettling (s.entryAnswered tag rest due e r b) c (s.entryAnswered tag rest due e r b).runEngines := by
  refine State.runEngines_leavesSettling _ c hs ?_ ?_
  · show (rest.filter fun x => x.journaled && x.ctx == some c).length = 0
    rw [List.length_eq_zero_iff, List.filter_eq_nil_iff]
    intro x hx
    rcases hrest x hx with h | h <;> simp [h]
  · exact hp.imp_right fun ⟨abort, reads, appends⟩ => ⟨abort, State.answered_captureReads tag reads, appends⟩

/-- Settles O45: the entry's answer and removal are one state; after them the engines run, or the fault and then they. -/
theorem forwardedEntryIsAnsweredAndRemoved : Obligations.ForwardedEntryIsAnsweredAndRemoved := by
  intro s tag lines before after e data haw h he hb hready hmodes
  obtain ⟨-, -, -, procedures⟩ := hmodes
  obtain ⟨due, done⟩ := exec_heldAnswer_done haw h he hb data
  obtain ⟨due', failed⟩ := exec_heldAnswer_error haw h he hb
  refine ⟨⟨_, done, ?_⟩, ⟨_, failed, ?_⟩, fun c hj hc halone hrest => ⟨fun hp => ?_, fun hp hreads happends => ?_⟩⟩
  · simp only [State.runEngines_frame]
    refine ⟨rfl, rfl, rfl, rfl, rfl, rfl, rfl, fun hj => ?_⟩
    have idle : ∀ c, (s.entryAnswered tag (before ++ after) due e (doneResult e.request.isWrite e.request.length data)
        s.events).engineReady c = false := fun c =>
      (State.entryAnswered_engineReady h (by simp [hj])).trans (hready c)
    rw [State.runEngines_of_none _ idle]
    exact ⟨rfl, rfl, rfl, rfl, rfl, rfl⟩
  · refine ⟨by simp; rfl, by simp; rfl, by simp; rfl, fun harmless => ?_, fun c hj hc ha hs => ?_⟩
    · rw [State.reportForwardError_none (s := s.entryFailed tag (before ++ after) due' e) harmless]
      have recorded := State.runEngines_records (s.entryFailed tag (before ++ after) due' e)
      simp only [State.runEngines_frame]
      refine ⟨rfl, rfl, rfl, rfl, recorded, fun alone => ?_⟩
      have idle : ∀ c, (s.entryFailed tag (before ++ after) due' e).engineReady c = false := fun c => by
        by_cases hc : e.journaled = true ∧ e.ctx = some c
        · refine State.engineReady_of_none _ _ (alone.elim (fun hn => ?_) fun hn => hn c hc.2)
          simp [hn] at hc
        · exact (State.entryAnswered_engineReady h hc).trans (hready c)
      rw [State.runEngines_of_none _ idle]
      exact ⟨rfl, rfl, rfl, rfl, rfl, rfl⟩
    · rw [State.reportForwardError_fault (s := s.entryFailed tag (before ++ after) due' e) hj hc ha hs]
      obtain ⟨record, progress, -, hold, -, out, events, upstream, kept, reads, -, -, -, -, -, -, rest⟩ :=
        (s.entryFailed tag (before ++ after) due' e).applyFault_runEngines c .forwardError e.request.address (procedures c)
          hs rfl
      have unreleased : (s.entryFailed tag (before ++ after) due' e).unreleasedOf c = s.unreleasedOf c :=
        State.entryAnswered_unreleasedOf c h he
      rw [unreleased] at out events upstream kept reads rest
      refine ⟨record, progress, hold, upstream.trans ?_, out, ?_, kept, reads, fun uncovered => ?_⟩
      · exact congrArg (fun tags => ({ s.upstream with tags := tags } : UpstreamPort)) State.entryAnswered_tagsWithout
      · rw [show s.events.takeAll _ = (s.events.take (downstreamFailure e.request.address e.ctx)).takeAll
          (refusals (s.unreleasedOf c) .faulted ++ s.faultEvents c .forwardError e.request.address) by rw [hc]; rfl]
        exact events
      · obtain ⟨filter, requests⟩ := rest (fun d hd => (State.entryAnswered_engineReady h fun own =>
          hd (Option.some_inj.1 (own.2.symm.trans hc))).trans (hready d)) uncovered
        refine ⟨filter, requests.trans ?_⟩
        unfold State.requestsLeft
        rw [unreleased]
        rfl
  · exact ⟨_, due, done, State.entryAnswered_leavesSettling halone hrest hp⟩
  · have aborting : (s.contexts.get c).state = .aborting := CtxState.procedure_eq_abort ((procedures c).symm.trans hp)
    have harmless : (s.entryFailed tag (before ++ after) due' e).reportForwardError e =
        s.entryFailed tag (before ++ after) due' e := State.reportForwardError_none fun d _ hd => .inr (by
      obtain rfl : c = d := Option.some_inj.1 (hc.symm.trans hd)
      exact ⟨fun h => CtxState.noConfusion (aborting.symm.trans h), fun h => CtxState.noConfusion (aborting.symm.trans h)⟩)
    rw [harmless] at failed
    exact ⟨_, due', failed, State.entryAnswered_leavesSettling halone hrest (.inr ⟨hp, hreads, happends⟩)⟩

end Sys2Proof.Machine
end

section
/-! An accepted ABORT (R8, R74, R75, R81, R87 to R90, R93). -/

namespace Sys2Proof.Machine

/-! ## The refusals -/

/-- The context is ABORTING, its procedure has begun, and its unreleased journaled entries are refused (R8, R74, R81). -/
def State.beginAbort (s : State) (c : Ctx) : State :=
  ((s.setContext c { s.contexts.get c with state := .aborting }).setProgress c (.start .abort)).refuseWhere
    (fun e => e.journaledOf c) .aborted

theorem State.acceptAbort_eq (s : State) (c : Ctx) : s.acceptAbort c = (s.beginAbort c).runEngines.noteDue.lookSpace := rfl

section
variable (s : State) (c : Ctx)

@[simp] theorem State.beginAbort_engine :
    (s.beginAbort c).engine = s.engine.set c { Progress.reset with procedure := .abort } := by
  simp [State.beginAbort, Progress.start]

@[simp] theorem State.beginAbort_contexts :
    (s.beginAbort c).contexts = s.contexts.set c { s.contexts.get c with state := .aborting } := by
  simp [State.beginAbort]

/-- The refusals of an ABORT settle the items by stage (R29, R42, R75). -/
theorem State.beginAbort_settles :
    (s.beginAbort c).filter = s.filterWithout (s.unreleasedOf c) ∧
    (s.beginAbort c).kept = s.kept ++ (linesAt (s.unreleasedOf c) (· = .reading)).map (fun l => ⟨c, l⟩) ∧
    (s.beginAbort c).downstream.captureList = s.readsWithout (s.unreleasedOf c) ∧
    (s.beginAbort c).log.requests = s.requestsLeft c :=
  State.refuseOf_settles ((s.setContext c { s.contexts.get c with state := .aborting }).setProgress c (.start .abort)) c
    (fun e => e.journaledOf c) .aborted fun _ => rfl

@[simp] theorem State.beginAbort_hold :
    (s.beginAbort c).hold = s.hold.filter (fun e => e.released || !(e.journaled && e.ctx == some c)) := by
  simp [State.beginAbort, HoldEntry.journaledOf]

theorem State.beginAbort_out : (s.beginAbort c).out = { s.out with
    responses := s.out.responses ++ (s.unreleasedOf c).map fun e => ⟨e.request.tag, .error⟩ } := by
  rw [State.beginAbort, State.refuseWhere_out]
  rfl

theorem State.beginAbort_events : (s.beginAbort c).events = s.events.takeAll (refusals (s.unreleasedOf c) .aborted) :=
  State.refuseWhere_events _ _ _

@[simp] theorem State.beginAbort_frame :
    (s.beginAbort c).items = s.items ∧ (s.beginAbort c).attach = s.attach ∧ (s.beginAbort c).pins = s.pins ∧
    (s.beginAbort c).upstream.head = s.upstream.head ∧ (s.beginAbort c).upstream.intake = s.upstream.intake ∧
    (s.beginAbort c).log.head = s.log.head ∧ (s.beginAbort c).log.tail = s.log.tail ∧
    (s.beginAbort c).log.inFlight = s.log.inFlight ∧ (s.beginAbort c).log.ringSize = s.log.ringSize ∧
    (s.beginAbort c).downstream.outstanding = s.downstream.outstanding ∧
    (s.beginAbort c).downstream.forwardQueue = s.downstream.forwardQueue ∧
    (s.beginAbort c).downstream.restoreList = s.downstream.restoreList := by
  simp [State.beginAbort]

/-! ## What the rollback waits for (R88) -/

/-- Of the journaled entries of the context the released ones are left. -/
theorem State.beginAbort_journaledCount :
    (s.beginAbort c).journaledCount c = 0 ↔ s.hold.any (fun e => e.released && e.journaled && e.ctx == some c) = false := by
  rw [State.journaledCount, State.beginAbort_hold, List.filter_filter, List.length_eq_zero_iff, List.filter_eq_nil_iff,
    List.any_eq_false]
  refine forall₂_congr fun e _ => ?_
  cases e.released <;> cases e.journaled <;> cases e.ctx == some c <;> simp

theorem State.beginAbort_abortSettled :
    (s.beginAbort c).abortSettled c = true ↔
      s.hold.any (fun e => e.released && e.journaled && e.ctx == some c) = false ∧ s.captureReads c = 0 ∧
      s.appendsUnanswered c = 0 := by
  rw [← State.beginAbort_journaledCount]
  simp [State.abortSettled, State.captureReads, State.appendsUnanswered]

theorem State.beginAbort_engineReady : (s.beginAbort c).engineReady c = (s.beginAbort c).abortSettled c := by
  simp [State.engineReady, Progress.reset]

/-- Where no other context has a procedure, that of the context is alone. -/
theorem State.beginAbort_settlesAlone (h : ∀ d, d ≠ c → (s.engine.get d).procedure = .none) :
    (s.beginAbort c).settlesAlone c := by
  refine ⟨fun d hd => ?_, ?_⟩
  · simpa [hd] using h d hd
  · simp [Progress.reset]

end

/-! ## The rollback of an empty epoch (R88, R93) -/

/-- A procedure that has ended moves no further. -/
theorem State.later_moves_of_none {s : State} {c : Ctx} (h : (s.engine.get c).procedure = .none) :
    ((s.moveCovering c).moveReplaying c).moveMarking c = s := by
  simp [State.moveCovering, State.moveReplaying, State.moveMarking, h]

/-- SETTLING of a rollback without a record ends the rollback. -/
theorem State.moveEngine_completesAbort {s : State} {c : Ctx} (hp : (s.engine.get c).procedure = .abort)
    (hph : (s.engine.get c).phase = .settling) (hs : s.abortSettled c = true) (h0 : (s.contexts.get c).recordCount = 0) :
    s.moveEngine c = (s.settleFilter c).completeAbort c := by
  have settled : s.moveSettling c = (s.settleFilter c).completeAbort c := by
    simp [State.moveSettling, hp, hph, hs, State.endSettling, h0]
  have ended : (((s.settleFilter c).completeAbort c).engine.get c).procedure = .none := by
    simp [State.completeAbort, Progress.reset]
  simp only [State.moveEngine, hp, settled]
  exact State.later_moves_of_none ended

/-- What a rollback's end leaves of its context: IDLE, no procedure, no filter entry (R12, R93). -/
theorem State.completeAbort_spec (s : State) (c : Ctx) :
    (s.completeAbort c).contexts.get c = { s.contexts.get c with state := .idle, firstSeq := none } ∧
    (s.completeAbort c).engine.get c = .reset ∧ (∀ f ∈ (s.completeAbort c).filter, f.owner ≠ c) ∧
    (s.completeAbort c).log = s.log ∧
    (s.completeAbort c).events = s.events.take (abortEvent c (s.contexts.get c) (s.engine.get c)) := by
  refine ⟨by simp [State.completeAbort, ContextRecord.toIdle], by simp [State.completeAbort], fun f hf => ?_,
    by simp [State.completeAbort], by simp [State.completeAbort]⟩
  simp [State.completeAbort] at hf
  exact hf.2

/-- Whichever procedures move besides, a rollback of an empty epoch that waits for nothing more ends. -/
theorem State.runEngines_completesAbort {s : State} {c : Ctx} (hp : (s.engine.get c).procedure = .abort)
    (hph : (s.engine.get c).phase = .settling) (hs : s.abortSettled c = true) (h0 : (s.contexts.get c).recordCount = 0) :
    s.runEngines.contexts.get c = { s.contexts.get c with state := .idle, firstSeq := none } ∧
    s.runEngines.engine.get c = .reset ∧ ∀ f ∈ s.runEngines.filter, f.owner ≠ c := by
  have ready : s.engineReady c = true := by simp [State.engineReady, hp, hph, hs]
  obtain ⟨before, after, n, hbefore, hafter, run⟩ := s.runEngines_of_ready ready
  obtain ⟨u, hu⟩ : ∃ u, u = before.foldl State.moveEngine { s with free := n } := ⟨_, rfl⟩
  obtain ⟨record, progress⟩ : u.contexts.get c = s.contexts.get c ∧ u.engine.get c = s.engine.get c := by
    rw [hu]
    exact State.moveEngines_get _ before hbefore
  have settled : u.abortSettled c = s.abortSettled c := by
    simp [hu, State.abortSettled, State.journaledCount, State.captureReads, State.appendsUnanswered]
  have move : u.moveEngine c = (u.settleFilter c).completeAbort c :=
    State.moveEngine_completesAbort (by rw [progress, hp]) (by rw [progress, hph]) (by rw [settled, hs]) (by rw [record, h0])
  obtain ⟨idle, stopped, released, -, -⟩ := (u.settleFilter c).completeAbort_spec c
  obtain ⟨afterRecord, afterProgress⟩ := State.moveEngines_get (u.moveEngine c) after hafter
  have afterFilter := State.moveEngines_filter (u.moveEngine c) after
  rw [run, ← hu]
  rw [move] at afterRecord afterProgress afterFilter ⊢
  exact ⟨afterRecord.trans (idle.trans (by rw [← record]; rfl)), afterProgress.trans stopped,
    fun f hf => released f (afterFilter.subset hf)⟩

/-! ## The accepted ABORT -/

theorem exec_abort {s : State} {c : Ctx} {extra : Nat} (hs : s.serving) (hj : s.attach.journal = .attached)
    (hc : (s.contexts.get c).state = .opened ∨ (s.contexts.get c).state = .faulted) :
    exec (.abort (ctxByte c) extra) s =
      .next (s.afterFrame (2 + extra) (s.beginAbort c).runEngines.noteDue.lookSpace
        (.okEpoch (s.contexts.get c).epoch)) := by
  have run : s.abortContext c = (s.acceptAbort c, .okEpoch (s.contexts.get c).epoch) := by
    rcases hc with hc | hc <;> simp [State.abortContext, hc]
  have accepted := State.frameOf_context hs (abort_runsOnContext (ctxByte c)) extra hj
  rw [run, State.acceptAbort_eq] at accepted
  exact congrArg _ accepted

/-- What the looks after the engines leave as it was. -/
theorem State.noteDue_lookSpace_frame (u : State) :
    u.noteDue.lookSpace.contexts = u.contexts ∧ u.noteDue.lookSpace.engine = u.engine ∧
    u.noteDue.lookSpace.filter = u.filter ∧ u.noteDue.lookSpace.log.requests = u.log.requests ∧
    u.noteDue.lookSpace.log.tail = u.log.tail ∧ u.noteDue.lookSpace.downstream = u.downstream := by
  simp

/-- An ABORT that waits stays in SETTLING; alone, no procedure moves (R88). -/
theorem State.abort_waits {s : State} {c : Ctx} (h : (s.beginAbort c).abortSettled c = false) :
    (s.beginAbort c).runEngines.contexts.get c = { s.contexts.get c with state := .aborting } ∧
    (s.beginAbort c).runEngines.engine.get c = { Progress.reset with procedure := .abort } ∧
    ((∀ d, d ≠ c → (s.engine.get d).procedure = .none) → (s.beginAbort c).runEngines = s.beginAbort c) := by
  have waiting : (s.beginAbort c).engineReady c = false := (s.beginAbort_engineReady c).trans h
  obtain ⟨record, progress⟩ := State.runEngines_get _ waiting
  refine ⟨by simp [record], by simp [progress], fun alone => ?_⟩
  rw [State.runEngines_of_one _ c fun d hd => State.engineReady_of_none _ _ (by simpa [hd] using alone d hd), waiting]
  rfl

/-- An ABORT of an empty epoch that waits for nothing ends at once (R88, R93). -/
theorem State.abort_completes {s : State} {c : Ctx} (h : (s.beginAbort c).abortSettled c = true)
    (h0 : (s.contexts.get c).recordCount = 0) :
    (s.beginAbort c).runEngines.contexts.get c = { s.contexts.get c with state := .idle, firstSeq := none } ∧
    (s.beginAbort c).runEngines.engine.get c = .reset ∧
    (∀ f ∈ (s.beginAbort c).runEngines.filter, f.owner ≠ c) ∧
    ((∀ d, d ≠ c → (s.engine.get d).procedure = .none) →
      (s.beginAbort c).runEngines.log.requests = s.requestsLeft c ∧
      (s.beginAbort c).runEngines.events = s.events.takeAll (refusals (s.unreleasedOf c) .aborted ++
        [{ what := .abortDone .rolledBack, context := some c, address := none,
           sequence := some ((s.contexts.get c).epoch.setWidth 32), count := some 0 }])) := by
  have procedure : ((s.beginAbort c).engine.get c).procedure = .abort := by simp
  have settling : ((s.beginAbort c).engine.get c).phase = .settling := by simp [Progress.reset]
  have empty : ((s.beginAbort c).contexts.get c).recordCount = 0 := by simpa using h0
  obtain ⟨idle, stopped, released⟩ := State.runEngines_completesAbort procedure settling h empty
  refine ⟨by simp [idle], stopped, released, fun alone => ?_⟩
  have ready : (s.beginAbort c).engineReady c = true := (s.beginAbort_engineReady c).trans h
  rw [State.runEngines_of_one _ c fun d hd => State.engineReady_of_none _ _ (by simpa [hd] using alone d hd), if_pos ready,
    State.moveEngine_completesAbort procedure settling h empty]
  obtain ⟨-, -, -, log, events⟩ := ((s.beginAbort c).settleFilter c).completeAbort_spec c
  rw [log, events, EventBlock.takeAll_append, ← State.beginAbort_events]
  refine ⟨(s.beginAbort_settles c).2.2.2, ?_⟩
  show (s.beginAbort c).events.take (abortEvent c ((s.beginAbort c).contexts.get c) ((s.beginAbort c).engine.get c)) = _
  simp [abortEvent, Progress.reset]

/-- An ABORT with records, alone, that waits for nothing leaves SETTLING (R88, R89, R93). -/
theorem State.abort_leavesSettling {s : State} {c : Ctx} (h : (s.beginAbort c).abortSettled c = true)
    (h0 : (s.contexts.get c).recordCount ≠ 0) (alone : ∀ d, d ≠ c → (s.engine.get d).procedure = .none) :
    ((∃ f ∈ ((s.beginAbort c).filterSettled c).filter, f.owner = c ∧ f.state = .capturing) →
      (s.beginAbort c).runEngines = { (s.beginAbort c).filterSettled c with
        engine := (s.beginAbort c).engine.set c { (s.beginAbort c).engine.get c with phase := .covering } }) ∧
    ((∀ f ∈ ((s.beginAbort c).filterSettled c).filter, f.owner = c → f.state = .logged) →
      ((s.beginAbort c).filterSettled c).leavesCovering c (s.beginAbort c).runEngines) := by
  have procedure : ((s.beginAbort c).engine.get c).procedure = .abort := by simp
  obtain ⟨counted, reads, appends⟩ : (s.beginAbort c).journaledCount c = 0 ∧ (s.beginAbort c).captureReads c = 0 ∧
    (s.beginAbort c).appendsUnanswered c = 0 := of_decide_eq_true h
  obtain ⟨-, aborts⟩ := State.runEngines_leavesSettling _ c (s.beginAbort_settlesAlone c alone) counted
    (.inr ⟨procedure, reads, appends⟩)
  exact (aborts procedure).2 (by simpa using h0)

/-- The filter of a rollback past SETTLING: neither what its refusals dropped nor what has no record (R29, R30, R88). -/
theorem State.abort_filterSettled (s : State) (c : Ctx) :
    ((s.beginAbort c).filterSettled c).filter = s.filter.filter (fun f =>
      !(linesAt (s.unreleasedOf c) Stage.dropped).contains f.line && !(f.owner = c ∧ f.seq = none)) := by
  show (s.beginAbort c).filter.filter _ = _
  rw [(s.beginAbort_settles c).1, State.filterWithout, List.filter_filter]
  exact List.filter_congr fun f _ => Bool.and_comm _ _

/-- COVERING is left to the replay or to the marker; either way the records and the filter stay (R89). -/
theorem State.leavesCovering_frame {s t : State} {c : Ctx} (h : s.leavesCovering c t) :
    t.contexts = s.contexts ∧ t.filter = s.filter ∧ t.log.tail = s.log.tail := by
  obtain ⟨replay, mark⟩ := h
  by_cases owned : ∃ f ∈ s.filter, f.owner = c
  · obtain ⟨e, rest, q, -, -, rfl⟩ := replay owned
    exact ⟨rfl, rfl, rfl⟩
  · rw [mark fun f hf ho => owned ⟨f, hf, ho⟩]
    exact ⟨rfl, rfl, rfl⟩

/-- An ABORT with records, alone, that waits for nothing: COVERING, the replay, or the marker (R88 to R90, R93). -/
theorem State.abort_rollsBack {s u : State} {c : Ctx} (hu : u = (s.beginAbort c).runEngines)
    (h : (s.beginAbort c).abortSettled c = true) (h0 : (s.contexts.get c).recordCount ≠ 0)
    (alone : ∀ d, d ≠ c → (s.engine.get d).procedure = .none) :
    u.contexts = (s.beginAbort c).contexts ∧ u.filter = ((s.beginAbort c).filterSettled c).filter ∧
    ((∃ f ∈ u.filter, f.owner = c ∧ f.state = .capturing) →
      u.engine.get c = { Progress.reset with procedure := .abort, phase := .covering } ∧
      u.log.requests = s.requestsLeft c ∧ u.downstream.restoreList = s.downstream.restoreList) ∧
    ((∀ f ∈ u.filter, f.owner = c → f.state = .logged) →
      ((∃ f ∈ u.filter, f.owner = c) → ∃ (e : FilterEntry) (rest : List FilterEntry) (q : Seq),
        u.replays c (e :: rest) ∧ e.seq = some q ∧
        u.engine.get c = { Progress.reset with
          procedure := .abort, phase := .replaying, replayList := e :: rest, replayStep := some .read } ∧
        u.log.requests = s.requestsLeft c ∧
        u.downstream.restoreList = s.downstream.restoreList ++
          [{ request := plainRead (s.items.ringBase + BitVec.ofNat 40 (q.toNat % s.log.ringSize.toNat * 128)) 128,
             owner := .restore c .read }]) ∧
      ((∀ f ∈ u.filter, f.owner ≠ c) →
        u.engine.get c = { Progress.reset with procedure := .abort, phase := .marking } ∧
        u.log.requests = s.requestsLeft c ++ [.marker .aborted c (s.contexts.get c).epoch false] ∧
        u.downstream.restoreList = s.downstream.restoreList)) := by
  obtain ⟨covering, covered⟩ := State.abort_leavesSettling h h0 alone
  rw [← hu] at covering covered
  obtain ⟨-, -, -, requests⟩ := s.beginAbort_settles c
  have kept : u.contexts = (s.beginAbort c).contexts ∧ u.filter = ((s.beginAbort c).filterSettled c).filter ∧
      u.log.tail = s.log.tail := by
    by_cases capturing : ∃ f ∈ ((s.beginAbort c).filterSettled c).filter, f.owner = c ∧ f.state = .capturing
    · rw [covering capturing]
      exact ⟨rfl, rfl, by simp [State.filterSettled]⟩
    · have logged : ∀ f ∈ ((s.beginAbort c).filterSettled c).filter, f.owner = c → f.state = .logged := fun f hf ho => by
        cases hs : f.state with
        | capturing => exact absurd ⟨f, hf, ho, hs⟩ capturing
        | logged => rfl
      obtain ⟨contexts, filter, tail⟩ := State.leavesCovering_frame (covered logged)
      exact ⟨contexts, filter, tail.trans (by simp [State.filterSettled])⟩
  obtain ⟨contexts, filter, tail⟩ := kept
  refine ⟨contexts, filter, fun capturing => ?_, fun logged => ?_⟩
  · rw [filter] at capturing
    rw [covering capturing]
    exact ⟨by simp, requests, by simp [State.filterSettled]⟩
  · have same : ∀ l, u.replays c l ↔ ((s.beginAbort c).filterSettled c).replays c l := fun l => by
      unfold State.replays
      rw [filter, tail, show ((s.beginAbort c).filterSettled c).log.tail = s.log.tail by simp [State.filterSettled]]
    simp only [same]
    rw [filter] at logged ⊢
    obtain ⟨replay, mark⟩ := covered logged
    refine ⟨fun owned => ?_, fun unowned => ?_⟩
    · obtain ⟨e, rest, q, descending, hq, hreads⟩ := replay owned
      refine ⟨e, rest, q, descending, hq, ?_⟩
      rw [hreads]
      exact ⟨by simp [State.readsRecord, State.filterSettled], requests,
        by simp [State.readsRecord, State.filterSettled]⟩
    · rw [mark unowned]
      refine ⟨by simp [State.marks, State.filterSettled, Progress.reset], ?_, by simp [State.marks, State.filterSettled]⟩
      rw [← requests]
      simp [State.marks, State.filterSettled, Progress.reset]

/-- Settles O22: the refusals of `State.beginAbort`, then what the rollback waits for decides how far the engines take it. -/
theorem abortRefusesWhatIsUnreleased : Obligations.AbortRefusesWhatIsUnreleased := by
  intro s c extra hs hj hc
  obtain ⟨hfilter, hkept, hreads, hrequests⟩ := s.beginAbort_settles c
  have settled := s.beginAbort_abortSettled c
  obtain ⟨u, hu⟩ : ∃ u, u = (s.beginAbort c).runEngines := ⟨_, rfl⟩
  have refused : (s.events.takeAll (refusals (s.unreleasedOf c) .aborted)).records <+: u.events.records := by
    rw [← s.beginAbort_events c, hu]
    exact State.runEngines_records _
  have recorded : u.events.records <+: u.noteDue.lookSpace.events.records :=
    State.lookSpace_records u.noteDue
  have kept_reads : u.downstream.captureList = s.readsWithout (s.unreleasedOf c) := by
    rw [hu, ← hreads]
    simp
  obtain ⟨fcontexts, fengine, ffilter, frequests, ftail, fdownstream⟩ := u.noteDue_lookSpace_frame
  refine ⟨_, exec_abort hs hj hc, rfl, ?_⟩
  rw [← hu]
  simp only [State.afterFrame, State.replays, fcontexts, fengine, ffilter, frequests, ftail, fdownstream]
  refine ⟨by simp [hu], by simp [hu, s.beginAbort_out], refused.trans recorded, by simp [hu, hkept],
    kept_reads, fun d hd hn => ?_, by simp [hu], by simp [hu], by simp [hu], by simp [hu], by simp [hu],
    by simp [hu], by simp [hu], by simp [hu], by simp [hu], fun waits => ?_, fun released reads appends =>
      ⟨fun h0 => ?_, fun h0 alone => ?_⟩⟩
  · have unready : (s.beginAbort c).engineReady d = false := State.engineReady_of_none _ _ (by simpa [hd] using hn)
    obtain ⟨record, progress⟩ := State.runEngines_get _ unready
    rw [hu]
    exact ⟨by simp [record, hd], by simp [progress, hd]⟩
  · have waiting : (s.beginAbort c).abortSettled c = false := by
      rw [← Bool.not_eq_true, settled]
      rintro ⟨released, reads, appends⟩
      simp [released, reads, appends] at waits
    obtain ⟨record, progress, rest⟩ := State.abort_waits waiting
    rw [hu]
    refine ⟨record, progress, fun alone => ?_⟩
    rw [rest alone]
    exact ⟨hfilter, hrequests, by simp⟩
  · obtain ⟨idle, stopped, empty, rest⟩ := State.abort_completes (settled.2 ⟨released, reads, appends⟩) h0
    rw [← hu] at idle stopped empty rest
    refine ⟨idle, stopped, empty, fun alone => ?_⟩
    obtain ⟨requests, events⟩ := rest alone
    rw [← events]
    exact ⟨requests, recorded⟩
  · obtain ⟨contexts, filter, rest⟩ := State.abort_rollsBack hu (settled.2 ⟨released, reads, appends⟩) h0 alone
    exact ⟨by simp [contexts], filter.trans (s.abort_filterSettled c), rest⟩

end Sys2Proof.Machine
end

section
/-! The drain (R114 to R118): what beginning it does to each block, then PFAIL_N asserted in every journal state the drain
begins from, and held asserted at the release of RST_N. -/

namespace Sys2Proof.Machine

/-! ## The refusals and the halt -/

/-- The unreleased hold entries, in arrival order (R74). -/
def State.unreleased (s : State) : List HoldEntry := s.hold.filter fun e => !e.released

/-- The requests a drain answers ERROR: the unreleased entries', then the head's (R74, R142; log entry 28). -/
def State.turnedAway (s : State) : List UpRequest := s.unreleased.map (·.request) ++ s.upstream.head.toList

/-- A refusal of everything unreleased (R29, R63, R74, R75). -/
theorem State.refuseAll_eq (s : State) (reason : Reason) :
    s.refuseWhere (fun _ => true) reason = { s with
      hold := s.hold.filter (·.released)
      out := { s.out with responses := s.out.responses ++ s.unreleased.map fun e => ⟨e.request.tag, .error⟩ }
      events := s.events.takeAll (refusals s.unreleased reason)
      upstream := { s.upstream with tags := s.tagsWithout s.unreleased }
      filter := s.filterWithout (tagged s.unreleased)
      kept := s.kept ++ keptReads s.unreleased
      downstream := { s.downstream with captureList := s.readsWithout (tagged s.unreleased) }
      log := { s.log with requests := s.requestsWithout (tagged s.unreleased) } } := by
  have picked : (s.hold.filter fun e => !e.released && true) = s.unreleased := by simp [State.unreleased]
  have left : (s.hold.filter fun e => e.released || !true) = s.hold.filter (·.released) := by simp
  rw [State.refuseWhere_eq, picked, left]

/-- The drain up to the halt of the intake: the origin recorded, what is unreleased refused, the request list emptied, the
procedures stopped, an attach withdrawn (R74, R97, R115, R117). -/
def State.drainHalts (s : State) : State :=
  let halted := (State.refuseWhere { s with attach := { s.attach with
      journal := .draining
      drain := { DrainRecord.reset with origin := some s.attach.journal } } } (fun _ => true)
      .draining).emptyRequests.stopEngines
  if s.attach.journal = .attaching then halted.withdrawAttach else halted

theorem State.beginDrain_eq (s : State) : s.beginDrain =
    if s.attach.journal = .detached then s.drainHalts.stopIntake.noteDue.enterDrained .skipped
    else s.drainHalts.stopIntake.noteDue := rfl

section
variable (s : State)

/-- The blocks the halt changes as the refusals alone do (R74, R75). -/
theorem State.drainHalts_refuses :
    s.drainHalts.hold = s.hold.filter (·.released) ∧
    s.drainHalts.out = { s.out with
      responses := s.out.responses ++ s.unreleased.map fun e => ⟨e.request.tag, .error⟩ } ∧
    s.drainHalts.events = s.events.takeAll (refusals s.unreleased .draining) ∧
    s.drainHalts.upstream = { s.upstream with tags := s.tagsWithout s.unreleased } ∧
    s.settledInto s.drainHalts s.unreleased := by
  unfold State.drainHalts
  rw [State.refuseAll_eq]
  split <;> exact ⟨rfl, rfl, rfl, rfl, rfl, rfl, rfl⟩

/-- The request list is emptied, and an anchor write withdrawn is no longer in flight (R42, R117; log entry 30). -/
theorem State.drainHalts_log : s.drainHalts.log = { s.log with
    requests := []
    spaceWaiter := none
    anchor := if s.attach.journal = .attaching ∧ s.downstream.anchorList ≠ [] then none else s.log.anchor } := by
  unfold State.drainHalts
  rw [State.refuseAll_eq]
  by_cases attaching : s.attach.journal = .attaching
  · cases handed : s.downstream.anchorList <;>
      simp [attaching, handed, State.withdrawAttach, State.stopEngines, State.emptyRequests]
  · simp [attaching]

/-- The RESTORE list is emptied, and from ATTACHING the SCAN and ANCHOR lists too (R97, R117). -/
theorem State.drainHalts_lists :
    s.drainHalts.downstream.restoreList = [] ∧
    s.drainHalts.downstream.scanList = (if s.attach.journal = .attaching then [] else s.downstream.scanList) ∧
    s.drainHalts.downstream.anchorList = (if s.attach.journal = .attaching then [] else s.downstream.anchorList) := by
  unfold State.drainHalts
  rw [State.refuseAll_eq]
  split <;> exact ⟨rfl, rfl, rfl⟩

/-- DRAINING with the origin recorded, an attach stopped where it stands (R114, R115, R117). -/
theorem State.drainHalts_attach : s.drainHalts.attach = { s.attach with
    journal := .draining
    progress := if s.attach.journal = .attaching then { s.attach.progress with step := .none } else s.attach.progress
    drain := { origin := some s.attach.journal, anchorError := false, finalIssued := false, detail := none,
               finalTail := none } } := by
  unfold State.drainHalts
  rw [State.refuseAll_eq]
  split <;> rfl

/-- Every procedure is put in STOPPED, and where there is none nothing changes (R97). -/
theorem State.drainHalts_engine (c : Ctx) :
    ((s.engine.get c).procedure = .none → s.drainHalts.engine.get c = s.engine.get c) ∧
    ((s.engine.get c).procedure ≠ .none → (s.drainHalts.engine.get c).phase = .stopped) := by
  have stop : s.drainHalts.engine.get c =
      (s.engine.get c).stop (s.downstream.restoreList.any fun t => t.restoresFor c) := by
    unfold State.drainHalts
    rw [State.refuseAll_eq]
    split <;> fin_cases c <;> rfl
  rw [stop, Progress.stop]
  constructor <;> intro h <;> simp [h]

/-! ## The head -/

/-- The intake is STOPPED and its head gone, answered ERROR with its event (R142). -/
theorem State.stopIntake_refuses :
    s.stopIntake.upstream = { s.upstream with
      intake := .stopped
      head := none
      tags := s.upstream.tags.filter fun e => ∀ r ∈ s.upstream.head.toList, e.tag ≠ r.tag } ∧
    s.stopIntake.out = { s.out with
      responses := s.out.responses ++ s.upstream.head.toList.map fun r => ⟨r.tag, .error⟩ } ∧
    s.stopIntake.events = s.events.takeAll (s.upstream.head.toList.map (refusedEvent · .draining)) := by
  unfold State.stopIntake
  cases head : s.upstream.head <;> simp [head]

/-! ## The drain, block by block -/

/-- The end of a drain from DETACHED touches none but the attach engine and the event block (R118). -/
theorem State.beginDrain_halts :
    s.beginDrain.hold = s.drainHalts.hold ∧ s.beginDrain.log = s.drainHalts.log ∧
    s.beginDrain.engine = s.drainHalts.engine ∧ s.beginDrain.downstream = s.drainHalts.downstream ∧
    s.beginDrain.filter = s.drainHalts.filter ∧ s.beginDrain.kept = s.drainHalts.kept ∧
    s.beginDrain.upstream = s.drainHalts.stopIntake.upstream ∧ s.beginDrain.out = s.drainHalts.stopIntake.out := by
  rw [State.beginDrain_eq]
  split <;> simp

/-- What the drain turns away: the unreleased entries leave the queue with their items settled, then the head goes; each is
answered ERROR, its tag free (R74, R75, R141, R142). -/
theorem State.beginDrain_turnsAway :
    s.beginDrain.hold = s.hold.filter (·.released) ∧
    s.beginDrain.out = { s.out with
      responses := s.out.responses ++ s.turnedAway.map fun r => ⟨r.tag, .error⟩ } ∧
    s.beginDrain.upstream = { s.upstream with
      intake := .stopped
      head := none
      tags := s.upstream.tags.filter fun e => ∀ r ∈ s.turnedAway, e.tag ≠ r.tag } ∧
    s.settledInto s.beginDrain s.unreleased := by
  obtain ⟨bhold, -, -, bdown, bfilter, bkept, bup, bout⟩ := s.beginDrain_halts
  obtain ⟨hhold, hout, -, hup, hfilter, hkept, hreads⟩ := s.drainHalts_refuses
  obtain ⟨iup, iout, -⟩ := s.drainHalts.stopIntake_refuses
  refine ⟨bhold.trans hhold, ?_, ?_, bfilter.trans hfilter, bkept.trans hkept, by rw [bdown, hreads]⟩
  · rw [bout, iout, hout, hup]
    simp [State.turnedAway, Function.comp_def]
  · have tags : ((s.tagsWithout s.unreleased).filter fun e => ∀ r ∈ s.upstream.head.toList, e.tag ≠ r.tag) =
        s.upstream.tags.filter fun e => ∀ r ∈ s.turnedAway, e.tag ≠ r.tag := by
      rw [State.tagsWithout, List.filter_filter]
      refine List.filter_congr fun e _ => ?_
      simp only [State.turnedAway, List.forall_mem_append, List.forall_mem_map, Bool.decide_and, Bool.and_comm]
    rw [bup, iup, hup, ← tags]

/-- The events of the refusals, in the order of log entry 28, and from DETACHED the DRAINED event (R118). -/
theorem State.beginDrain_events : s.beginDrain.events =
    (s.events.takeAll (s.turnedAway.map (refusedEvent · .draining))).takeAll
      (if s.attach.journal = .detached then [drainedEvent .skipped none] else []) := by
  have halted : s.drainHalts.stopIntake.events = s.events.takeAll (s.turnedAway.map (refusedEvent · .draining)) := by
    obtain ⟨-, -, hevents, hup, -⟩ := s.drainHalts_refuses
    obtain ⟨-, -, ievents⟩ := s.drainHalts.stopIntake_refuses
    rw [ievents, hevents, hup, State.turnedAway, List.map_append, EventBlock.takeAll_append, List.map_map]
    rfl
  rw [State.beginDrain_eq, ← halted]
  split
  · simp [State.drainHalts_attach]
  · simp

end

/-- From DETACHED the drain ends at once, SKIPPED and QUIET (R118). -/
theorem State.beginDrain_attach_detached {s : State} (h : s.attach.journal = .detached) :
    s.beginDrain.attach = { s.attach with
      journal := .drained
      quiet := true
      drain := { origin := some .detached, anchorError := false, finalIssued := false, detail := some .skipped,
                 finalTail := none } } := by
  rw [State.beginDrain_eq, if_pos h]
  simp [State.drainHalts_attach, h]

/-- From any other state it goes on, DRAINING with its origin recorded, an attach stopped where it stands (R115, R117). -/
theorem State.beginDrain_attach_draining {s : State} (h : s.attach.journal ≠ .detached) :
    s.beginDrain.attach = { s.attach with
      journal := .draining
      progress := if s.attach.journal = .attaching then { s.attach.progress with step := .none } else s.attach.progress
      drain := { origin := some s.attach.journal, anchorError := false, finalIssued := false, detail := none,
                 finalTail := none } } := by
  rw [State.beginDrain_eq, if_neg h]
  simp [State.drainHalts_attach]

/-! ## PFAIL_N -/

/-- PFAIL_N asserted while the bridge works begins the drain, from every state but DRAINING and DRAINED (R114). -/
theorem exec_pfailAsserted {s : State} (hs : s.working) (hj : s.attach.journal.drainable = true) :
    exec .pfailAsserted s = .next (State.beginDrain { s with pins := { s.pins with pfail := true } }) := by
  obtain ⟨released, serves⟩ := hs
  refine congrArg Host.Outcome.next (if_pos ⟨rfl, ?_, hj⟩)
  simp [State.live, released, serves]

/-- Settles O28: the drain turns away what is unreleased and the head, then from DETACHED it ends. -/
theorem drainFromDetachedEndsAtOnce : Obligations.DrainFromDetachedEndsAtOnce := by
  refine ⟨fun s turnedAway hs hj hturned => ?_, fun s hrst hon hp => ?_⟩
  · subst hturned
    obtain ⟨w, hw⟩ : ∃ w : State, w = { s with pins := { s.pins with pfail := true } } := ⟨_, rfl⟩
    have detached : w.attach.journal = .detached := by rw [hw]; exact hj
    obtain ⟨hold, out, up, settled⟩ := w.beginDrain_turnsAway
    obtain ⟨-, -, -, down, -⟩ := w.beginDrain_halts
    obtain ⟨-, scans, anchors⟩ := w.drainHalts_lists
    rw [← down, detached] at scans anchors
    have attach := State.beginDrain_attach_detached detached
    have events := w.beginDrain_events
    rw [if_pos detached, ← EventBlock.takeAll_append] at events
    have empty : w.hold = [] → w.beginDrain.filter = w.filter ∧ w.beginDrain.kept = w.kept := fun unheld => by
      obtain ⟨filter, kept, -⟩ := settled
      rw [filter, kept]
      simp [State.unreleased, unheld, State.filterWithout, tagged, linesAt, keptReads]
    refine ⟨w.beginDrain, (exec_pfailAsserted hs (by rw [hj]; rfl)).trans (by rw [hw]), ?_⟩
    subst hw
    exact ⟨by simp, attach, up, hold, out, events, by simp, settled, empty, by simp, anchors, by simp, scans, by simp,
      by simp, (State.beginDrain_keeps _).configuration⟩
  · obtain ⟨w, hw⟩ : ∃ w : State, w = { s.powerOn with pins := { s.powerOn.pins with rst := false } } := ⟨_, rfl⟩
    have releases : exec .rstRelease s = .next w.beginDrain := by
      rw [← hon, hw]
      exact congrArg Host.Outcome.next ((if_pos rfl).trans (if_pos ⟨hp, rfl, rfl⟩))
    have detached : w.attach.journal = .detached := by rw [hw]; rfl
    have nothing : w.turnedAway = [] := by rw [hw]; rfl
    obtain ⟨-, out, up, -⟩ := w.beginDrain_turnsAway
    have attach := State.beginDrain_attach_detached detached
    have events := w.beginDrain_events
    rw [nothing] at out events
    rw [if_pos detached] at events
    refine ⟨w.beginDrain, releases, by simp [hw], by rw [attach], by rw [attach], by rw [up], ?_, ?_⟩
    · rw [events, hw]
      rfl
    · rw [out, hw, ← hon]
      simp [State.powerOn]

/-- Settles O29: the drain turns away what is unreleased and the head, and halts what runs. -/
theorem pfailStartsTheDrain : Obligations.PfailStartsTheDrain := by
  intro s hs hj
  have drains : s.attach.journal.drainable = true ∧ s.attach.journal ≠ .detached := by
    rcases hj with hj | hj | hj | hj <;> simp [hj, JournalState.drainable]
  obtain ⟨drainable, started⟩ := drains
  obtain ⟨w, hw⟩ : ∃ w : State, w = { s with pins := { s.pins with pfail := true } } := ⟨_, rfl⟩
  have other : w.attach.journal ≠ .detached := by rw [hw]; exact started
  obtain ⟨hold, out, up, settled⟩ := w.beginDrain_turnsAway
  obtain ⟨-, log, engine, down, -⟩ := w.beginDrain_halts
  obtain ⟨restores, scans, anchors⟩ := w.drainHalts_lists
  rw [← down] at restores scans anchors
  have attach := State.beginDrain_attach_draining other
  have stopped := w.drainHalts_engine
  have events := w.beginDrain_events
  rw [if_neg other, EventBlock.takeAll_nil, State.turnedAway, List.map_append, List.map_map] at events
  rw [State.drainHalts_log] at log
  rw [← engine] at stopped
  refine ⟨w.beginDrain, (exec_pfailAsserted hs drainable).trans (by rw [hw]), ?_⟩
  subst hw
  exact ⟨by simp, attach, settled, scans, anchors, log, by simp, by simp, by simp, by simp,
    (State.beginDrain_keeps _).configuration, hold, congrArg Outputs.responses out, events, restores, up, by simp, stopped⟩

end Sys2Proof.Machine
end

section
/-! A request taken from the link and admitted journaled (R21, R23, R62, R135 to R138). -/

namespace Sys2Proof.Machine

/-! ## The intake -/

/-- A request that passes the form checks is not MALFORMED (R136). -/
theorem State.malformedRequest_of_passes {s : State} {r : UpRequest} (h : s.passesForm r) :
    s.malformedRequest r = false := by
  obtain ⟨nonempty, short, inside, fresh⟩ := h
  have form : r.badForm = false := by
    simp only [UpRequest.badForm, Bool.or_eq_false_iff, beq_eq_false_iff_ne, decide_eq_false_iff_not]
    omega
  have untaken : s.tagEntry r.tag = none := by simpa [State.tagEntry] using fresh
  simp [State.malformedRequest, form, untaken]

/-- The request taken next becomes the head and is handed on if its form is right (R135, R136). -/
theorem exec_upstreamRequest {s : State} {arrival : Option UpRequest} {r : UpRequest} {rest : List UpRequest}
    (ht : s.takesNext arrival r rest) (hf : s.passesForm r) :
    exec (.upstreamRequest arrival) s = .next (((s.linkLeft rest).addTag r).handOn r) := by
  obtain ⟨⟨released, serves⟩, taking, -, link⟩ := ht
  have takes : (s.arrive arrival).live = true ∧ (s.arrive arrival).upstream.intake = .taking := by
    simp [State.live, released, serves, taking]
  have oldest : (s.arrive arrival).upstream.link = r :: rest := link
  have form : (s.linkLeft rest).malformedRequest r = false := State.malformedRequest_of_passes hf
  refine congrArg Host.Outcome.next ?_
  rw [State.takeFromLink, if_pos takes, oldest]
  show State.takeRequest (s.linkLeft rest) r = _
  rw [State.takeRequest, form]
  rfl

/-- A JOURNAL write with a free hold place leaves the intake TAKING and goes to admission (R62, R138). -/
theorem State.handOn_journalWrite {s : State} {r : UpRequest} {n : Fin 16} (h : s.journalWrite r n) :
    s.handOn r = (s.setIntake .taking none).admitWrite r (s.regions.get n) := by
  obtain ⟨write, kind, room⟩ := h
  have need : s.need r = .holdPlace := by simp [State.need, write, kind]
  have kept : (s.setIntake .taking none).requestKind r = some (.journal n) := kind
  simp only [State.handOn, need, if_pos room, State.enterHold, kept, write]
  rfl

/-- The tag of a request just taken stands at its place, the other tags at theirs (R137). -/
theorem UpRequest.tagEntry_placed {tags : List TagEntry} {r : UpRequest} (fresh : ∀ e ∈ tags, e.tag ≠ r.tag)
    (before after : TagPlace) :
    (tags ++ [r.tagEntry before]).map (fun e => if e.tag = r.tag then { e with place := after } else e) =
      tags ++ [r.tagEntry after] := by
  have others : tags.map (fun e => if e.tag = r.tag then { e with place := after } else e) = tags :=
    (List.map_congr_left fun e he => if_neg (fresh e he)).trans (List.map_id' _)
  rw [List.map_append, others]
  simp [UpRequest.tagEntry]

/-! ## Admission -/

theorem State.lineOutcome_hitOther (s : State) (tag : Option Ctx) (l : Line) :
    s.lineOutcome tag l = .hitOther ↔ ∃ f, s.filterEntry l = some f ∧ tag ≠ some f.owner := by
  unfold State.lineOutcome
  cases s.filterEntry l with
  | none => simp
  | some f => by_cases own : tag = some f.owner <;> simp [own]

theorem State.lineOutcome_miss (s : State) (tag : Option Ctx) (l : Line) :
    s.lineOutcome tag l = .miss ↔ s.filterEntry l = none := by
  unfold State.lineOutcome
  cases s.filterEntry l with
  | none => simp
  | some f => by_cases own : tag = some f.owner <;> simp [own]

theorem State.anyHitOther_iff (s : State) (r : UpRequest) :
    (r.lines.any fun l => s.lineOutcome r.journalTag l == .hitOther) = true ↔ s.hitsOther r := by
  simp [State.hitsOther, State.lineOutcome_hitOther]

/-- The missing lines of admission are the misses of R21. -/
theorem State.missingLines_eq (s : State) (r : UpRequest) : s.missingLines r = s.misses r := by
  refine List.filter_congr fun l _ => ?_
  rw [Bool.eq_iff_iff, beq_iff_eq, State.lineOutcome_miss, Option.isNone_iff_eq_none]

theorem State.mem_misses {s : State} {r : UpRequest} {l : Line} (h : l ∈ s.misses r) : s.filterEntry l = none :=
  Option.isNone_iff_eq_none.1 (List.mem_filter.1 h).2

/-- Step 5 of R62: a write of an OPEN context in the region's mask, no line hit-other, the quota and pool test passed. -/
theorem State.admission_of_open {s : State} {r : UpRequest} {region : RegionEntry} {c : Ctx}
    (hj : s.attach.journal = .attached) (htag : r.journalTag = some c) (ho : (s.contexts.get c).state = .opened)
    (hn : ¬ s.hitsOther r) (hm : region.mask.getLsbD c.val = true) (hq : s.quotaPasses c (s.misses r).length) :
    s.admission r region = .journaled c (s.misses r) := by
  have clear := mt (s.anyHitOther_iff r).1 hn
  have passes : s.quotaTest c (s.misses r).length = true := (s.quotaTest_iff c _).2 hq
  rw [State.admission, hj]
  dsimp only [JournalState.admissionReason]
  rw [if_neg clear, htag]
  dsimp only
  rw [ho]
  dsimp only
  rw [hm, State.missingLines_eq, passes]
  rfl

/-- What the head does that admission takes journaled: it joins the hold queue, its misses get their entries and become its
items, and nothing but the due reads changes beside that (R23, R59, R62). -/
theorem State.handOn_journaled {s : State} {r : UpRequest} {n : Fin 16} {c : Ctx} (hw : s.journalWrite r n)
    (ha : s.admission r (s.regions.get n) = .journaled c (s.misses r)) :
    (s.handOn r).hold = s.hold ++
      [{ request := r, journaled := true,
         items := (s.misses r).map fun l => { line := l, stage := .pending false }, released := false }] ∧
    (∀ l ∈ s.misses r,
      (s.handOn r).filterEntry l = some { line := l, owner := c, state := .capturing, seq := none }) ∧
    (∀ l, l ∉ s.misses r → (s.handOn r).filterEntry l = s.filterEntry l) ∧
    (s.handOn r).upstream = s.headLeaves r .held ∧
    (s.handOn r).contexts = s.contexts ∧ (s.handOn r).items = s.items ∧ (s.handOn r).log = s.log ∧
    (s.handOn r).kept = s.kept ∧ (s.handOn r).engine = s.engine ∧ (s.handOn r).attach = s.attach ∧
    (s.handOn r).regions = s.regions ∧ (s.handOn r).downstream = s.downstream ∧ (s.handOn r).events = s.events ∧
    (s.handOn r).mgmt = s.mgmt ∧ (s.handOn r).pins = s.pins ∧ (s.handOn r).out = s.out := by
  obtain ⟨u, hu⟩ : ∃ u, u = s.setIntake .taking none := ⟨_, rfl⟩
  have admits : u.admission r (s.regions.get n) = .journaled c (s.misses r) := by rw [hu]; exact ha
  have handed : s.handOn r = ((u.insertLines c (s.misses r)).joinHold r true (s.misses r)).noteDue := by
    rw [State.handOn_journalWrite hw, ← hu, State.admitWrite, admits]
  have lookup : ∀ l, (s.handOn r).filterEntry l = (u.insertLines c (s.misses r)).filterEntry l := fun l => by
    simp [State.filterEntry, handed]
  have same : ∀ l, u.filterEntry l = s.filterEntry l := fun l => by rw [hu]; rfl
  have port : (s.handOn r).upstream = (u.setPlace r.tag .held).upstream := by simp [handed, State.joinHold]
  refine ⟨?_, fun l hl => ?_, fun l hl => ?_, ?_, ?_⟩
  · simp [handed, hu, newItem]
  · rw [lookup]
    exact u.insertLines_new c _ hl ((same l).trans (State.mem_misses hl))
  · rw [lookup, u.insertLines_other c _ hl, same]
  · rw [port, hu]
    rfl
  · simp [handed, hu]

/-- Settles O35: the request becomes the head, which admission takes journaled at once. -/
theorem journalWriteIsAdmittedJournaled : Obligations.JournalWriteIsAdmittedJournaled := by
  intro s arrival r rest n c ht hf hw hj htag ho hn hm hq
  obtain ⟨-, taking, empty, -⟩ := id ht
  obtain ⟨-, -, -, fresh⟩ := id hf
  have admits : ((s.linkLeft rest).addTag r).admission r (s.regions.get n) = .journaled c (s.misses r) :=
    State.admission_of_open (s := (s.linkLeft rest).addTag r) hj htag ho hn hm hq
  obtain ⟨hold, captured, others, port, unchanged⟩ :=
    State.handOn_journaled (s := (s.linkLeft rest).addTag r) hw admits
  refine ⟨_, exec_upstreamRequest ht hf, hold, captured, others, ?_, unchanged⟩
  rw [port, State.headLeaves, ← taking, ← empty, ← UpRequest.tagEntry_placed fresh .head .held]
  rfl

end Sys2Proof.Machine
end

section
/-! RELEASE (R70, R71), and which commands can put a capture item in stage COVERED (R26, R68). -/

namespace Sys2Proof.Machine

/-! ## RELEASE -/

/-- What a request is as it goes downstream, its journal tag left out (R71, R128). -/
theorem UpRequest.forwardRequest_eq (r : UpRequest) : r.forwardRequest =
    { address := r.address, length := r.length,
      body := match r.access with
        | .read => .read
        | .write enables data _ => .write enables data } := by
  unfold UpRequest.forwardRequest
  cases r.access <;> rfl

/-- RELEASE changes nothing, or forwards one READY entry, which is then released (R71). -/
theorem State.release_cases (s : State) : s.release = s ∨ ∃ before e after, s.hold = before ++ e :: after ∧
    s.isReady before e ∧ s.release.hold = before ++ { e with released := true } :: after ∧
    s.release.downstream.forwardQueue = s.downstream.forwardQueue ++
      [{ request := e.request.forwardRequest, owner := .forward e.request.tag .held }] := by
  unfold State.release
  split
  · split
    · exact .inl rfl
    · next e hold found =>
      obtain ⟨before, after, held, left, ready⟩ := State.releaseFirst_eq_some found
      dsimp only at held left ready
      exact .inr ⟨before, e, after, held, (s.isReady_iff before e).1 ready, by simp [left], by simp [State.forwardHeld]⟩
  · exact .inl rfl

/-- No earlier unreleased entry blocks an entry that is READY (R60, R61). -/
theorem State.isReady_unblocked {s : State} {before : List HoldEntry} {e : HoldEntry} (h : s.isReady before e) :
    ∀ x ∈ before, x.released = true ∨ ∀ l ∈ x.lines, l ∉ e.lines := by
  obtain ⟨unreleased, goes, -⟩ := h
  intro x hx
  cases hr : x.released with
  | true => exact .inl rfl
  | false => exact .inr fun l hl hm => goes ⟨unreleased, .inl ⟨x, hx, hr, l, hl, hm⟩⟩

/-! ## The moves that cover nothing -/

/-- In `t` an item is COVERED that was so in `s`, or that was TAKEN with its record at or below the frontier of `t` (R26,
R68). -/
def State.coversByFrontier (s t : State) : Prop :=
  ∀ e ∈ t.hold, ∀ x ∈ e.items, ∀ q, x.stage = .covered q → ∃ d ∈ s.hold, d.request = e.request ∧
    (x ∈ d.items ∨ (t.log.covers q = true ∧ { x with stage := .taken q } ∈ d.items))

theorem State.CoversNoMore.coversByFrontier {s t : State} (h : s.CoversNoMore t) : s.coversByFrontier t :=
  fun e he x hx q hq => by
    obtain ⟨d, hd, same, held⟩ := h e he x hx q hq
    exact ⟨d, hd, same, .inl held⟩

/-- An empty hold queue has no item. -/
theorem State.CoversNoMore.of_empty {s t : State} (h : t.hold = []) : s.CoversNoMore t :=
  .of_subset (by simp [h])

theorem State.told_covers (s : State) (owner : Owner) : s.CoversNoMore (s.told owner) := by
  unfold State.told
  (repeat' split)
  · exact .of_hold (by simp)
  · exact s.setStage_covers _ .reading (by simp)
  · unfold State.handSweep
    dsimp only
    split <;> exact .of_hold (by simp)
  · exact .refl s
  · exact .refl s

theorem State.grant_covers (s : State) : s.CoversNoMore s.grant := by
  unfold State.grant
  (repeat' split)
  · exact (State.CoversNoMore.of_hold rfl).trans (State.told_covers _ _)
  · exact .refl s
  · exact .refl s

theorem State.captureHanded_covers (s : State) : s.CoversNoMore s.captureHanded := by
  unfold State.captureHanded
  (repeat' split)
  · exact .refl s
  · next ref _ _ =>
    exact (s.setStage_covers ref.line (.pending true) (by simp)).trans (.of_hold (by simp [State.handCapture]))
  · exact .refl s

/-- A take puts its item in stage TAKEN (R44). -/
theorem State.appendTake_covers (s : State) : s.CoversNoMore s.appendTake := by
  unfold State.appendTake
  (repeat' split)
  · exact .refl s
  · next c l image _ =>
    exact (s.setStage_covers l (.taken s.log.head) (by simp)).trans (.of_hold (by simp [State.takePreImage]))
  · exact .of_hold (by simp)
  · exact .refl s

theorem State.takeFromLink_covers (s : State) : s.CoversNoMore s.takeFromLink := by
  unfold State.takeFromLink
  (repeat' split)
  · exact .refl s
  · unfold State.takeRequest
    split
    · exact .of_hold (by simp)
    · exact (State.CoversNoMore.of_hold (by simp)).trans (State.handOn_covers _ _)
  · exact .refl s

theorem State.restoreAnswer_covers (s : State) (c : Ctx) (step : ReplayStep) (a : Answer) :
    s.CoversNoMore (s.restoreAnswer c step a) := by
  unfold State.restoreAnswer State.restoreReadAnswer State.restoreWriteAnswer
  dsimp only
  (repeat' split) <;> exact .of_hold (by simp)

theorem State.straightAnswer_covers (s : State) (tag : BitVec 6) (a : Answer) :
    s.CoversNoMore (s.straightAnswer tag a) := by
  unfold State.straightAnswer
  (repeat' split) <;> exact .of_hold (by simp)

/-! ## The one that covers -/

/-- A durable append covers what its frontier passes, an append's ERROR nothing (R26, R46, R55, R68). -/
theorem State.appendAnswer_coversByFrontier (s : State) (q : Seq) (a : Answer) :
    s.coversByFrontier (s.appendAnswer q a) := by
  cases a with
  | done data =>
    intro e he x hx p hp
    obtain ⟨u, hu⟩ : ∃ u : State, u = { s with log := s.log.settle q } := ⟨_, rfl⟩
    have answered : s.appendAnswer q (.done data) = u.followFrontier.runEngines := by rw [hu]; rfl
    rw [answered] at he ⊢
    have covers : u.followFrontier.runEngines.log.covers p = u.log.covers p :=
      LogWriter.covers_congr p (by simp) (by simp) (by simp)
    have followed := u.followFrontier_covers e (by simpa using he) x hx p hp
    rw [covers]
    subst hu
    exact followed
  | error => exact ((State.CoversNoMore.of_hold rfl).trans (State.logError_covers _ _ _)).coversByFrontier

/-- An answer covers by the frontier alone, whichever transaction it is to (R155). -/
theorem State.takeAnswer_coversByFrontier (s : State) (tag : BitVec 4) (a : Answer) :
    s.coversByFrontier (s.takeAnswer tag a) := by
  unfold State.takeAnswer
  split
  · exact (State.CoversNoMore.refl s).coversByFrontier
  · next o _ =>
    split
    · exact (State.CoversNoMore.of_hold rfl).coversByFrontier
    · show (s.removeOutstanding tag).coversByFrontier _
      cases o.owner with
      | append q => exact State.appendAnswer_coversByFrontier _ q a
      | anchor => exact (State.anchorAnswer_covers _ a).coversByFrontier
      | capture ref => exact (State.captureAnswer_covers _ ref a).coversByFrontier
      | restore c step => exact (State.restoreAnswer_covers _ c step a).coversByFrontier
      | scan step isWrite => exact (State.scanAnswer_covers _ step isWrite a).coversByFrontier
      | forward up source =>
        cases source with
        | straight => exact (State.straightAnswer_covers _ up a).coversByFrontier
        | held => exact (State.heldAnswer_covers _ up a).coversByFrontier

/-- Every move covers by the frontier alone. -/
theorem State.Moves.coversByFrontier {s t : State} (h : s.Moves t) : s.coversByFrontier t := by
  cases h with
  | answer tag a => exact s.takeAnswer_coversByFrontier tag a
  | link m o => exact (State.CoversNoMore.of_hold rfl).coversByFrontier
  | command c m o => exact ((runCommand_covers c s).trans (.of_hold rfl)).coversByFrontier
  | powerOn => exact (State.CoversNoMore.of_empty rfl).coversByFrontier
  | releaseReset =>
    unfold State.releaseReset
    split
    · exact ((State.CoversNoMore.of_hold rfl).trans (State.drainIfWarned_covers _)).coversByFrontier
    · exact (State.CoversNoMore.refl s).coversByFrontier
  | assertPfail => exact ((State.CoversNoMore.of_hold rfl).trans (State.drainIfWarned_covers _)).coversByFrontier
  | deassertPfail => exact (State.CoversNoMore.of_hold rfl).coversByFrontier
  | volatileReset =>
    unfold State.volatileReset
    split
    · exact ((State.CoversNoMore.of_empty rfl).trans (State.drainIfWarned_covers s.softValues)).coversByFrontier
    · exact (State.CoversNoMore.refl s).coversByFrontier
  | request arrival =>
    exact ((State.CoversNoMore.of_hold (by simp)).trans (State.takeFromLink_covers _)).coversByFrontier
  | reclassify =>
    unfold State.reclassify
    (repeat' split)
    · exact (State.CoversNoMore.refl s).coversByFrontier
    · exact (s.handOn_covers _).coversByFrontier
    · exact (State.CoversNoMore.refl s).coversByFrontier
  | release => exact s.release_covers.coversByFrontier
  | captureHanded => exact s.captureHanded_covers.coversByFrontier
  | grant => exact s.grant_covers.coversByFrontier
  | appendTake => exact s.appendTake_covers.coversByFrontier
  | reclaim =>
    unfold State.reclaim
    split <;> exact (State.CoversNoMore.of_hold (by simp)).coversByFrontier
  | cleanAnchor =>
    unfold State.cleanAnchor
    split <;> exact (State.CoversNoMore.of_hold (by simp)).coversByFrontier
  | finalDrainAnchor =>
    unfold State.finalDrainAnchor
    split <;> exact (State.CoversNoMore.of_hold (by simp)).coversByFrontier
  | endDrain =>
    unfold State.endDrain
    (repeat' split) <;> exact (State.CoversNoMore.of_hold (by simp)).coversByFrontier

/-- Settles O40: what RELEASE forwards was READY, and every move covers by the frontier alone. -/
theorem releaseWaitsForTheDurableFrontier : Obligations.ReleaseWaitsForTheDurableFrontier := by
  refine ⟨fun s t h => ?_, fun i s t h => (exec_moves h).coversByFrontier⟩
  obtain rfl := Host.Outcome.next.inj h
  refine s.release_cases.imp id ?_
  rintro ⟨before, e, after, held, ready, left, forwarded⟩
  rw [UpRequest.forwardRequest_eq] at forwarded
  have unblocked := State.isReady_unblocked ready
  obtain ⟨unreleased, -, covered⟩ := ready
  exact ⟨before, e, after, held, unreleased, unblocked, covered, left, forwarded⟩

end Sys2Proof.Machine
end

section
/-! SET of the geometry items with the checks before it (R35, R177), and how an attach begins (R36, R101 to R103). -/

namespace Sys2Proof.Machine

/-! ## SET of a geometry item (R35, R177) -/

/-- A SET that passes the checks on the code, the index and the reset's wait is decided by its item's own rule. -/
theorem setCommand_of_item {s : State} {code index : Byte} {item : Item} (v : BitVec 64)
    (hc : itemOfCode code = some item) (hi : item.indexOk index = true) (hr : item.readOnly = false)
    (hw : s.mgmt.waiting = false) : runCommand (.set code index v) s = s.itemSet item index v := by
  simp [runCommand, State.setCommand, hc, hi, hr, hw]

/-- A SET of a read-only item, also while a soft reset waits. -/
theorem setCommand_of_readOnly (s : State) {code : Byte} (index : Byte) {item : Item} (v : BitVec 64)
    (hc : itemOfCode code = some item) (hr : item.readOnly = true) :
    runCommand (.set code index v) s = (s, if item.indexOk index = true then .badState else .badRange) := by
  by_cases hi : item.indexOk index = true <;> simp [runCommand, State.setCommand, hc, hi, hr]

/-- A SET whose code names no item, also while a soft reset waits. -/
theorem setCommand_of_none (s : State) {code : Byte} (index : Byte) (v : BitVec 64) (hc : itemOfCode code = none) :
    runCommand (.set code index v) s = (s, .badRange) := by
  simp [runCommand, State.setCommand, hc]

/-- The item codes are 01H to 0FH (R187). -/
theorem itemOfCode_eq_none {code : Byte} (h : code = 0 ∨ 0x10 ≤ code) : itemOfCode code = none := by
  have other : ∀ k : Byte, 0 < k → k < 0x10 → code ≠ k := fun k h0 h1 he => by
    subst he
    bv_omega
  simp [itemOfCode, other]

/-- A geometry item's range comes before the journal state (R35). -/
theorem State.setGeometry_eq (s : State) {inRange : Bool} (items : LogItems) {p q : Prop} [Decidable p] [Decidable q]
    (h : inRange = true ↔ p ∧ q) :
    s.setGeometry inRange items =
      (if p ∧ q ∧ s.attach.journal = .detached then { s with items := items } else s,
       if p ∧ q then (if s.attach.journal = .detached then .ok else .badState) else .badRange) := by
  unfold State.setGeometry
  cases inRange with
  | false =>
    have out : ¬ (p ∧ q) := fun hpq => Bool.false_ne_true (h.2 hpq)
    have unchanged : ¬ (p ∧ q ∧ s.attach.journal = .detached) := fun ⟨hp, hq, _⟩ => out ⟨hp, hq⟩
    rw [if_neg unchanged, if_neg out]
    rfl
  | true =>
    obtain ⟨hp, hq⟩ := h.1 rfl
    by_cases hj : s.attach.journal = .detached <;> simp [hp, hq, hj]

/-- SET(ANCHOR_STEP) depends on no state (R35). -/
theorem State.setAnchorStepItem_eq (s : State) (v : BitVec 64) :
    s.setAnchorStepItem v =
      (if 1 ≤ v.toNat ∧ v.toNat ≤ 0x1000000 then { s with items := { s.items with anchorStep := v.toNat } } else s,
       if 1 ≤ v.toNat ∧ v.toNat ≤ 0x1000000 then .ok else .badRange) := by
  unfold State.setAnchorStepItem
  by_cases hv : 1 ≤ v.toNat ∧ v.toNat ≤ 0x1000000
  · rw [if_pos hv, if_pos hv]
    exact if_pos hv
  · rw [if_neg hv, if_neg hv]
    exact if_neg hv

/-- A SET between frames leaves what its command leaves, and its reply (R170, R171). -/
theorem exec_set_of_run {s t : State} {code index : Byte} {v : BitVec 64} {r : Reply} (hs : s.takesFrames) (extra : Nat)
    (hr : runCommand (.set code index v) s = (t, r)) :
    exec (.set code index v extra) s = .next (s.afterFrame (11 + extra) t r) :=
  congrArg Host.Outcome.next (State.frameOf_of_run hs extra hr)

/-- Settles O13: the shared checks come first, then each item's own rule, its range before the journal state. -/
theorem setGeometryChecksRangeThenState : Obligations.SetGeometryChecksRangeThenState := by
  refine ⟨fun s index v extra hs => ?_, fun s index v extra hs => ⟨fun code h => ?_, fun code h => ?_, ?_⟩⟩
  · have set {code : Byte} {item : Item} (hc : itemOfCode code = some item) (hi : item.indexOk index = true)
        (hr : item.readOnly = false) {t : State} {r : Reply} (h : s.itemSet item index v = (t, r)) :
        exec (.set code index v extra) s = .next (s.afterFrame (11 + extra) t r) :=
      exec_set_of_run hs.1 extra ((setCommand_of_item v hc hi hr hs.2).trans h)
    exact ⟨set (item := .ringBase) rfl rfl rfl (s.setGeometry_eq _ (by simp)),
      set (item := .sizeExp) rfl rfl rfl (s.setGeometry_eq _ (by simp)),
      set (item := .anchorAddr) rfl rfl rfl (s.setGeometry_eq _ (by simp)),
      set (item := .anchorStep) rfl rfl rfl (s.setAnchorStepItem_eq v)⟩
  · exact exec_set_of_run hs extra (setCommand_of_none s index v (itemOfCode_eq_none h))
  · rcases h with rfl | rfl | rfl
    · exact exec_set_of_run hs extra (setCommand_of_readOnly s index (item := .logHead) v rfl rfl)
    · exact exec_set_of_run hs extra (setCommand_of_readOnly s index (item := .logTail) v rfl rfl)
    · exact exec_set_of_run hs extra (setCommand_of_readOnly s index (item := .logFree) v rfl rfl)
  · have named : Item.ctxInfo.indexOk index = decide (index < 4) := rfl
    have refused := setCommand_of_readOnly s (code := 0x0F) index (item := .ctxInfo) v rfl rfl
    simp only [named, decide_eq_true_eq] at refused
    exact exec_set_of_run hs extra refused

/-! ## ATTACH (R36, R41, R52, R101 to R103) -/

/-- An ATTACH whose mode byte names no mode. -/
theorem runCommand_attach_of_none {s : State} {mode : Byte} (hw : s.mgmt.waiting = false)
    (hm : attachModeOf mode = none) : runCommand (.attach mode) s = (s, .badRange) := by
  simp [runCommand, State.unlessWaiting, State.attachCommand, hw, hm]

/-- The journal state and then the geometry decide an ATTACH of a mode. -/
theorem runCommand_attach_of_mode {s : State} {mode : Byte} {m : AttachMode} (hw : s.mgmt.waiting = false)
    (hm : attachModeOf mode = some m) :
    (s.attach.journal ≠ .detached → runCommand (.attach mode) s = (s, .badState)) ∧
    (s.attach.journal = .detached → s.items.valid = false → runCommand (.attach mode) s = (s, .badRange)) ∧
    (s.attach.journal = .detached → s.items.valid = true → runCommand (.attach mode) s = (s.acceptAttach m, .ok)) := by
  have run : runCommand (.attach mode) s =
      if s.attach.journal ≠ .detached then (s, .badState)
      else if s.items.valid = true then (s.acceptAttach m, .ok) else (s, .badRange) := by
    simp only [runCommand, State.unlessWaiting, State.attachCommand, hw, hm, Bool.false_eq_true, if_false]
  rw [run]
  refine ⟨fun hj => if_pos hj, fun hj hv => ?_, fun hj hv => ?_⟩
  · rw [if_neg (not_not.2 hj), hv]
    rfl
  · rw [if_neg (not_not.2 hj), if_pos hv]

/-- The zero write of copy 0 goes to the ANCHOR requester (R102, log entry 21). -/
theorem State.acceptAttach_format {s : State} (hp : s.pins.pfail = false) :
    s.acceptAttach .format =
      { s with
        attach := { s.attach with
          journal := .attaching
          progress := s.acceptedProgress .format (.invalidating false) }
        log := { s.log with
          anchor := some { generation := none, tail := none, issuer := .attachEngine, attaching := true } }
        downstream := { s.downstream with
          anchorList := s.downstream.anchorList ++
            [{ request := fullWrite s.items.anchorAddr (List.replicate 64 0), owner := .anchor }] } } :=
  State.drainIfWarned_of_pfail _ hp

/-- The read of the anchor slot goes to the SCAN requester (R103). -/
theorem State.acceptAttach_resume {s : State} (hp : s.pins.pfail = false) :
    s.acceptAttach .resume =
      { s with
        attach := { s.attach with
          journal := .attaching
          progress := s.acceptedProgress .resume .readingAnchor }
        downstream := { s.downstream with
          scanList := s.downstream.scanList ++
            [{ request := plainRead s.items.anchorAddr 128, owner := .scan .readingAnchor false }] } } :=
  State.drainIfWarned_of_pfail _ hp

/-- Settles O17: the mode, the journal state and the geometry in turn, then the first transaction of the accepted mode. -/
theorem attachIsCheckedThenBegins : Obligations.AttachIsCheckedThenBegins := by
  refine ⟨fun s extra hs => ⟨fun mode h1 h2 => ?_, fun hj => ?_, fun hj hg => ?_⟩,
    fun s extra hs hp hj hlow hhigh hring hapart => ?_⟩
  · exact congrArg _ (State.frameOf_of_run hs.1 extra (runCommand_attach_of_none hs.2 ((if_neg h1).trans (if_neg h2))))
  · obtain ⟨format, -⟩ := runCommand_attach_of_mode (mode := 0x01) hs.2 rfl
    obtain ⟨resume, -⟩ := runCommand_attach_of_mode (mode := 0x02) hs.2 rfl
    exact ⟨congrArg _ (State.frameOf_of_run hs.1 extra (format hj)),
      congrArg _ (State.frameOf_of_run hs.1 extra (resume hj))⟩
  · have invalid : s.items.valid = false := by
      rw [← Bool.not_eq_true, LogItems.valid_iff]
      omega
    obtain ⟨-, format, -⟩ := runCommand_attach_of_mode (mode := 0x01) hs.2 rfl
    obtain ⟨-, resume, -⟩ := runCommand_attach_of_mode (mode := 0x02) hs.2 rfl
    exact ⟨congrArg _ (State.frameOf_of_run hs.1 extra (format hj invalid)),
      congrArg _ (State.frameOf_of_run hs.1 extra (resume hj invalid))⟩
  · have valid : s.items.valid = true := s.items.valid_iff.2 ⟨⟨hlow, hhigh⟩, hring, hapart⟩
    obtain ⟨-, -, format⟩ := runCommand_attach_of_mode (mode := 0x01) hs.2 rfl
    obtain ⟨-, -, resume⟩ := runCommand_attach_of_mode (mode := 0x02) hs.2 rfl
    rw [← State.acceptAttach_format hp, ← State.acceptAttach_resume hp]
    exact ⟨congrArg _ (State.frameOf_of_run hs.1 extra (format hj valid)),
      congrArg _ (State.frameOf_of_run hs.1 extra (resume hj valid))⟩

end Sys2Proof.Machine
end

section
/-! The anchor writes outside an attach: the reclamation anchor with the reclaim limit (R35, R50 to R52), and the anchors
of the attach engine (R52, R111, R116). -/

namespace Sys2Proof.Machine

/-! ## The anchor that is issued (R52) -/

/-- An anchor write of the next generation, handed to the copy of its parity. -/
theorem State.issueAnchor_eq (s : State) (issuer : Issuer) (state : AnchorState) (tail : Seq) :
    s.issueAnchor issuer state tail =
      { s with
        log := { s.log with
          generation := s.log.generation + 1
          anchor := some { generation := some (s.log.generation + 1), tail := some tail, issuer := issuer,
                           attaching := false } }
        downstream := { s.downstream with
          anchorList := s.downstream.anchorList ++
            [{ request := fullWrite
                 (if (s.log.generation + 1).getLsbD 0 = true then s.items.anchorAddr + 64 else s.items.anchorAddr)
                 (anchorBytes { generation := s.log.generation + 1, state := state, tail := tail,
                                nextEpochs := s.contexts.map (·.nextEpoch) }),
               owner := .anchor }] } } := rfl

theorem State.live_iff_working (s : State) : s.live = true ↔ s.working := by
  simp [State.live, State.working]

/-! ## The reclaim limit (R50) -/

/-- The first-record sequences that the reclaim limit is the least of. -/
def State.firstSequences (s : State) : List Seq :=
  allContexts.filterMap fun c => if (s.contexts.get c).state = .idle then none else (s.contexts.get c).firstSeq

theorem State.mem_firstSequences {s : State} {q : Seq} :
    q ∈ s.firstSequences ↔ ∃ c, (s.contexts.get c).state ≠ .idle ∧ (s.contexts.get c).firstSeq = some q := by
  have every : ∀ c : Ctx, c ∈ allContexts := by decide
  simp [State.firstSequences, every]

theorem State.reclaimLimit_eq (s : State) :
    s.reclaimLimit = (leastFrom s.log.tail s.firstSequences).getD (s.log.frontier + 1) := by
  unfold State.reclaimLimit State.firstSequences
  split <;> simp [*]

/-- A first-record sequence that no other is nearer to the tail than is the reclaim limit. -/
theorem State.reclaimLimit_of_least {s : State} {c : Ctx} {q : Seq} (hc : (s.contexts.get c).state ≠ .idle)
    (hq : (s.contexts.get c).firstSeq = some q)
    (least : ∀ d p, (s.contexts.get d).state ≠ .idle → (s.contexts.get d).firstSeq = some p →
      distance s.log.tail q ≤ distance s.log.tail p) : s.reclaimLimit = q := by
  have first : leastFrom s.log.tail s.firstSequences = some q :=
    leastFrom_eq_some (State.mem_firstSequences.2 ⟨c, hc, hq⟩) fun p hp =>
      let ⟨d, hd, hf⟩ := State.mem_firstSequences.1 hp
      least d p hd hf
  rw [State.reclaimLimit_eq, first, Option.getD_some]

/-- With no first-record sequence the reclaim limit is the one after the frontier. -/
theorem State.reclaimLimit_of_none {s : State}
    (h : ∀ c, (s.contexts.get c).state = .idle ∨ (s.contexts.get c).firstSeq = none) :
    s.reclaimLimit = s.log.frontier + 1 := by
  have empty : s.firstSequences = [] := List.eq_nil_iff_forall_not_mem.2 fun q hq => by
    obtain ⟨c, hc, hf⟩ := State.mem_firstSequences.1 hq
    rcases h c with idle | absent
    · exact hc idle
    · rw [absent] at hf
      cases hf
  rw [State.reclaimLimit_eq, empty]
  rfl

/-! ## Reclamation (R35, R51) -/

theorem State.reclaimDue_iff (s : State) : s.reclaimDue = true ↔
    min s.items.anchorStep s.log.ringSize.toNat ≤ (s.reclaimLimit - s.log.tail).toNat ∨
      (0 < (s.reclaimLimit - s.log.tail).toNat ∧ (s.log.ringSize - (s.log.head - s.log.tail)).toNat ≤ 5) := by
  unfold State.reclaimDue
  simp only [Bool.or_eq_true, Bool.and_eq_true, decide_eq_true_eq]
  rfl

/-- Settles O52: the anchor is issued on the whole condition of R51, and the limit it carries is that of R50. -/
theorem reclamationAnchorCarriesTheLimit : Obligations.ReclamationAnchorCarriesTheLimit := by
  refine fun s => ⟨fun hs hj ha hdue => ?_, fun hnot => congrArg Host.Outcome.next (if_neg ?_),
    fun c q hc hq least => State.reclaimLimit_of_least hc hq least, State.reclaimLimit_of_none⟩
  · rw [← State.issueAnchor_eq]
    exact congrArg Host.Outcome.next (if_pos ⟨s.live_iff_working.2 hs, hj, ha, s.reclaimDue_iff.2 hdue⟩)
  · rintro ⟨hl, hj, ha, hdue⟩
    rcases hnot with idle | unattached | inFlight | early
    · exact idle (s.live_iff_working.1 hl)
    · exact unattached hj
    · exact inFlight ha
    · have due := s.reclaimDue_iff.1 hdue
      omega

/-! ## The attach engine's anchors (R111, R116) -/

theorem DrainRecord.writesAnchor_iff (d : DrainRecord) : d.writesAnchor = true ↔
    (d.origin = some .attached ∨ d.origin = some .detaching) ∧ d.anchorError = false := by
  simp [DrainRecord.writesAnchor]

/-- Settles O57: each of the two anchors is issued where its rule's conditions hold together. -/
theorem engineAnchorsAreIssued : Obligations.EngineAnchorsAreIssued := by
  refine fun s hs ha => ⟨fun hj hh hf => ?_, fun hj ho he hi hout hforward hanchor happend hcapture hrestore hscan => ?_⟩
  · rw [← State.issueAnchor_eq]
    exact congrArg Host.Outcome.next (if_pos ⟨s.live_iff_working.2 hs, hj, hh, hf, ha⟩)
  · have writes : s.attach.drain.writesAnchor = true := s.attach.drain.writesAnchor_iff.2 ⟨ho, he⟩
    have idle : s.downstream.idle = true := by
      simp [DownstreamPort.idle, hout, hforward, hanchor, happend, hcapture, hrestore, hscan]
    have unissued : ¬ s.attach.drain.finalIssued = true := by simp [hi]
    have issued : s.finalDrainAnchor = State.issueAnchor
        { s with attach := { s.attach with drain := { s.attach.drain with
            finalIssued := true, finalTail := some s.reclaimLimit } } } .attachEngine .active s.reclaimLimit :=
      if_pos ⟨s.live_iff_working.2 hs, hj, writes, unissued, idle, ha⟩
    refine congrArg Host.Outcome.next (issued.trans ?_)
    rw [State.issueAnchor_eq]
    simp only [hanchor, List.nil_append]

end Sys2Proof.Machine
end

section
/-! The kind of a line and of a request (R36, R124 to R126). -/

namespace Sys2Proof.Machine

/-! ## The lookup in the table (R124) -/

theorem RegionEntry.covers_iff (e : RegionEntry) (l : Line) : e.covers l = true ↔
    e.valid = true ∧ e.base ≤ l.extractLsb' 6 28 ∧ l.extractLsb' 6 28 ≤ e.limit := by
  simp only [RegionEntry.covers, Bool.and_eq_true, decide_eq_true_eq, and_assoc]
  rfl

theorem regionNumbers_eq : regionNumbers = List.finRange 16 := rfl

/-- The search for a covering entry stops at the lowest-numbered one. -/
theorem find_regionNumbers {p : Fin 16 → Bool} {n : Fin 16} (hn : p n = true) (hm : ∀ m, m < n → p m = false) :
    regionNumbers.find? p = some n := by
  rw [regionNumbers_eq, List.find?_eq_some_iff_getElem]
  refine ⟨hn, n, by simp, by simp, fun j hj => ?_⟩
  simpa using hm ⟨j, by omega⟩ hj

theorem tableKind_of_first {regions : Vector RegionEntry 16} {l : Line} {n : Fin 16}
    (hn : (regions.get n).covers l = true) (hm : ∀ m, m < n → (regions.get m).covers l = false) :
    tableKind regions l = (match (regions.get n).kind with
      | .pass => .pass
      | .guard => .guard
      | .journal => .journal n) := by
  cases hk : (regions.get n).kind <;> simp [tableKind, find_regionNumbers hn hm, hk]

theorem tableKind_of_none {regions : Vector RegionEntry 16} {l : Line} (h : ∀ m, (regions.get m).covers l = false) :
    tableKind regions l = .pass := by
  have missed : regionNumbers.find? (fun n => (regions.get n).covers l) = none := by
    simpa [List.find?_eq_none] using fun m _ => h m
  unfold tableKind
  rw [missed]

/-! ## The log area (R36, R125) -/

theorem lineAddress_toNat (l : Line) : (lineAddress l).toNat = l.toNat * 64 := by
  rw [lineAddress, BitVec.toNat_append]
  simp [Nat.shiftLeft_eq]

theorem LogItems.inLogArea_iff (g : LogItems) (l : Line) : g.inLogArea (lineAddress l) = true ↔
    (g.ringBase.toNat ≤ l.toNat * 64 ∧ l.toNat * 64 < g.ringBase.toNat + 2 ^ g.sizeExp * 128) ∨
    (g.anchorAddr.toNat ≤ l.toNat * 64 ∧ l.toNat * 64 < g.anchorAddr.toNat + 128) := by
  simp [LogItems.inLogArea, LogItems.slots, lineAddress_toNat]

/-- The log area's kind outranks the table's in a journal that is not DETACHED, with a valid geometry. -/
theorem State.lineKind_log {s : State} {l : Line} (hj : s.attach.journal ≠ .detached) (hv : s.items.valid = true)
    (ha : s.items.inLogArea (lineAddress l) = true) : s.lineKind l = .log := if_pos ⟨hj, hv, ha⟩

theorem State.lineKind_table {s : State} {l : Line}
    (h : s.attach.journal = .detached ∨ s.items.valid = false ∨ ¬ s.items.inLogArea (lineAddress l) = true) :
    s.lineKind l = tableKind s.regions l := by
  refine if_neg fun ⟨hj, hv, ha⟩ => ?_
  rcases h with h | h | h
  · exact hj h
  · exact absurd hv (by simp [h])
  · exact h ha

/-- Settles O38: the table's search, the request's lines and their common kind, then the log area above the table. -/
theorem lookupTakesTheLowestCoveringEntry : Obligations.LookupTakesTheLowestCoveringEntry := by
  have covers (regions : Vector RegionEntry 16) (l : Line) (n : Fin 16) := (regions.get n).covers_iff l
  refine ⟨fun regions l n hn hm => ?_, fun regions l hm => ?_, fun r l hlen hblock => mem_linesOf hlen hblock l,
    State.requestKind_eq_some_iff, State.requestKind_eq_none_iff, fun s l => ⟨fun h => ?_, fun hj hv => ?_, ?_⟩⟩
  · refine tableKind_of_first ((covers regions l n).2 hn) fun m hlt => ?_
    exact Bool.not_eq_true _ ▸ fun h => hm m hlt ((covers regions l m).1 h)
  · exact tableKind_of_none fun m => Bool.not_eq_true _ ▸ fun h => hm m ((covers regions l m).1 h)
  · exact State.lineKind_table (h.imp_right .inl)
  · rw [← LogItems.inLogArea_iff]
    exact ⟨State.lineKind_log hj hv, fun h => State.lineKind_table (.inr (.inr h))⟩
  · rw [LogItems.valid_iff, and_assoc]

end Sys2Proof.Machine
end

section
/-! The answer of a pre-image read: taken into its item, or the end of a kept item (R42, R48, R67, R75, R88). -/

namespace Sys2Proof.Machine

section
variable {s : State} {tag : BitVec 4} {lines : List Line} {ref : CaptureRef}

/-! ## An item in the hold queue (R42, R67) -/

/-- The read of an item in the hold queue has answered DONE: the record is asked for, then the log's space looked at. -/
theorem exec_captureAnswer_done (haw : s.awaits { tag := tag, owner := .capture ref, lines := lines })
    (hk : ref ∉ s.kept) (hr : ∃ e ∈ s.hold, ∃ i ∈ e.items, i.line = ref.line ∧ i.stage = .reading) (data : List Byte) :
    exec (.captureReadAnswer tag (.done data)) s =
      .next ((s.answered tag).buildRecord ref ((data ++ List.replicate 64 0).take 64)) := by
  refine congrArg Host.Outcome.next ((State.takeAnswer_of_awaits haw (.done data)).trans ?_)
  have outside : ¬ (s.answered tag).kept.contains ref = true := fun h => hk (List.contains_iff_mem.1 h)
  have reading : ((s.answered tag).hold.any fun e => e.items.any fun i => i.readingLine ref.line) = true := by
    obtain ⟨e, he, i, hi, hl, hs⟩ := hr
    simp only [List.any_eq_true]
    exact ⟨e, he, i, hi, by simp [CaptureItem.readingLine, hl, hs]⟩
  exact (if_neg outside).trans (if_pos reading)

/-- A record that is asked for: its item BUILT, its request the last, and LOG_FULL as the look at the space has it. -/
theorem State.buildRecord_spec (s : State) (ref : CaptureRef) (image : List Byte) {w : LogWriter}
    (hw : w = { s.log with requests := s.log.requests ++ [.preImage ref.ctx ref.line image] }) :
    (s.buildRecord ref image).log = { w with
      spaceWaiter := (s.buildRecord ref image).log.spaceWaiter
      logFullArmed := w.logFullArmed && (w.fullEvents s.attach.journal).isEmpty } ∧
    (s.buildRecord ref image).events = s.events.takeAll (w.fullEvents s.attach.journal) ∧
    (s.buildRecord ref image).hold = s.hold.map fun e => e.setStage ref.line (.built image) := by
  subst hw
  obtain ⟨log, events⟩ := State.lookSpace_full
    { s.setStage ref.line (.built image) with
      log := { s.log with requests := s.log.requests ++ [.preImage ref.ctx ref.line image] } }
  exact ⟨log, events, by simp [State.buildRecord]⟩

@[simp] theorem State.buildRecord_frame (s : State) (ref : CaptureRef) (image : List Byte) :
    (s.buildRecord ref image).filter = s.filter ∧ (s.buildRecord ref image).contexts = s.contexts ∧
    (s.buildRecord ref image).engine = s.engine ∧ (s.buildRecord ref image).attach = s.attach ∧
    (s.buildRecord ref image).kept = s.kept ∧ (s.buildRecord ref image).upstream = s.upstream ∧
    (s.buildRecord ref image).downstream = s.downstream ∧ (s.buildRecord ref image).out = s.out ∧
    (s.buildRecord ref image).mgmt = s.mgmt ∧ (s.buildRecord ref image).pins = s.pins := by
  simp [State.buildRecord]

/-! ## A kept item (R75, R88) -/

/-- The state once the read of a kept item has answered: the item is kept no longer and its line has left the filter. -/
def State.keptSettled (s : State) (tag : BitVec 4) (ref : CaptureRef) : State :=
  { s.answered tag with
    kept := s.kept.erase ref
    filter := s.filter.filter fun e => e.line ≠ ref.line }

/-- Whatever the answer, a kept item is settled by it, and the engines run. -/
theorem exec_captureAnswer_kept (haw : s.awaits { tag := tag, owner := .capture ref, lines := lines })
    (hk : ref ∈ s.kept) (a : Answer) :
    exec (.captureReadAnswer tag a) s = .next (s.keptSettled tag ref).runEngines :=
  congrArg Host.Outcome.next ((State.takeAnswer_of_awaits haw a).trans (if_pos (List.contains_iff_mem.2 hk)))

/-- The line stays out of the filter however far the engines go. -/
theorem State.keptSettled_filterEntry (s : State) (tag : BitVec 4) (ref : CaptureRef) :
    (s.keptSettled tag ref).runEngines.filterEntry ref.line = none := by
  refine List.find?_eq_none.2 fun f hf => ?_
  simpa using (List.mem_filter.1 ((State.runEngines_filter _).subset hf)).2

end

/-- Settles O46: the item in the queue is built and the space looked at, the kept one is settled and the engines run. -/
theorem preImageReadIsTakenOrSettled : Obligations.PreImageReadIsTakenOrSettled := by
  intro s tag lines ref data haw
  refine ⟨fun w hk hr hw => ?_, fun hk a => ⟨?_, fun idle => ?_, fun hp hset hj hreads happends => ?_⟩⟩
  · obtain ⟨log, events, hold⟩ := (s.answered tag).buildRecord_spec ref ((data ++ List.replicate 64 0).take 64) hw
    obtain ⟨filter, contexts, engine, attach, kept, upstream, downstream, out, mgmt, pins⟩ :=
      (s.answered tag).buildRecord_frame ref ((data ++ List.replicate 64 0).take 64)
    exact ⟨_, exec_captureAnswer_done haw hk hr data, log, events, hold, filter, contexts, engine, attach, kept, upstream,
      downstream, out, mgmt, pins⟩
  · refine ⟨_, exec_captureAnswer_kept haw hk a, ?_, s.keptSettled_filterEntry tag ref, ?_⟩
    · simp [State.keptSettled]
    · simp [State.keptSettled, State.answered]
  · rw [exec_captureAnswer_kept haw hk a]
    exact congrArg Host.Outcome.next (State.runEngines_of_none _ fun c => State.engineReady_of_none _ c (idle c))
  · exact ⟨_, exec_captureAnswer_kept haw hk a,
      (s.keptSettled tag ref).runEngines_leavesSettling ref.ctx hset hj (.inr ⟨hp, hreads, happends⟩)⟩

end Sys2Proof.Machine
end

section
/-! The formats of the log read back (R38, R54, R91, R103, R104, R183 to R185): record slots. -/

namespace Sys2Proof.Machine

/-! ## A slot that holds a header line (R183) -/

theorem fieldAt_append_left {a : List Byte} (b : List Byte) {o n : Nat} (h : o + n ≤ a.length) :
    fieldAt (a ++ b) o n = fieldAt a o n := by
  have inside : n ≤ (a.drop o).length := by rw [List.length_drop]; omega
  rw [fieldAt, fieldAt, List.drop_append_of_le_length (by omega), List.take_append_of_le_length inside]

theorem lineOf_lineAddress (l : Line) : lineOf (lineAddress l) = l := by
  apply BitVec.eq_of_toNat_eq
  rw [lineOf, BitVec.extractLsb'_toNat, lineAddress_toNat]
  have := l.isLt
  simp [Nat.shiftRight_eq_div_pow]
  omega

section
variable {q : Seq} {k : RecordKind} {c : Ctx} {i : Bool} {e : Epoch} {a : Addr} {w : BitVec 32} {rest : List Byte}

/-- What the scan and the rollback read in a slot whose first line is a header line. -/
theorem slot_fields {slot : List Byte} (hs : slot = headerBytes q k c i e a w ++ rest) :
    fieldAt slot 0 4 = recordSync ∧ slotSeq slot = q ∧ slotKind slot = some k ∧ fieldAt slot 9 1 = c.val ∧
    fieldAt slot 12 4 = e.toNat ∧ slotLineAddress slot = a.toNat ∧ fieldAt slot 24 4 = w.toNat := by
  obtain ⟨sync, seq, kind, ctx, epoch, address, check⟩ := headerBytes_fields q k c i e a w
  have header {o n : Nat} (h : o + n ≤ 64) : fieldAt slot o n = fieldAt (headerBytes q k c i e a w) o n := by
    rw [hs]
    exact fieldAt_append_left rest (by simpa using h)
  refine ⟨(header (by omega)).trans sync, ?_, ?_, (header (by omega)).trans ctx, (header (by omega)).trans epoch,
    (header (by omega)).trans address, (header (by omega)).trans check⟩
  · rw [slotSeq, header (by omega), seq, BitVec.ofNat_toNat, BitVec.setWidth_eq]
  · rw [slotKind, header (by omega), kind]
    cases k <;> rfl

/-- Such a slot is accepted with its fields once its check word passes (R104). -/
theorem acceptSlot_of_header {slot : List Byte} (hs : slot = headerBytes q k c i e a w ++ rest)
    (hc : slotCheckPasses slot k = true) (ha : k = .preImage → a.toNat % 64 = 0) :
    acceptSlot slot q =
      some { kind := k, ctx := c, epoch := e, line := lineOf a, image := slotImage slot } := by
  obtain ⟨sync, seq, kind, ctx, epoch, address, -⟩ := slot_fields hs
  refine (acceptSlot_eq_some_iff slot q _).2 ⟨kind, ctx, sync, hc, seq, fun hk => ?_, ?_, ?_, rfl⟩
  · rw [address]
    exact ⟨ha hk, a.isLt⟩
  · rw [slotEpoch, epoch, BitVec.ofNat_toNat, BitVec.setWidth_eq]
  · rw [address, BitVec.ofNat_toNat, BitVec.setWidth_eq]

end

/-! ## What the log writer puts in a slot (R37, R38) -/

/-- A PRE_IMAGE record passes the check word test over both its lines (R185). -/
theorem preImageBytes_check (q : Seq) (c : Ctx) (e : Epoch) (l : Line) {image : List Byte} (h : image.length = 64) :
    slotCheckPasses (preImageBytes q c e l image) .preImage = true := by
  obtain ⟨-, -, -, -, -, -, check⟩ := slot_fields (slot := preImageBytes q c e l image) rfl
  have whole : (preImageBytes q c e l image).take 128 = preImageBytes q c e l image :=
    List.take_of_length_le (by simp [preImageBytes, h])
  simp only [slotCheckPasses, whole, check, decide_eq_true_eq, BitVec.ofNat_toNat, BitVec.setWidth_eq]
  rw [preImageBytes, clearCheck_headerBytes]

/-- A marker passes it over its header line, whatever the slot's second line holds. -/
theorem markerBytes_check (q : Seq) (kind : MarkerKind) (c : Ctx) (e : Epoch) (incomplete : Bool) (second : List Byte) :
    slotCheckPasses (markerBytes q kind c e incomplete ++ second) kind.recordKind = true := by
  obtain ⟨-, -, -, -, -, -, check⟩ :=
    slot_fields (slot := markerBytes q kind c e incomplete ++ second) (rest := second) rfl
  have first : (markerBytes q kind c e incomplete ++ second).take 64 = markerBytes q kind c e incomplete :=
    List.take_left' (by simp [markerBytes])
  have cleared := clearCheck_headerBytes q kind.recordKind c incomplete e 0
    (checkWord (headerBytes q kind.recordKind c incomplete e 0 0)) []
  rw [List.append_nil, List.append_nil] at cleared
  cases kind <;>
    simp only [slotCheckPasses, MarkerKind.recordKind, first, check, decide_eq_true_eq, BitVec.ofNat_toNat,
      BitVec.setWidth_eq] <;>
    exact congrArg checkWord cleared

theorem slotImage_preImageBytes (q : Seq) (c : Ctx) (e : Epoch) (l : Line) {image : List Byte}
    (h : image.length = 64) : slotImage (preImageBytes q c e l image) = image := by
  rw [slotImage, preImageBytes, List.drop_left' (by simp), List.take_of_length_le (by omega)]

theorem lineAddress_mod (l : Line) : (lineAddress l).toNat % 64 = 0 := by
  rw [lineAddress_toNat]
  omega

/-- A PRE_IMAGE record reads back for its sequence with every field (R104). -/
theorem acceptSlot_preImageBytes (q : Seq) (c : Ctx) (e : Epoch) (l : Line) {image : List Byte}
    (h : image.length = 64) : acceptSlot (preImageBytes q c e l image) q =
      some { kind := .preImage, ctx := c, epoch := e, line := l, image := image } := by
  have accepted := acceptSlot_of_header (slot := preImageBytes q c e l image) rfl (preImageBytes_check q c e l h)
    fun _ => lineAddress_mod l
  rwa [lineOf_lineAddress, slotImage_preImageBytes q c e l h] at accepted

/-- It passes the seven checks of the rollback (R91). -/
theorem restoreCheckPasses_preImageBytes (q : Seq) (c : Ctx) (e : Epoch) (l : Line) {image : List Byte}
    (h : image.length = 64) : restoreCheckPasses (preImageBytes q c e l image) q c e l = true := by
  obtain ⟨sync, seq, kind, ctx, epoch, address, -⟩ := slot_fields (slot := preImageBytes q c e l image) rfl
  exact decide_eq_true ⟨sync, seq, kind, ctx, epoch, address, preImageBytes_check q c e l h⟩

/-- A marker reads back for its sequence (R104). -/
theorem acceptSlot_markerBytes (q : Seq) (kind : MarkerKind) (c : Ctx) (e : Epoch) (incomplete : Bool)
    (second : List Byte) : ∃ record, acceptSlot (markerBytes q kind c e incomplete ++ second) q = some record ∧
      record.kind = kind.recordKind ∧ record.ctx = c ∧ record.epoch = e :=
  ⟨_, acceptSlot_of_header rfl (markerBytes_check q kind c e incomplete second) (by cases kind <;> exact nofun),
    rfl, rfl, rfl⟩

/-! ## Which slots are accepted (R104) -/

section
variable {slot : List Byte}

/-- The line address of a PRE_IMAGE passes its test exactly when its bytes are those of a line's first byte. -/
theorem slotLineAddress_iff_exists (hlen : slot.length = 128) :
    (slotLineAddress slot % 64 = 0 ∧ slotLineAddress slot < 2 ^ 40) ↔
      ∃ line : Line, bytesAt slot 16 8 = leastFirst 8 (line ++ 0#6).toNat := by
  constructor
  · exact fun h => ⟨_, (slotLineAddress_iff slot hlen).1 h⟩
  · rintro ⟨line, hline⟩
    have fits : (lineAddress line).toNat < 256 ^ 8 := by
      have := (lineAddress line).isLt
      omega
    have address : slotLineAddress slot = (lineAddress line).toNat := (fieldAt_eq_iff (by omega) fits).2 hline
    rw [address]
    exact ⟨lineAddress_mod line, (lineAddress line).isLt⟩

theorem slotCtx_iff (hlen : slot.length = 128) (c : Ctx) :
    fieldAt slot 9 1 = c.val ↔ bytesAt slot 9 1 = [ctxByte c] := by
  have byte : leastFirst 1 c.val = [ctxByte c] := by fin_cases c <;> rfl
  rw [← byte]
  exact fieldAt_eq_iff (by omega) (by omega)

/-- Of the epoch field the low 24 bits are read (log entry 18). -/
theorem slotEpoch_iff (hlen : slot.length = 128) (epoch : Epoch) :
    epoch = slotEpoch slot ↔ bytesAt slot 12 3 = leastFirst 3 epoch.toNat := by
  rw [bytesAt_take (n := 4) (by omega) (by omega) _ epoch.isLt, slotEpoch, eq_comm, ← BitVec.toNat_inj, BitVec.toNat_ofNat]
  rfl

/-- The tests of R104 on the bytes of a slot. -/
theorem acceptSlot_iff_bytes (hlen : slot.length = 128) (q : Seq) (kind : RecordKind) (c : Ctx) (epoch : Epoch) :
    (∃ record, acceptSlot slot q = some record ∧ record.kind = kind ∧ record.ctx = c ∧ record.epoch = epoch) ↔
      bytesAt slot 0 4 = leastFirst 4 0x9E3C57A1 ∧ bytesAt slot 4 4 = leastFirst 4 q.toNat ∧
      bytesAt slot 8 1 = [match kind with | .preImage => 0x01 | .commit => 0x02 | .aborted => 0x03] ∧
      bytesAt slot 9 1 = [ctxByte c] ∧ bytesAt slot 12 3 = leastFirst 3 epoch.toNat ∧
      bytesAt slot 24 4 = leastFirst 4 (checkWord
        (if kind = .preImage then checkCleared slot else (checkCleared slot).take 64)).toNat ∧
      (kind = .preImage → ∃ line : Line, bytesAt slot 16 8 = leastFirst 8 (line ++ 0#6).toNat) := by
  have sync : fieldAt slot 0 4 = recordSync ↔ bytesAt slot 0 4 = leastFirst 4 0x9E3C57A1 :=
    fieldAt_eq_iff (by omega) (by decide)
  have seq : slotSeq slot = q ↔ bytesAt slot 4 4 = leastFirst 4 q.toNat :=
    ofNat_fieldAt_eq_iff q (by omega) (by norm_num)
  refine Iff.trans ?_ (and_congr sync <| and_congr seq <| and_congr (slotKind_iff slot hlen kind) <|
    and_congr (slotCtx_iff hlen c) <| and_congr (slotEpoch_iff hlen epoch) <|
    and_congr (slotCheckPasses_iff slot hlen kind) <| imp_congr_right fun _ => slotLineAddress_iff_exists hlen)
  constructor
  · rintro ⟨record, accepted, rfl, rfl, rfl⟩
    obtain ⟨hkind, hctx, hsync, hcheck, hseq, hline, hepoch, -, -⟩ := (acceptSlot_eq_some_iff slot q record).1 accepted
    exact ⟨hsync, hseq, hkind, hctx, hepoch, hcheck, hline⟩
  · rintro ⟨hsync, hseq, hkind, hctx, hepoch, hcheck, hline⟩
    exact ⟨{ kind := kind, ctx := c, epoch := epoch, line := lineOf (BitVec.ofNat 40 (slotLineAddress slot)),
             image := slotImage slot },
      (acceptSlot_eq_some_iff slot q _).2 ⟨hkind, hctx, hsync, hcheck, hseq, hline, hepoch, rfl, rfl⟩, rfl, rfl, rfl⟩

/-- The line and the image of an accepted PRE_IMAGE are read from their places. -/
theorem acceptSlot_preImage_places (hlen : slot.length = 128) {q : Seq} {record : SlotRecord}
    (h : acceptSlot slot q = some record) (hk : record.kind = .preImage) :
    bytesAt slot 16 8 = leastFirst 8 (record.line ++ 0#6).toNat ∧ record.image = bytesAt slot 64 64 := by
  obtain ⟨-, -, -, -, -, address, -, line, image⟩ := (acceptSlot_eq_some_iff slot q record).1 h
  refine ⟨?_, image⟩
  rw [line]
  exact (slotLineAddress_iff slot hlen).1 (address hk)

end

/-! ## The layouts of records (R183) -/

theorem bytesLsbFirst_one (v : Nat) : bytesLsbFirst 1 v = [BitVec.ofNat 8 v] := by simp [bytesLsbFirst]

/-- A header line is that of R183's table. -/
theorem headerBytes_layout (q : Seq) (k : RecordKind) (c : Ctx) (i : Bool) (e : Epoch) (a : Addr) (w : BitVec 32) :
    headerBytes q k c i e a w =
      slotHeader q (BitVec.ofNat 8 k.code) (ctxByte c) (if i = true then 0x01 else 0x00) e a w := by
  simp only [headerBytes, slotHeader, leastFirst_eq, bytesLsbFirst_one, ctxByte, recordSync, List.append_assoc,
    List.cons_append, List.nil_append]

theorem preImageBytes_layout (q : Seq) (c : Ctx) (e : Epoch) (l : Line) (image : List Byte) :
    preImageBytes q c e l image = slotHeader q 0x01 (ctxByte c) 0 e (l ++ 0#6)
      (checkWord (slotHeader q 0x01 (ctxByte c) 0 e (l ++ 0#6) 0 ++ image)) ++ image := by
  rw [preImageBytes, headerBytes_layout, headerBytes_layout]
  rfl

theorem markerBytes_layout (q : Seq) (kind : MarkerKind) (c : Ctx) (e : Epoch) (incomplete : Bool) {code flags : Byte}
    (hcode : code = BitVec.ofNat 8 kind.recordKind.code) (hflags : flags = if incomplete = true then 0x01 else 0x00) :
    markerBytes q kind c e incomplete =
      slotHeader q code (ctxByte c) flags e 0 (checkWord (slotHeader q code (ctxByte c) flags e 0 0)) := by
  rw [markerBytes, headerBytes_layout, headerBytes_layout, hcode, hflags]

end Sys2Proof.Machine
end

section
/-! The formats of the log read back (R38, R54, R91, R103, R104, R183 to R185): anchor copies, and the whole statement. -/

namespace Sys2Proof.Machine

/-! ## Anchor copies (R52, R184) -/

theorem flatMap_allContexts {α : Type} (f : Ctx → List α) : allContexts.flatMap f = f 0 ++ (f 1 ++ (f 2 ++ f 3)) := by
  simp [allContexts]

/-- A copy is that of R184's table. -/
theorem anchorBytesWith_layout (a : AnchorCopy) (check : BitVec 32) : anchorBytesWith a check = anchorLayout a check := by
  obtain ⟨generation, state, tail, epochs⟩ := a
  simp only [anchorBytesWith, anchorLayout, leastFirst_eq, bytesLsbFirst_one, flatMap_allContexts, List.append_assoc,
    List.cons_append, List.nil_append]
  cases state <;> rfl

theorem anchorBytes_layout (a : AnchorCopy) : anchorBytes a = anchorLayout a (checkWord (anchorLayout a 0)) := by
  rw [anchorBytes, anchorBytesWith_layout, anchorBytesWith_layout]

/-- All that a valid copy says (R54, R103). -/
theorem readAnchorCopy_eq_some_iff (copy : List Byte) (a : AnchorCopy) : readAnchorCopy copy = some a ↔
    fieldAt copy 0 4 = anchorSync ∧
    checkWord (clearCheck 32 (copy.take 64)) = BitVec.ofNat 32 (fieldAt copy 32 4) ∧
    BitVec.ofNat 32 (fieldAt copy 4 4) = a.generation ∧ (a.state = .clean ↔ fieldAt copy 8 1 = 1) ∧
    BitVec.ofNat 32 (fieldAt copy 12 4) = a.tail ∧
    ∀ c : Ctx, BitVec.ofNat 24 (fieldAt copy (16 + 4 * c.val) 4) = a.nextEpochs.get c := by
  have state : (if fieldAt copy 8 1 = 1 then AnchorState.clean else .active) = a.state ↔
      (a.state = .clean ↔ fieldAt copy 8 1 = 1) := by
    split <;> cases a.state <;> simp [*]
  have epochs : (⟨BitVec.ofNat 24 (fieldAt copy 16 4), BitVec.ofNat 24 (fieldAt copy 20 4),
      BitVec.ofNat 24 (fieldAt copy 24 4), BitVec.ofNat 24 (fieldAt copy 28 4)⟩ : Quad Epoch) = a.nextEpochs ↔
      ∀ c : Ctx, BitVec.ofNat 24 (fieldAt copy (16 + 4 * c.val) 4) = a.nextEpochs.get c := by
    refine ⟨fun h c => ?_, fun h => Quad.ext_get fun c => ?_⟩
    · rw [← h]
      fin_cases c <;> rfl
    · rw [← h c]
      fin_cases c <;> rfl
  rw [← state, ← epochs]
  unfold readAnchorCopy
  constructor
  · intro h
    split at h
    · next valid =>
      obtain ⟨sync, check⟩ := valid
      obtain rfl := Option.some.inj h
      exact ⟨sync, check, rfl, rfl, rfl, rfl⟩
    · cases h
  · rintro ⟨sync, check, hgeneration, hstate, htail, hepochs⟩
    rw [if_pos ⟨sync, check⟩, hgeneration, hstate, htail, hepochs]

/-- A copy reads back as it was written. -/
theorem readAnchorCopy_anchorBytes (a : AnchorCopy) : readAnchorCopy (anchorBytes a) = some a := by
  obtain ⟨sync, generation, state, tail, epoch0, epoch1, epoch2, epoch3, check⟩ :=
    anchorBytesWith_fields a (checkWord (anchorBytesWith a 0))
  have whole : (anchorBytesWith a (checkWord (anchorBytesWith a 0))).take 64 =
      anchorBytesWith a (checkWord (anchorBytesWith a 0)) := List.take_of_length_le (by simp)
  have back {w : Nat} (x : BitVec w) : BitVec.ofNat w x.toNat = x := by simp
  refine (readAnchorCopy_eq_some_iff _ a).2 ⟨sync, ?_, ?_, ?_, ?_, fun c => ?_⟩ <;> rw [anchorBytes]
  · rw [whole, clearCheck_anchorBytesWith, check, back]
  · rw [generation, back]
  · rw [state]
    cases a.state <;> simp [AnchorState.code]
  · rw [tail, back]
  · fin_cases c
    · exact (congrArg _ epoch0).trans (back _)
    · exact (congrArg _ epoch1).trans (back _)
    · exact (congrArg _ epoch2).trans (back _)
    · exact (congrArg _ epoch3).trans (back _)

/-- A copy is valid, and says what it says, by its bytes (R54, R103, R184). -/
theorem readAnchorCopy_iff_bytes {copy : List Byte} (hlen : copy.length = 64) (a : AnchorCopy) :
    readAnchorCopy copy = some a ↔
      bytesAt copy 0 4 = leastFirst 4 0x9E3CA157 ∧
      bytesAt copy 32 4 = leastFirst 4 (checkWord (copy.take 32 ++ [0, 0, 0, 0] ++ copy.drop 36)).toNat ∧
      bytesAt copy 4 4 = leastFirst 4 a.generation.toNat ∧ (a.state = .clean ↔ bytesAt copy 8 1 = [0x01]) ∧
      bytesAt copy 12 4 = leastFirst 4 a.tail.toNat ∧
      ∀ c : Ctx, bytesAt copy (16 + 4 * c.val) 3 = leastFirst 3 (a.nextEpochs.get c).toNat := by
  have whole : copy.take 64 = copy := List.take_of_length_le (by omega)
  have sync : fieldAt copy 0 4 = anchorSync ↔ bytesAt copy 0 4 = leastFirst 4 0x9E3CA157 :=
    fieldAt_eq_iff (by omega) (by decide)
  have word {o : Nat} (x : BitVec 32) (h : o + 4 ≤ 64) :
      BitVec.ofNat 32 (fieldAt copy o 4) = x ↔ bytesAt copy o 4 = leastFirst 4 x.toNat :=
    ofNat_fieldAt_eq_iff x (by omega) (by norm_num)
  have clean : fieldAt copy 8 1 = 1 ↔ bytesAt copy 8 1 = [0x01] := fieldAt_eq_iff (by omega) (by decide)
  have epoch (c : Ctx) : BitVec.ofNat 24 (fieldAt copy (16 + 4 * c.val) 4) = a.nextEpochs.get c ↔
      bytesAt copy (16 + 4 * c.val) 3 = leastFirst 3 (a.nextEpochs.get c).toNat := by
    rw [bytesAt_take (n := 4) (by omega) (by omega) _ (a.nextEpochs.get c).isLt, ← BitVec.toNat_inj, BitVec.toNat_ofNat]
    rfl
  rw [readAnchorCopy_eq_some_iff, whole, eq_comm (a := checkWord _)]
  exact and_congr sync <| and_congr (word _ (by omega)) <| and_congr (word _ (by omega)) <|
    and_congr (iff_congr Iff.rfl clean) <| and_congr (word _ (by omega)) <| forall_congr' epoch

/-! ## The current copy (R54) -/

section
variable {low high : List Byte} {a b : AnchorCopy}

/-- The two copies of an anchor slot stand one after the other. -/
theorem copies_append (hl : low.length = 64) (hh : high.length = 64) :
    (low ++ high).take 64 = low ∧ ((low ++ high).drop 64).take 64 = high :=
  ⟨List.take_left' hl, by rw [List.drop_left' hl, List.take_of_length_le (by omega)]⟩

theorem currentAnchor_of_none (hl : low.length = 64) (hh : high.length = 64) :
    (readAnchorCopy low = none → currentAnchor (low ++ high) = readAnchorCopy high) ∧
    (readAnchorCopy high = none → currentAnchor (low ++ high) = readAnchorCopy low) := by
  obtain ⟨first, second⟩ := copies_append hl hh
  unfold currentAnchor
  rw [first, second]
  refine ⟨fun h => ?_, fun h => ?_⟩ <;> rw [h]
  · cases readAnchorCopy high <;> rfl
  · cases readAnchorCopy low <;> rfl

theorem currentAnchor_of_some (hl : low.length = 64) (hh : high.length = 64) (ha : readAnchorCopy low = some a)
    (hb : readAnchorCopy high = some b) :
    currentAnchor (low ++ high) = if copy1Current a.generation b.generation then some b else some a := by
  obtain ⟨first, second⟩ := copies_append hl hh
  unfold currentAnchor
  rw [first, second, ha, hb]

end

/-- A generation that is greater serially makes copy 1 current, an equal or a lesser one leaves copy 0. -/
theorem copy1Current_of_compare (g0 g1 : Seq) :
    (g0 = g1 → copy1Current g0 g1 = false) ∧ (0 < (g1 - g0).toInt → copy1Current g0 g1 = true) ∧
    (0 < (g0 - g1).toInt → copy1Current g0 g1 = false) := by
  have apart : g0 - g1 = -(g1 - g0) := by bv_omega
  unfold copy1Current
  rw [apart]
  refine ⟨fun h => ?_, fun h => ?_, fun h => ?_⟩
  · subst h
    simp
  · have near : (g1 - g0).toNat ≠ 2 ^ 31 := fun he => by
      rw [BitVec.toInt_eq_toNat_cond, he] at h
      norm_num at h
    rw [if_neg near]
    exact decide_eq_true h
  · generalize g1 - g0 = d at h ⊢
    have below : d.toNat ≠ 2 ^ 31 ∧ ¬ 0 < d.toInt := by
      rw [BitVec.toInt_eq_toNat_cond] at h ⊢
      have := d.isLt
      rw [BitVec.toNat_neg] at h
      split at h <;> split <;> omega
    obtain ⟨near, notAbove⟩ := below
    rw [if_neg near]
    exact decide_eq_false notAbove

/-- Of two valid copies the current one, by the difference of their generations. -/
theorem currentAnchor_by_generation {low high : List Byte} {a b : AnchorCopy} (hl : low.length = 64)
    (hh : high.length = 64) (ha : readAnchorCopy low = some a) (hb : readAnchorCopy high = some b) :
    (a.generation = b.generation → currentAnchor (low ++ high) = some a) ∧
    (0 < (b.generation - a.generation).toInt → currentAnchor (low ++ high) = some b) ∧
    (0 < (a.generation - b.generation).toInt → currentAnchor (low ++ high) = some a) := by
  obtain ⟨equal, above, below⟩ := copy1Current_of_compare a.generation b.generation
  rw [currentAnchor_of_some hl hh ha hb]
  refine ⟨fun h => ?_, fun h => ?_, fun h => ?_⟩
  · rw [equal h]
    rfl
  · rw [above h]
    rfl
  · rw [below h]
    rfl

@[simp] theorem length_anchorBytes (a : AnchorCopy) : (anchorBytes a).length = 64 := length_anchorBytesWith _ _

/-- Of two generations written one after the other the later is current, whichever copy holds it (R52, R54). -/
theorem currentAnchor_of_successor {a b : AnchorCopy} (h : b.generation = a.generation + 1) :
    currentAnchor (anchorBytes a ++ anchorBytes b) = some b ∧ currentAnchor (anchorBytes b ++ anchorBytes a) = some b := by
  have next : 0 < (b.generation - a.generation).toInt := by
    have one : b.generation - a.generation = 1 := by
      rw [h]
      bv_omega
    rw [one]
    decide
  obtain ⟨-, later, -⟩ := currentAnchor_by_generation (length_anchorBytes a) (length_anchorBytes b)
    (readAnchorCopy_anchorBytes a) (readAnchorCopy_anchorBytes b)
  obtain ⟨-, -, earlier⟩ := currentAnchor_by_generation (length_anchorBytes b) (length_anchorBytes a)
    (readAnchorCopy_anchorBytes b) (readAnchorCopy_anchorBytes a)
  exact ⟨later next, earlier next⟩

/-- The check value of R185: the nine bytes "123456789". -/
theorem checkWord_of_digits :
    checkWord [0x31, 0x32, 0x33, 0x34, 0x35, 0x36, 0x37, 0x38, 0x39] = 0xE3069283 := by
  decide +kernel

/-- Settles O60: records and markers read back and are told by their bytes, the layouts, then the anchor copies. -/
theorem logFormatsReadBackAsWritten : Obligations.LogFormatsReadBackAsWritten := by
  refine ⟨⟨fun q c e l image h => ⟨acceptSlot_preImageBytes q c e l h, restoreCheckPasses_preImageBytes q c e l h,
      slotImage_preImageBytes q c e l h⟩,
      fun q kind c e incomplete second _ => acceptSlot_markerBytes q kind c e incomplete second⟩,
    fun slot q kind c epoch hlen => ⟨acceptSlot_iff_bytes hlen q kind c epoch,
      fun record => acceptSlot_preImage_places hlen⟩,
    preImageBytes_layout, fun q kind c e incomplete code flags hcode hflags => ?_, anchorBytes_layout, checkWord_of_digits,
    readAnchorCopy_anchorBytes, fun copy a hlen => readAnchorCopy_iff_bytes hlen a, fun low high hl hh => ?_,
    fun a b => currentAnchor_of_successor⟩
  · refine markerBytes_layout q kind c e incomplete (hcode.trans ?_) hflags
    cases kind <;> rfl
  · obtain ⟨onlyHigh, onlyLow⟩ := currentAnchor_of_none hl hh
    refine ⟨onlyHigh, onlyLow, fun a b ha hb => ?_⟩
    obtain ⟨equal, above, below⟩ := currentAnchor_by_generation hl hh ha hb
    refine ⟨equal, above, below, fun _ => ?_⟩
    rw [currentAnchor_of_some hl hh ha hb]
    split
    · exact .inr rfl
    · exact .inl rfl

end Sys2Proof.Machine
end

section
/-! The queues keep their sizes and the tags stay distinct: most moves let nothing join a queue or a table but event records,
which the event block bounds. What lets something join looks for a place or a fresh tag first (R59, R137, R148, R150, R160). -/

namespace Sys2Proof.Machine

/-- `t` holds no more than `s`: no hold entry, forward entry or tag on either port has joined, and the event queue has kept
its bound. -/
structure State.HoldsNoMore (s t : State) : Prop where
  hold : t.hold.length ≤ s.hold.length
  forward : t.downstream.forwardQueue.length ≤ s.downstream.forwardQueue.length
  records : s.events.records.length ≤ 32 → t.events.records.length ≤ 32
  outstanding : (t.downstream.outstanding.map (·.tag)).Sublist (s.downstream.outstanding.map (·.tag))
  tags : (t.upstream.tags.map (·.tag)).Sublist (s.upstream.tags.map (·.tag))

/-- What leaves the queues and tables alone holds no more, whatever it makes of the event records within their bound. -/
theorem State.HoldsNoMore.of_records {s t : State} (h : t.hold = s.hold ∧
    t.downstream.forwardQueue = s.downstream.forwardQueue ∧ t.downstream.outstanding = s.downstream.outstanding ∧
    t.upstream.tags = s.upstream.tags) (he : s.events.records.length ≤ 32 → t.events.records.length ≤ 32) :
    s.HoldsNoMore t := by
  obtain ⟨hh, hf, ho, ht⟩ := h
  exact ⟨by rw [hh], by rw [hf], he, by rw [ho], by rw [ht]⟩

theorem State.HoldsNoMore.of_same {s t : State} (h : t.hold = s.hold ∧
    t.downstream.forwardQueue = s.downstream.forwardQueue ∧ t.downstream.outstanding = s.downstream.outstanding ∧
    t.upstream.tags = s.upstream.tags) (he : t.events.records = s.events.records) : s.HoldsNoMore t :=
  .of_records h fun hs => he ▸ hs

theorem State.HoldsNoMore.refl (s : State) : s.HoldsNoMore s := .of_same ⟨rfl, rfl, rfl, rfl⟩ rfl

theorem State.HoldsNoMore.trans {s t u : State} (h : s.HoldsNoMore t) (k : t.HoldsNoMore u) : s.HoldsNoMore u :=
  ⟨k.hold.trans h.hold, k.forward.trans h.forward, fun hs => k.records (h.records hs),
    k.outstanding.trans h.outstanding, k.tags.trans h.tags⟩

/-- What holds no more than a state with the same queues and tables holds no more than this one. -/
theorem State.HoldsNoMore.after {s t u : State} (k : t.HoldsNoMore u) (h : t.hold = s.hold ∧
    t.downstream.forwardQueue = s.downstream.forwardQueue ∧ t.downstream.outstanding = s.downstream.outstanding ∧
    t.upstream.tags = s.upstream.tags) (he : t.events.records = s.events.records) : s.HoldsNoMore u :=
  (State.HoldsNoMore.of_same h he).trans k

theorem State.HoldsNoMore.foldl {α : Type} {f : State → α → State} (h : ∀ (s : State) x, s.HoldsNoMore (f s x))
    (l : List α) (s : State) : s.HoldsNoMore (l.foldl f s) := by
  induction l generalizing s with
  | nil => exact .refl s
  | cons x rest ih => exact (h s x).trans (ih (f s x))

/-! ## Events, refusals and the log's space -/

/-- The event block drops what has no place (R160, R161). -/
theorem State.raise_holdsNoMore (s : State) (e : Event) : s.HoldsNoMore (s.raise e) :=
  .of_records (by simp) (EventBlock.take_length s.events e)

theorem State.answerUp_holdsNoMore (s : State) (tag : BitVec 6) (result : UpResult) :
    s.HoldsNoMore (s.answerUp tag result) :=
  ⟨by simp, by simp, by simp, by simp, by rw [State.answerUp_upstream]; exact List.filter_sublist.map _⟩

theorem State.refuseRequest_holdsNoMore (s : State) (r : UpRequest) (reason : Reason) :
    s.HoldsNoMore (s.refuseRequest r reason) :=
  (s.answerUp_holdsNoMore r.tag .error).trans (State.raise_holdsNoMore _ _)

theorem State.refuseWhere_holdsNoMore (s : State) (pick : HoldEntry → Bool) (reason : Reason) :
    s.HoldsNoMore (s.refuseWhere pick reason) where
  hold := by rw [State.refuseWhere_hold]; exact List.length_filter_le _ _
  forward := by simp
  records := s.refuseWhere_eventsLength pick reason
  outstanding := by simp
  tags := (s.refuseWhere_tags pick reason).map _

theorem State.lookSpace_holdsNoMore (s : State) : s.HoldsNoMore s.lookSpace := by
  refine .of_records (by simp) fun h => ?_
  unfold State.lookSpace
  (repeat' split)
  case h_1.isFalse.isTrue.isTrue => exact EventBlock.take_length _ _ h
  all_goals exact h

theorem State.lookLow_holdsNoMore (s : State) : s.HoldsNoMore s.lookLow := by
  refine .of_records (by simp) fun h => ?_
  unfold State.lookLow
  split
  · exact EventBlock.take_length _ _ h
  · exact h

theorem State.noteDue_holdsNoMore (s : State) : s.HoldsNoMore s.noteDue := .of_same (by simp) (by simp)

theorem State.setProgress_holdsNoMore (s : State) (c : Ctx) (p : Progress) : s.HoldsNoMore (s.setProgress c p) :=
  .of_same (by simp) (by simp)

/-! ## The epoch engine -/

theorem State.completeCommit_holdsNoMore (s : State) (c : Ctx) : s.HoldsNoMore (s.completeCommit c) :=
  .of_records (by simp) (EventBlock.take_length s.events _)

theorem State.completeAbort_holdsNoMore (s : State) (c : Ctx) : s.HoldsNoMore (s.completeAbort c) :=
  .of_records (by simp) (EventBlock.take_length s.events _)

theorem State.moveCommit_holdsNoMore (s : State) (c : Ctx) : s.HoldsNoMore (s.moveCommit c) := by
  unfold State.moveCommit
  (repeat' split)
  · exact s.completeCommit_holdsNoMore c
  · exact .of_same (by simp) (by simp)
  · exact .refl s
  · exact s.completeCommit_holdsNoMore c
  · exact .refl s
  · exact .refl s

theorem State.moveSettling_holdsNoMore (s : State) (c : Ctx) : s.HoldsNoMore (s.moveSettling c) := by
  refine .of_records (by simp) fun h => ?_
  unfold State.moveSettling
  split
  · unfold State.endSettling
    dsimp only
    split
    · exact (State.completeAbort_holdsNoMore (s.settleFilter c) c).records h
    · exact h
  · exact h

theorem State.moveMarking_holdsNoMore (s : State) (c : Ctx) : s.HoldsNoMore (s.moveMarking c) := by
  unfold State.moveMarking
  split
  · exact s.completeAbort_holdsNoMore c
  · exact .refl s

theorem State.moveEngine_holdsNoMore (s : State) (c : Ctx) : s.HoldsNoMore (s.moveEngine c) := by
  have covering : ∀ u : State, u.HoldsNoMore (u.moveCovering c) := fun u => by
    unfold State.moveCovering
    split
    · exact .of_same (by simp) (by simp)
    · exact .refl u
  have replaying : ∀ u : State, u.HoldsNoMore (u.moveReplaying c) := fun u => by
    unfold State.moveReplaying
    split
    · exact .of_same (by simp) (by simp)
    · exact .refl u
  unfold State.moveEngine
  split
  · exact .refl s
  · exact s.moveCommit_holdsNoMore c
  · exact (((s.moveSettling_holdsNoMore c).trans (covering _)).trans (replaying _)).trans
      (State.moveMarking_holdsNoMore _ c)

theorem State.runEngines_holdsNoMore (s : State) : s.HoldsNoMore s.runEngines := by
  obtain ⟨l, n, _, _, he⟩ := s.runEngines_moves
  rw [he]
  exact (State.HoldsNoMore.foldl State.moveEngine_holdsNoMore l _).after ⟨rfl, rfl, rfl, rfl⟩ rfl

/-! ## Faults, drains and breaks -/

theorem State.failCommit_holdsNoMore (s : State) (c : Ctx) : s.HoldsNoMore (s.failCommit c) :=
  (s.raise_holdsNoMore _).trans (State.setProgress_holdsNoMore _ c _)

theorem State.setContext_holdsNoMore (s : State) (c : Ctx) (r : ContextRecord) : s.HoldsNoMore (s.setContext c r) :=
  .of_same (by simp) (by simp)

theorem State.reportFault_holdsNoMore (s : State) (c : Ctx) (cause : FaultCause) (address : Addr) :
    s.HoldsNoMore (s.reportFault c cause address) := by
  unfold State.reportFault
  split
  · unfold State.applyFault
    dsimp only
    refine State.HoldsNoMore.trans ?_ ((State.noteDue_holdsNoMore _).trans (State.lookSpace_holdsNoMore _))
    have faulted := ((s.setContext_holdsNoMore c ((s.contexts.get c).toFaulted cause)).trans
      (State.refuseWhere_holdsNoMore _ (fun e => e.journaledOf c) .faulted)).trans (State.raise_holdsNoMore _
        (faultEvent c cause (some address) (s.contexts.get c).recordCount))
    split
    · exact faulted.trans (State.failCommit_holdsNoMore _ c)
    · exact faulted
  · exact .refl s

theorem State.enterDrained_holdsNoMore (s : State) (detail : DrainDetail) : s.HoldsNoMore (s.enterDrained detail) :=
  .of_records (by simp) (EventBlock.take_length s.events _)

theorem State.stopIntake_holdsNoMore (s : State) : s.HoldsNoMore s.stopIntake := by
  unfold State.stopIntake
  split
  · exact .of_same ⟨rfl, rfl, rfl, rfl⟩ rfl
  · exact (State.refuseRequest_holdsNoMore _ _ _).after ⟨rfl, rfl, rfl, rfl⟩ rfl

theorem State.withdrawAttach_holdsNoMore (s : State) : s.HoldsNoMore s.withdrawAttach := .of_same (by simp) (by simp)

theorem State.beginDrain_holdsNoMore (s : State) : s.HoldsNoMore s.beginDrain := by
  have refused : ∀ a : AttachEngine,
      s.HoldsNoMore (({ s with attach := a } : State).refuseWhere (fun _ => true) .draining) :=
    fun a => (State.refuseWhere_holdsNoMore _ _ _).after ⟨rfl, rfl, rfl, rfl⟩ rfl
  have halted : ∀ u : State, u.HoldsNoMore u.emptyRequests.stopEngines := fun u => .of_same (by simp) (by simp)
  have stopped : ∀ u : State, u.HoldsNoMore u.stopIntake.noteDue :=
    fun u => u.stopIntake_holdsNoMore.trans (State.noteDue_holdsNoMore _)
  unfold State.beginDrain
  dsimp only
  have begun := (refused { s.attach with
    journal := .draining, drain := { DrainRecord.reset with origin := some s.attach.journal } }).trans (halted _)
  (repeat' split)
  · exact (begun.trans ((State.withdrawAttach_holdsNoMore _).trans (stopped _))).trans
      (State.enterDrained_holdsNoMore _ _)
  · exact (begun.trans (stopped _)).trans (State.enterDrained_holdsNoMore _ _)
  · exact begun.trans ((State.withdrawAttach_holdsNoMore _).trans (stopped _))
  · exact begun.trans (stopped _)

theorem State.drainIfWarned_holdsNoMore (s : State) : s.HoldsNoMore s.drainIfWarned := by
  unfold State.drainIfWarned
  split
  · exact s.beginDrain_holdsNoMore
  · exact .refl s

theorem State.breakContext_holdsNoMore (s : State) (c : Ctx) : s.HoldsNoMore (s.breakContext c) := by
  unfold State.breakContext
  dsimp only
  split
  · have faulted := (s.setContext_holdsNoMore c ((s.contexts.get c).toFaulted .journalBroken)).trans
      (State.raise_holdsNoMore _ (faultEvent c .journalBroken none (s.contexts.get c).recordCount))
    split
    · exact faulted.trans (State.failCommit_holdsNoMore _ c)
    · exact faulted.trans (State.setProgress_holdsNoMore _ c _)
  · exact .refl s

theorem State.breakJournal_holdsNoMore (s : State) (cause : BreakCause) (sequence : Option Seq) :
    s.HoldsNoMore (s.breakJournal cause sequence) := by
  have refused : s.HoldsNoMore ((s.setJournal .broken).refuseWhere (fun e => e.journaled) .broken) :=
    (State.HoldsNoMore.of_same (by simp) (by simp)).trans (State.refuseWhere_holdsNoMore _ _ _)
  have withdrawn : ∀ u : State, u.HoldsNoMore
      { u.emptyRequests with downstream := { u.emptyRequests.downstream with restoreList := [] } } :=
    fun _ => .of_same ⟨rfl, rfl, rfl, rfl⟩ rfl
  have broken := ((refused.trans (withdrawn _)).trans (.foldl State.breakContext_holdsNoMore allContexts _)).trans
    (State.raise_holdsNoMore _ (brokenEvent cause sequence s.breakCount))
  have ended : ∀ u : State, u.HoldsNoMore u.noteDue.drainIfWarned :=
    fun u => u.noteDue_holdsNoMore.trans (State.drainIfWarned_holdsNoMore _)
  unfold State.breakJournal
  dsimp only
  split
  · exact (broken.trans (State.raise_holdsNoMore _ _)).trans (ended _)
  · exact broken.trans (ended _)

theorem State.logError_holdsNoMore (s : State) (cause : BreakCause) (sequence : Option Seq) :
    s.HoldsNoMore (s.logError cause sequence) := by
  unfold State.logError
  (repeat' split)
  · exact s.breakJournal_holdsNoMore cause sequence
  · exact s.raise_holdsNoMore _
  · exact .refl s

/-! ## The attach -/

theorem State.endAttach_holdsNoMore (s : State) (journal : JournalState) (result : AttachResult)
    (sequence : Option Seq) : s.HoldsNoMore (s.endAttach journal result sequence) :=
  ((State.raise_holdsNoMore _ _).trans (State.drainIfWarned_holdsNoMore _)).after ⟨rfl, rfl, rfl, rfl⟩ rfl

theorem State.completeAttach_holdsNoMore (s : State) (result : AttachResult) (head generation : Seq)
    (epochs : Quad Epoch) : s.HoldsNoMore (s.completeAttach result head generation epochs) :=
  (State.endAttach_holdsNoMore _ _ _ _).after ⟨rfl, rfl, rfl, rfl⟩ rfl

theorem State.handSweep_holdsNoMore (s : State) : s.HoldsNoMore s.handSweep := by
  unfold State.handSweep
  dsimp only
  split
  · exact .of_same (by simp) (by simp)
  · exact .refl s

theorem State.endSweep_holdsNoMore (s : State) : s.HoldsNoMore s.endSweep := by
  unfold State.endSweep
  (repeat' split)
  · exact s.endAttach_holdsNoMore _ _ _
  · exact .of_same (by simp) (by simp)
  · exact .refl s

theorem State.startFinal_holdsNoMore (s : State) : s.HoldsNoMore s.startFinal := by
  unfold State.startFinal
  split
  · exact .refl s
  · exact .of_same (by simp) (by simp)

theorem State.setAttach_holdsNoMore (s : State) (p : AttachProgress) : s.HoldsNoMore (s.setAttach p) :=
  .of_same (by simp) (by simp)

theorem State.readSlot_holdsNoMore (s : State) (step : AttachStep) : s.HoldsNoMore (s.readSlot step) :=
  .of_same (by simp [State.readSlot]) (by simp [State.readSlot])

theorem State.stopScan_holdsNoMore (s : State) : s.HoldsNoMore s.stopScan := by
  unfold State.stopScan
  dsimp only
  split
  · exact (s.setAttach_holdsNoMore _).trans (State.readSlot_holdsNoMore _ _)
  · exact (s.setAttach_holdsNoMore _).trans (State.startFinal_holdsNoMore _)

theorem State.nextSequence_holdsNoMore (s : State) : s.HoldsNoMore s.nextSequence := by
  unfold State.nextSequence
  dsimp only
  (repeat' split)
  · exact .refl s
  · exact s.startFinal_holdsNoMore
  · exact (s.setAttach_holdsNoMore _).trans (State.readSlot_holdsNoMore _ _)

theorem State.scanAnswer_holdsNoMore (s : State) (step : AttachStep) (isWrite : Bool) (answer : Answer) :
    s.HoldsNoMore (s.scanAnswer step isWrite answer) := by
  have fail : ∀ r q, s.HoldsNoMore (s.failAttach r q) := fun r q => s.endAttach_holdsNoMore _ r q
  unfold State.scanAnswer
  (repeat' split)
  · unfold State.sweepAnswer
    split
    · exact s.endSweep_holdsNoMore
    · exact (State.endSweep_holdsNoMore _).after ⟨rfl, rfl, rfl, rfl⟩ rfl
  · unfold State.anchorReadAnswer
    (repeat' split)
    · exact fail _ _
    · exact fail _ _
    · exact (s.setAttach_holdsNoMore _).trans (State.startFinal_holdsNoMore _)
    · exact (s.setAttach_holdsNoMore _).trans (State.readSlot_holdsNoMore _ _)
  · unfold State.scanReadAnswer
    dsimp only
    (repeat' split)
    · exact fail _ _
    · exact s.stopScan_holdsNoMore
    · exact (s.setAttach_holdsNoMore _).trans (State.stopScan_holdsNoMore _)
    · exact (s.setAttach_holdsNoMore _).trans (State.readSlot_holdsNoMore _ _)
  · unfold State.replayReadAnswer
    dsimp only
    (repeat' split)
    · exact fail _ _
    · exact fail _ _
    · exact .of_same (by simp) (by simp)
    · exact s.nextSequence_holdsNoMore
  · unfold State.replayWriteAnswer
    dsimp only
    split
    · exact fail _ _
    · exact (s.setAttach_holdsNoMore _).trans (State.nextSequence_holdsNoMore _)
  · exact .refl s
  · exact .refl s

theorem State.attachAnchorAnswer_holdsNoMore (s : State) (answer : Answer) :
    s.HoldsNoMore (s.attachAnchorAnswer answer) := by
  unfold State.attachAnchorAnswer
  (repeat' split)
  · unfold State.attachAnchorDone
    dsimp only
    (repeat' split)
    · exact .of_same (by simp) (by simp)
    · exact (s.setAttach_holdsNoMore _).trans (State.handSweep_holdsNoMore _)
    · exact s.completeAttach_holdsNoMore _ _ _ _
    · exact .refl s
    · exact s.completeAttach_holdsNoMore _ _ _ _
    · exact s.completeAttach_holdsNoMore _ _ _ _
    · exact .refl s
  · unfold State.attachAnchorError
    split <;> exact s.endAttach_holdsNoMore _ _ _
  · exact .refl s

/-! ## The other answers -/

theorem State.straightAnswer_holdsNoMore (s : State) (tag : BitVec 6) (answer : Answer) :
    s.HoldsNoMore (s.straightAnswer tag answer) := by
  unfold State.straightAnswer
  (repeat' split)
  · exact .refl s
  · exact s.answerUp_holdsNoMore _ _
  · exact (s.answerUp_holdsNoMore _ _).trans (State.raise_holdsNoMore _ _)

theorem State.removeForwarded_holdsNoMore (s : State) (tag : BitVec 6) : s.HoldsNoMore (s.removeForwarded tag) :=
  ⟨List.eraseP_sublist.length_le, by simp, by simp, by simp, by simp⟩

theorem State.heldAnswer_holdsNoMore (s : State) (tag : BitVec 6) (answer : Answer) :
    s.HoldsNoMore (s.heldAnswer tag answer) := by
  have removed : ∀ u : State, u.HoldsNoMore (u.removeForwarded tag).noteDue :=
    fun u => (u.removeForwarded_holdsNoMore tag).trans (State.noteDue_holdsNoMore _)
  have reported : ∀ (u : State) e, u.HoldsNoMore (u.reportForwardError e) := fun u e => by
    unfold State.reportForwardError
    (repeat' split)
    · exact .refl u
    · exact u.reportFault_holdsNoMore _ _ _
    · exact .refl u
  unfold State.heldAnswer
  (repeat' split)
  · exact .refl s
  · exact ((s.answerUp_holdsNoMore _ _).trans (removed _)).trans (State.runEngines_holdsNoMore _)
  · exact ((((s.answerUp_holdsNoMore _ _).trans (State.raise_holdsNoMore _ _)).trans (removed _)).trans
      (reported _ _)).trans (State.runEngines_holdsNoMore _)

theorem State.captureAnswer_holdsNoMore (s : State) (ref : CaptureRef) (answer : Answer) :
    s.HoldsNoMore (s.captureAnswer ref answer) := by
  have settled : s.HoldsNoMore (State.removeLine { s with kept := s.kept.erase ref } ref.line) :=
    .of_same ⟨rfl, rfl, rfl, rfl⟩ rfl
  have dropped : s.HoldsNoMore (s.dropItem ref.line) := ⟨by simp [State.dropItem], by simp, by simp, by simp, by simp⟩
  unfold State.captureAnswer
  (repeat' split)
  · exact settled.trans (State.runEngines_holdsNoMore _)
  · unfold State.buildRecord
    refine State.HoldsNoMore.trans ?_ (State.lookSpace_holdsNoMore _)
    exact ⟨by simp, by simp, by simp, by simp, by simp⟩
  · exact (dropped.trans (State.reportFault_holdsNoMore _ _ _ _)).trans (State.runEngines_holdsNoMore _)
  · exact .refl s

theorem State.appendAnswer_holdsNoMore (s : State) (q : Seq) (answer : Answer) :
    s.HoldsNoMore (s.appendAnswer q answer) := by
  unfold State.appendAnswer
  split
  · refine State.HoldsNoMore.trans ?_ (State.runEngines_holdsNoMore _)
    exact ⟨by simp, by simp, by simp, by simp, by simp⟩
  · exact (State.logError_holdsNoMore _ _ _).after ⟨rfl, rfl, rfl, rfl⟩ rfl

theorem State.anchorAnswer_holdsNoMore (s : State) (answer : Answer) : s.HoldsNoMore (s.anchorAnswer answer) := by
  have tail : ∀ (u : State) (q : Option Seq), u.HoldsNoMore (u.moveTail q) := by
    intro u q
    unfold State.moveTail
    split
    · exact .refl u
    · exact (State.lookSpace_holdsNoMore _).after ⟨rfl, rfl, rfl, rfl⟩ rfl
  have done : ∀ u : State, u.HoldsNoMore u.engineAnchorDone := by
    intro u
    unfold State.engineAnchorDone
    (repeat' split)
    · exact ((State.HoldsNoMore.of_same (by simp) (by simp)).trans (State.raise_holdsNoMore _ _)).trans
        (State.drainIfWarned_holdsNoMore _)
    · exact .of_same ⟨rfl, rfl, rfl, rfl⟩ rfl
    · exact .refl u
  have cleared : s.HoldsNoMore { s with log := { s.log with anchor := none } } := .of_same ⟨rfl, rfl, rfl, rfl⟩ rfl
  unfold State.anchorAnswer
  split
  · exact .refl s
  · refine cleared.trans ?_
    dsimp only
    (repeat' split)
    · exact State.attachAnchorAnswer_holdsNoMore _ _
    · exact tail _ _
    · exact (tail _ _).trans (done _)
    · unfold State.anchorError
      dsimp only
      (repeat' split)
      · exact (State.logError_holdsNoMore _ _ _).trans (.of_same ⟨rfl, rfl, rfl, rfl⟩ rfl)
      · exact (State.logError_holdsNoMore _ _ _).trans (.of_same ⟨rfl, rfl, rfl, rfl⟩ rfl)
      · exact State.logError_holdsNoMore _ _ _

theorem State.restoreAnswer_holdsNoMore (s : State) (c : Ctx) (step : ReplayStep) (answer : Answer) :
    s.HoldsNoMore (s.restoreAnswer c step answer) := by
  have skip : ∀ p : Progress, s.HoldsNoMore (s.setProgress c p).runEngines :=
    fun p => (s.setProgress_holdsNoMore c p).trans (State.runEngines_holdsNoMore _)
  unfold State.restoreAnswer
  dsimp only
  (repeat' split)
  · unfold State.restoreReadAnswer
    dsimp only
    (repeat' split)
    · exact .of_same (by simp) (by simp)
    · exact skip _
    · exact skip _
    · exact skip _
  · unfold State.restoreWriteAnswer
    split <;> exact skip _
  · exact s.setProgress_holdsNoMore c _
  · exact .refl s

/-- An answer takes its entry from the outstanding table, and what it lets on adds to no queue (R155). -/
theorem State.takeAnswer_holdsNoMore (s : State) (tag : BitVec 4) (answer : Answer) :
    s.HoldsNoMore (s.takeAnswer tag answer) := by
  have removed : s.HoldsNoMore (s.removeOutstanding tag) :=
    ⟨by simp, by simp, by simp, by rw [State.removeOutstanding_downstream]; exact List.filter_sublist.map _, by simp⟩
  unfold State.takeAnswer
  (repeat' split)
  · exact .refl s
  · exact removed
  · refine removed.trans ?_
    unfold State.routeAnswer
    split
    · exact State.anchorAnswer_holdsNoMore _ _
    · exact State.appendAnswer_holdsNoMore _ _ _
    · exact State.captureAnswer_holdsNoMore _ _ _
    · exact State.straightAnswer_holdsNoMore _ _ _
    · exact State.heldAnswer_holdsNoMore _ _ _
    · exact State.restoreAnswer_holdsNoMore _ _ _ _
    · exact State.scanAnswer_holdsNoMore _ _ _ _

end Sys2Proof.Machine
end
section
/-! The queues at every step: what lets a request, an entry or a transaction join, the host's commands, and the assembly
buffer of the link (R59, R137, R148, R150, R160, R174). -/

namespace Sys2Proof.Machine

/-- The sizes of the queues are in their bounds, and the tags on either port are distinct. -/
def State.sizesOk (s : State) : Prop :=
  s.hold.length ≤ 32 ∧ s.downstream.forwardQueue.length ≤ 16 ∧ s.events.records.length ≤ 32 ∧
  (s.downstream.outstanding.map (·.tag)).Nodup ∧ (s.upstream.tags.map (·.tag)).Nodup

/-- The assembly buffer holds at most 11 bytes, and none outside a frame in progress. -/
def ManagementLink.assemblyOk (m : ManagementLink) : Prop :=
  m.assembly.length ≤ 11 ∧ (m.frame = .none ∨ m.frame = .discarded → m.assembly = [])

theorem State.queuesOk_iff (s : State) : s.queuesOk ↔ s.sizesOk ∧ s.mgmt.assemblyOk := by
  simp only [State.queuesOk, State.sizesOk, ManagementLink.assemblyOk, and_assoc]

theorem State.HoldsNoMore.sizesOk {s t : State} (h : s.HoldsNoMore t) (hs : s.sizesOk) : t.sizesOk := by
  obtain ⟨hold, forward, records, outstanding, tags⟩ := hs
  exact ⟨h.hold.trans hold, h.forward.trans forward, h.records records, h.outstanding.nodup outstanding,
    h.tags.nodup tags⟩

/-- Empty queues and tables are in their bounds. -/
theorem State.sizesOk_of_empty {s : State} (hh : s.hold = []) (hf : s.downstream.forwardQueue = [])
    (he : s.events.records = []) (ho : s.downstream.outstanding = []) (ht : s.upstream.tags = []) : s.sizesOk := by
  simp [State.sizesOk, hh, hf, he, ho, ht]

/-! ## A request on its way (R59, R137, R138, R148) -/

/-- A new place leaves the tags themselves alone. -/
theorem State.setPlace_holdsNoMore (s : State) (tag : BitVec 6) (place : TagPlace) :
    s.HoldsNoMore (s.setPlace tag place) := by
  have same : (s.setPlace tag place).upstream.tags.map (·.tag) = s.upstream.tags.map (·.tag) := by
    rw [State.setPlace_upstream, List.map_map]
    refine List.map_congr_left fun e _ => ?_
    dsimp only [Function.comp_apply]
    split <;> rfl
  exact ⟨by simp, by simp, by simp, by simp, by rw [same]⟩

theorem State.setIntake_holdsNoMore (s : State) (intake : Intake) (head : Option UpRequest) :
    s.HoldsNoMore (s.setIntake intake head) := .of_same (by simp) (by simp)

/-- A request joins the hold queue into a free place. -/
theorem State.joinHold_sizesOk {s : State} (r : UpRequest) (journaled : Bool) (newLines : List Line)
    (room : s.hold.length < 32) (h : s.sizesOk) : (s.joinHold r journaled newLines).sizesOk := by
  refine (State.setPlace_holdsNoMore _ r.tag .held).sizesOk (s := { s with hold := s.hold ++ [_] }) ⟨?_, h.2⟩
  rw [List.length_append]
  exact room

theorem State.enterHold_sizesOk {s : State} (r : UpRequest) (room : s.hold.length < 32) (h : s.sizesOk) :
    (s.enterHold r).sizesOk := by
  unfold State.enterHold
  split
  · unfold State.admitWrite
    split
    · exact (s.refuseRequest_holdsNoMore r _).sizesOk h
    · next c newLines _ =>
      have inserted : s.HoldsNoMore (s.insertLines c newLines) := .of_same (by simp) (by simp)
      exact (State.noteDue_holdsNoMore _).sizesOk
        (State.joinHold_sizesOk r true newLines (by simpa using room) (inserted.sizesOk h))
    · exact State.joinHold_sizesOk r false [] room h
  · exact State.joinHold_sizesOk r false [] room h

/-- A request joins the forward queue into a free place. -/
theorem State.enterForward_sizesOk {s : State} (r : UpRequest) (room : s.downstream.forwardQueue.length < 16)
    (h : s.sizesOk) : (s.enterForward r).sizesOk := by
  obtain ⟨hold, -, rest⟩ := h
  refine (State.setPlace_holdsNoMore _ r.tag .queued).sizesOk (s := { s with downstream := { s.downstream with
    forwardQueue := s.downstream.forwardQueue ++ [_] } }) ⟨hold, ?_, rest⟩
  rw [List.length_append]
  exact room

theorem State.handOn_sizesOk {s : State} (r : UpRequest) (h : s.sizesOk) : (s.handOn r).sizesOk := by
  have taking := (s.setIntake_holdsNoMore .taking none).sizesOk h
  unfold State.handOn
  (repeat' split)
  · exact (State.refuseRequest_holdsNoMore _ r _).sizesOk taking
  · next room => exact State.enterHold_sizesOk r (by simpa using room) taking
  · exact (s.setIntake_holdsNoMore _ _).sizesOk h
  · next room => exact State.enterForward_sizesOk r (by simpa using room) taking
  · exact (s.setIntake_holdsNoMore _ _).sizesOk h

/-- A request taken has a tag that no outstanding one has (R136, R137). -/
theorem State.addTag_sizesOk {s : State} {r : UpRequest} (fresh : s.malformedRequest r = false) (h : s.sizesOk) :
    (s.addTag r).sizesOk := by
  obtain ⟨hold, forward, records, outstanding, tags⟩ := h
  refine ⟨hold, forward, records, outstanding, ?_⟩
  have unused : ∀ e ∈ s.upstream.tags, e.tag ≠ r.tag := by
    simp only [State.malformedRequest, Bool.or_eq_false_iff, State.tagEntry] at fresh
    simpa using fresh.2
  show ((s.upstream.tags ++ [_]).map TagEntry.tag).Nodup
  rw [List.map_append, List.nodup_append]
  refine ⟨tags, by simp, fun t ht u hu => ?_⟩
  obtain ⟨e, he, rfl⟩ := List.mem_map.1 ht
  obtain rfl : u = r.tag := by simpa using hu
  exact unused e he

theorem State.takeFromLink_sizesOk {s : State} (h : s.sizesOk) : s.takeFromLink.sizesOk := by
  unfold State.takeFromLink
  (repeat' split)
  · exact h
  · unfold State.takeRequest
    split
    · exact ((State.HoldsNoMore.of_same (by simp) (by simp)).trans (State.raise_holdsNoMore _ _)).sizesOk h
    · next fresh => exact State.handOn_sizesOk _ (State.addTag_sizesOk (by simpa using fresh) h)
  · exact h

/-! ## The hold queue's and the arbiter's own events (R66, R71, R150, R152) -/

theorem State.release_sizesOk {s : State} (h : s.sizesOk) : s.release.sizesOk := by
  obtain ⟨hold, -, rest⟩ := id h
  unfold State.release
  split
  · next ready =>
    split
    · exact h
    · next e queue found =>
      obtain ⟨before, after, held, left, -⟩ := State.releaseFirst_eq_some found
      dsimp only at held left
      refine (State.noteDue_holdsNoMore _).sizesOk ⟨?_, ?_, rest⟩
      · rw [held] at hold
        simpa [left] using hold
      · show (s.downstream.forwardQueue ++ [_]).length ≤ 16
        rw [List.length_append]
        exact ready.2
  · exact h

theorem State.captureHanded_holdsNoMore (s : State) : s.HoldsNoMore s.captureHanded := by
  unfold State.captureHanded
  (repeat' split)
  · exact .refl s
  · refine State.HoldsNoMore.trans ?_ (State.noteDue_holdsNoMore _)
    exact ⟨by simp, by simp, by simp, by simp, by simp⟩
  · exact .refl s

theorem State.told_holdsNoMore (s : State) (owner : Owner) : s.HoldsNoMore (s.told owner) := by
  unfold State.told
  (repeat' split)
  · exact s.setPlace_holdsNoMore _ _
  · exact ⟨by simp, by simp, by simp, by simp, by simp⟩
  · exact s.handSweep_holdsNoMore
  · exact .refl s
  · exact .refl s

/-- A tag that is free has no entry (R150). -/
theorem DownstreamPort.freeTag_unused {d : DownstreamPort} {tag : BitVec 4} (h : d.freeTag = some tag) :
    ∀ o ∈ d.outstanding, o.tag ≠ tag := by
  simpa using List.find?_some h

/-- A grant adds an entry to the outstanding table, and takes one from the forward queue at most (R152). -/
theorem DownstreamPort.grant_table (d : DownstreamPort) (tag : BitVec 4) (r : Requester) (t : Transaction) :
    (d.grant tag r t).outstanding = d.outstanding ++ [{ tag := tag, owner := t.owner, lines := t.request.lines }] ∧
    (d.grant tag r t).forwardQueue.length ≤ d.forwardQueue.length := by
  cases r
  case forward => exact ⟨rfl, List.tail_sublist _ |>.length_le⟩
  all_goals exact ⟨rfl, le_refl _⟩

theorem State.grant_sizesOk {s : State} (h : s.sizesOk) : s.grant.sizesOk := by
  obtain ⟨hold, forward, records, outstanding, tags⟩ := id h
  unfold State.grant
  (repeat' split)
  · next tag r t free _ =>
    obtain ⟨table, queue⟩ := s.downstream.grant_table tag r t
    refine (State.told_holdsNoMore _ t.owner).sizesOk ⟨hold, queue.trans forward, records, ?_, tags⟩
    show ((s.downstream.grant tag r t).outstanding.map (·.tag)).Nodup
    rw [table, List.map_append, List.nodup_append]
    refine ⟨outstanding, by simp, fun u hu v hv => ?_⟩
    obtain ⟨o, ho, rfl⟩ := List.mem_map.1 hu
    obtain rfl : v = tag := by simpa using hv
    exact DownstreamPort.freeTag_unused free o ho
  · exact h
  · exact h

/-! ## The log writer's and the attach engine's own events -/

theorem State.appendTake_holdsNoMore (s : State) : s.HoldsNoMore s.appendTake := by
  have looked : ∀ u : State, u.HoldsNoMore u.lookLow.lookSpace :=
    fun u => u.lookLow_holdsNoMore.trans (State.lookSpace_holdsNoMore _)
  unfold State.appendTake
  (repeat' split)
  · exact .refl s
  · next c l image _ =>
    have taken : s.HoldsNoMore (s.takePreImage c l image) :=
      ⟨by simp [State.takePreImage], by simp, by simp, by simp, by simp⟩
    exact taken.trans (looked _)
  · exact ((State.HoldsNoMore.of_same (by simp) (by simp)).trans (looked _)).trans (State.runEngines_holdsNoMore _)
  · exact .refl s

theorem State.reclaim_holdsNoMore (s : State) : s.HoldsNoMore s.reclaim := by
  unfold State.reclaim
  split
  · exact .of_same (by simp) (by simp)
  · exact .refl s

theorem State.cleanAnchor_holdsNoMore (s : State) : s.HoldsNoMore s.cleanAnchor := by
  unfold State.cleanAnchor
  split
  · exact .of_same (by simp) (by simp)
  · exact .refl s

theorem State.finalDrainAnchor_holdsNoMore (s : State) : s.HoldsNoMore s.finalDrainAnchor := by
  unfold State.finalDrainAnchor
  split
  · exact .of_same (by simp) (by simp)
  · exact .refl s

theorem State.endDrain_holdsNoMore (s : State) : s.HoldsNoMore s.endDrain := by
  unfold State.endDrain
  (repeat' split)
  · exact s.enterDrained_holdsNoMore _
  · exact s.enterDrained_holdsNoMore _
  · exact .refl s
  · exact .refl s

/-! ## The host's commands -/

/-- SET writes configuration and lets nothing join. -/
theorem State.itemSet_holdsNoMore (s : State) (item : Item) (index : Byte) (v : BitVec 64) :
    s.HoldsNoMore (s.itemSet item index v).1 := by
  have geometry : ∀ ok g, s.HoldsNoMore (s.setGeometry ok g).1 := by
    intro ok g
    unfold State.setGeometry
    (repeat' split) <;> exact .of_same ⟨rfl, rfl, rfl, rfl⟩ rfl
  have region : ∀ e, s.HoldsNoMore (s.writeRegion index e).1 := by
    intro e
    unfold State.writeRegion
    split <;> exact .of_same ⟨rfl, rfl, rfl, rfl⟩ rfl
  cases item
  case region =>
    show s.HoldsNoMore (s.setRegionItem index v).1
    unfold State.setRegionItem
    (repeat' split)
    · exact region _
    · exact .refl s
    · exact .refl s
    · exact region _
  case ringBase | sizeExp | anchorAddr => exact geometry _ _
  case quota | watermark | anchorStep | arbOrder | throttleRestore | throttleScan | eventMask =>
    simp only [State.itemSet, State.setQuotaItem, State.setWatermarkItem, State.setAnchorStepItem, State.setOrderItem,
      State.setThrottleRestoreItem, State.setThrottleScanItem, State.setMaskItem]
    (repeat' split) <;> exact .of_same ⟨rfl, rfl, rfl, rfl⟩ rfl
  case logHead | logTail | logFree | ctxInfo => exact .refl s

theorem State.setCommand_holdsNoMore (s : State) (code index : Byte) (v : BitVec 64) :
    s.HoldsNoMore (s.setCommand code index v).1 := by
  unfold State.setCommand
  (repeat' split)
  case h_2.isFalse.isFalse.isFalse => exact s.itemSet_holdsNoMore _ _ _
  all_goals exact .refl s

theorem State.contextCommand_holdsNoMore (s : State) (b : Byte) (run : State → Ctx → State × Reply)
    (h : ∀ c, s.HoldsNoMore (run s c).1) : s.HoldsNoMore (s.contextCommand b run).1 := by
  unfold State.contextCommand
  (repeat' split)
  · exact .refl s
  · exact .refl s
  · exact h _

theorem State.acceptCommit_holdsNoMore (s : State) (c : Ctx) : s.HoldsNoMore (s.acceptCommit c) :=
  ((s.setContext_holdsNoMore c { s.contexts.get c with state := .committing }).trans
    (State.setProgress_holdsNoMore _ c _)).trans (State.runEngines_holdsNoMore _)

theorem State.acceptAbort_holdsNoMore (s : State) (c : Ctx) : s.HoldsNoMore (s.acceptAbort c) :=
  (((((s.setContext_holdsNoMore c { s.contexts.get c with state := .aborting }).trans
    (State.setProgress_holdsNoMore _ c (.start .abort))).trans
    (State.refuseWhere_holdsNoMore _ (fun e => e.journaledOf c) .aborted)).trans (State.runEngines_holdsNoMore _)).trans
    (State.noteDue_holdsNoMore _)).trans (State.lookSpace_holdsNoMore _)

theorem State.acceptAttach_holdsNoMore (s : State) (mode : AttachMode) : s.HoldsNoMore (s.acceptAttach mode) := by
  unfold State.acceptAttach
  refine (State.drainIfWarned_holdsNoMore _).after ?_ ?_ <;>
    cases mode <;> simp [State.startFormat, State.startResume]

/-- A soft reset empties the table of upstream tags and lets nothing join (R143, R179). -/
theorem State.softResetCommand_holdsNoMore (s : State) : s.HoldsNoMore s.softResetCommand.1 := by
  have answered : s.HoldsNoMore (s.upstream.tags.foldl (fun s e => s.sendResponse e.tag .error) s) :=
    .foldl (fun _ _ => .of_same (by simp) (by simp)) _ _
  have emptied : ∀ u : State, u.HoldsNoMore
      { u with upstream := { u.upstream with intake := .stopped, head := none, tags := [] } } :=
    fun u => ⟨le_refl _, le_refl _, id, List.Sublist.refl _, List.nil_sublist _⟩
  exact (answered.trans (emptied _)).trans (.of_same ⟨rfl, rfl, rfl, rfl⟩ rfl)

theorem runCommand_holdsNoMore (s : State) (c : FrameCommand) : s.HoldsNoMore (runCommand c s).1 := by
  have waits : ∀ run : State → State × Reply, s.HoldsNoMore (run s).1 →
      s.HoldsNoMore (State.unlessWaiting run s).1 := by
    intro run h
    unfold State.unlessWaiting
    split
    · exact .refl s
    · exact h
  cases c with
  | nop | status | clearOverrun => exact .of_same ⟨rfl, rfl, rfl, rfl⟩ rfl
  | get item index =>
    simp only [runCommand, State.getCommand]
    (repeat' split) <;> exact .refl s
  | popEvent =>
    simp only [runCommand, State.popCommand]
    split
    · exact .refl s
    · next e rest records =>
      refine .of_records ⟨rfl, rfl, rfl, rfl⟩ fun h => ?_
      rw [records, List.length_cons] at h
      exact Nat.le_of_succ_le h
  | set item index v => exact s.setCommand_holdsNoMore item index v
  | attach mode =>
    refine waits _ ?_
    unfold State.attachCommand
    (repeat' split)
    case h_2.isFalse.isTrue => exact s.acceptAttach_holdsNoMore _
    all_goals exact .refl s
  | detach =>
    refine waits _ ?_
    unfold State.detachCommand
    (repeat' split)
    · exact .refl s
    · exact (State.drainIfWarned_holdsNoMore _).after (by simp) (by simp)
    · exact .refl s
  | openEpoch b =>
    refine waits _ (s.contextCommand_holdsNoMore b _ fun c => ?_)
    unfold State.openContext
    dsimp only
    split
    · exact s.setContext_holdsNoMore c _
    · exact .refl s
  | commit b =>
    refine waits _ (s.contextCommand_holdsNoMore b _ fun c => ?_)
    unfold State.commitContext
    dsimp only
    split
    case h_2 => exact s.acceptCommit_holdsNoMore c
    all_goals exact .refl s
  | abort b =>
    refine waits _ (s.contextCommand_holdsNoMore b _ fun c => ?_)
    unfold State.abortContext
    dsimp only
    split
    case h_2 | h_5 => exact s.acceptAbort_holdsNoMore c
    all_goals exact .refl s
  | softReset => exact waits _ s.softResetCommand_holdsNoMore

/-- Every move keeps the queues in their bounds and the tags distinct. -/
theorem State.Moves.sizesOk {s t : State} (hs : s.sizesOk) (h : s.Moves t) : t.sizesOk := by
  have warned : ∀ {u : State}, u.sizesOk → u.drainIfWarned.sizesOk :=
    fun hu => (State.drainIfWarned_holdsNoMore _).sizesOk hu
  cases h with
  | link m o => exact hs
  | command c m o => exact (runCommand_holdsNoMore s c).sizesOk hs
  | powerOn => exact State.sizesOk_of_empty rfl rfl rfl rfl rfl
  | releaseReset =>
    unfold State.releaseReset
    split
    · exact warned hs
    · exact hs
  | assertPfail => exact warned hs
  | deassertPfail => exact hs
  | volatileReset =>
    unfold State.volatileReset
    split
    · exact warned (State.sizesOk_of_empty rfl rfl rfl rfl rfl)
    · exact hs
  | request arrival => exact State.takeFromLink_sizesOk hs
  | reclassify =>
    unfold State.reclassify
    (repeat' split)
    · exact hs
    · exact State.handOn_sizesOk _ hs
    · exact hs
  | release => exact State.release_sizesOk hs
  | captureHanded => exact s.captureHanded_holdsNoMore.sizesOk hs
  | grant => exact State.grant_sizesOk hs
  | answer tag a => exact (s.takeAnswer_holdsNoMore tag a).sizesOk hs
  | appendTake => exact s.appendTake_holdsNoMore.sizesOk hs
  | reclaim => exact s.reclaim_holdsNoMore.sizesOk hs
  | cleanAnchor => exact s.cleanAnchor_holdsNoMore.sizesOk hs
  | finalDrainAnchor => exact s.finalDrainAnchor_holdsNoMore.sizesOk hs
  | endDrain => exact s.endDrain_holdsNoMore.sizesOk hs

/-! ## The assembly buffer (R170, R174) -/

/-- A frame that ends leaves the assembly buffer empty. -/
theorem State.frame_assemblyOk (s : State) (bytes : List Byte) (run : State → State × Reply) :
    (s.frame bytes run).mgmt.assemblyOk := by
  have empty : (s.frame bytes run).mgmt.assembly = [] := by
    unfold State.frame
    split <;> rfl
  exact ⟨by simp [empty], fun _ => empty⟩

/-- A frame that goes on keeps its first 11 bytes, and none where it is discarded. -/
theorem State.beginFrame_assemblyOk (s : State) (bytes : List Byte) : (s.beginFrame bytes).mgmt.assemblyOk := by
  unfold State.beginFrame State.shift ManagementLink.assemblyOk
  dsimp only
  split
  · simp
  · simp

theorem State.grant_mgmt (s : State) : s.grant.mgmt = s.mgmt := by
  have told : ∀ (u : State) o, (u.told o).mgmt = u.mgmt := by
    intro u o
    unfold State.told
    (repeat' split)
    · simp
    · simp
    · exact u.handSweep_keeps.mgmt
    · rfl
    · rfl
  unfold State.grant
  (repeat' split)
  · exact told _ _
  · rfl
  · rfl

theorem State.takeFromLink_mgmt (s : State) : s.takeFromLink.mgmt = s.mgmt := by
  unfold State.takeFromLink
  (repeat' split)
  · rfl
  · unfold State.takeRequest
    split
    · rfl
    · exact (State.handOn_keeps _ _).mgmt
  · rfl

/-- The volatile reset ends the soft reset's wait and leaves the frame alone (R174, R181). -/
theorem State.volatileReset_assemblyOk {s : State} (h : s.mgmt.assemblyOk) : s.volatileReset.mgmt.assemblyOk := by
  unfold State.volatileReset
  split
  · rw [State.drainIfWarned_frame _ |>.2.2.2.1]
    exact h
  · exact h

/-- No row leaves a byte in the assembly buffer but that of a frame that goes on. -/
theorem exec_assemblyOk {i : Instr} {s t : State} (hs : s.mgmt.assemblyOk) (h : exec i s = .next t) :
    t.mgmt.assemblyOk := by
  have same : ∀ {u : State}, u.mgmt = s.mgmt → u.mgmt.assemblyOk := fun e => e ▸ hs
  cases i
  case malformedFrame part =>
    cases part <;> obtain rfl := Host.Outcome.next.inj h
    · exact s.frame_assemblyOk _ _
    · exact s.beginFrame_assemblyOk _
  all_goals obtain rfl := Host.Outcome.next.inj h
  case powerOnReset => exact ⟨Nat.zero_le _, fun _ => rfl⟩
  case rstRelease =>
    unfold State.releaseReset
    split
    · exact same (by simp)
    · exact hs
  case pfailAsserted => exact same (by simp [State.assertPfail])
  case pfailDeasserted => exact hs
  case volatileReset => exact State.volatileReset_assemblyOk hs
  case upstreamRequest arrival => exact same ((State.takeFromLink_mgmt _).trans (by simp))
  case headReclassified => exact same s.reclassify_keeps.mgmt
  case release => exact same s.release_keeps.mgmt
  case captureReadHanded => exact same s.captureHanded_keeps.mgmt
  case grant => exact same s.grant_mgmt
  case appendTake => exact same s.appendTake_keeps.mgmt
  case reclamationAnchorWrite => exact same s.reclaim_keeps.mgmt
  case cleanAnchorWrite => exact same s.cleanAnchor_keeps.mgmt
  case finalDrainAnchorWrite => exact same s.finalDrainAnchor_keeps.mgmt
  case drained => exact same s.endDrain_keeps.mgmt
  case straightAnswer | forwardedEntryAnswer | captureReadAnswer | appendAnswer | anchorWriteAnswer | restoreReadAnswer |
      restoreWriteAnswer | scanReadAnswer | scanWriteAnswer | strayAnswer => exact same (s.takeAnswer_keeps _ _).mgmt
  all_goals exact s.frame_assemblyOk _ _

theorem step_assemblyOk {s t : State} (hs : s.mgmt.assemblyOk) (h : step s = .next t) : t.mgmt.assemblyOk := by
  unfold step at h
  split at h
  · obtain rfl := Host.Outcome.next.inj h
    exact hs
  · next rest _ => exact exec_assemblyOk (s := { s with pending := rest }) hs h

/-- Settles O4: the sizes and tags are kept by every move, the assembly buffer by every row. -/
theorem stepKeepsTheQueueSizes : Obligations.StepKeepsTheQueueSizes := by
  intro s t hs h
  obtain ⟨sizes, assembly⟩ := s.queuesOk_iff.1 hs
  exact t.queuesOk_iff.2 ⟨step_invariant (P := State.sizesOk) (fun _ _ hq => hq) (fun _ _ hq => State.Moves.sizesOk hq)
    sizes h, step_assemblyOk assembly h⟩

end Sys2Proof.Machine
end

section
/-! A head handed on: refused, queued, held or waiting (R62 to R64, R128, R136 to R139), as a request just taken and as one
that has waited. -/

namespace Sys2Proof.Machine

/-! ## What the head needs (R64, R138) -/

theorem State.need_of_refusesKind {s : State} {r : UpRequest} {reason : Reason} (h : s.refusesKind r reason) :
    s.need r = .refusal reason := by
  rcases h with ⟨kind, rfl⟩ | ⟨write, kind, rfl⟩ | ⟨write, kind, rfl⟩ | ⟨read, ⟨n, kind⟩, attaching, rfl⟩
  · simp [State.need, kind]
  · simp [State.need, kind, write]
  · simp [State.need, kind, write]
  · simp [State.need, kind, read, attaching]

theorem State.readMustWait_iff_mustWait (s : State) (r : UpRequest) : s.readMustWait r.lines = true ↔ s.mustWait r :=
  s.readMustWait_iff r.lines

/-- A read that is not refused needs the place its wait decides (R64). -/
theorem State.need_of_read {s : State} {r : UpRequest} {k : LineKind} (kind : s.requestKind r = some k)
    (read : r.isWrite = false) (taken : (∃ n, k = .journal n) → s.attach.journal ≠ .attaching) :
    s.need r = if s.readMustWait r.lines then .holdPlace else .forwardPlace := by
  rw [State.need, kind, read]
  cases k with
  | journal n =>
    have away := taken ⟨n, rfl⟩
    cases hj : s.attach.journal
    case attaching => exact absurd hj away
    all_goals rfl
  | pass | guard | log => rfl

theorem State.need_of_goesStraight {s : State} {r : UpRequest} (h : s.goesStraight r) : s.need r = .forwardPlace := by
  obtain ⟨k, kind, ⟨write, rfl⟩ | ⟨read, free, taken⟩⟩ := h
  · simp [State.need, kind, write]
  · rw [State.need_of_read kind read taken, if_neg (mt (s.readMustWait_iff_mustWait r).1 free)]

theorem State.need_of_readWaits {s : State} {r : UpRequest} (h : s.readWaits r) : s.need r = .holdPlace := by
  obtain ⟨k, kind, read, waits, taken⟩ := h
  rw [State.need_of_read kind read taken, if_pos ((s.readMustWait_iff_mustWait r).2 waits)]

theorem State.need_of_journal {s : State} {r : UpRequest} {n : Fin 16} (write : r.isWrite = true)
    (kind : s.requestKind r = some (.journal n)) : s.need r = .holdPlace := by
  simp [State.need, kind, write]

/-! ## What admission decides (R62) -/

theorem State.anyHitOwn_iff (s : State) (r : UpRequest) :
    (r.lines.any fun l => s.lineOutcome r.journalTag l == .hitOwn) = true ↔ s.hitsOwn r := by
  have own : ∀ l, s.lineOutcome r.journalTag l = .hitOwn ↔
      ∃ f, s.filterEntry l = some f ∧ r.journalTag = some f.owner := by
    intro l
    unfold State.lineOutcome
    cases s.filterEntry l with
    | none => simp
    | some f => by_cases same : r.journalTag = some f.owner <;> simp [same]
  simp [State.hitsOwn, own]

/-- Step 1 of R62: the journal state. -/
theorem State.admission_of_reason {s : State} {reason : Reason} (r : UpRequest) (region : RegionEntry)
    (h : s.attach.journal.admissionReason = some reason) : s.admission r region = .refuse reason := by
  rw [State.admission, h]

/-- Step 2 of R62: a line of another context. -/
theorem State.admission_of_hitsOther {s : State} {r : UpRequest} (region : RegionEntry)
    (hj : s.attach.journal = .attached) (h : s.hitsOther r) : s.admission r region = .refuse .conflict := by
  rw [State.admission, hj]
  exact if_pos ((s.anyHitOther_iff r).2 h)

/-- Step 3 of R62: a FAULTED context. -/
theorem State.admission_of_faulted {s : State} {r : UpRequest} {c : Ctx} (region : RegionEntry)
    (hj : s.attach.journal = .attached) (hn : ¬ s.hitsOther r) (htag : r.journalTag = some c)
    (hf : (s.contexts.get c).state = .faulted) : s.admission r region = .refuse .faulted := by
  have clear := mt (s.anyHitOther_iff r).1 hn
  rw [State.admission, hj]
  dsimp only [JournalState.admissionReason]
  rw [if_neg clear, htag]
  dsimp only
  rw [hf]

/-- Steps 4 and 5 of R62: a write of an OPEN context. -/
theorem State.admission_of_opened {s : State} {r : UpRequest} {c : Ctx} (region : RegionEntry)
    (hj : s.attach.journal = .attached) (hn : ¬ s.hitsOther r) (htag : r.journalTag = some c)
    (ho : (s.contexts.get c).state = .opened) : s.admission r region =
      if region.mask.getLsbD c.val = false then .refuse .notPermitted
      else if s.quotaTest c (s.misses r).length = true then .journaled c (s.misses r)
      else .refuse .filterFull := by
  have clear := mt (s.anyHitOther_iff r).1 hn
  rw [State.admission, hj]
  dsimp only [JournalState.admissionReason]
  rw [if_neg clear, htag]
  dsimp only
  rw [ho, State.missingLines_eq]
  cases region.mask.getLsbD c.val <;> rfl

/-- Step 6 of R62: an untagged write, or one of a context that is neither OPEN nor FAULTED. -/
theorem State.admission_of_closed {s : State} {r : UpRequest} (region : RegionEntry)
    (hj : s.attach.journal = .attached) (hn : ¬ s.hitsOther r)
    (hc : ∀ c, r.journalTag = some c → (s.contexts.get c).state ≠ .faulted ∧ (s.contexts.get c).state ≠ .opened) :
    s.admission r region =
      closedDecision (r.lines.any fun l => s.lineOutcome r.journalTag l == .hitOwn) region.closed := by
  have clear := mt (s.anyHitOther_iff r).1 hn
  rw [State.admission, hj]
  dsimp only [JournalState.admissionReason]
  rw [if_neg clear]
  cases htag : r.journalTag with
  | none => rfl
  | some c =>
    obtain ⟨sound, shut⟩ := hc c htag
    dsimp only
    cases hs : (s.contexts.get c).state
    case faulted => exact absurd hs sound
    case opened => exact absurd hs shut
    all_goals rfl

/-- Admission refuses for the first reason of R62 that holds. -/
theorem State.admission_of_refuses {s : State} {r : UpRequest} {n : Fin 16} {reason : Reason}
    (h : s.refusesAdmission r n reason) : s.admission r (s.regions.get n) = .refuse reason := by
  rcases h with ⟨hj, rfl⟩ | ⟨hj, rfl⟩ | ⟨hj | hj, rfl⟩ | ⟨hj, other, rfl⟩ | ⟨hj, clear, c, htag, refused⟩ |
    ⟨hj, clear, shut, owns, rfl⟩
  · exact State.admission_of_reason r _ (by rw [hj]; rfl)
  · exact State.admission_of_reason r _ (by rw [hj]; rfl)
  · exact State.admission_of_reason r _ (by rw [hj]; rfl)
  · exact State.admission_of_reason r _ (by rw [hj]; rfl)
  · exact State.admission_of_hitsOther _ hj other
  · rcases refused with ⟨hf, rfl⟩ | ⟨ho, masked, rfl⟩ | ⟨ho, permitted, full, rfl⟩
    · exact State.admission_of_faulted _ hj clear htag hf
    · rw [State.admission_of_opened _ hj clear htag ho, if_pos masked]
    · have fails : ¬ s.quotaTest c (s.misses r).length = true := mt (s.quotaTest_iff c _).1 full
      rw [State.admission_of_opened _ hj clear htag ho, if_neg (by simp [permitted]), if_neg fails]
  · rw [State.admission_of_closed _ hj clear shut]
    rcases owns with own | refuse
    · rw [(s.anyHitOwn_iff r).2 own]
      rfl
    · rw [refuse]
      unfold closedDecision
      split <;> rfl

/-- A write that meets no owned line, of a context that is not OPEN or of none, under the closed action FORWARD (R62). -/
theorem State.admission_of_forward {s : State} {r : UpRequest} {region : RegionEntry}
    (hj : s.attach.journal = .attached) (hn : ¬ s.hitsOther r) (ho : ¬ s.hitsOwn r) (hf : region.closed = .forward)
    (hc : ∀ c, r.journalTag = some c → (s.contexts.get c).state ≠ .faulted ∧ (s.contexts.get c).state ≠ .opened) :
    s.admission r region = .unjournaled := by
  have unowned := Bool.eq_false_iff.2 (mt (s.anyHitOwn_iff r).1 ho)
  rw [State.admission_of_closed _ hj hn hc, unowned, hf]
  rfl

/-! ## What becomes of the head (R132, R138, R139) -/

/-- The head has been answered: the intake is TAKING and the tag is free (R137, R138). -/
def State.headAnswered (s : State) (r : UpRequest) : State :=
  { s with upstream := { s.upstream with
      intake := .taking, head := none, tags := s.upstream.tags.filter fun e => e.tag ≠ r.tag } }

theorem State.handOn_refusal {s : State} {r : UpRequest} {reason : Reason} (h : s.need r = .refusal reason) :
    s.handOn r = (s.headAnswered r).refused r reason := by
  rw [State.handOn, h]
  rfl

theorem State.handOn_admissionRefusal {s : State} {r : UpRequest} {n : Fin 16} {reason : Reason}
    (hw : s.journalWrite r n) (h : s.refusesAdmission r n reason) :
    s.handOn r = (s.headAnswered r).refused r reason := by
  have refuses : (s.setIntake .taking none).admission r (s.regions.get n) = .refuse reason :=
    State.admission_of_refuses h
  rw [State.handOn_journalWrite hw, State.admitWrite, refuses]
  rfl

/-- A head with a free forward place joins the forward queue as it came, with no journal tag (R128, R138, R148). -/
theorem State.handOn_straight {s : State} {r : UpRequest} {q : DownRequest} (h : s.goesStraight r)
    (room : s.downstream.forwardQueue.length < 16) (hq : r.forwardRequest = q) : s.handOn r =
      { s with
        upstream := s.headLeaves r .queued
        downstream := { s.downstream with
          forwardQueue := s.downstream.forwardQueue ++ [{ request := q, owner := .forward r.tag .straight }] } } := by
  rw [← hq, State.handOn, State.need_of_goesStraight h]
  exact if_pos room

theorem State.handOn_waitForward {s : State} {r : UpRequest} (h : s.goesStraight r)
    (full : s.downstream.forwardQueue.length = 16) : s.handOn r = s.setIntake .waitForward (some r) := by
  rw [State.handOn, State.need_of_goesStraight h]
  exact if_neg (by omega)

theorem State.handOn_waitHold {s : State} {r : UpRequest} (h : s.need r = .holdPlace) (full : s.hold.length = 32) :
    s.handOn r = s.setIntake .waitHold (some r) := by
  rw [State.handOn, h]
  exact if_neg (by omega)

/-- The head takes a hold place unjournaled: the filter is left alone (R59, R64). -/
def State.headHeld (s : State) (r : UpRequest) : State :=
  { s with
    upstream := s.headLeaves r .held
    hold := s.hold ++ [{ request := r, journaled := false, items := [], released := false }] }

theorem State.handOn_readHeld {s : State} {r : UpRequest} (h : s.readWaits r) (room : s.hold.length < 32) :
    s.handOn r = s.headHeld r := by
  obtain ⟨k, -, read, -⟩ := id h
  have waits : ∀ u : State, u.enterHold r = u.joinHold r false [] := fun u => by
    rw [State.enterHold, read]
    split
    · contradiction
    · rfl
  rw [State.handOn, State.need_of_readWaits h]
  exact (if_pos room).trans (waits _)

theorem State.handOn_unjournaled {s : State} {r : UpRequest} {n : Fin 16} (hw : s.journalWrite r n)
    (h : s.admission r (s.regions.get n) = .unjournaled) : s.handOn r = s.headHeld r := by
  have admits : (s.setIntake .taking none).admission r (s.regions.get n) = .unjournaled := h
  rw [State.handOn_journalWrite hw, State.admitWrite, admits]
  rfl

/-! ## A request just taken (R135 to R137) -/

/-- The head of a request just taken that is answered leaves the intake and the tags as they were. -/
theorem State.taken_headAnswered {s : State} {arrival : Option UpRequest} {r : UpRequest} {rest : List UpRequest}
    (ht : s.takesNext arrival r rest) (hf : s.passesForm r) :
    ((s.linkLeft rest).addTag r).headAnswered r = s.linkLeft rest := by
  obtain ⟨-, taking, empty, -⟩ := ht
  obtain ⟨-, -, -, fresh⟩ := hf
  have tags : (s.upstream.tags ++ [r.tagEntry .head]).filter (fun e => e.tag ≠ r.tag) = s.upstream.tags := by
    rw [List.filter_append, List.filter_eq_self.2 (by simpa using fresh)]
    simp [UpRequest.tagEntry]
  have port : (((s.linkLeft rest).addTag r).headAnswered r).upstream =
      { intake := .taking, head := none, tags := s.upstream.tags, link := rest } :=
    congrArg (fun tags => ({ intake := .taking, head := none, tags := tags, link := rest } : UpstreamPort)) tags
  rw [← taking, ← empty] at port
  exact congrArg (fun port => { s with upstream := port }) port

/-- The head of a request just taken that leaves adds its tag at its place to those outstanding. -/
theorem State.taken_headLeaves {s : State} {arrival : Option UpRequest} {r : UpRequest} {rest : List UpRequest}
    (ht : s.takesNext arrival r rest) (hf : s.passesForm r) (place : TagPlace) :
    ((s.linkLeft rest).addTag r).headLeaves r place =
      { s.upstream with link := rest, tags := s.upstream.tags ++ [r.tagEntry place] } := by
  obtain ⟨-, taking, empty, -⟩ := ht
  obtain ⟨-, -, -, fresh⟩ := hf
  rw [State.headLeaves, ← taking, ← empty, ← UpRequest.tagEntry_placed fresh .head place]
  rfl

/-- Settles O32: the request becomes the head, which goes straight on. -/
theorem straightRequestJoinsTheForwardQueue : Obligations.StraightRequestJoinsTheForwardQueue := by
  intro s arrival r rest k ht hf kind straight room
  have goes : ((s.linkLeft rest).addTag r).goesStraight r := ⟨k, kind, straight⟩
  have handed := State.handOn_straight goes room (UpRequest.forwardRequest_eq r)
  rw [State.taken_headLeaves ht hf] at handed
  exact (exec_upstreamRequest ht hf).trans (congrArg Host.Outcome.next handed)

/-- Settles O36: the request becomes the head, which admission refuses. -/
theorem admissionRefusesInOrder : Obligations.AdmissionRefusesInOrder := by
  intro s arrival r rest n reason ht hf hw refuses
  rw [exec_upstreamRequest ht hf, State.handOn_admissionRefusal (s := (s.linkLeft rest).addTag r) hw refuses,
    State.taken_headAnswered ht hf]

/-- Settles O37: the request becomes the head, which takes a hold place unjournaled. -/
theorem unjournaledRequestIsHeld : Obligations.UnjournaledRequestIsHeld := by
  intro s arrival r rest k ht hf kind room held
  have takes : ((s.linkLeft rest).addTag r).handOn r = ((s.linkLeft rest).addTag r).headHeld r := by
    rcases held with ⟨n, write, rfl, hj, clear, unowned, forward, shut⟩ | ⟨read, waits, taken⟩
    · exact State.handOn_unjournaled (s := (s.linkLeft rest).addTag r) ⟨write, kind, room⟩
        (State.admission_of_forward (s := (s.linkLeft rest).addTag r) hj clear unowned forward shut)
    · exact State.handOn_readHeld ⟨k, kind, read, waits, taken⟩ room
  rw [exec_upstreamRequest ht hf, takes, State.headHeld, State.taken_headLeaves ht hf]
  rfl

/-! ## A head that has waited (R139) -/

theorem State.reclassify_of_waiting {s : State} {r : UpRequest} (hs : s.working) (hr : s.upstream.head = some r)
    (hw : s.upstream.intake = .waitHold ∨ s.upstream.intake = .waitForward) : s.reclassify = s.handOn r := by
  rw [State.reclassify, hr]
  exact if_pos ⟨s.live_iff_working.2 hs, hw⟩

theorem State.reclassify_of_none {s : State} (h : ¬ s.working ∨ s.upstream.head = none ∨
    (s.upstream.intake ≠ .waitHold ∧ s.upstream.intake ≠ .waitForward)) : s.reclassify = s := by
  unfold State.reclassify
  split
  · rfl
  · next r hr =>
    refine if_neg ?_
    rintro ⟨live, waits⟩
    rcases h with idle | empty | ⟨away, straight⟩
    · exact idle (s.live_iff_working.1 live)
    · rw [empty] at hr
      cases hr
    · exact waits.elim away straight

/-- A head that goes on waiting has its intake's state changed at most. -/
theorem State.setIntake_head {s : State} {r : UpRequest} (hr : s.upstream.head = some r) (intake : Intake) :
    s.setIntake intake (some r) = { s with upstream := { s.upstream with intake := intake } } := by
  rw [State.setIntake, ← hr]

/-- Settles O34: a waiting head is handed on as any head is. -/
theorem waitingHeadIsClassifiedAfresh : Obligations.WaitingHeadIsClassifiedAfresh := by
  refine ⟨fun s h => congrArg Host.Outcome.next (State.reclassify_of_none h), fun s r hs hr hw => ?_⟩
  have handed : exec .headReclassified s = .next (s.handOn r) :=
    congrArg Host.Outcome.next (State.reclassify_of_waiting hs hr hw)
  rw [handed]
  refine ⟨rfl, fun reason refused => congrArg Host.Outcome.next ?_, fun straight => ⟨fun room => ?_, fun full => ?_⟩,
    fun needs full => ?_, fun held => congrArg Host.Outcome.next ?_, fun n c write hj htag ho clear permitted quota => ?_⟩
  · rcases refused with kind | ⟨n, write, refuses⟩
    · exact State.handOn_refusal (State.need_of_refusesKind kind)
    · exact State.handOn_admissionRefusal write refuses
  · exact congrArg Host.Outcome.next (State.handOn_straight straight room (UpRequest.forwardRequest_eq r))
  · rw [State.handOn_waitForward straight full, State.setIntake_head hr]
  · have place : s.need r = .holdPlace := by
      rcases needs with waits | ⟨write, n, kind⟩
      · exact State.need_of_readWaits waits
      · exact State.need_of_journal write kind
    rw [State.handOn_waitHold place full, State.setIntake_head hr]
  · rcases held with ⟨waits, room⟩ | ⟨n, write, hj, clear, unowned, forward, shut⟩
    · exact State.handOn_readHeld waits room
    · exact State.handOn_unjournaled write (State.admission_of_forward hj clear unowned forward shut)
  · exact ⟨_, rfl, State.handOn_journaled write (State.admission_of_open hj htag ho clear permitted quota)⟩

end Sys2Proof.Machine
end

section
/-! RELEASE of the oldest READY entry, and which pre-image read CAPTURE_READ_HANDED hands (R60, R61, R66, R70, R71). -/

namespace Sys2Proof.Machine

/-! ## RELEASE (R70, R71) -/

/-- Without a free forward place or a READY entry nothing is released. -/
theorem State.release_of_none {s : State} (h : 16 ≤ s.downstream.forwardQueue.length ∨
    ∀ before e after, s.hold = before ++ e :: after → ¬ s.isReady before e) : s.release = s := by
  unfold State.release
  split
  · next ready =>
    split
    · rfl
    · next e hold found =>
      obtain ⟨before, after, held, -, state⟩ := State.releaseFirst_eq_some found
      rcases h with full | none
      · exact absurd ready.2 (Nat.not_lt.2 full)
      · exact absurd ((s.isReady_iff before e).1 state) (none before e after held)
  · rfl

/-- The oldest READY entry is released, and its request joins the forward queue. -/
theorem State.release_of_first {s : State} {before after : List HoldEntry} {e : HoldEntry} (hs : s.working)
    (room : s.downstream.forwardQueue.length < 16) (held : s.hold = before ++ e :: after)
    (older : ∀ early x late, before = early ++ x :: late → ¬ s.isReady early x) (ready : s.isReady before e) :
    s.release =
      (State.forwardHeld { s with hold := before ++ { e with released := true } :: after } e.request).noteDue := by
  have found : s.releaseFirst [] s.hold = some (e, before ++ { e with released := true } :: after) := by
    rw [held]
    refine s.releaseFirst_append [] before after e (fun early x late split state => ?_) ((s.isReady_iff before e).2 ready)
    exact older early x late split ((s.isReady_iff early x).1 state)
  rw [State.release, if_pos ⟨s.live_iff_working.2 hs, room⟩, found]

/-- An unreleased entry that nothing blocks and whose items are all COVERED is READY (R60, R61, R70). -/
theorem State.isReady_of_covered {s : State} {before : List HoldEntry} {e : HoldEntry} (unreleased : e.released = false)
    (free : ∀ x ∈ before, x.released = true ∨ ∀ l ∈ x.lines, l ∉ e.lines)
    (read : e.request.isWrite = false → ∀ l ∈ e.lines, ∀ f, s.filterEntry l = some f →
      (s.contexts.get f.owner).state ≠ .aborting)
    (covered : ∀ i ∈ e.items, ∃ q, i.stage = .covered q) : s.isReady before e := by
  refine ⟨unreleased, ?_, covered⟩
  rintro ⟨-, ⟨x, hx, held, l, hl, shared⟩ | ⟨isRead, l, hl, f, hf, aborting⟩⟩
  · rcases free x hx with released | apart
    · rw [released] at held
      cases held
    · exact apart l hl shared
  · exact read isRead l hl f hf aborting

/-- Settles O39: the search of RELEASE finds the oldest READY entry, or none. -/
theorem releaseForwardsTheOldestReady : Obligations.ReleaseForwardsTheOldestReady := by
  refine ⟨fun s h => congrArg Host.Outcome.next (State.release_of_none h),
    fun s before after e hs room held older unreleased free read covered => ?_⟩
  have released := State.release_of_first hs room held older (State.isReady_of_covered unreleased free read covered)
  have joined := UpRequest.forwardRequest_eq e.request
  refine ⟨_, congrArg Host.Outcome.next released, by simp, ?_, by simp⟩
  exact congrArg (fun q => ({ s.downstream with
    forwardQueue := s.downstream.forwardQueue ++ [{ request := q, owner := .forward e.request.tag .held }] } :
      DownstreamPort)) joined

/-! ## The order of capture reads (R66) -/

/-- With no item that may be handed the order of handing conditions is empty. -/
theorem State.noteDue_due_of_none {s : State} (h : ∀ ref, ¬ s.mayRead ref) : s.noteDue.due = [] := by
  have none : s.handable = [] := List.eq_nil_iff_forall_not_mem.2 fun ref hr => h ref ((s.handable_iff ref).1 hr)
  simp [State.noteDue, none]

/-- The first item noted that may still be handed is the first in the order. -/
theorem State.noteDue_due_of_noted {s : State} {ref : CaptureRef} {gone rest : List CaptureRef}
    (noted : s.due = gone ++ ref :: rest) (passed : ∀ x ∈ gone, ¬ s.mayRead x) (may : s.mayRead ref) :
    ∃ others, s.noteDue.due = ref :: others := by
  have left : gone.filter (fun x => s.handable.contains x) = [] :=
    List.filter_eq_nil_iff.2 fun x hx hc => passed x hx ((s.handable_iff x).1 (by simpa using hc))
  have stays : s.handable.contains ref = true := by simpa using (s.handable_iff ref).2 may
  rw [State.noteDue, noted, List.filter_append, left, List.filter_cons_of_pos stays]
  exact ⟨_, rfl⟩

/-- Where none that is noted may still be handed, the first that may be is the first in the order. -/
theorem State.noteDue_due_of_first {s : State} {ref : CaptureRef} {rest : List CaptureRef}
    (passed : ∀ x ∈ s.due, ¬ s.mayRead x) (first : s.handable = ref :: rest) :
    ∃ others, s.noteDue.due = ref :: others := by
  have left : s.due.filter (fun x => s.handable.contains x) = [] :=
    List.filter_eq_nil_iff.2 fun x hx hc => passed x hx ((s.handable_iff x).1 (by simpa using hc))
  have may : s.mayRead ref := (s.handable_iff ref).1 (by simp [first])
  have unnoted : (!s.due.contains ref) = true := by simpa using fun noted => passed ref noted may
  refine ⟨rest.filter fun x => !s.due.contains x, ?_⟩
  show s.due.filter (fun x => s.handable.contains x) ++ s.handable.filter (fun x => !s.due.contains x) = _
  rw [left, first, List.filter_cons_of_pos (p := fun x => !s.due.contains x) unnoted]
  rfl

/-- Settles O41: the read handed is that of the first item in the order as it stands now. -/
theorem captureReadIsHandedInOrder : Obligations.CaptureReadIsHandedInOrder := by
  refine ⟨fun s h => congrArg Host.Outcome.next ?_, fun s ref hs may first => ?_⟩
  · unfold State.captureHanded
    split
    · next live =>
      rcases h with idle | none
      · exact absurd (s.live_iff_working.1 live) idle
      · rw [State.noteDue_due_of_none none]
    · rfl
  · have head : ∃ others, s.noteDue.due = ref :: others := by
      rcases first with ⟨gone, rest, noted, passed⟩ |
        ⟨passed, before, e, after, i, earlier, later, held, ctx, items, line, hand, lines, entries⟩
      · exact State.noteDue_due_of_noted noted passed may
      · obtain ⟨rest, offered⟩ := s.handable_head held ctx items hand lines entries
        rw [line] at offered
        exact State.noteDue_due_of_first passed offered
    obtain ⟨others, order⟩ := head
    have handed : s.captureHanded = s.handCapture ref := by
      rw [State.captureHanded, if_pos (s.live_iff_working.2 hs), order]
    exact ⟨_, congrArg Host.Outcome.next handed, rfl, rfl, by simp⟩

end Sys2Proof.Machine
end

section
/-! GRANT: the ranking in force, the requester and the tag it finds, and what it changes (R102, R138, R150 to R154). -/

namespace Sys2Proof.Machine

/-! ## What the arbiter finds (R150 to R152) -/

theorem DownstreamPort.locked_iff (d : DownstreamPort) (lines : List Line) :
    d.locked lines = true ↔ ∃ o ∈ d.outstanding, ∃ l ∈ o.lines, l ∈ lines := by
  simp [DownstreamPort.locked, shareLine]

theorem downstreamTags_getElem : ∀ (j : Nat) (h : j < downstreamTags.length), downstreamTags[j] = BitVec.ofNat 4 j := by
  decide

/-- The tag found free is the lowest without an entry. -/
theorem DownstreamPort.freeTag_of_lowest {d : DownstreamPort} {tag : BitVec 4} (free : ∀ o ∈ d.outstanding, o.tag ≠ tag)
    (taken : ∀ u, u < tag → ∃ o ∈ d.outstanding, o.tag = u) : d.freeTag = some tag := by
  have bound : tag.toNat < downstreamTags.length := tag.isLt
  have place : downstreamTags[tag.toNat] = tag := (downstreamTags_getElem _ bound).trans (by simp)
  rw [DownstreamPort.freeTag, List.find?_eq_some_iff_getElem]
  refine ⟨by simpa using free, tag.toNat, bound, place, fun j hj => ?_⟩
  have lower : BitVec.ofNat 4 j < tag := by
    rw [BitVec.lt_def, BitVec.toNat_ofNat]
    exact (Nat.mod_le _ _).trans_lt hj
  rw [downstreamTags_getElem j (hj.trans bound)]
  simpa using taken _ lower

/-- No tag is found where each has an entry. -/
theorem DownstreamPort.freeTag_of_full {d : DownstreamPort} (taken : ∀ u : BitVec 4, ∃ o ∈ d.outstanding, o.tag = u) :
    d.freeTag = none := by
  rw [DownstreamPort.freeTag, List.find?_eq_none]
  intro u _
  simpa using taken u

/-- The requester found is the first in the ranking whose head is not line-locked. -/
theorem DownstreamPort.choice_of_first {d : DownstreamPort} {above below : List Requester} {r : Requester}
    {x : Transaction} {queue : List Transaction} (ranked : d.ranking = above ++ r :: below)
    (barred : ∀ u ∈ above, ∀ y rest, d.waiting u = y :: rest →
      ∃ o ∈ d.outstanding, ∃ l ∈ o.lines, l ∈ y.request.lines)
    (waits : d.waiting r = x :: queue) (clear : ∀ o ∈ d.outstanding, ∀ l ∈ o.lines, l ∉ x.request.lines) :
    d.choice = some (r, x) := by
  have passed : above.findSome? (fun u => (d.candidate u).map fun t => (u, t)) = none := by
    refine List.findSome?_eq_none_iff.2 fun u hu => ?_
    cases head : d.waiting u with
    | nil => simp [DownstreamPort.candidate, head]
    | cons y rest => simp [DownstreamPort.candidate, head, (d.locked_iff _).2 (barred u hu y rest head)]
  have unlocked : ¬ d.locked x.request.lines = true := fun hl => by
    obtain ⟨o, ho, l, hl, shared⟩ := (d.locked_iff _).1 hl
    exact clear o ho l hl shared
  have eligible : d.candidate r = some x := by simp [DownstreamPort.candidate, waits, unlocked]
  rw [DownstreamPort.choice, ranked, List.findSome?_append, passed, List.findSome?_cons, eligible]
  rfl

/-- The transaction `t` has left its list under a tag and has been issued (R150, R152). -/
def State.granted (s : State) (tag : BitVec 4) (r : Requester) (t : Transaction) : State :=
  { s with
    downstream := s.downstream.grant tag r t
    out := { s.out with requests := s.out.requests ++ [{ tag := tag, request := t.request }] } }

theorem State.grant_of_found {s : State} {tag : BitVec 4} {r : Requester} {x : Transaction} (hs : s.working)
    (free : s.downstream.freeTag = some tag) (chosen : s.downstream.choice = some (r, x)) :
    s.grant = (s.granted tag r x).told x.owner := by
  rw [State.grant, if_pos (s.live_iff_working.2 hs), free, chosen]
  rfl

theorem State.grant_of_noTag {s : State} (full : s.downstream.freeTag = none) : s.grant = s := by
  rw [State.grant, full]
  split <;> rfl

/-! ## The port (R150, R152, R154) -/

theorem DownstreamPort.grant_waiting {d : DownstreamPort} (tag : BitVec 4) {r : Requester} {t : Transaction}
    {queue : List Transaction} (h : d.waiting r = t :: queue) (u : Requester) :
    (d.grant tag r t).waiting u = if u = r then queue else d.waiting u := by
  have left : (d.grant tag r t).waiting u = if u = r then (d.waiting r).tail else d.waiting u := by
    cases r <;> cases u <;> rfl
  rw [left, h]
  rfl

theorem DownstreamPort.grant_scanList {d : DownstreamPort} (tag : BitVec 4) {r : Requester} {t : Transaction}
    {queue : List Transaction} (h : d.waiting r = t :: queue) :
    (d.grant tag r t).scanList = if r = .scan then queue else d.scanList := by
  simpa only [DownstreamPort.waiting, eq_comm (a := Requester.scan)] using DownstreamPort.grant_waiting tag h .scan

theorem DownstreamPort.waiting_of_scanList (d : DownstreamPort) (l : List Transaction) {u : Requester} (h : u ≠ .scan) :
    ({ d with scanList := l } : DownstreamPort).waiting u = d.waiting u := by
  cases u
  case scan => exact absurd rfl h
  all_goals rfl

/-- A grant sets its own requester's throttle count and lowers the other (R154). -/
theorem DownstreamPort.grant_counts (d : DownstreamPort) (tag : BitVec 4) (r : Requester) (t : Transaction) :
    (d.grant tag r t).restoreCount = (if r = .restore then d.throttleRestore else d.restoreCount - 1) ∧
    (d.grant tag r t).scanCount = (if r = .scan then d.throttleScan else d.scanCount - 1) := by
  cases r <;> exact ⟨rfl, rfl⟩

/-- The ranking puts those that are throttled below those that are not (R154). -/
theorem DownstreamPort.ranking_eq {d : DownstreamPort} {p q : Requester → Bool} (hp : ∀ r, p r = !d.throttled r)
    (hq : ∀ r, q r = d.throttled r) : d.ranking = d.order.filter p ++ d.order.filter q := by
  rw [funext hp, funext hq]
  rfl

/-! ## What the feeding block does (R66, R102, R138) -/

theorem State.handSweep_frame (s : State) : s.handSweep.contexts = s.contexts ∧ s.handSweep.filter = s.filter ∧
    s.handSweep.log = s.log ∧ s.handSweep.hold = s.hold ∧ s.handSweep.kept = s.kept ∧ s.handSweep.engine = s.engine ∧
    s.handSweep.upstream = s.upstream ∧ s.handSweep.events = s.events ∧ s.handSweep.mgmt = s.mgmt ∧
    s.handSweep.pins = s.pins ∧ s.handSweep.out = s.out := by
  unfold State.handSweep
  dsimp only
  split <;> simp

/-- What the feeding block does leaves these parts alone. -/
theorem State.told_frame (s : State) (o : Owner) : (s.told o).contexts = s.contexts ∧ (s.told o).filter = s.filter ∧
    (s.told o).log = s.log ∧ (s.told o).engine = s.engine ∧ (s.told o).events = s.events ∧ (s.told o).kept = s.kept ∧
    (s.told o).mgmt = s.mgmt ∧ (s.told o).pins = s.pins ∧ (s.told o).out = s.out := by
  unfold State.told
  (repeat' split) <;> simp [State.handSweep_frame]

/-- Of the port the feeding block changes the SCAN list at most. -/
theorem State.told_port (s : State) (o : Owner) :
    (s.told o).downstream = { s.downstream with scanList := (s.told o).downstream.scanList } := by
  unfold State.told
  (repeat' split)
  case h_3.isTrue =>
    unfold State.handSweep
    dsimp only
    split <;> rfl
  all_goals rfl

/-- A STRAIGHT entry's tag stands at ISSUED; no other grant changes the upstream port. -/
theorem State.told_upstream (s : State) (o : Owner) :
    (∀ u, o = .forward u .straight → (s.told o).upstream.tags =
      s.upstream.tags.map fun e => if e.tag = u then { e with place := .issued } else e) ∧
    ((∀ u, o ≠ .forward u .straight) → (s.told o).upstream = s.upstream) := by
  refine ⟨by rintro u rfl; rfl, fun other => ?_⟩
  unfold State.told
  (repeat' split)
  · next u => exact absurd rfl (other u)
  all_goals simp [State.handSweep_frame]

/-- A capture item is READING; no other grant changes the hold queue. -/
theorem State.told_hold (s : State) (o : Owner) :
    (∀ ref, o = .capture ref → (s.told o).hold = s.hold.map fun e => { e with
      items := e.items.map fun i => if i.line = ref.line then { i with stage := .reading } else i }) ∧
    ((∀ ref, o ≠ .capture ref) → (s.told o).hold = s.hold) := by
  refine ⟨by rintro ref rfl; rfl, fun other => ?_⟩
  unfold State.told
  (repeat' split)
  case h_2 ref => exact absurd rfl (other ref)
  all_goals simp [State.handSweep_frame]

/-- The grant of a sweep write hands the next one while slots are left (R102). -/
theorem State.told_sweeps {s : State} {isWrite : Bool} (hj : s.attach.journal = .attaching)
    (sweeping : s.attach.progress.step = .sweeping)
    (left : s.attach.progress.position.toNat < s.attach.progress.slots.toNat) :
    (s.told (.scan .sweeping isWrite)).downstream.scanList = s.downstream.scanList ++
      [{ request := fullWrite (s.attach.progress.ringBase +
           BitVec.ofNat 40 (s.attach.progress.position.toNat * 128)) (List.replicate 64 0),
         owner := .scan .sweeping true }] ∧
    (s.told (.scan .sweeping isWrite)).attach =
      { s.attach with progress := { s.attach.progress with position := s.attach.progress.position + 1 } } := by
  have handed : s.told (.scan .sweeping isWrite) = s.handSweep := if_pos ⟨hj, sweeping⟩
  have slot : slotAddress s.attach.progress.ringBase s.attach.progress.slots s.attach.progress.position =
      s.attach.progress.ringBase + BitVec.ofNat 40 (s.attach.progress.position.toNat * 128) := by
    rw [slotAddress, Nat.mod_eq_of_lt left]
  rw [handed, State.handSweep, if_pos left, slot]
  exact ⟨rfl, rfl⟩

/-- Any other grant, and that of the last sweep write, leaves the SCAN list and the attach. -/
theorem State.told_noSweep {s : State} {o : Owner} (h : (∀ isWrite, o ≠ .scan .sweeping isWrite) ∨
    s.attach.journal ≠ .attaching ∨ s.attach.progress.step ≠ .sweeping ∨
    s.attach.progress.slots.toNat ≤ s.attach.progress.position.toNat) :
    (s.told o).downstream.scanList = s.downstream.scanList ∧ (s.told o).attach = s.attach := by
  unfold State.told
  (repeat' split)
  case h_3.isTrue isWrite sweeps =>
    rcases h with other | away | past | swept
    · exact absurd rfl (other isWrite)
    · exact absurd sweeps.1 away
    · exact absurd sweeps.2 past
    · rw [State.handSweep, if_neg (Nat.not_lt.2 swept)]
      exact ⟨rfl, rfl⟩
  all_goals exact ⟨rfl, rfl⟩

/-- Settles O42: the arbiter finds the lowest free tag and the first eligible requester, the port takes the transaction,
and the feeding block is told. -/
theorem grantGoesToTheHighestRankedEligible : Obligations.GrantGoesToTheHighestRankedEligible := by
  refine ⟨⟨fun s tag above below r x queue hs free taken ranked barred waits clear => ?_, fun s full => ?_⟩, fun d => ?_⟩
  · have found := State.grant_of_found hs (DownstreamPort.freeTag_of_lowest free taken)
      (DownstreamPort.choice_of_first ranked barred waits clear)
    have configuration := s.grant_configuration
    rw [found] at configuration
    obtain ⟨contexts, filter, log, engine, events, kept, mgmt, pins, out⟩ := (s.granted tag r x).told_frame x.owner
    obtain ⟨places, upstream⟩ := (s.granted tag r x).told_upstream x.owner
    obtain ⟨stages, hold⟩ := (s.granted tag r x).told_hold x.owner
    have port := (s.granted tag r x).told_port x.owner
    obtain ⟨table, -⟩ := s.downstream.grant_table tag r x
    obtain ⟨restored, scanned⟩ := s.downstream.grant_counts tag r x
    have scanList := DownstreamPort.grant_scanList tag waits
    refine ⟨_, congrArg Host.Outcome.next found, (congrArg DownstreamPort.outstanding port).trans table,
      congrArg Outputs.requests out, (congrArg Outputs.responses out :), fun u hu => ?_, ?_, fun h => ?_,
      (congrArg DownstreamPort.restoreCount port).trans restored, (congrArg DownstreamPort.scanCount port).trans scanned,
      places, stages, upstream, hold, contexts, filter, log, engine, events, kept, mgmt, pins, configuration⟩
    · rw [port, DownstreamPort.waiting_of_scanList _ _ hu]
      exact DownstreamPort.grant_waiting tag waits u
    · rintro ⟨isWrite, owner⟩ hj sweeping - left
      rw [owner, ← scanList]
      exact State.told_sweeps (s := s.granted tag r x) hj sweeping left
    · rw [← scanList]
      exact State.told_noSweep (s := s.granted tag r x) h
  · exact congrArg Host.Outcome.next (State.grant_of_noTag (DownstreamPort.freeTag_of_full full))
  · refine ⟨fun hr hs => ?_, fun hr hs => ?_, fun hr hs => ?_, fun hr hs => ?_⟩
    · rw [DownstreamPort.ranking_eq (p := fun _ => true) (q := fun _ => false)]
      · simp
      all_goals
        intro r
        cases r <;> simp [DownstreamPort.throttled, hr, hs]
    all_goals
      refine DownstreamPort.ranking_eq (fun r => ?_) (fun r => ?_) <;>
        cases r <;> simp [DownstreamPort.throttled, hr, hs]

end Sys2Proof.Machine
end

section
/-! The rollback's answers (R91 to R93): the seven checks on the bytes of a slot, then the entry that is written back, finished
or skipped. -/

namespace Sys2Proof.Machine

/-! ## The seven checks (R91) -/

/-- The checks of R91 on the bytes of a slot. -/
theorem restoreCheckPasses_iff_bytes {slot : List Byte} (hlen : slot.length = 128) (q : Seq) (c : Ctx) (epoch : Epoch)
    (line : Line) : restoreCheckPasses slot q c epoch line = true ↔
      bytesAt slot 0 4 = leastFirst 4 0x9E3C57A1 ∧ bytesAt slot 4 4 = leastFirst 4 q.toNat ∧ bytesAt slot 8 1 = [0x01] ∧
      bytesAt slot 9 1 = [ctxByte c] ∧ bytesAt slot 12 4 = leastFirst 4 epoch.toNat ∧
      bytesAt slot 16 8 = leastFirst 8 (line ++ 0#6).toNat ∧
      bytesAt slot 24 4 = leastFirst 4 (checkWord (checkCleared slot)).toNat := by
  have sync : fieldAt slot 0 4 = recordSync ↔ bytesAt slot 0 4 = leastFirst 4 0x9E3C57A1 :=
    fieldAt_eq_iff (by omega) (by decide)
  have seq : slotSeq slot = q ↔ bytesAt slot 4 4 = leastFirst 4 q.toNat :=
    ofNat_fieldAt_eq_iff q (by omega) (by norm_num)
  have epochField : fieldAt slot 12 4 = epoch.toNat ↔ bytesAt slot 12 4 = leastFirst 4 epoch.toNat :=
    fieldAt_eq_iff (by omega) (by have := epoch.isLt; omega)
  have address : slotLineAddress slot = (lineAddress line).toNat ↔
      bytesAt slot 16 8 = leastFirst 8 (line ++ 0#6).toNat :=
    fieldAt_eq_iff (by omega) (by have := (lineAddress line).isLt; omega)
  have checks : restoreCheckPasses slot q c epoch line = true ↔ fieldAt slot 0 4 = recordSync ∧ slotSeq slot = q ∧
      slotKind slot = some .preImage ∧ fieldAt slot 9 1 = c.val ∧ fieldAt slot 12 4 = epoch.toNat ∧
      slotLineAddress slot = (lineAddress line).toNat ∧ slotCheckPasses slot .preImage = true := decide_eq_true_iff
  exact checks.trans <| and_congr sync <| and_congr seq <| and_congr (slotKind_iff slot hlen .preImage) <|
    and_congr (slotCtx_iff hlen c) <| and_congr epochField <| and_congr address (slotCheckPasses_iff slot hlen .preImage)

/-! ## An answer while the rollback replays (R91, R92, R155) -/

section
variable {s : State} {tag : BitVec 4} {lines : List Line} {c : Ctx} {e : FilterEntry} {rest : List FilterEntry} {q : Seq}

/-- The answer to the transaction that a replaying rollback waits for is taken by its step. -/
theorem State.takeAnswer_restore {step : ReplayStep} (hp : (s.engine.get c).procedure = .abort)
    (hph : (s.engine.get c).phase = .replaying) (a : Answer) :
    (s.engine.get c).replayStep = some step → s.awaits { tag := tag, owner := .restore c step, lines := lines } →
    s.takeAnswer tag a =
      match step with
      | .read => (s.answered tag).restoreReadAnswer c a
      | .write => (s.answered tag).restoreWriteAnswer c a :=
  fun hs haw => (State.takeAnswer_of_awaits haw a).trans ((if_pos ⟨hp, hs⟩).trans (if_pos hph))

/-- A slot read DONE: its image is written back if it passes the checks, else its entry is skipped (R91). -/
theorem State.restoreReadAnswer_done (hl : (s.engine.get c).replayList = e :: rest) (hq : e.seq = some q)
    (data : List Byte) : s.restoreReadAnswer c (.done data) =
      if restoreCheckPasses (readBytes 128 data) q c (s.contexts.get c).epoch e.line then
        s.handRestore c (writeRequest (lineAddress e.line) (slotImage (readBytes 128 data))) .write
      else (s.setProgress c ((s.engine.get c).finishEntry false)).runEngines := by
  simp only [State.restoreReadAnswer, hl, hq]

end

/-- Settles O54: an answer is the rollback's, and what finishes or skips an entry lets the next one begin. -/
theorem rollbackRestoresEachLine : Obligations.RollbackRestoresEachLine := by
  refine ⟨fun slot q c epoch line hlen => restoreCheckPasses_iff_bytes hlen q c epoch line,
    fun s tag lines c e rest q data hp hph hl hq hm idle => ?_⟩
  have skipped := (s.answered tag).runEngines_finishesEntry c e rest false _ hp hph hl hm idle rfl
  have restored := (s.answered tag).runEngines_finishesEntry c e rest true _ hp hph hl hm idle rfl
  refine ⟨fun haw hs => ?_, fun haw hs => ?_⟩
  · have taken a := State.takeAnswer_restore hp hph a hs haw
    have read := (taken (.done data)).trans (State.restoreReadAnswer_done (s := s.answered tag) hl hq data)
    exact ⟨fun passes => congrArg Host.Outcome.next (read.trans (if_pos passes)),
      fun fails => ⟨_, congrArg Host.Outcome.next (read.trans (if_neg (ne_true_of_eq_false fails))), skipped⟩,
      _, congrArg Host.Outcome.next (taken .error), skipped⟩
  · have taken a := State.takeAnswer_restore hp hph a hs haw
    exact ⟨⟨_, congrArg Host.Outcome.next (taken (.done data)), restored⟩,
      _, congrArg Host.Outcome.next (taken .error), skipped⟩

end Sys2Proof.Machine
end

section
/-! The modes agree after every step (R80, R118, R135, R142, R143): most operations leave QUIET, the intake, the journal state
and the procedures alone; the epoch engine, faults and breaks change a context's state and its procedure together; the
attach, the drain and the intake are looked at each on its own. -/

namespace Sys2Proof.Machine

/-- `t` has the modes of `s`: the journal state, QUIET, the intake with its head, the soft reset phase, and for each context
its state and its procedure. -/
structure State.SameModes (s t : State) : Prop where
  journal : t.attach.journal = s.attach.journal
  quiet : t.attach.quiet = s.attach.quiet
  intake : t.upstream.intake = s.upstream.intake
  head : t.upstream.head = s.upstream.head
  waiting : t.mgmt.waiting = s.mgmt.waiting
  procedure : ∀ c, (t.engine.get c).procedure = (s.engine.get c).procedure
  state : ∀ c, (t.contexts.get c).state = (s.contexts.get c).state

theorem State.SameModes.refl (s : State) : s.SameModes s := ⟨rfl, rfl, rfl, rfl, rfl, fun _ => rfl, fun _ => rfl⟩

theorem State.SameModes.trans {s t u : State} (h : s.SameModes t) (k : t.SameModes u) : s.SameModes u :=
  ⟨k.journal.trans h.journal, k.quiet.trans h.quiet, k.intake.trans h.intake, k.head.trans h.head,
    k.waiting.trans h.waiting, fun c => (k.procedure c).trans (h.procedure c), fun c => (k.state c).trans (h.state c)⟩

theorem State.SameModes.modesOk {s t : State} (h : s.SameModes t) (hs : s.modesOk) : t.modesOk := by
  obtain ⟨journal, quiet, intake, head, waiting, procedure, state⟩ := h
  simpa only [State.modesOk, journal, quiet, intake, head, waiting, procedure, state] using hs

theorem State.modesOk.procedures {s : State} (hs : s.modesOk) (c : Ctx) :
    (s.engine.get c).procedure = (s.contexts.get c).state.procedure := by
  obtain ⟨-, -, -, procedures⟩ := hs
  exact procedures c

/-- One context's state changes, and its procedure with it. -/
theorem State.modesOk.update {s t : State} (hs : s.modesOk) {c : Ctx}
    (hm : t.attach = s.attach ∧ t.upstream.intake = s.upstream.intake ∧ t.upstream.head = s.upstream.head ∧
      t.mgmt = s.mgmt)
    (here : (t.engine.get c).procedure = (t.contexts.get c).state.procedure)
    (others : ∀ d, d ≠ c → t.contexts.get d = s.contexts.get d ∧ t.engine.get d = s.engine.get d) : t.modesOk := by
  obtain ⟨attach, intake, head, mgmt⟩ := hm
  obtain ⟨quiet, waits, stopped, procedures⟩ := hs
  rw [State.modesOk, attach, intake, head, mgmt]
  refine ⟨quiet, waits, stopped, fun d => ?_⟩
  by_cases h : d = c
  · rw [h, here]
  · rw [(others d h).1, (others d h).2, procedures]

/-- A drain begins from neither of its own states. -/
theorem JournalState.drainable_away {j : JournalState} (h : j.drainable = true) : j ≠ .draining ∧ j ≠ .drained := by
  constructor <;> rintro rfl <;> cases h

/-- The attach engine goes from one journal state to another, neither of them a drain's. -/
theorem State.modesOk.leaveJournal {s : State} (hs : s.modesOk) {a : AttachEngine}
    (hj : s.attach.journal.drainable = true) (ha : a.journal.drainable = true) (hq : a.quiet = s.attach.quiet) :
    State.modesOk { s with attach := a } := by
  obtain ⟨quiet, waits, stopped, procedures⟩ := hs
  obtain ⟨-, away⟩ := JournalState.drainable_away hj
  obtain ⟨halts, rests⟩ := JournalState.drainable_away ha
  refine ⟨?_, waits, fun h => stopped (.inr (.inr ((h.resolve_left halts).resolve_left rests))), procedures⟩
  show a.quiet = true ↔ a.journal = .drained
  simp only [hq, rests, quiet, away]

/-! ## Updates that change no mode -/

theorem State.raise_sameModes (s : State) (e : Event) : s.SameModes (s.raise e) := by constructor <;> simp

theorem State.answerUp_sameModes (s : State) (tag : BitVec 6) (result : UpResult) :
    s.SameModes (s.answerUp tag result) := by constructor <;> simp

theorem State.refuseWhere_sameModes (s : State) (pick : HoldEntry → Bool) (reason : Reason) :
    s.SameModes (s.refuseWhere pick reason) := by constructor <;> simp

theorem State.noteDue_sameModes (s : State) : s.SameModes s.noteDue := by constructor <;> simp

theorem State.lookSpace_sameModes (s : State) : s.SameModes s.lookSpace := by constructor <;> simp

theorem State.setAttach_sameModes (s : State) (p : AttachProgress) : s.SameModes (s.setAttach p) := by
  constructor <;> simp

theorem State.handAttachAnchor_sameModes (s : State) (copy1 : Bool) (data : List Byte) (g tail : Option Seq) :
    s.SameModes (s.handAttachAnchor copy1 data g tail) := by constructor <;> simp

theorem State.handScan_sameModes (s : State) (request : DownRequest) (step : AttachStep) (isWrite : Bool) :
    s.SameModes (s.handScan request step isWrite) := by constructor <;> simp

theorem State.issueAnchor_sameModes (s : State) (issuer : Issuer) (state : AnchorState) (tail : Seq) :
    s.SameModes (s.issueAnchor issuer state tail) := by constructor <;> simp

theorem State.withLog_sameModes (s : State) (w : LogWriter) : s.SameModes { s with log := w } := by
  constructor <;> simp

theorem State.withDownstream_sameModes (s : State) (d : DownstreamPort) : s.SameModes { s with downstream := d } := by
  constructor <;> simp

/-- A context's procedure goes on. -/
theorem State.setProgress_sameModes (s : State) (c : Ctx) (p : Progress)
    (h : p.procedure = (s.engine.get c).procedure) : s.SameModes (s.setProgress c p) := by
  refine ⟨rfl, rfl, rfl, rfl, rfl, fun d => ?_, fun _ => rfl⟩
  rw [State.setProgress_engine, Quad.get_set]
  split
  · next e => rw [e, h]
  · rfl

/-- A context keeps its state. -/
theorem State.setContext_sameModes (s : State) (c : Ctx) (r : ContextRecord)
    (h : r.state = (s.contexts.get c).state) : s.SameModes (s.setContext c r) := by
  refine ⟨rfl, rfl, rfl, rfl, rfl, fun _ => rfl, fun d => ?_⟩
  rw [State.setContext_contexts, Quad.get_set]
  split
  · next e => rw [e, h]
  · rfl

/-! ## The epoch engine (R81 to R93) -/

theorem State.askMarker_sameModes (s : State) (kind : MarkerKind) (c : Ctx) : s.SameModes (s.askMarker kind c) :=
  (s.withLog_sameModes _).trans (State.setProgress_sameModes _ c _ rfl)

theorem State.handRestore_sameModes (s : State) (c : Ctx) (request : DownRequest) (step : ReplayStep) :
    s.SameModes (s.handRestore c request step) :=
  (s.withDownstream_sameModes _).trans (State.setProgress_sameModes _ c _ rfl)

/-- A procedure that completes leaves its context IDLE. -/
theorem State.completeCommit_modesOk {s : State} (c : Ctx) (hs : s.modesOk) : (s.completeCommit c).modesOk :=
  hs.update (c := c) (by simp) (by simp [ContextRecord.toIdle, Progress.reset, CtxState.procedure]) fun d h => by simp [h]

theorem State.completeAbort_modesOk {s : State} (c : Ctx) (hs : s.modesOk) : (s.completeAbort c).modesOk :=
  hs.update (c := c) (by simp) (by simp [ContextRecord.toIdle, Progress.reset, CtxState.procedure]) fun d h => by simp [h]

theorem State.moveCommit_modesOk {s : State} (c : Ctx) (hs : s.modesOk) : (s.moveCommit c).modesOk := by
  unfold State.moveCommit
  (repeat' split)
  · exact State.completeCommit_modesOk c hs
  · exact (s.askMarker_sameModes _ c).modesOk hs
  · exact hs
  · exact State.completeCommit_modesOk c hs
  · exact hs
  · exact hs

theorem State.moveSettling_modesOk {s : State} (c : Ctx) (hs : s.modesOk) : (s.moveSettling c).modesOk := by
  have settled : s.SameModes (s.settleFilter c) := by constructor <;> simp
  unfold State.moveSettling
  split
  · unfold State.endSettling
    dsimp only
    split
    · exact State.completeAbort_modesOk c (settled.modesOk hs)
    · exact (settled.trans (State.setProgress_sameModes _ c _ (by simp))).modesOk hs
  · exact hs

theorem State.moveCovering_sameModes (s : State) (c : Ctx) : s.SameModes (s.moveCovering c) := by
  unfold State.moveCovering
  split
  · exact s.setProgress_sameModes c _ rfl
  · exact .refl s

theorem State.moveReplaying_sameModes (s : State) (c : Ctx) : s.SameModes (s.moveReplaying c) := by
  unfold State.moveReplaying State.nextReplay
  (repeat' split)
  · exact s.askMarker_sameModes _ c
  · exact .refl s
  · exact s.handRestore_sameModes c _ _
  · exact .refl s

theorem State.moveMarking_modesOk {s : State} (c : Ctx) (hs : s.modesOk) : (s.moveMarking c).modesOk := by
  unfold State.moveMarking
  split
  · exact State.completeAbort_modesOk c hs
  · exact hs

theorem State.moveEngine_modesOk {s : State} (c : Ctx) (hs : s.modesOk) : (s.moveEngine c).modesOk := by
  unfold State.moveEngine
  split
  · exact hs
  · exact State.moveCommit_modesOk c hs
  · exact State.moveMarking_modesOk c ((State.moveReplaying_sameModes _ c).modesOk
      ((State.moveCovering_sameModes _ c).modesOk (State.moveSettling_modesOk c hs)))

theorem State.runEngines_modesOk {s : State} (hs : s.modesOk) : s.runEngines.modesOk := by
  obtain ⟨l, n, _, _, he⟩ := s.runEngines_moves
  rw [he]
  exact foldl_invariant State.modesOk _ (fun _ c => State.moveEngine_modesOk c) l _ hs

/-! ## Faults (R14 to R18, R85) -/

/-- A fault ends the commit of its context, if there is one. -/
theorem State.reportFault_modesOk {s : State} (c : Ctx) (cause : FaultCause) (address : Addr) (hs : s.modesOk) :
    (s.reportFault c cause address).modesOk := by
  unfold State.reportFault
  split
  · next reported =>
    obtain ⟨faulted, ended, others, -⟩ := s.applyFault_get c cause address (hs.procedures c) reported.2
    exact hs.update (by simp) (by rw [ended, faulted]; rfl) others
  · exact hs

/-! ## The drain (R97, R114 to R118, R142) -/

/-- A procedure that is stopped stays the context's procedure (R97). -/
theorem State.stopEngines_procedure (s : State) (c : Ctx) :
    (s.stopEngines.engine.get c).procedure = (s.engine.get c).procedure := by
  have stop : ∀ (p : Progress) (handed : Bool), (p.stop handed).procedure = p.procedure := by
    intro p handed
    unfold Progress.stop
    split <;> rfl
  fin_cases c <;> exact stop _ _

theorem State.beginDrain_procedure (s : State) (c : Ctx) :
    (s.beginDrain.engine.get c).procedure = (s.engine.get c).procedure := by
  obtain ⟨-, -, engine, -⟩ := s.beginDrain_halts
  rw [engine]
  unfold State.drainHalts
  dsimp only
  split <;> simp [State.stopEngines_procedure]

/-- The drain stops the intake, and asserts QUIET where it ends at once. -/
theorem State.beginDrain_modesOk {s : State} (hj : s.attach.journal.drainable = true) (hs : s.modesOk) :
    s.beginDrain.modesOk := by
  obtain ⟨quiet, -, -, procedures⟩ := hs
  obtain ⟨-, -, up, -⟩ := s.beginDrain_turnsAway
  refine ⟨?_, by simp [up], fun _ => by rw [up], fun c => ?_⟩
  · by_cases detached : s.attach.journal = .detached
    · simp [State.beginDrain_attach_detached detached]
    · have loud : s.attach.quiet ≠ true := fun h => by simp [quiet.1 h, JournalState.drainable] at hj
      simp [State.beginDrain_attach_draining detached, loud]
  · rw [State.beginDrain_procedure]
    simpa using procedures c

theorem State.drainIfWarned_modesOk {s : State} (hs : s.modesOk) : s.drainIfWarned.modesOk := by
  unfold State.drainIfWarned
  split
  · next warned => exact State.beginDrain_modesOk warned.2.2 hs
  · exact hs

/-- The drain ends where it has stopped the intake already (R118). -/
theorem State.enterDrained_modesOk {s : State} (detail : DrainDetail) (hj : s.attach.journal = .draining)
    (hs : s.modesOk) : (s.enterDrained detail).modesOk := by
  obtain ⟨-, waits, stopped, procedures⟩ := hs
  exact ⟨by simp, by simpa using waits, fun _ => by simpa using stopped (.inl hj), by simpa using procedures⟩

/-! ## The journal break (R17, R96, R112) -/

/-- A break ends the procedure of every context it faults. -/
theorem State.breakContext_modesOk {s : State} (c : Ctx) (hs : s.modesOk) : (s.breakContext c).modesOk := by
  refine hs.update (c := c) (by simp) ?_ fun d h => by simp [State.breakContext_get, h]
  rw [(s.breakContext_get c c).1, (s.breakContext_get c c).2]
  split
  · rfl
  · exact hs.procedures c

theorem State.breakJournal_modesOk {s : State} (cause : BreakCause) (sequence : Option Seq)
    (hj : s.attach.journal.drainable = true) (hs : s.modesOk) : (s.breakJournal cause sequence).modesOk := by
  have broken : (s.setJournal .broken).modesOk := hs.leaveJournal hj rfl rfl
  have emptied : ∀ u : State, u.SameModes
      { u.emptyRequests with downstream := { u.emptyRequests.downstream with restoreList := [] } } :=
    fun u => (u.withLog_sameModes _).trans (State.withDownstream_sameModes _ _)
  have faulted := foldl_invariant State.modesOk _ (fun _ c => State.breakContext_modesOk c) allContexts _
    (((State.refuseWhere_sameModes _ (fun e => e.journaled) .broken).trans (emptied _)).modesOk broken)
  have raised := (State.raise_sameModes _ (brokenEvent cause sequence s.breakCount)).modesOk faulted
  unfold State.breakJournal
  dsimp only
  refine State.drainIfWarned_modesOk ((State.noteDue_sameModes _).modesOk ?_)
  split
  · exact (State.raise_sameModes _ _).modesOk raised
  · exact raised

theorem State.logError_modesOk {s : State} (cause : BreakCause) (sequence : Option Seq) (hs : s.modesOk) :
    (s.logError cause sequence).modesOk := by
  unfold State.logError
  (repeat' split)
  · next h =>
    refine State.breakJournal_modesOk cause sequence ?_ hs
    rcases h with h | h <;> rw [h] <;> rfl
  · exact (s.raise_sameModes _).modesOk hs
  · exact hs

end Sys2Proof.Machine
end

section
/-! The modes at an answer: how an attach goes on and ends, then the answers of the other roles (R99, R155). -/

namespace Sys2Proof.Machine

/-! ## The attach (R100 to R109) -/

/-- An attach is in progress, and the modes agree. -/
def State.attachingOk (s : State) : Prop := s.modesOk ∧ s.attach.journal = .attaching

theorem State.SameModes.attachingOk {s t : State} (h : s.SameModes t) (hs : s.attachingOk) : t.attachingOk :=
  ⟨h.modesOk hs.1, h.journal.trans hs.2⟩

/-- An attach ends in DETACHED or ATTACHED, and a drain may follow at once (R100, R114). -/
theorem State.endAttach_modesOk {s : State} {journal : JournalState} (result : AttachResult) (sequence : Option Seq)
    (hj : journal.drainable = true) (h : s.attachingOk) : (s.endAttach journal result sequence).modesOk := by
  obtain ⟨hs, attaching⟩ := h
  exact State.drainIfWarned_modesOk
    ((State.raise_sameModes _ _).modesOk (hs.leaveJournal (by rw [attaching]; rfl) hj rfl))

theorem State.failAttach_modesOk {s : State} (result : AttachResult) (sequence : Option Seq) (h : s.attachingOk) :
    (s.failAttach result sequence).modesOk := State.endAttach_modesOk result sequence rfl h

/-- What an attach loads are a log writer's pointers and next epochs (R3, R41). -/
theorem State.completeAttach_modesOk {s : State} (result : AttachResult) (head generation : Seq) (epochs : Quad Epoch)
    (h : s.attachingOk) : (s.completeAttach result head generation epochs).modesOk := by
  have loaded : ∀ u : State, u.SameModes (u.loadNextEpochs epochs) := by
    refine fun u => ⟨rfl, rfl, rfl, rfl, rfl, fun _ => rfl, fun c => ?_⟩
    fin_cases c <;> rfl
  exact State.endAttach_modesOk result _ rfl (((s.withLog_sameModes _).trans (loaded _)).attachingOk h)

theorem State.handSweep_sameModes (s : State) : s.SameModes s.handSweep := by
  unfold State.handSweep
  dsimp only
  split
  · exact (s.handScan_sameModes _ _ _).trans (State.setAttach_sameModes _ _)
  · exact .refl s

theorem State.endSweep_modesOk {s : State} (h : s.attachingOk) : s.endSweep.modesOk := by
  unfold State.endSweep
  (repeat' split)
  · exact State.failAttach_modesOk _ _ h
  · exact ((s.setAttach_sameModes _).trans (State.handAttachAnchor_sameModes _ _ _ _ _)).modesOk h.1
  · exact h.1

theorem State.startFinal_sameModes (s : State) : s.SameModes s.startFinal := by
  unfold State.startFinal
  split
  · exact .refl s
  · exact (s.setAttach_sameModes _).trans (State.handAttachAnchor_sameModes _ _ _ _ _)

/-- A slot's read is handed under a new progress record. -/
theorem State.readSlot_sameModes (s : State) (p : AttachProgress) (step : AttachStep) :
    s.SameModes ((s.setAttach p).readSlot step) :=
  (s.setAttach_sameModes p).trans (State.handScan_sameModes _ _ _ _)

theorem State.stopScan_sameModes (s : State) : s.SameModes s.stopScan := by
  unfold State.stopScan
  dsimp only
  split
  · exact s.readSlot_sameModes _ _
  · exact (s.setAttach_sameModes _).trans (State.startFinal_sameModes _)

theorem State.nextSequence_sameModes (s : State) : s.SameModes s.nextSequence := by
  unfold State.nextSequence
  dsimp only
  (repeat' split)
  · exact .refl s
  · exact s.startFinal_sameModes
  · exact s.readSlot_sameModes _ _

/-- An answer to the attach lets it go on, or ends it. -/
theorem State.scanAnswer_modesOk {s : State} (step : AttachStep) (isWrite : Bool) (answer : Answer) (hs : s.modesOk) :
    (s.scanAnswer step isWrite answer).modesOk := by
  unfold State.scanAnswer
  split
  · next running =>
    have h : s.attachingOk := ⟨hs, running.1⟩
    split
    · unfold State.sweepAnswer
      split
      · exact State.endSweep_modesOk h
      · have withdrawn : s.SameModes
            { s with
              attach := { s.attach with progress := { s.attach.progress with failed := true } }
              downstream := { s.downstream with scanList := [] } } := by
          constructor <;> simp
        exact State.endSweep_modesOk (withdrawn.attachingOk h)
    · unfold State.anchorReadAnswer
      (repeat' split)
      · exact State.failAttach_modesOk _ _ h
      · exact State.failAttach_modesOk _ _ h
      · exact ((s.setAttach_sameModes _).trans (State.startFinal_sameModes _)).modesOk hs
      · exact (s.readSlot_sameModes _ _).modesOk hs
    · unfold State.scanReadAnswer
      dsimp only
      (repeat' split)
      · exact State.failAttach_modesOk _ _ h
      · exact s.stopScan_sameModes.modesOk hs
      · exact ((s.setAttach_sameModes _).trans (State.stopScan_sameModes _)).modesOk hs
      · exact (s.readSlot_sameModes _ _).modesOk hs
    · unfold State.replayReadAnswer
      dsimp only
      (repeat' split)
      · exact State.failAttach_modesOk _ _ h
      · exact State.failAttach_modesOk _ _ h
      · exact (s.handScan_sameModes _ _ _).modesOk hs
      · exact s.nextSequence_sameModes.modesOk hs
    · unfold State.replayWriteAnswer
      dsimp only
      split
      · exact State.failAttach_modesOk _ _ h
      · exact ((s.setAttach_sameModes _).trans (State.nextSequence_sameModes _)).modesOk hs
    · exact hs
  · exact hs

theorem State.attachAnchorDone_modesOk {s : State} (h : s.attachingOk) : s.attachAnchorDone.modesOk := by
  unfold State.attachAnchorDone
  dsimp only
  (repeat' split)
  · exact ((s.setAttach_sameModes _).trans (State.handAttachAnchor_sameModes _ _ _ _ _)).modesOk h.1
  · exact ((s.setAttach_sameModes _).trans (State.handSweep_sameModes _)).modesOk h.1
  · exact State.completeAttach_modesOk _ _ _ _ h
  · exact h.1
  · exact State.completeAttach_modesOk _ _ _ _ h
  · exact State.completeAttach_modesOk _ _ _ _ h
  · exact h.1

theorem State.attachAnchorAnswer_modesOk {s : State} (answer : Answer) (hs : s.modesOk) :
    (s.attachAnchorAnswer answer).modesOk := by
  unfold State.attachAnchorAnswer
  split
  · next attaching =>
    split
    · exact State.attachAnchorDone_modesOk ⟨hs, attaching⟩
    · unfold State.attachAnchorError
      split <;> exact State.failAttach_modesOk _ _ ⟨hs, attaching⟩
  · exact hs

/-! ## The other answers (R155) -/

theorem State.straightAnswer_sameModes (s : State) (tag : BitVec 6) (answer : Answer) :
    s.SameModes (s.straightAnswer tag answer) := by
  unfold State.straightAnswer
  (repeat' split)
  · exact .refl s
  · exact s.answerUp_sameModes _ _
  · exact (s.answerUp_sameModes _ _).trans (State.raise_sameModes _ _)

theorem State.heldAnswer_modesOk {s : State} (tag : BitVec 6) (answer : Answer) (hs : s.modesOk) :
    (s.heldAnswer tag answer).modesOk := by
  have removed : ∀ u : State, u.SameModes (u.removeForwarded tag).noteDue := by
    intro u
    constructor <;> simp
  have reported : ∀ (u : State) e, u.modesOk → (u.reportForwardError e).modesOk := by
    intro u e hu
    unfold State.reportForwardError
    (repeat' split)
    · exact hu
    · exact State.reportFault_modesOk _ _ _ hu
    · exact hu
  unfold State.heldAnswer
  (repeat' split)
  · exact hs
  · exact State.runEngines_modesOk (((s.answerUp_sameModes _ _).trans (removed _)).modesOk hs)
  · exact State.runEngines_modesOk (reported _ _ ((((s.answerUp_sameModes _ _).trans
      (State.raise_sameModes _ _)).trans (removed _)).modesOk hs))

theorem State.captureAnswer_modesOk {s : State} (ref : CaptureRef) (answer : Answer) (hs : s.modesOk) :
    (s.captureAnswer ref answer).modesOk := by
  have settled : s.SameModes (State.removeLine { s with kept := s.kept.erase ref } ref.line) := by
    constructor <;> simp
  have built : ∀ image, s.SameModes (s.buildRecord ref image) := by
    intro image
    constructor <;> simp
  have dropped : s.SameModes (s.dropItem ref.line) := by constructor <;> simp
  unfold State.captureAnswer
  (repeat' split)
  · exact State.runEngines_modesOk (settled.modesOk hs)
  · exact (built _).modesOk hs
  · exact State.runEngines_modesOk (State.reportFault_modesOk _ _ _ (dropped.modesOk hs))
  · exact hs

theorem State.appendAnswer_modesOk {s : State} (q : Seq) (answer : Answer) (hs : s.modesOk) :
    (s.appendAnswer q answer).modesOk := by
  have followed : ∀ u : State, u.SameModes u.followFrontier := by
    intro u
    constructor <;> simp
  unfold State.appendAnswer
  split
  · exact State.runEngines_modesOk (((s.withLog_sameModes _).trans (followed _)).modesOk hs)
  · exact State.logError_modesOk _ _ ((s.withLog_sameModes _).modesOk hs)

/-- Where the drain's record alone changes, the modes stay. -/
theorem State.withDrain_sameModes (s : State) (d : DrainRecord) :
    s.SameModes { s with attach := { s.attach with drain := d } } := by constructor <;> simp

/-- A CLEAN anchor ends the detach (R111). -/
theorem State.engineAnchorDone_modesOk {s : State} (hs : s.modesOk) : s.engineAnchorDone.modesOk := by
  unfold State.engineAnchorDone
  (repeat' split)
  · next detaching =>
    have detached : (s.setJournal .detached).modesOk := hs.leaveJournal (by rw [detaching]; rfl) rfl rfl
    exact State.drainIfWarned_modesOk ((State.raise_sameModes _ _).modesOk detached)
  · exact (s.withDrain_sameModes _).modesOk hs
  · exact hs

theorem State.anchorAnswer_modesOk {s : State} (answer : Answer) (hs : s.modesOk) : (s.anchorAnswer answer).modesOk := by
  have tail : ∀ (u : State) (q : Option Seq), u.SameModes (u.moveTail q) := by
    intro u q
    unfold State.moveTail
    split
    · exact .refl u
    · exact (u.withLog_sameModes _).trans (State.lookSpace_sameModes _)
  have cleared := (s.withLog_sameModes { s.log with anchor := none }).modesOk hs
  unfold State.anchorAnswer
  split
  · exact hs
  · dsimp only
    (repeat' split)
    · exact State.attachAnchorAnswer_modesOk _ cleared
    · exact (tail _ _).modesOk cleared
    · exact State.engineAnchorDone_modesOk ((tail _ _).modesOk cleared)
    · have failed := fun cause q => State.logError_modesOk cause q cleared
      unfold State.anchorError
      dsimp only
      (repeat' split)
      · exact (State.withDrain_sameModes _ _).modesOk (failed _ _)
      · exact (State.withDrain_sameModes _ _).modesOk (failed _ _)
      · exact failed _ _

theorem State.restoreAnswer_modesOk {s : State} (c : Ctx) (step : ReplayStep) (answer : Answer) (hs : s.modesOk) :
    (s.restoreAnswer c step answer).modesOk := by
  have finished : ∀ done, (s.setProgress c ((s.engine.get c).finishEntry done)).runEngines.modesOk :=
    fun done => State.runEngines_modesOk ((s.setProgress_sameModes c _ (by rfl)).modesOk hs)
  unfold State.restoreAnswer
  dsimp only
  (repeat' split)
  · unfold State.restoreReadAnswer
    dsimp only
    (repeat' split)
    · exact (s.handRestore_sameModes c _ _).modesOk hs
    · exact finished _
    · exact finished _
    · exact finished _
  · unfold State.restoreWriteAnswer
    split <;> exact finished _
  · exact (s.setProgress_sameModes c _ (by rfl)).modesOk hs
  · exact hs

/-- Whatever an answer answers, the modes go on agreeing. -/
theorem State.takeAnswer_modesOk {s : State} (tag : BitVec 4) (answer : Answer) (hs : s.modesOk) :
    (s.takeAnswer tag answer).modesOk := by
  have removed : (s.removeOutstanding tag).modesOk := (s.withDownstream_sameModes _).modesOk hs
  unfold State.takeAnswer
  (repeat' split)
  · exact hs
  · exact removed
  · unfold State.routeAnswer
    split
    · exact State.anchorAnswer_modesOk _ removed
    · exact State.appendAnswer_modesOk _ _ removed
    · exact State.captureAnswer_modesOk _ _ removed
    · exact (State.straightAnswer_sameModes _ _ _).modesOk removed
    · exact State.heldAnswer_modesOk _ _ removed
    · exact State.restoreAnswer_modesOk _ _ _ removed
    · exact State.scanAnswer_modesOk _ _ _ removed

end Sys2Proof.Machine
end

section
/-! The modes at every row: the intake, the bridge's own events, the host's commands and frames, the resets (R135, R142, R143,
R181, R182). -/

namespace Sys2Proof.Machine

/-! ## The intake (R135, R138, R139, R142) -/

/-- An intake that is not STOPPED may take a head to wait for, or let it go. -/
theorem State.setIntake_modesOk {s : State} {intake : Intake} {head : Option UpRequest}
    (hi : s.upstream.intake ≠ .stopped) (agree : head ≠ none ↔ intake = .waitHold ∨ intake = .waitForward)
    (hs : s.modesOk) : (s.setIntake intake head).modesOk := by
  obtain ⟨quiet, -, stopped, procedures⟩ := hs
  exact ⟨quiet, agree, fun h => absurd (stopped h) hi, procedures⟩

theorem State.refuseRequest_sameModes (s : State) (r : UpRequest) (reason : Reason) :
    s.SameModes (s.refuseRequest r reason) := (s.answerUp_sameModes _ _).trans (State.raise_sameModes _ _)

theorem State.enterHold_sameModes (s : State) (r : UpRequest) : s.SameModes (s.enterHold r) := by
  have joined : ∀ (u : State) journaled lines, u.SameModes (u.joinHold r journaled lines) := by
    intro u journaled lines
    constructor <;> simp
  unfold State.enterHold
  split
  · unfold State.admitWrite
    split
    · exact s.refuseRequest_sameModes _ _
    · next c newLines _ =>
      have inserted : s.SameModes (s.insertLines c newLines) := by constructor <;> simp
      exact (inserted.trans (joined _ _ _)).trans (State.noteDue_sameModes _)
    · exact joined _ _ _
  · exact joined _ _ _

theorem State.enterForward_sameModes (s : State) (r : UpRequest) : s.SameModes (s.enterForward r) := by
  constructor <;> simp

/-- A head is handed on by an intake that is not STOPPED: it leaves, or goes on waiting. -/
theorem State.handOn_modesOk {s : State} (r : UpRequest) (hi : s.upstream.intake ≠ .stopped) (hs : s.modesOk) :
    (s.handOn r).modesOk := by
  have taking : (s.setIntake .taking none).modesOk := State.setIntake_modesOk hi (by simp) hs
  unfold State.handOn
  (repeat' split)
  · exact (State.refuseRequest_sameModes _ _ _).modesOk taking
  · exact (State.enterHold_sameModes _ _).modesOk taking
  · exact State.setIntake_modesOk hi (by simp) hs
  · exact (State.enterForward_sameModes _ _).modesOk taking
  · exact State.setIntake_modesOk hi (by simp) hs

/-- The requests on the link are none of the intake's modes. -/
theorem State.withLink_sameModes (s : State) (link : List UpRequest) :
    s.SameModes { s with upstream := { s.upstream with link := link } } := by constructor <;> simp

theorem State.takeFromLink_modesOk {s : State} (hs : s.modesOk) : s.takeFromLink.modesOk := by
  unfold State.takeFromLink
  split
  · next ready =>
    split
    · exact hs
    · next r rest _ =>
      have left := (s.withLink_sameModes rest).modesOk hs
      unfold State.takeRequest
      split
      · have answered : ∀ u : State, u.SameModes (u.sendResponse r.tag .error) := by
          intro u
          constructor <;> simp
        exact ((answered _).trans (State.raise_sameModes _ _)).modesOk left
      · have tagged : ∀ u : State, u.SameModes (u.addTag r) := by
          intro u
          constructor <;> simp
        exact State.handOn_modesOk r (by simp [ready.2]) ((tagged _).modesOk left)
  · exact hs

theorem State.reclassify_modesOk {s : State} (hs : s.modesOk) : s.reclassify.modesOk := by
  unfold State.reclassify
  split
  · exact hs
  · split
    · next waits => exact State.handOn_modesOk _ (by rcases waits.2 with h | h <;> simp [h]) hs
    · exact hs

/-! ## The bridge's other events -/

theorem State.release_sameModes (s : State) : s.SameModes s.release := by
  unfold State.release
  (repeat' split)
  · exact .refl s
  · constructor <;> simp
  · exact .refl s

theorem State.captureHanded_sameModes (s : State) : s.SameModes s.captureHanded := by
  unfold State.captureHanded
  (repeat' split)
  · exact .refl s
  · constructor <;> simp
  · exact .refl s

theorem State.grant_sameModes (s : State) : s.SameModes s.grant := by
  have issued : ∀ d o, s.SameModes { s with downstream := d, out := o } := by
    intro d o
    constructor <;> simp
  have told : ∀ (u : State) o, u.SameModes (u.told o) := by
    intro u o
    unfold State.told
    (repeat' split)
    · constructor <;> simp
    · constructor <;> simp
    · exact u.handSweep_sameModes
    · exact .refl u
    · exact .refl u
  unfold State.grant
  (repeat' split)
  · exact (issued _ _).trans (told _ _)
  · exact .refl s
  · exact .refl s

/-- A take changes neither the state of a context nor which procedure it has; the engines may go on after a marker's. -/
theorem State.appendTake_modesOk {s : State} (hs : s.modesOk) : s.appendTake.modesOk := by
  have handed : ∀ (u : State) q data, u.SameModes (u.handAppend q data) := by
    intro u q data
    constructor <;> simp
  have looked : ∀ u : State, u.SameModes u.lookLow.lookSpace := by
    intro u
    constructor <;> simp
  unfold State.appendTake
  (repeat' split)
  · exact hs
  · next c l image _ =>
    have noted : ∀ (u : State) q, u.SameModes ((u.setFilterSeq l q).setStage l (.taken q)) := by
      intro u q
      constructor <;> simp
    have taken : s.SameModes (s.takePreImage c l image) :=
      (((s.withLog_sameModes _).trans (State.setContext_sameModes _ c _ (by rfl))).trans (noted _ _)).trans (handed _ _ _)
    exact (taken.trans (looked _)).modesOk hs
  · next kind c epoch incomplete _ =>
    have taken : s.SameModes (s.takeMarker kind c epoch incomplete) :=
      (((s.withLog_sameModes _).trans (State.setContext_sameModes _ c _ (by rfl))).trans
        (State.setProgress_sameModes _ c _ (by rfl))).trans (handed _ _ _)
    exact State.runEngines_modesOk ((taken.trans (looked _)).modesOk hs)
  · exact hs

theorem State.reclaim_sameModes (s : State) : s.SameModes s.reclaim := by
  unfold State.reclaim
  split
  · exact s.issueAnchor_sameModes _ _ _
  · exact .refl s

theorem State.cleanAnchor_sameModes (s : State) : s.SameModes s.cleanAnchor := by
  unfold State.cleanAnchor
  split
  · exact s.issueAnchor_sameModes _ _ _
  · exact .refl s

theorem State.finalDrainAnchor_sameModes (s : State) : s.SameModes s.finalDrainAnchor := by
  unfold State.finalDrainAnchor
  split
  · exact (s.withDrain_sameModes _).trans (State.issueAnchor_sameModes _ _ _ _)
  · exact .refl s

theorem State.endDrain_modesOk {s : State} (hs : s.modesOk) : s.endDrain.modesOk := by
  unfold State.endDrain
  (repeat' split)
  · next draining _ _ _ => exact State.enterDrained_modesOk _ draining.2 hs
  · next draining _ _ _ => exact State.enterDrained_modesOk _ draining.2 hs
  · exact hs
  · exact hs

/-! ## The host's commands (R101, R110, R5, R7, R8, R177, R179) -/

theorem State.itemSet_sameModes (s : State) (item : Item) (index : Byte) (v : BitVec 64) :
    s.SameModes (s.itemSet item index v).1 := by
  have geometry : ∀ ok g, s.SameModes (s.setGeometry ok g).1 := by
    intro ok g
    unfold State.setGeometry
    (repeat' split) <;> constructor <;> simp
  have region : ∀ e, s.SameModes (s.writeRegion index e).1 := by
    intro e
    unfold State.writeRegion
    split <;> constructor <;> simp
  cases item
  case region =>
    show s.SameModes (s.setRegionItem index v).1
    unfold State.setRegionItem
    (repeat' split)
    · exact region _
    · exact .refl s
    · exact .refl s
    · exact region _
  case quota =>
    show s.SameModes (s.setQuotaItem index v).1
    unfold State.setQuotaItem
    dsimp only
    (repeat' split)
    · exact .refl s
    · exact s.setContext_sameModes _ _ rfl
    · exact .refl s
  case ringBase | sizeExp | anchorAddr => exact geometry _ _
  case watermark | anchorStep | arbOrder | throttleRestore | throttleScan | eventMask =>
    simp only [State.itemSet, State.setWatermarkItem, State.setAnchorStepItem, State.setOrderItem,
      State.setThrottleRestoreItem, State.setThrottleScanItem, State.setMaskItem]
    split <;> constructor <;> simp
  case logHead | logTail | logFree | ctxInfo => exact .refl s

theorem State.setCommand_sameModes (s : State) (code index : Byte) (v : BitVec 64) :
    s.SameModes (s.setCommand code index v).1 := by
  unfold State.setCommand
  (repeat' split)
  case h_2.isFalse.isFalse.isFalse => exact s.itemSet_sameModes _ _ _
  all_goals exact .refl s

/-- An ATTACH is accepted in DETACHED alone (R101). -/
theorem State.attachCommand_modesOk {s : State} (mode : Byte) (hs : s.modesOk) : (s.attachCommand mode).1.modesOk := by
  unfold State.attachCommand
  (repeat' split)
  · exact hs
  · exact hs
  · next m _ detached _ =>
    have attaching : (s.setJournal .attaching).modesOk :=
      hs.leaveJournal (by rw [not_not.1 detached]; rfl) rfl rfl
    refine State.drainIfWarned_modesOk ?_
    cases m
    · exact (((State.setAttach_sameModes _ _).trans (State.setAttach_sameModes _ _)).trans
        (State.handAttachAnchor_sameModes _ _ _ _ _)).modesOk attaching
    · exact (((State.setAttach_sameModes _ _).trans (State.setAttach_sameModes _ _)).trans
        (State.handScan_sameModes _ _ _ _)).modesOk attaching
  · exact hs

/-- A DETACH is accepted in ATTACHED alone (R110). -/
theorem State.detachCommand_modesOk {s : State} (hs : s.modesOk) : s.detachCommand.1.modesOk := by
  unfold State.detachCommand
  (repeat' split)
  · exact hs
  · next attached _ =>
    exact State.drainIfWarned_modesOk (hs.leaveJournal (by rw [not_not.1 attached]; rfl) rfl rfl)
  · exact hs

theorem State.contextCommand_modesOk {s : State} (b : Byte) (run : State → Ctx → State × Reply)
    (h : ∀ c, (run s c).1.modesOk) (hs : s.modesOk) : (s.contextCommand b run).1.modesOk := by
  unfold State.contextCommand
  (repeat' split)
  · exact hs
  · exact hs
  · exact h _

/-- An IDLE context has no procedure, and neither has an OPEN one (R5). -/
theorem State.openContext_modesOk {s : State} (c : Ctx) (hs : s.modesOk) : (s.openContext c).1.modesOk := by
  unfold State.openContext
  dsimp only
  split
  · next idle =>
    exact hs.update (c := c) (by simp) (by simp [hs.procedures c, idle, ContextRecord.openEpoch, CtxState.procedure])
      fun d h => by simp [h]
  · exact hs

/-- A procedure begins with its context's state (R7, R8, R81). -/
theorem State.startProcedure_modesOk {s : State} (c : Ctx) (p : Procedure) (r : ContextRecord)
    (h : p = r.state.procedure) (hs : s.modesOk) : ((s.setContext c r).setProgress c (.start p)).modesOk :=
  hs.update (c := c) (by simp) (by simp [Progress.start, h]) fun d hd => by simp [hd]

theorem State.acceptCommit_modesOk {s : State} (c : Ctx) (hs : s.modesOk) : (s.acceptCommit c).modesOk :=
  State.runEngines_modesOk (State.startProcedure_modesOk c .commit _ rfl hs)

theorem State.acceptAbort_modesOk {s : State} (c : Ctx) (hs : s.modesOk) : (s.acceptAbort c).modesOk :=
  ((State.noteDue_sameModes _).trans (State.lookSpace_sameModes _)).modesOk (State.runEngines_modesOk
    ((State.refuseWhere_sameModes _ _ _).modesOk (State.startProcedure_modesOk c .abort _ rfl hs)))

/-- A soft reset stops the intake until the volatile reset (R143, R179). -/
theorem State.softResetCommand_modesOk {s : State} (hs : s.modesOk) : s.softResetCommand.1.modesOk := by
  have answered : ∀ l : List TagEntry, (l.foldl (fun u e => u.sendResponse e.tag .error) s).modesOk := fun l =>
    foldl_invariant State.modesOk _ (fun u e hu => State.SameModes.modesOk (by constructor <;> simp) hu) l s hs
  obtain ⟨quiet, -, -, procedures⟩ := answered s.upstream.tags
  exact ⟨quiet, by simp [State.softResetCommand, State.abandonUpstream], fun _ => rfl, procedures⟩

/-- Every command of the host keeps the modes in agreement. -/
theorem runCommand_modesOk {s : State} (c : FrameCommand) (hs : s.modesOk) : (runCommand c s).1.modesOk := by
  have waits : ∀ run : State → State × Reply, (run s).1.modesOk → (State.unlessWaiting run s).1.modesOk := by
    intro run h
    unfold State.unlessWaiting
    split
    · exact hs
    · exact h
  cases c with
  | nop | status => exact hs
  | clearOverrun => exact State.SameModes.modesOk (by constructor <;> simp [runCommand, State.clearCommand]) hs
  | get item index =>
    simp only [runCommand, State.getCommand]
    (repeat' split) <;> exact hs
  | popEvent =>
    simp only [runCommand, State.popCommand]
    split
    · exact hs
    · exact State.SameModes.modesOk (by constructor <;> simp) hs
  | set item index v => exact (s.setCommand_sameModes item index v).modesOk hs
  | attach mode => exact waits _ (State.attachCommand_modesOk mode hs)
  | detach => exact waits _ (State.detachCommand_modesOk hs)
  | openEpoch b => exact waits _ (State.contextCommand_modesOk b _ (fun c => State.openContext_modesOk c hs) hs)
  | commit b =>
    refine waits _ (State.contextCommand_modesOk b _ (fun c => ?_) hs)
    unfold State.commitContext
    dsimp only
    split
    case h_2 => exact State.acceptCommit_modesOk c hs
    all_goals exact hs
  | abort b =>
    refine waits _ (State.contextCommand_modesOk b _ (fun c => ?_) hs)
    unfold State.abortContext
    dsimp only
    split
    case h_2 | h_5 => exact State.acceptAbort_modesOk c hs
    all_goals exact hs
  | softReset => exact waits _ (State.softResetCommand_modesOk hs)

/-! ## Frames (R170 to R174) -/

/-- The link's frame, buffers and MDO are none of the modes. -/
theorem State.withFrame_sameModes (s : State) {m : ManagementLink} (o : Outputs) (h : m.waiting = s.mgmt.waiting) :
    s.SameModes { s with mgmt := m, out := o } := ⟨rfl, rfl, rfl, rfl, h, fun _ => rfl, fun _ => rfl⟩

theorem frameRun_modesOk {s : State} (bytes : List Byte) (hs : s.modesOk) : (frameRun bytes s).1.modesOk := by
  unfold frameRun
  cases frameCommand bytes with
  | none => exact hs
  | some c => exact runCommand_modesOk c hs

theorem State.frame_modesOk {s : State} (bytes : List Byte) (run : State → State × Reply) (h : (run s).1.modesOk)
    (hs : s.modesOk) : (s.frame bytes run).modesOk := by
  unfold State.frame
  split
  · exact (s.withFrame_sameModes _ rfl).modesOk hs
  · dsimp only
    split
    · exact (State.withFrame_sameModes _ _ rfl).modesOk (frameRun_modesOk _ hs)
    · exact (State.withFrame_sameModes _ _ rfl).modesOk h

theorem State.beginFrame_modesOk {s : State} (bytes : List Byte) (hs : s.modesOk) : (s.beginFrame bytes).modesOk := by
  refine (s.withFrame_sameModes _ ?_).modesOk hs
  split <;> rfl

/-! ## The resets and every row (R181, R182) -/

/-- Both resets leave modes that agree. -/
theorem State.modesOk_of_reset {s : State} (ha : s.attach = .reset) (hi : s.upstream.intake = .taking)
    (hh : s.upstream.head = none) (hw : s.mgmt.waiting = false) (he : s.engine = Quad.all .reset)
    (hc : ∀ c, (s.contexts.get c).state = .idle) : s.modesOk := by
  rw [State.modesOk, ha, hi, hh, hw, he]
  refine ⟨by decide, by decide, by decide, fun c => ?_⟩
  rw [Quad.get_all, hc]
  rfl

theorem State.volatileReset_modesOk {s : State} (hs : s.modesOk) : s.volatileReset.modesOk := by
  unfold State.volatileReset
  split
  · refine State.drainIfWarned_modesOk (State.modesOk_of_reset rfl rfl rfl rfl rfl fun c => ?_)
    simp [State.softValues, ContextRecord.softReset, ContextRecord.reset]
  · exact hs

/-- The levels of the pins are none of the modes. -/
theorem State.withPins_sameModes (s : State) (p : Pins) : s.SameModes { s with pins := p } := by
  constructor <;> simp

/-- Every row keeps the modes in agreement. -/
theorem exec_modesOk {i : Instr} {s t : State} (hs : s.modesOk) (h : exec i s = .next t) : t.modesOk := by
  cases i
  case malformedFrame part =>
    cases part <;> obtain rfl := Host.Outcome.next.inj h
    · exact State.frame_modesOk _ _ (frameRun_modesOk _ hs) hs
    · exact State.beginFrame_modesOk _ hs
  all_goals obtain rfl := Host.Outcome.next.inj h
  case powerOnReset => exact State.modesOk_of_reset rfl rfl rfl rfl rfl fun c => by fin_cases c <;> rfl
  case rstRelease =>
    unfold State.releaseReset
    split
    · exact State.drainIfWarned_modesOk ((s.withPins_sameModes _).modesOk hs)
    · exact hs
  case pfailAsserted => exact State.drainIfWarned_modesOk ((s.withPins_sameModes _).modesOk hs)
  case pfailDeasserted => exact (s.withPins_sameModes _).modesOk hs
  case volatileReset => exact State.volatileReset_modesOk hs
  case upstreamRequest arrival => exact State.takeFromLink_modesOk ((s.withLink_sameModes _).modesOk hs)
  case headReclassified => exact State.reclassify_modesOk hs
  case release => exact s.release_sameModes.modesOk hs
  case captureReadHanded => exact s.captureHanded_sameModes.modesOk hs
  case grant => exact s.grant_sameModes.modesOk hs
  case appendTake => exact State.appendTake_modesOk hs
  case reclamationAnchorWrite => exact s.reclaim_sameModes.modesOk hs
  case cleanAnchorWrite => exact s.cleanAnchor_sameModes.modesOk hs
  case finalDrainAnchorWrite => exact s.finalDrainAnchor_sameModes.modesOk hs
  case drained => exact State.endDrain_modesOk hs
  case straightAnswer | forwardedEntryAnswer | captureReadAnswer | appendAnswer | anchorWriteAnswer | restoreReadAnswer |
      restoreWriteAnswer | scanReadAnswer | scanWriteAnswer | strayAnswer => exact State.takeAnswer_modesOk _ _ hs
  all_goals exact State.frame_modesOk _ _ (runCommand_modesOk _ hs) hs

/-- Settles O7: every row keeps the modes in agreement, and the queue is none of them. -/
theorem stepKeepsTheModesAgreeing : Obligations.StepKeepsTheModesAgreeing := by
  intro s t hs h
  unfold step at h
  split at h
  · obtain rfl := Host.Outcome.next.inj h
    exact hs
  · next rest _ => exact exec_modesOk (s := { s with pending := rest }) hs h

end Sys2Proof.Machine
end

section
/-! DETACH (R110), the end of a drain (R116 to R118), and the pins with the power-on values (R114, R174, R182). -/

namespace Sys2Proof.Machine

/-! ## DETACH (R110) -/

theorem State.allIdle_iff (s : State) : s.allIdle = true ↔ ∀ c, (s.contexts.get c).state = .idle := by
  have every : ∀ c : Ctx, c ∈ allContexts := by decide
  simp [State.allIdle, every]

/-- The journal state and then the contexts decide a DETACH. -/
theorem runCommand_detach {s : State} (hw : s.mgmt.waiting = false) (hp : s.pins.pfail = false) :
    (s.attach.journal ≠ .attached → runCommand .detach s = (s, .badState)) ∧
    (s.attach.journal = .attached → s.allIdle = false → runCommand .detach s = (s, .busy)) ∧
    (s.attach.journal = .attached → s.allIdle = true → runCommand .detach s = (s.setJournal .detaching, .ok)) := by
  have run : runCommand .detach s = if s.attach.journal ≠ .attached then (s, .badState)
      else if s.allIdle = true then (s.setJournal .detaching, .ok) else (s, .busy) := by
    simp only [runCommand, State.unlessWaiting, State.detachCommand, hw, Bool.false_eq_true, if_false,
      State.drainIfWarned_of_pfail (s.setJournal .detaching) hp]
  rw [run]
  refine ⟨fun hj => if_pos hj, fun hj hi => ?_, fun hj hi => ?_⟩
  · rw [if_neg (not_not.2 hj), if_neg (ne_true_of_eq_false hi)]
  · rw [if_neg (not_not.2 hj), if_pos hi]

/-- Settles O18: the frame runs the command, which the journal state and then the contexts decide. -/
theorem detachNeedsEveryContextIdle : Obligations.DetachNeedsEveryContextIdle := by
  intro s extra hs hp
  obtain ⟨elsewhere, busy, accepted⟩ := runCommand_detach hs.2 hp
  refine ⟨fun hj => ?_, fun hj ⟨c, hc⟩ => ?_, fun hj hc => ?_⟩
  · exact congrArg _ (State.frameOf_of_run hs.1 extra (elsewhere hj))
  · have occupied : s.allIdle = false := Bool.eq_false_iff.2 fun h => hc (s.allIdle_iff.1 h c)
    exact congrArg _ (State.frameOf_of_run hs.1 extra (busy hj occupied))
  · exact congrArg _ (State.frameOf_of_run hs.1 extra (accepted hj (s.allIdle_iff.2 hc)))

/-! ## DRAINED (R116 to R118) -/

theorem DownstreamPort.idle_iff (d : DownstreamPort) : d.idle = true ↔
    d.outstanding = [] ∧ d.forwardQueue = [] ∧ d.anchorList = [] ∧ d.appendList = [] ∧ d.captureList = [] ∧
      d.restoreList = [] ∧ d.scanList = [] := by
  simp [DownstreamPort.idle, and_assoc]

/-- A drain after an anchor error, or from BROKEN or ATTACHING, makes no final anchor write (R116). -/
theorem DrainRecord.not_writesAnchor {d : DrainRecord}
    (h : d.anchorError = true ∨ d.origin = some .broken ∨ d.origin = some .attaching) : ¬ d.writesAnchor = true := by
  rw [d.writesAnchor_iff]
  rintro ⟨origin, unfailed⟩
  rcases h with h | h | h
  · simp [h] at unfailed
  · simp [h] at origin
  · simp [h] at origin

/-- Settles O58: the drain ends with the result it holds, or with SKIPPED where it makes no write and the port is idle. -/
theorem drainEndsQuiet : Obligations.DrainEndsQuiet := by
  intro s detail hs hj hd
  have ended : s.endDrain = s.enterDrained detail := by
    refine (if_pos ⟨s.live_iff_working.2 hs, hj⟩).trans ?_
    rcases hd with answered | ⟨unanswered, rfl, noWrite, idle⟩
    · rw [answered]
    · rw [unanswered]
      exact if_pos ⟨s.downstream.idle_iff.2 idle, DrainRecord.not_writesAnchor noWrite⟩
  exact congrArg Host.Outcome.next ended

/-! ## The pins (R114, R174, R182) -/

/-- A frame in progress is discarded to its end, and no frame begins by a reset (R174, log entry 14). -/
theorem FramePhase.cut_eq (f : FramePhase) : f.cut = if f = .none then .none else .discarded := by
  cases f <;> rfl

theorem State.releaseReset_of_pfail {s : State} (hp : s.pins.pfail = false) :
    s.releaseReset = { s with pins := { s.pins with rst := false } } := by
  unfold State.releaseReset
  split
  case isTrue => exact State.drainIfWarned_of_pfail _ hp
  case isFalse h =>
    have released : s.pins.rst = false := Bool.eq_false_iff.2 h
    rw [← released]

/-- Settles O27: the power-on values field by field, the frame's phase by `FramePhase.cut_eq`; no drain follows a release
with PFAIL_N deasserted. -/
theorem powerOnResetAndPinLevels : Obligations.PowerOnResetAndPinLevels := by
  refine fun s => ⟨?_, fun hp => congrArg Host.Outcome.next (State.releaseReset_of_pfail hp), rfl⟩
  rw [← FramePhase.cut_eq]
  rfl

end Sys2Proof.Machine
end

section
/-! The answers of the SCAN requester while an attach runs: to the anchor read, the scan reads and the replay reads of a
resume (R103 to R106). -/

namespace Sys2Proof.Machine

/-! ## Routing (R117, R155) -/

section
variable {s : State} {tag : BitVec 4} {lines : List Line} {step : AttachStep}

/-- The answer to a read of the SCAN requester is the attach's (R155). -/
theorem exec_scanRead (a : Answer) (haw : s.awaits { tag := tag, owner := .scan step false, lines := lines }) :
    exec (.scanReadAnswer tag a) s = .next ((s.answered tag).scanAnswer step false a) :=
  congrArg Host.Outcome.next (State.takeAnswer_of_awaits haw a)

/-- The answer to a write of the SCAN requester is the attach's (R155). -/
theorem exec_scanWrite (a : Answer) (haw : s.awaits { tag := tag, owner := .scan step true, lines := lines }) :
    exec (.scanWriteAnswer tag a) s = .next ((s.answered tag).scanAnswer step true a) :=
  congrArg Host.Outcome.next (State.takeAnswer_of_awaits haw a)

/-- Once the attach is over an answer is discarded (R117). -/
theorem State.scanAnswer_of_over (isWrite : Bool) (a : Answer) (h : s.attach.journal ≠ .attaching) :
    s.scanAnswer step isWrite a = s := if_neg fun running => h running.1

end

/-! ## The recovery record (R105) -/

/-- The table of R105. -/
theorem Recovery.track_table (r : Recovery) (e : Epoch) (q : Seq) :
    (r.latest ≠ some e → r.track .preImage e q = { latest := some e, finished := false, first := some q }) ∧
    (r.latest = some e → r.track .preImage e q = r) ∧
    ∀ kind, kind = .commit ∨ kind = .aborted →
      (r.latest = some e → r.track kind e q = { r with finished := true }) ∧
      (r.latest ≠ some e → r.track kind e q = { latest := some e, finished := true, first := none }) := by
  refine ⟨fun h => if_neg h, fun h => if_pos h, ?_⟩
  rintro kind (rfl | rfl) <;> exact ⟨fun h => if_pos h, fun h => if_neg h⟩

/-! ## The scan reads (R104, R105) -/

section
variable {s : State} {tag : BitVec 4} {lines : List Line} {data : List Byte}

/-- The progress record once the slot at the position has been accepted as a record (R104, R105). -/
def AttachProgress.tracks (p : AttachProgress) (record : SlotRecord) : AttachProgress :=
  { p with
    recovery := p.recovery.set record.ctx ((p.recovery.get record.ctx).track record.kind record.epoch p.position)
    scanned := p.scanned + 1
    position := p.position + 1 }

/-- A slot accepted is tracked, and the scan goes on or is at the S-th slot (R104, R105). -/
theorem State.scanReadAnswer_accepted {record : SlotRecord}
    (h : acceptSlot (readBytes 128 data) s.attach.progress.position = some record) :
    s.scanReadAnswer (.done data) =
      if s.attach.progress.scanned + 1 = s.attach.progress.slots.toNat then
        (s.setAttach (s.attach.progress.tracks record)).stopScan
      else (s.setAttach (s.attach.progress.tracks record)).readSlot .scanning := by
  simp only [State.scanReadAnswer, h]
  rfl

/-- A slot not accepted ends the scan where it stands (R104). -/
theorem State.scanReadAnswer_refused (h : acceptSlot (readBytes 128 data) s.attach.progress.position = none) :
    s.scanReadAnswer (.done data) = s.stopScan := by
  simp only [State.scanReadAnswer, h]

/-- The answer to the slot read of a running scan. -/
theorem exec_scanSlotRead (a : Answer)
    (haw : s.awaits { tag := tag, owner := .scan .scanning false, lines := lines })
    (hj : s.attach.journal = .attaching) (hs : s.attach.progress.step = .scanning) :
    exec (.scanReadAnswer tag a) s = .next ((s.answered tag).scanReadAnswer a) :=
  (exec_scanRead a haw).trans (congrArg Host.Outcome.next (if_pos ⟨hj, hs⟩))

/-! ## The anchor read (R103) -/

/-- No copy is current when neither is valid (R54). -/
theorem currentAnchor_of_invalid {slot : List Byte} (hlow : readAnchorCopy (slot.take 64) = none)
    (hhigh : readAnchorCopy ((slot.drop 64).take 64) = none) : currentAnchor slot = none := by
  simp only [currentAnchor, hlow, hhigh]

theorem State.anchorReadAnswer_invalid (h : currentAnchor (readBytes 128 data) = none) :
    s.anchorReadAnswer (.done data) = s.failAttach .noAnchor none := by
  simp only [State.anchorReadAnswer, h]

/-- A CLEAN anchor leads to the final anchor (R103). -/
theorem State.anchorReadAnswer_clean {a : AnchorCopy} (h : currentAnchor (readBytes 128 data) = some a)
    (ha : a.state = .clean) : s.anchorReadAnswer (.done data) =
      (s.setAttach { s.attach.progress with current := some a, headFound := a.tail }).startFinal := by
  simp only [State.anchorReadAnswer, h, ha]

/-- An ACTIVE anchor leads to the scan from its tail (R103, R104). -/
theorem State.anchorReadAnswer_active {a : AnchorCopy} (h : currentAnchor (readBytes 128 data) = some a)
    (ha : a.state = .active) : s.anchorReadAnswer (.done data) =
      (s.setAttach { s.attach.progress with current := some a, step := .scanning, position := a.tail }).readSlot
        .scanning := by
  simp only [State.anchorReadAnswer, h, ha]

/-- The answer to the read of the anchor slot. -/
theorem exec_anchorRead (a : Answer)
    (haw : s.awaits { tag := tag, owner := .scan .readingAnchor false, lines := lines })
    (hj : s.attach.journal = .attaching) (hs : s.attach.progress.step = .readingAnchor) :
    exec (.scanReadAnswer tag a) s = .next ((s.answered tag).anchorReadAnswer a) :=
  (exec_scanRead a haw).trans (congrArg Host.Outcome.next (if_pos ⟨hj, hs⟩))

/-! ## The replay reads (R106) -/

/-- What the replay writes back: a PRE_IMAGE of the latest epoch, unfinished, of its context (R106). -/
theorem AttachProgress.restores_iff (p : AttachProgress) (record : SlotRecord) : p.restores record = true ↔
    record.kind = .preImage ∧ (p.recovery.get record.ctx).latest = some record.epoch ∧
      (p.recovery.get record.ctx).finished = false := by
  simp only [AttachProgress.restores, Recovery.unfinished, Bool.and_eq_true, decide_eq_true_eq, beq_iff_eq,
    Bool.not_eq_true']
  constructor
  · rintro ⟨⟨kind, _, finished⟩, latest⟩
    exact ⟨kind, latest, finished⟩
  · rintro ⟨kind, latest, finished⟩
    exact ⟨⟨kind, by rw [latest]; rfl, finished⟩, latest⟩

/-- An accepted slot is written back or passed over (R106). -/
theorem State.replayReadAnswer_accepted {record : SlotRecord}
    (h : acceptSlot (readBytes 128 data) s.attach.progress.position = some record) :
    s.replayReadAnswer (.done data) =
      if s.attach.progress.restores record then
        s.handScan (writeRequest (lineAddress record.line) record.image) .replaying true
      else s.nextSequence := by
  simp only [State.replayReadAnswer, h]

/-- A slot not accepted ends the attach (R106). -/
theorem State.replayReadAnswer_refused (h : acceptSlot (readBytes 128 data) s.attach.progress.position = none) :
    s.replayReadAnswer (.done data) = s.failAttach .failedRestore (some s.attach.progress.position) := by
  simp only [State.replayReadAnswer, h]

/-- The answer to the slot read of a running replay. -/
theorem exec_replayRead (a : Answer)
    (haw : s.awaits { tag := tag, owner := .scan .replaying false, lines := lines })
    (hj : s.attach.journal = .attaching) (hs : s.attach.progress.step = .replaying) :
    exec (.scanReadAnswer tag a) s = .next ((s.answered tag).replayReadAnswer a) :=
  (exec_scanRead a haw).trans (congrArg Host.Outcome.next (if_pos ⟨hj, hs⟩))

end

/-- Settles O55: the table of R105, the answer after the attach, then the three reads of a resume: a scan read, the anchor
read, a replay read. -/
theorem scanReadAdvancesTheRecovery : Obligations.ScanReadAdvancesTheRecovery := by
  refine ⟨Recovery.track_table, fun s tag lines step a haw hj => ?_, fun s tag lines data p hj hp hf => ?_⟩
  · exact (exec_scanRead a haw).trans (congrArg _ (State.scanAnswer_of_over (s := s.answered tag) false a hj))
  · subst hp
    have fails result sequence := (s.answered tag).failAttach_fails result sequence hf
    refine ⟨fun haw hs => ?_, fun haw hs => ?_, fun haw hs => ?_⟩
    · have taken a := exec_scanSlotRead a haw hj hs
      refine ⟨?_, fun a refused ha => ⟨_, taken _, ?_⟩, _, taken .error, fails _ _⟩
      · rintro record tracked slot rfl
        have accepted := State.scanReadAnswer_accepted (s := s.answered tag) slot
        refine ⟨fun more => ?_, fun a full ha => ⟨_, taken _, ?_⟩⟩
        · exact (taken _).trans (congrArg _ (accepted.trans (if_neg more)))
        · rw [accepted.trans (if_pos full)]
          exact State.stopScan_ends _ _ a ha
      · rw [State.scanReadAnswer_refused (s := s.answered tag) refused]
        exact State.stopScan_ends _ _ a ha
    · have taken a := exec_anchorRead a haw hj hs
      refine ⟨fun low high => ⟨_, taken _, ?_⟩, fun a current => ⟨fun clean => ⟨_, taken _, ?_⟩, fun active => ?_⟩, _,
        taken .error, fails _ _⟩
      · rw [State.anchorReadAnswer_invalid (currentAnchor_of_invalid low high)]
        exact fails _ _
      · rw [State.anchorReadAnswer_clean current clean]
        exact State.startFinal_begins _ _ a rfl
      · exact (taken _).trans (congrArg _ (State.anchorReadAnswer_active (s := s.answered tag) current active))
    · have taken a := exec_replayRead a haw hj hs
      refine ⟨fun record slot => ?_, fun refused => ⟨_, taken _, ?_⟩, _, taken .error, fails _ _⟩
      · have accepted := State.replayReadAnswer_accepted (s := s.answered tag) slot
        have restores := s.attach.progress.restores_iff record
        refine ⟨fun kind latest unfinished => ?_, fun a passed ha => ⟨_, taken _, ?_⟩⟩
        · exact (taken _).trans (congrArg _ (accepted.trans (if_pos (restores.2 ⟨kind, latest, unfinished⟩))))
        · rw [accepted.trans (if_neg (mt restores.1 ?_))]
          · exact State.nextSequence_ends _ _ a ha
          · rintro ⟨kind, latest, unfinished⟩
            simp [kind, latest, unfinished] at passed
      · rw [State.replayReadAnswer_refused (s := s.answered tag) refused]
        exact fails _ _

end Sys2Proof.Machine
end

section
/-! The answers to the writes of the SCAN requester: a replay write of a resume and a sweep write of a format (R102, R106,
R107). -/

namespace Sys2Proof.Machine

/-! ## Where the backward replay ends (R106) -/

/-- The replay ends at the first sequence of an unfinished epoch that no other is nearer to the tail than. -/
theorem AttachProgress.replayEnd_eq_some_iff (p : AttachProgress) (tail q : Seq) :
    p.replayEnd tail = some q ↔ (∃ c, p.leavesOpen c ∧ (p.recovery.get c).first = some q) ∧
      ∀ c x, p.leavesOpen c → (p.recovery.get c).first = some x → distance tail q ≤ distance tail x := by
  refine ⟨fun h => ?_, fun ⟨first, least⟩ => ?_⟩
  · unfold AttachProgress.replayEnd at h
    have nonempty : (allContexts.filterMap fun c =>
        if (p.recovery.get c).unfinished then (p.recovery.get c).first else none) ≠ [] := by
      intro empty
      rw [empty] at h
      cases h
    obtain ⟨q', hq', member, least⟩ := leastFrom_spec tail _ nonempty
    obtain rfl : q' = q := Option.some.inj (hq'.symm.trans h)
    exact ⟨(p.mem_firsts q').1 member, fun c x hc hx => least x ((p.mem_firsts x).2 ⟨c, hc, hx⟩)⟩
  · refine leastFrom_eq_some ((p.mem_firsts q).2 first) fun x hx => ?_
    obtain ⟨c, hc, hf⟩ := (p.mem_firsts x).1 hx
    exact least c x hc hf

section
variable {s : State} {tag : BitVec 4} {lines : List Line}

/-! ## The writes of a running attach (R102, R106) -/

/-- The answer to the write of a running replay. -/
theorem exec_replayWrite (a : Answer) (haw : s.awaits { tag := tag, owner := .scan .replaying true, lines := lines })
    (hj : s.attach.journal = .attaching) (hs : s.attach.progress.step = .replaying) :
    exec (.scanWriteAnswer tag a) s = .next ((s.answered tag).replayWriteAnswer a) :=
  (exec_scanWrite a haw).trans (congrArg Host.Outcome.next (if_pos ⟨hj, hs⟩))

/-- The answer to a write of a running sweep. -/
theorem exec_sweepWrite (a : Answer) (haw : s.awaits { tag := tag, owner := .scan .sweeping true, lines := lines })
    (hj : s.attach.journal = .attaching) (hs : s.attach.progress.step = .sweeping) :
    exec (.scanWriteAnswer tag a) s = .next ((s.answered tag).sweepAnswer a) :=
  (exec_scanWrite a haw).trans (congrArg Host.Outcome.next (if_pos ⟨hj, hs⟩))

/-! ## The end of the sweep (R102, log entry 17) -/

theorem DownstreamPort.sweepOver_iff (d : DownstreamPort) : d.sweepOver = true ↔
    d.scanList = [] ∧ ∀ o ∈ d.outstanding, o.owner ≠ .scan .sweeping true := by
  simp [DownstreamPort.sweepOver]

/-- After the answer under a tag the sweep is over once nothing is handed and nothing else of it is outstanding. -/
theorem State.answered_sweepOver_iff (s : State) (tag : BitVec 4) : (s.answered tag).downstream.sweepOver = true ↔
    s.downstream.scanList = [] ∧ ∀ o ∈ s.downstream.outstanding, o.tag = tag ∨ o.owner ≠ .scan .sweeping true := by
  rw [DownstreamPort.sweepOver_iff]
  simp [State.answered, or_iff_not_imp_left]

/-- The state once a sweep write has failed: no more is handed, and what is not granted is withdrawn (log entry 17). -/
def State.sweepFailed (s : State) : State :=
  { s with
    attach := { s.attach with progress := { s.attach.progress with failed := true } }
    downstream := { s.downstream with scanList := [] } }

theorem State.sweepAnswer_error (s : State) : s.sweepAnswer .error = s.sweepFailed.endSweep := rfl

/-- After a failed sweep write the sweep is over once nothing else of it is outstanding. -/
theorem State.sweepFailed_sweepOver_iff (s : State) (tag : BitVec 4) :
    (s.answered tag).sweepFailed.downstream.sweepOver = true ↔
      ∀ o ∈ s.downstream.outstanding, o.tag = tag ∨ o.owner ≠ .scan .sweeping true := by
  rw [DownstreamPort.sweepOver_iff]
  simp [State.sweepFailed, State.answered, or_iff_not_imp_left]

theorem State.endSweep_of_busy {s : State} (h : ¬ s.downstream.sweepOver = true) : s.endSweep = s := if_neg h

/-- The sweep at its end: the anchor of the format, or FAILED_WRITE after an error (R102). -/
theorem State.endSweep_of_over {s : State} (h : s.downstream.sweepOver = true) (hf : s.pins.pfail = false) :
    (s.attach.progress.failed = false → s.endSweep = s.formatsAnchor) ∧
    (s.attach.progress.failed = true → s.failsAttach .failedWrite none s.endSweep) := by
  refine ⟨fun clean => (if_pos h).trans (if_neg (ne_true_of_eq_false clean)), fun failed => ?_⟩
  rw [show s.endSweep = s.failAttach .failedWrite none from (if_pos h).trans (if_pos failed)]
  exact s.failAttach_fails _ _ hf

end

/-- Settles O56: where the replay ends, then the replay writes, and the sweep writes by whether the sweep is over. -/
theorem replayWriteAdvancesTheRecovery : Obligations.ReplayWriteAdvancesTheRecovery := by
  refine ⟨fun s tag lines step a haw hj => ?_, fun p tail q _ => p.replayEnd_eq_some_iff tail q,
    fun s tag lines data p a haw hj hp hs ha hf => ?_, fun s tag lines data haw hj hs hf => ?_⟩
  · exact (exec_scanWrite a haw).trans (congrArg _ (State.scanAnswer_of_over (s := s.answered tag) true a hj))
  · subst hp
    have taken answer := exec_replayWrite answer haw hj hs
    exact ⟨⟨_, taken (.done data), State.nextSequence_ends _ _ a ha⟩, _, taken .error, State.failAttach_fails _ _ _ hf⟩
  · rw [exec_sweepWrite (.done data) haw hj hs, exec_sweepWrite .error haw hj hs, State.sweepAnswer_error]
    refine ⟨fun more => ?_, fun handed outstanding => ?_, fun ⟨o, ho, other, sweeping⟩ => ?_, fun outstanding => ?_⟩
    · refine congrArg Host.Outcome.next (State.endSweep_of_busy ?_)
      rw [State.answered_sweepOver_iff]
      rintro ⟨handed, outstanding⟩
      rcases more with more | ⟨o, ho, other, sweeping⟩
      · exact more handed
      · exact (outstanding o ho).elim other (absurd sweeping)
    · obtain ⟨formats, fails⟩ := State.endSweep_of_over ((s.answered_sweepOver_iff tag).2 ⟨handed, outstanding⟩) hf
      exact ⟨fun clean => congrArg Host.Outcome.next (formats clean), fun failed => ⟨_, rfl, fails failed⟩⟩
    · refine congrArg Host.Outcome.next (State.endSweep_of_busy ?_)
      rw [State.sweepFailed_sweepOver_iff]
      exact fun outstanding => (outstanding o ho).elim other (absurd sweeping)
    · obtain ⟨-, fails⟩ := State.endSweep_of_over ((s.sweepFailed_sweepOver_iff tag).2 outstanding) hf
      exact ⟨_, rfl, fails rfl⟩

end Sys2Proof.Machine
end

section
/-! SET of a region entry (R121, R122, R177, R187), and a request refused before admission (R126, R129 to R132, R135,
R136). -/

namespace Sys2Proof.Machine

/-! ## SET(REGION) (R121, R122, R177) -/

/-- The state check of R122. -/
theorem State.regionsEditable_iff (s : State) :
    s.regionsEditable = true ↔ (∀ c, (s.contexts.get c).state = .idle) ∧ s.hold = [] := by
  rw [State.regionsEditable, Bool.and_eq_true, State.allIdle_iff, List.isEmpty_iff]

/-- The checks of R121 on a PASS or GUARD entry's mask and closed action (check 5). -/
theorem RegionEntry.settingsOk_iff (e : RegionEntry) :
    e.settingsOk = true ↔ e.kind = .journal ∨ (e.mask = 0 ∧ e.closed = .forward) := by
  unfold RegionEntry.settingsOk
  cases e.kind <;> simp

/-- A value of kind code 3 packs no entry (R187). -/
theorem regionOfValue_eq_none {v : BitVec 64} (h : v.extractLsb' 56 2 = 3#2) : regionOfValue v = none := by
  simp [regionOfValue, h]

/-- A region write is taken where the table may be edited, else BUSY (R122). -/
theorem State.writeRegion_eq (s : State) (n : Fin 16) (e : RegionEntry) :
    s.writeRegion (BitVec.ofNat 8 n.val) e =
      (if (∀ c, (s.contexts.get c).state = .idle) ∧ s.hold = [] then { s with regions := s.regions.set n.val e } else s,
       if (∀ c, (s.contexts.get c).state = .idle) ∧ s.hold = [] then .ok else .busy) := by
  have number : (BitVec.ofNat 8 n.val).toNat % 16 = n.val := by
    rw [BitVec.toNat_ofNat]
    omega
  by_cases editable : (∀ c, (s.contexts.get c).state = .idle) ∧ s.hold = []
  · rw [State.writeRegion, if_pos (s.regionsEditable_iff.2 editable), if_pos editable, if_pos editable]
    simp only [number]
  · rw [State.writeRegion, if_neg (mt s.regionsEditable_iff.1 editable), if_neg editable, if_neg editable]

/-- A value with the valid bit clear resets the entry, whatever its other bits (R121). -/
theorem State.setRegionItem_invalid (s : State) (index : Byte) {v : BitVec 64} (h : v.getLsbD 63 = false) :
    s.setRegionItem index v = s.writeRegion index .reset := by
  rw [State.setRegionItem, h]
  rfl

/-- A valid value of kind code 3 fails R121's check of the kind. -/
theorem State.setRegionItem_noKind (s : State) (index : Byte) {v : BitVec 64} (h : v.getLsbD 63 = true)
    (hk : v.extractLsb' 56 2 = 3#2) : s.setRegionItem index v = (s, .badRange) := by
  rw [State.setRegionItem, h, regionOfValue_eq_none hk]
  rfl

/-- The value of a valid entry: the checks of R121 come before the state check of R122. -/
theorem State.setRegionItem_value (s : State) (index : Byte) {e : RegionEntry} (h : e.valid = true) :
    s.setRegionItem index e.value =
      if e.base ≤ e.limit ∧ (e.kind = .journal ∨ (e.mask = 0 ∧ e.closed = .forward)) then s.writeRegion index e
      else (s, .badRange) := by
  obtain ⟨-, -, -, -, -, valid⟩ := e.value_layout
  have checks : (e.limit < e.base ∨ ¬ e.settingsOk = true) ↔
      ¬ (e.base ≤ e.limit ∧ (e.kind = .journal ∨ (e.mask = 0 ∧ e.closed = .forward))) := by
    rw [← e.settingsOk_iff, not_and_or, BitVec.not_le]
  rw [State.setRegionItem, valid, h, regionOfValue_value]
  exact (if_congr checks rfl rfl).trans (ite_not _ _ _)

/-- A SET of an index that its item does not have, also while a soft reset waits (R177). -/
theorem setCommand_of_badIndex (s : State) {code index : Byte} {item : Item} (v : BitVec 64)
    (hc : itemOfCode code = some item) (hi : item.indexOk index = false) :
    runCommand (.set code index v) s = (s, .badRange) := by
  simp [runCommand, State.setCommand, hc, hi]

/-- A SET(REGION) of an entry that the table has leaves what the item's rule leaves, and its reply. -/
theorem exec_setRegion_of_item {s t : State} {n : Fin 16} {v : BitVec 64} {r : Reply} (hs : s.serving) (extra : Nat)
    (h : s.setRegionItem (BitVec.ofNat 8 n.val) v = (t, r)) :
    exec (.setRegion (BitVec.ofNat 8 n.val) v extra) s = .next (s.afterFrame (11 + extra) t r) := by
  have named : Item.region.indexOk (BitVec.ofNat 8 n.val) = true := by
    rw [Item.indexOk, BitVec.toNat_ofNat, decide_eq_true_eq]
    omega
  exact congrArg Host.Outcome.next
    (State.frameOf_of_run hs.1 extra ((setCommand_of_item (item := .region) v rfl named rfl hs.2).trans h))

/-- Settles O15: the index, the checks on the value, then the state check that `State.writeRegion` makes. -/
theorem setRegionChecksAndWrites : Obligations.SetRegionChecksAndWrites := by
  refine ⟨fun s n e extra hs valid => exec_setRegion_of_item hs extra ?_, fun s n v extra hs invalid => ?_,
    fun s n v extra hs valid noKind => ?_, fun s index v extra hs beyond => ?_⟩
  · rw [State.setRegionItem_value s _ valid, State.writeRegion_eq]
    by_cases passes : e.base ≤ e.limit ∧ (e.kind = .journal ∨ (e.mask = 0 ∧ e.closed = .forward))
    · obtain ⟨bounds, settings⟩ := id passes
      simp only [bounds, settings, true_and, and_self, if_true]
    · have unwritten : ¬ (e.base ≤ e.limit ∧ (e.kind = .journal ∨ (e.mask = 0 ∧ e.closed = .forward)) ∧
          (∀ c, (s.contexts.get c).state = .idle) ∧ s.hold = []) := fun ⟨bounds, settings, _⟩ => passes ⟨bounds, settings⟩
      rw [if_neg passes, if_neg unwritten, if_neg passes]
  · exact exec_setRegion_of_item hs extra ((s.setRegionItem_invalid _ invalid).trans (s.writeRegion_eq n .reset))
  · exact exec_setRegion_of_item hs extra (s.setRegionItem_noKind _ valid noKind)
  · have unnamed : Item.region.indexOk index = false := by simpa [Item.indexOk, BitVec.le_def] using beyond
    exact congrArg Host.Outcome.next
      (State.frameOf_of_run hs extra (setCommand_of_badIndex s (item := .region) v rfl unnamed))

/-! ## A request refused before admission (R126, R129 to R132, R135, R136) -/

/-- The form checks of R136. -/
theorem State.malformedRequest_iff (s : State) (r : UpRequest) : s.malformedRequest r = true ↔
    r.length = 0 ∨ 256 < r.length ∨ 256 < r.address.toNat % 256 + r.length ∨ ∃ e ∈ s.upstream.tags, e.tag = r.tag := by
  simp [State.malformedRequest, UpRequest.badForm, State.tagEntry, or_assoc]

/-- A request whose form is wrong is answered at once, and no tag entry is made for it (R136). -/
theorem State.takeRequest_malformed {s : State} {r : UpRequest} (h : s.malformedRequest r = true) :
    s.takeRequest r = s.refused r .malformed := if_pos h

/-- What the intake takes is the link's oldest request (R135). -/
theorem exec_upstreamRequest_takes {s : State} {arrival : Option UpRequest} {r : UpRequest} {rest : List UpRequest}
    (ht : s.takesNext arrival r rest) :
    exec (.upstreamRequest arrival) s = .next ((s.linkLeft rest).takeRequest r) := by
  obtain ⟨works, taking, -, link⟩ := ht
  have takes : (s.arrive arrival).live = true ∧ (s.arrive arrival).upstream.intake = .taking :=
    ⟨(s.arrive arrival).live_iff_working.2 works, taking⟩
  have oldest : (s.arrive arrival).upstream.link = r :: rest := link
  refine congrArg Host.Outcome.next ?_
  rw [State.takeFromLink, if_pos takes, oldest]
  rfl

/-- An intake that does not take leaves what is on the link there (R135). -/
theorem exec_upstreamRequest_waits {s : State} (arrival : Option UpRequest)
    (h : ¬ s.working ∨ s.upstream.intake ≠ .taking) :
    exec (.upstreamRequest arrival) s = .next (s.linkLeft (s.upstream.link ++ arrival.toList)) := by
  have takesNone : ¬ ((s.arrive arrival).live = true ∧ (s.arrive arrival).upstream.intake = .taking) :=
    fun ⟨live, taking⟩ => h.elim (absurd ((s.arrive arrival).live_iff_working.1 live)) (absurd taking)
  exact congrArg Host.Outcome.next (if_neg takesNone)

/-- Settles O31: the form checks as the request is taken, the intake that takes none, then the kinds as it is handed on. -/
theorem requestsAreRefusedBeforeAdmission : Obligations.RequestsAreRefusedBeforeAdmission := by
  refine ⟨⟨fun s arrival r rest ht malformed => ?_, fun s arrival idle => exec_upstreamRequest_waits arrival idle⟩,
    fun s arrival r rest reason ht hf refuses => ?_⟩
  · have form : (s.linkLeft rest).malformedRequest r = true := (s.malformedRequest_iff r).2 malformed
    rw [exec_upstreamRequest_takes ht, State.takeRequest_malformed form]
  · have kind : ((s.linkLeft rest).addTag r).refusesKind r reason := refuses
    rw [exec_upstreamRequest ht hf, State.handOn_refusal (State.need_of_refusesKind kind), State.taken_headAnswered ht hf]

end Sys2Proof.Machine
end

section
/-! The upstream port: a head that waits for its place (R135, R138), the answer of a straight request (R134, R140, R141), and
SOFT_RESET (R143, R179). -/

namespace Sys2Proof.Machine

/-! ## A head that waits for its place (R135, R138) -/

/-- Settles O33: the request becomes the head, and finds no free place in the queue it needs. -/
theorem headWaitsForItsPlace : Obligations.HeadWaitsForItsPlace := by
  intro s arrival r rest k ht hf kind
  have taken := exec_upstreamRequest ht hf
  refine ⟨fun needs full => ?_, fun straight full => ?_⟩
  · have place : ((s.linkLeft rest).addTag r).need r = .holdPlace := by
      rcases needs with ⟨write, n, rfl⟩ | ⟨read, waits, free⟩
      · exact State.need_of_journal write kind
      · exact State.need_of_readWaits ⟨k, kind, read, waits, free⟩
    exact taken.trans (congrArg Host.Outcome.next (State.handOn_waitHold place full))
  · have goes : ((s.linkLeft rest).addTag r).goesStraight r := ⟨k, kind, straight⟩
    exact taken.trans (congrArg Host.Outcome.next (State.handOn_waitForward goes full))

/-! ## The answer of a straight request (R134, R140, R141) -/

/-- The answer of a straight request goes to the upstream port, its outstanding entry removed (R155). -/
theorem exec_straightAnswer {s : State} {tag : BitVec 4} {up : BitVec 6} {lines : List Line} (a : Answer)
    (haw : s.awaits { tag := tag, owner := .forward up .straight, lines := lines }) :
    exec (.straightAnswer tag a) s = .next ((s.answered tag).straightAnswer up a) :=
  congrArg Host.Outcome.next (State.takeAnswer_of_awaits haw a)

theorem State.straightAnswer_done {s : State} {up : BitVec 6} {e : TagEntry} (he : s.tagEntry up = some e)
    (data : List Byte) :
    s.straightAnswer up (.done data) = s.answerUp up (doneResult e.isWrite e.length data) := by
  rw [State.straightAnswer, he]

theorem State.straightAnswer_error {s : State} {up : BitVec 6} {e : TagEntry} (he : s.tagEntry up = some e) :
    s.straightAnswer up .error = (s.answerUp up .error).raise (failedEvent e.address e.journalTag) := by
  rw [State.straightAnswer, he]

/-- Settles O44: the outstanding entry routes the answer, and the tag's entry says what the master is told. -/
theorem straightRequestIsAnswered : Obligations.StraightRequestIsAnswered := by
  intro s tag lines e data haw he
  have entry : (s.answered tag).tagEntry e.tag = some e := he
  rw [exec_straightAnswer _ haw, exec_straightAnswer _ haw, State.straightAnswer_done entry,
    State.straightAnswer_error entry]
  exact ⟨rfl, rfl⟩

/-! ## SOFT_RESET (R143, R179) -/

/-- The requests of some tags are answered ERROR in order, with nothing else changed (R143). -/
theorem State.sendErrors_eq (l : List TagEntry) (s : State) :
    l.foldl (fun s e => s.sendResponse e.tag .error) s =
      { s with out := { s.out with responses := s.out.responses ++ l.map fun e => ⟨e.tag, .error⟩ } } := by
  induction l generalizing s with
  | nil => simp
  | cons e rest ih =>
    rw [List.foldl_cons, ih]
    simp [State.sendResponse]

/-- The upstream port is abandoned: every outstanding request answered ERROR with no event, the intake stopped (R143). -/
theorem State.abandonUpstream_eq (s : State) : s.abandonUpstream =
    { s with
      upstream := { s.upstream with intake := .stopped, head := none, tags := [] }
      out := { s.out with responses := s.out.responses ++ s.upstream.tags.map fun e => ⟨e.tag, .error⟩ } } := by
  rw [State.abandonUpstream, State.sendErrors_eq]

/-- The anchor write in flight is the attach engine's, said of it as an option. -/
theorem LogWriter.engineAnchor_eq_any (w : LogWriter) :
    w.engineAnchor = w.anchor.any fun f => f.issuer = .attachEngine := by
  unfold LogWriter.engineAnchor
  cases w.anchor <;> rfl

/-- What an accepted SOFT_RESET leaves: the upstream port abandoned, the transactions withdrawn, the phase WAITING (R77, R98,
R119, R143, R157, R179). -/
theorem runCommand_softReset {s : State} (hw : s.mgmt.waiting = false) : runCommand .softReset s =
    ({ s with
        mgmt := { s.mgmt with waiting := true }
        upstream := { s.upstream with intake := .stopped, head := none, tags := [] }
        downstream := { s.downstream with
          captureList := []
          restoreList := []
          scanList := []
          anchorList :=
            if s.log.anchor.any (fun f => f.issuer = .attachEngine) then [] else s.downstream.anchorList }
        out := { s.out with responses := s.out.responses ++ s.upstream.tags.map fun e => ⟨e.tag, .error⟩ } }, .ok) := by
  rw [runCommand, State.unlessWaiting, hw, State.softResetCommand, State.abandonUpstream_eq,
    ← LogWriter.engineAnchor_eq_any]
  rfl

/-- Settles O25: between frames the frame runs the command, and no soft reset waits already. -/
theorem softResetStopsNewWork : Obligations.SoftResetStopsNewWork := by
  intro s extra ⟨frames, free⟩
  exact congrArg Host.Outcome.next (State.frameOf_of_run frames extra (runCommand_softReset free))

end Sys2Proof.Machine
end

section
/-! Which row changes which part of the bridge's border: the queue of commands, the pins, the link, MDO, the issued requests
and the upstream link (R135, R152, R171, R182). A row that owns no such part keeps all of it by `State.Keeps`; one that
owns a part keeps, past its own change, the rest. -/

namespace Sys2Proof.Machine

/-- What the host's commands leave at the border: the queue behind, the pins, the requests on the link and what has been
issued and shifted out are the same, and responses are only added. -/
structure State.KeepsBorder (s t : State) : Prop where
  pending : t.pending = s.pending
  pins : t.pins = s.pins
  link : t.upstream.link = s.upstream.link
  requests : t.out.requests = s.out.requests
  mdo : t.out.mdo = s.out.mdo
  responses : s.out.responses <+: t.out.responses

theorem State.Keeps.border {s t : State} (h : s.Keeps t) : s.KeepsBorder t :=
  ⟨h.pending, h.pins, h.link, h.requests, h.mdo, h.responses⟩

theorem State.KeepsBorder.refl (s : State) : s.KeepsBorder s := (State.Keeps.refl s).border

/-- A state with the same queue, pins, upstream port and outputs has the same border. -/
theorem State.KeepsBorder.of_eq {s t : State} (hq : t.pending = s.pending) (hp : t.pins = s.pins)
    (hu : t.upstream = s.upstream) (ho : t.out = s.out) : s.KeepsBorder t :=
  ⟨hq, hp, hu ▸ rfl, ho ▸ rfl, ho ▸ rfl, ho ▸ List.prefix_rfl⟩

/-! ## The host's commands -/

/-- SET writes configuration, which is no part of the border. -/
theorem State.itemSet_keepsBorder (s : State) (item : Item) (index : Byte) (v : BitVec 64) :
    s.KeepsBorder (s.itemSet item index v).1 := by
  have geometry : ∀ ok g, s.KeepsBorder (s.setGeometry ok g).1 := by
    intro ok g
    unfold State.setGeometry
    (repeat' split) <;> exact .of_eq rfl rfl rfl rfl
  have region : ∀ e, s.KeepsBorder (s.writeRegion index e).1 := by
    intro e
    unfold State.writeRegion
    split <;> exact .of_eq rfl rfl rfl rfl
  cases item
  case region =>
    show s.KeepsBorder (s.setRegionItem index v).1
    unfold State.setRegionItem
    (repeat' split)
    · exact region _
    · exact .refl s
    · exact .refl s
    · exact region _
  case ringBase | sizeExp | anchorAddr => exact geometry _ _
  case quota | watermark | anchorStep | arbOrder | throttleRestore | throttleScan | eventMask =>
    simp only [State.itemSet, State.setQuotaItem, State.setWatermarkItem, State.setAnchorStepItem, State.setOrderItem,
      State.setThrottleRestoreItem, State.setThrottleScanItem, State.setMaskItem]
    (repeat' split) <;> exact .of_eq rfl rfl rfl rfl
  case logHead | logTail | logFree | ctxInfo => exact .refl s

theorem State.setCommand_keepsBorder (s : State) (code index : Byte) (v : BitVec 64) :
    s.KeepsBorder (s.setCommand code index v).1 := by
  unfold State.setCommand
  (repeat' split)
  case h_2.isFalse.isFalse.isFalse => exact s.itemSet_keepsBorder _ _ _
  all_goals exact .refl s

/-- A soft reset answers what is outstanding and leaves the requests on the link (R143, log entry 11). -/
theorem State.softResetCommand_keepsBorder (s : State) : s.KeepsBorder s.softResetCommand.1 := by
  rw [State.softResetCommand, State.abandonUpstream_eq]
  exact ⟨rfl, rfl, rfl, rfl, rfl, List.prefix_append _ _⟩

theorem State.acceptAttach_keeps (s : State) (mode : AttachMode) : s.Keeps (s.acceptAttach mode) := by
  have begun := (s.setJournal_keeps .attaching).trans (State.setAttach_keeps _ (s.items.progress mode))
  refine (begun.trans ?_).trans (State.drainIfWarned_keeps _)
  cases mode with
  | format => exact (State.setAttach_keeps _ _).trans (State.handAttachAnchor_keeps _ _ _ _ _)
  | resume => exact (State.setAttach_keeps _ _).trans (State.handScan_keeps _ _ _ _)

theorem State.acceptCommit_keeps (s : State) (c : Ctx) : s.Keeps (s.acceptCommit c) :=
  ((s.setContext_keeps c { s.contexts.get c with state := .committing } rfl).trans
    (State.setProgress_keeps _ c _)).trans (State.runEngines_keeps _)

theorem State.acceptAbort_keeps (s : State) (c : Ctx) : s.Keeps (s.acceptAbort c) :=
  (((((s.setContext_keeps c { s.contexts.get c with state := .aborting } rfl).trans
    (State.setProgress_keeps _ c (.start .abort))).trans
    (State.refuseWhere_keeps _ (fun e => e.journaledOf c) .aborted)).trans (State.runEngines_keeps _)).trans
    (State.noteDue_keeps _)).trans (State.lookSpace_keeps _)

theorem State.contextCommand_keeps (s : State) (b : Byte) (run : State → Ctx → State × Reply)
    (h : ∀ c, s.Keeps (run s c).1) : s.Keeps (s.contextCommand b run).1 := by
  unfold State.contextCommand
  (repeat' split)
  · exact .refl s
  · exact .refl s
  · exact h _

/-- Every command of the host but SET and SOFT_RESET keeps what the bridge's own events keep. -/
theorem runCommand_keeps (s : State) (c : FrameCommand) (hset : ∀ item index v, c ≠ .set item index v)
    (hsoft : c ≠ .softReset) : s.Keeps (runCommand c s).1 := by
  have waits : ∀ run : State → State × Reply, s.Keeps (run s).1 → s.Keeps (State.unlessWaiting run s).1 := by
    intro run h
    unfold State.unlessWaiting
    split
    · exact .refl s
    · exact h
  have records : ∀ l o, s.Keeps { s with events := { s.events with records := l, overrun := o } } := by
    intro l o
    constructor <;> simp
  cases c with
  | nop | status => exact .refl s
  | clearOverrun => exact records _ _
  | get item index =>
    simp only [runCommand, State.getCommand]
    (repeat' split) <;> exact .refl s
  | popEvent =>
    simp only [runCommand, State.popCommand]
    split
    · exact .refl s
    · exact records _ _
  | set item index v => exact absurd rfl (hset item index v)
  | softReset => exact absurd rfl hsoft
  | attach mode =>
    refine waits _ ?_
    unfold State.attachCommand
    (repeat' split)
    case h_2.isFalse.isTrue => exact s.acceptAttach_keeps _
    all_goals exact .refl s
  | detach =>
    refine waits _ ?_
    unfold State.detachCommand
    (repeat' split)
    · exact .refl s
    · exact (s.setJournal_keeps _).trans (State.drainIfWarned_keeps _)
    · exact .refl s
  | openEpoch b =>
    refine waits _ (s.contextCommand_keeps b _ fun c => ?_)
    unfold State.openContext
    dsimp only
    split
    · exact s.setContext_keeps c _ rfl
    · exact .refl s
  | commit b =>
    refine waits _ (s.contextCommand_keeps b _ fun c => ?_)
    unfold State.commitContext
    dsimp only
    split
    case h_2 => exact s.acceptCommit_keeps c
    all_goals exact .refl s
  | abort b =>
    refine waits _ (s.contextCommand_keeps b _ fun c => ?_)
    unfold State.abortContext
    dsimp only
    split
    case h_2 | h_5 => exact s.acceptAbort_keeps c
    all_goals exact .refl s

theorem runCommand_keepsBorder (s : State) (c : FrameCommand) : s.KeepsBorder (runCommand c s).1 := by
  cases c
  case set item index v => exact s.setCommand_keepsBorder item index v
  case softReset =>
    show s.KeepsBorder (State.unlessWaiting State.softResetCommand s).1
    unfold State.unlessWaiting
    split
    · exact .refl s
    · exact s.softResetCommand_keepsBorder
  all_goals exact (runCommand_keeps s _ (by simp) (by simp)).border

theorem frameRun_keepsBorder (s : State) (bytes : List Byte) : s.KeepsBorder (frameRun bytes s).1 := by
  unfold frameRun
  cases frameCommand bytes with
  | none => exact .refl s
  | some c => exact runCommand_keepsBorder s c

/-! ## The rows that own a part of the border -/

/-- The feeding block, told of a grant, keeps. -/
theorem State.told_keeps (s : State) (o : Owner) : s.Keeps (s.told o) := by
  unfold State.told
  (repeat' split)
  · constructor <;> simp
  · constructor <;> simp
  · exact s.handSweep_keeps
  · exact .refl s
  · exact .refl s

/-- A grant issues one request at most, and keeps the rest (R152). -/
theorem State.grant_keeps (s : State) : ∃ issued : List IssuedRequest,
    State.Keeps { s with out := { s.out with requests := s.out.requests ++ issued } } s.grant := by
  have unissued : State.Keeps { s with out := { s.out with requests := s.out.requests ++ [] } } s := by
    rw [List.append_nil]
    exact .refl s
  unfold State.grant
  (repeat' split)
  · next tag r x _ _ =>
    refine ⟨[⟨tag, x.request⟩], State.Keeps.trans ?_ (State.told_keeps _ _)⟩
    constructor <;> cases r <;> simp [DownstreamPort.grant, DownstreamPort.count, DownstreamPort.setWaiting]
  · exact ⟨[], unissued⟩
  · exact ⟨[], unissued⟩

/-- The intake takes the link's oldest request at most, and keeps the rest (R135). -/
theorem State.takeFromLink_keeps (s : State) : ∃ rest, (s.linkLeft rest).Keeps s.takeFromLink := by
  have left : (s.linkLeft s.upstream.link).Keeps s := .refl s
  unfold State.takeFromLink
  (repeat' split)
  · exact ⟨_, left⟩
  · next r rest _ =>
    refine ⟨rest, ?_⟩
    unfold State.takeRequest
    split
    · constructor <;> simp [State.linkLeft]
    · refine State.Keeps.trans (t := (s.linkLeft rest).addTag r) ?_ (State.handOn_keeps _ _)
      constructor <;> simp
  · exact ⟨_, left⟩

/-- The volatile reset ends the soft reset's wait, and keeps the rest (R181). -/
theorem State.volatileReset_keeps (s : State) : ∃ m, State.Keeps { s with mgmt := m } s.volatileReset := by
  unfold State.volatileReset
  split
  · refine ⟨{ s.mgmt with waiting := false }, State.Keeps.trans ?_ (State.drainIfWarned_keeps _)⟩
    constructor <;> simp [State.softValues, Quad.get_map, ContextRecord.softReset, UpstreamPort.reset]
  · exact ⟨s.mgmt, .refl s⟩

theorem State.releaseReset_keeps (s : State) : ∃ p, State.Keeps { s with pins := p } s.releaseReset := by
  unfold State.releaseReset
  split
  · exact ⟨_, State.drainIfWarned_keeps _⟩
  · exact ⟨s.pins, .refl s⟩

/-! ## Every row -/

/-- What a row may change of the border: the parts that are its own, and what was sent stays. -/
structure State.ChangesOwn (i : Instr) (s t : State) : Prop where
  pending : t.pending = s.pending
  responses : s.out.responses <+: t.out.responses
  requests : s.out.requests <+: t.out.requests
  mdo : s.out.mdo <+: t.out.mdo
  pins : i ≠ .powerOnReset → i ≠ .rstRelease → i ≠ .pfailAsserted → i ≠ .pfailDeasserted → t.pins = s.pins
  unframed : frameBytes i = none → (∀ part, i ≠ .malformedFrame part) → t.out.mdo = s.out.mdo ∧
    (i ≠ .powerOnReset → i ≠ .volatileReset → t.mgmt = s.mgmt)
  issued : i ≠ .grant → t.out.requests = s.out.requests
  link : (∀ arrival, i ≠ .upstreamRequest arrival) → t.upstream.link = s.upstream.link

theorem State.ChangesOwn.refl (i : Instr) (s : State) : s.ChangesOwn i s :=
  ⟨rfl, List.prefix_rfl, List.prefix_rfl, List.prefix_rfl, fun _ _ _ _ => rfl, fun _ _ => ⟨rfl, fun _ _ => rfl⟩,
    fun _ => rfl, fun _ => rfl⟩

/-- What is kept after a row's own change adds no change of the border. -/
theorem State.ChangesOwn.keeps {i : Instr} {s u t : State} (h : s.ChangesOwn i u) (k : u.Keeps t) : s.ChangesOwn i t where
  pending := k.pending.trans h.pending
  responses := h.responses.trans k.responses
  requests := k.requests ▸ h.requests
  mdo := k.mdo ▸ h.mdo
  pins por release warned cleared := k.pins.trans (h.pins por release warned cleared)
  unframed whole part :=
    (h.unframed whole part).imp k.mdo.trans fun same por volatile => k.mgmt.trans (same por volatile)
  issued other := k.requests.trans (h.issued other)
  link other := k.link.trans (h.link other)

/-- A frame owns the link and MDO, and its command keeps the border. -/
theorem State.KeepsBorder.changesOwn {i : Instr} {s u : State} (h : s.KeepsBorder u) (m : ManagementLink)
    (bytes : List Byte) (row : frameBytes i ≠ none ∨ ∃ part, i = .malformedFrame part) :
    s.ChangesOwn i (State.shift { u with mgmt := m } bytes) where
  pending := h.pending
  responses := h.responses
  requests := h.requests ▸ List.prefix_rfl
  mdo := h.mdo ▸ List.prefix_append _ _
  pins _ _ _ _ := h.pins
  unframed unframed whole := row.elim (absurd unframed) fun ⟨part, malformed⟩ => absurd malformed (whole part)
  issued _ := h.requests
  link _ := h.link

/-- A whole frame runs one command or none, and shifts the old reply out (R170, R171). -/
theorem State.frame_changesOwn {s : State} {i : Instr} (bytes : List Byte) (run : State → State × Reply)
    (row : frameBytes i ≠ none ∨ ∃ part, i = .malformedFrame part) (h : s.KeepsBorder (run s).1) :
    s.ChangesOwn i (s.frame bytes run) := by
  unfold State.frame
  split
  · exact (State.KeepsBorder.refl s).changesOwn _ _ row
  · dsimp only
    split
    · exact (frameRun_keepsBorder s _).changesOwn _ _ row
    · exact h.changesOwn _ _ row

/-- Every row changes its own parts of the border alone: a row that owns none keeps all, and one that owns a part keeps what
differs from the state before in that part alone. -/
theorem exec_changesOwn {i : Instr} {s t : State} (h : exec i s = .next t) : s.ChangesOwn i t := by
  cases i
  case malformedFrame part =>
    cases part <;> obtain rfl := Host.Outcome.next.inj h
    · exact State.frame_changesOwn _ _ (.inr ⟨_, rfl⟩) (frameRun_keepsBorder s _)
    · exact (State.KeepsBorder.refl s).changesOwn _ _ (.inr ⟨_, rfl⟩)
  all_goals obtain rfl := Host.Outcome.next.inj h
  case powerOnReset =>
    exact { State.ChangesOwn.refl _ s with
      pins := absurd rfl, unframed := fun _ _ => ⟨rfl, absurd rfl⟩ }
  case rstRelease =>
    obtain ⟨p, kept⟩ := s.releaseReset_keeps
    have own : s.ChangesOwn .rstRelease { s with pins := p } :=
      { State.ChangesOwn.refl _ s with pins := fun _ other => absurd rfl other }
    exact own.keeps kept
  case pfailAsserted =>
    have own : s.ChangesOwn .pfailAsserted { s with pins := { s.pins with pfail := true } } :=
      { State.ChangesOwn.refl _ s with pins := fun _ _ other => absurd rfl other }
    exact own.keeps (State.drainIfWarned_keeps _)
  case pfailDeasserted =>
    exact { State.ChangesOwn.refl _ s with pins := fun _ _ _ other => absurd rfl other }
  case volatileReset =>
    obtain ⟨m, kept⟩ := s.volatileReset_keeps
    have own : s.ChangesOwn .volatileReset { s with mgmt := m } :=
      { State.ChangesOwn.refl _ s with unframed := fun _ _ => ⟨rfl, fun _ other => absurd rfl other⟩ }
    exact own.keeps kept
  case upstreamRequest arrival =>
    obtain ⟨rest, kept⟩ := (s.arrive arrival).takeFromLink_keeps
    have own : s.ChangesOwn (.upstreamRequest arrival) (s.linkLeft rest) :=
      { State.ChangesOwn.refl _ s with link := fun other => absurd rfl (other arrival) }
    exact own.keeps kept
  case grant =>
    obtain ⟨issued, kept⟩ := s.grant_keeps
    have own : s.ChangesOwn .grant { s with out := { s.out with requests := s.out.requests ++ issued } } :=
      { State.ChangesOwn.refl _ s with requests := List.prefix_append _ _, issued := absurd rfl }
    exact own.keeps kept
  case headReclassified => exact (State.ChangesOwn.refl _ s).keeps s.reclassify_keeps
  case release => exact (State.ChangesOwn.refl _ s).keeps s.release_keeps
  case captureReadHanded => exact (State.ChangesOwn.refl _ s).keeps s.captureHanded_keeps
  case appendTake => exact (State.ChangesOwn.refl _ s).keeps s.appendTake_keeps
  case reclamationAnchorWrite => exact (State.ChangesOwn.refl _ s).keeps s.reclaim_keeps
  case cleanAnchorWrite => exact (State.ChangesOwn.refl _ s).keeps s.cleanAnchor_keeps
  case finalDrainAnchorWrite => exact (State.ChangesOwn.refl _ s).keeps s.finalDrainAnchor_keeps
  case drained => exact (State.ChangesOwn.refl _ s).keeps s.endDrain_keeps
  case straightAnswer | forwardedEntryAnswer | captureReadAnswer | appendAnswer | anchorWriteAnswer | restoreReadAnswer |
      restoreWriteAnswer | scanReadAnswer | scanWriteAnswer | strayAnswer =>
    exact (State.ChangesOwn.refl _ s).keeps (s.takeAnswer_keeps _ _)
  all_goals exact State.frame_changesOwn _ _ (.inl (Option.some_ne_none _)) (runCommand_keepsBorder s _)

/-- Settles O10: every row changes its own parts alone, and what was sent stays. -/
theorem eachPartChangesUnderItsOwnCommands : Obligations.EachPartChangesUnderItsOwnCommands := by
  intro i s t h
  obtain ⟨pending, responses, requests, mdo, pins, unframed, issued, link⟩ := exec_changesOwn h
  exact ⟨pending, responses, requests, mdo, pins, unframed, issued, link⟩

end Sys2Proof.Machine
end

section
/-! The line lock (R151, R152): the arbiter alone adds to the outstanding table, a transaction none of whose lines is
locked; every other move leaves the table alone, takes an answered entry from it, or empties it. -/

namespace Sys2Proof.Machine

/-! ## The attach -/

@[simp] theorem State.completeAttach_outstanding (s : State) (result : AttachResult) (head generation : Seq)
    (epochs : Quad Epoch) :
    (s.completeAttach result head generation epochs).downstream.outstanding = s.downstream.outstanding := by
  simp [State.completeAttach]

@[simp] theorem State.handSweep_outstanding (s : State) :
    s.handSweep.downstream.outstanding = s.downstream.outstanding := by
  unfold State.handSweep
  dsimp only
  split <;> simp

@[simp] theorem State.endSweep_outstanding (s : State) :
    s.endSweep.downstream.outstanding = s.downstream.outstanding := by
  unfold State.endSweep
  (repeat' split) <;> simp

@[simp] theorem State.startFinal_outstanding (s : State) :
    s.startFinal.downstream.outstanding = s.downstream.outstanding := by
  unfold State.startFinal
  split <;> simp

@[simp] theorem State.readSlot_outstanding (s : State) (step : AttachStep) :
    (s.readSlot step).downstream.outstanding = s.downstream.outstanding := by
  simp [State.readSlot]

@[simp] theorem State.stopScan_outstanding (s : State) :
    s.stopScan.downstream.outstanding = s.downstream.outstanding := by
  unfold State.stopScan
  dsimp only
  split <;> simp

@[simp] theorem State.nextSequence_outstanding (s : State) :
    s.nextSequence.downstream.outstanding = s.downstream.outstanding := by
  unfold State.nextSequence
  dsimp only
  (repeat' split) <;> simp

theorem State.scanAnswer_outstanding (s : State) (step : AttachStep) (isWrite : Bool) (answer : Answer) :
    (s.scanAnswer step isWrite answer).downstream.outstanding = s.downstream.outstanding := by
  unfold State.scanAnswer
  (repeat' split)
  · unfold State.sweepAnswer
    split <;> simp
  · unfold State.anchorReadAnswer
    (repeat' split) <;> simp
  · unfold State.scanReadAnswer
    dsimp only
    (repeat' split) <;> simp
  · unfold State.replayReadAnswer
    dsimp only
    (repeat' split) <;> simp
  · unfold State.replayWriteAnswer
    dsimp only
    split <;> simp
  · rfl
  · rfl

theorem State.attachAnchorAnswer_outstanding (s : State) (answer : Answer) :
    (s.attachAnchorAnswer answer).downstream.outstanding = s.downstream.outstanding := by
  unfold State.attachAnchorAnswer
  (repeat' split)
  · unfold State.attachAnchorDone
    dsimp only
    (repeat' split) <;> simp [State.startSweep]
  · unfold State.attachAnchorError
    split <;> simp
  · rfl

/-! ## The other answers -/

theorem State.straightAnswer_outstanding (s : State) (tag : BitVec 6) (answer : Answer) :
    (s.straightAnswer tag answer).downstream.outstanding = s.downstream.outstanding := by
  unfold State.straightAnswer
  (repeat' split) <;> simp

theorem State.heldAnswer_outstanding (s : State) (tag : BitVec 6) (answer : Answer) :
    (s.heldAnswer tag answer).downstream.outstanding = s.downstream.outstanding := by
  have reported : ∀ (u : State) e, (u.reportForwardError e).downstream.outstanding = u.downstream.outstanding := by
    intro u e
    unfold State.reportForwardError
    (repeat' split) <;> simp
  unfold State.heldAnswer
  (repeat' split) <;> simp [reported]

theorem State.captureAnswer_outstanding (s : State) (ref : CaptureRef) (answer : Answer) :
    (s.captureAnswer ref answer).downstream.outstanding = s.downstream.outstanding := by
  unfold State.captureAnswer
  (repeat' split) <;> simp [State.buildRecord]

theorem State.appendAnswer_outstanding (s : State) (q : Seq) (answer : Answer) :
    (s.appendAnswer q answer).downstream.outstanding = s.downstream.outstanding := by
  cases answer <;> simp [State.appendAnswer]

theorem State.anchorAnswer_outstanding (s : State) (answer : Answer) :
    (s.anchorAnswer answer).downstream.outstanding = s.downstream.outstanding := by
  have tail : ∀ (u : State) (q : Option Seq), (u.moveTail q).downstream.outstanding = u.downstream.outstanding := by
    intro u q
    cases q <;> simp [State.moveTail]
  have done : ∀ u : State, u.engineAnchorDone.downstream.outstanding = u.downstream.outstanding := by
    intro u
    unfold State.engineAnchorDone
    (repeat' split) <;> simp
  have failed : ∀ (u : State) flight, (u.anchorError flight).downstream.outstanding = u.downstream.outstanding := by
    intro u flight
    unfold State.anchorError
    dsimp only
    (repeat' split) <;> simp
  unfold State.anchorAnswer
  dsimp only
  (repeat' split) <;> simp [tail, done, failed, State.attachAnchorAnswer_outstanding]

theorem State.restoreAnswer_outstanding (s : State) (c : Ctx) (step : ReplayStep) (answer : Answer) :
    (s.restoreAnswer c step answer).downstream.outstanding = s.downstream.outstanding := by
  unfold State.restoreAnswer
  dsimp only
  (repeat' split)
  · unfold State.restoreReadAnswer
    dsimp only
    (repeat' split) <;> simp
  · unfold State.restoreWriteAnswer
    split <;> simp
  · simp
  · rfl

theorem State.routeAnswer_outstanding (s : State) (owner : Owner) (answer : Answer) :
    (s.routeAnswer owner answer).downstream.outstanding = s.downstream.outstanding := by
  unfold State.routeAnswer
  split
  · exact s.anchorAnswer_outstanding _
  · exact s.appendAnswer_outstanding _ _
  · exact s.captureAnswer_outstanding _ _
  · exact s.straightAnswer_outstanding _ _
  · exact s.heldAnswer_outstanding _ _
  · exact s.restoreAnswer_outstanding _ _ _
  · exact s.scanAnswer_outstanding _ _ _

/-! ## The host's commands -/

theorem State.acceptAttach_outstanding (s : State) (mode : AttachMode) :
    (s.acceptAttach mode).downstream.outstanding = s.downstream.outstanding := by
  cases mode <;> simp [State.acceptAttach, State.startFormat, State.startResume]

theorem State.acceptCommit_outstanding (s : State) (c : Ctx) :
    (s.acceptCommit c).downstream.outstanding = s.downstream.outstanding := by
  simp [State.acceptCommit]

theorem State.acceptAbort_outstanding (s : State) (c : Ctx) :
    (s.acceptAbort c).downstream.outstanding = s.downstream.outstanding := by
  simp [State.acceptAbort]

theorem State.softResetCommand_outstanding (s : State) :
    s.softResetCommand.1.downstream.outstanding = s.downstream.outstanding := by
  rw [State.softResetCommand, State.abandonUpstream_eq]
  simp

theorem State.itemSet_outstanding (s : State) (item : Item) (index : Byte) (v : BitVec 64) :
    (s.itemSet item index v).1.downstream.outstanding = s.downstream.outstanding := by
  have region : ∀ e, (s.writeRegion index e).1.downstream = s.downstream := fun e => by
    unfold State.writeRegion
    split <;> rfl
  have geometry : ∀ ok g, (s.setGeometry ok g).1.downstream = s.downstream := fun ok g => by
    unfold State.setGeometry
    (repeat' split) <;> rfl
  cases item
  case region =>
    show (s.setRegionItem index v).1.downstream.outstanding = _
    unfold State.setRegionItem
    (repeat' split) <;> simp [region]
  case ringBase | sizeExp | anchorAddr => exact congrArg DownstreamPort.outstanding (geometry _ _)
  case quota | watermark | anchorStep | arbOrder | throttleRestore | throttleScan | eventMask =>
    simp only [State.itemSet, State.setQuotaItem, State.setWatermarkItem, State.setAnchorStepItem, State.setOrderItem,
      State.setThrottleRestoreItem, State.setThrottleScanItem, State.setMaskItem]
    (repeat' split) <;> rfl
  case logHead | logTail | logFree | ctxInfo => rfl

theorem State.contextCommand_outstanding (s : State) (b : Byte) (run : State → Ctx → State × Reply)
    (h : ∀ c, (run s c).1.downstream.outstanding = s.downstream.outstanding) :
    (s.contextCommand b run).1.downstream.outstanding = s.downstream.outstanding := by
  unfold State.contextCommand
  (repeat' split)
  · rfl
  · rfl
  · exact h _

/-- No command of the host changes the outstanding table. -/
theorem runCommand_outstanding (s : State) (c : FrameCommand) :
    (runCommand c s).1.downstream.outstanding = s.downstream.outstanding := by
  have waits : ∀ run : State → State × Reply, (run s).1.downstream.outstanding = s.downstream.outstanding →
      (State.unlessWaiting run s).1.downstream.outstanding = s.downstream.outstanding := by
    intro run h
    unfold State.unlessWaiting
    split
    · rfl
    · exact h
  cases c with
  | nop | status | clearOverrun => rfl
  | get item index =>
    simp only [runCommand, State.getCommand]
    (repeat' split) <;> rfl
  | popEvent =>
    simp only [runCommand, State.popCommand]
    split <;> rfl
  | set item index v =>
    simp only [runCommand, State.setCommand]
    (repeat' split)
    case h_2.isFalse.isFalse.isFalse => exact s.itemSet_outstanding _ _ _
    all_goals rfl
  | attach mode =>
    refine waits _ ?_
    unfold State.attachCommand
    (repeat' split)
    case h_2.isFalse.isTrue => exact s.acceptAttach_outstanding _
    all_goals rfl
  | detach =>
    refine waits _ ?_
    unfold State.detachCommand
    (repeat' split) <;> simp
  | openEpoch b =>
    refine waits _ (s.contextCommand_outstanding b _ fun c => ?_)
    unfold State.openContext
    dsimp only
    split <;> simp
  | commit b =>
    refine waits _ (s.contextCommand_outstanding b _ fun c => ?_)
    unfold State.commitContext
    dsimp only
    split
    case h_2 => exact s.acceptCommit_outstanding c
    all_goals rfl
  | abort b =>
    refine waits _ (s.contextCommand_outstanding b _ fun c => ?_)
    unfold State.abortContext
    dsimp only
    split
    case h_2 | h_5 => exact s.acceptAbort_outstanding c
    all_goals rfl
  | softReset => exact waits _ s.softResetCommand_outstanding

/-! ## The ports' and the engines' own events -/

theorem State.handOn_outstanding (s : State) (r : UpRequest) :
    (s.handOn r).downstream.outstanding = s.downstream.outstanding := by
  have held : ∀ u : State, (u.enterHold r).downstream = u.downstream := by
    intro u
    unfold State.enterHold
    split
    · unfold State.admitWrite
      split <;> simp
    · simp
  unfold State.handOn
  (repeat' split) <;> simp [held]

theorem State.takeFromLink_outstanding (s : State) :
    s.takeFromLink.downstream.outstanding = s.downstream.outstanding := by
  unfold State.takeFromLink
  (repeat' split)
  · rfl
  · unfold State.takeRequest
    split
    · simp
    · exact (State.handOn_outstanding _ _).trans (by simp)
  · rfl

theorem State.reclassify_outstanding (s : State) : s.reclassify.downstream.outstanding = s.downstream.outstanding := by
  unfold State.reclassify
  (repeat' split)
  · rfl
  · exact s.handOn_outstanding _
  · rfl

theorem State.release_outstanding (s : State) : s.release.downstream.outstanding = s.downstream.outstanding := by
  unfold State.release
  (repeat' split) <;> simp

theorem State.captureHanded_outstanding (s : State) :
    s.captureHanded.downstream.outstanding = s.downstream.outstanding := by
  unfold State.captureHanded
  (repeat' split) <;> simp

theorem State.appendTake_outstanding (s : State) : s.appendTake.downstream.outstanding = s.downstream.outstanding := by
  unfold State.appendTake
  (repeat' split) <;> simp

theorem State.reclaim_outstanding (s : State) : s.reclaim.downstream.outstanding = s.downstream.outstanding := by
  unfold State.reclaim
  split <;> simp

theorem State.cleanAnchor_outstanding (s : State) :
    s.cleanAnchor.downstream.outstanding = s.downstream.outstanding := by
  unfold State.cleanAnchor
  split <;> simp

theorem State.finalDrainAnchor_outstanding (s : State) :
    s.finalDrainAnchor.downstream.outstanding = s.downstream.outstanding := by
  unfold State.finalDrainAnchor
  split <;> simp

theorem State.endDrain_outstanding (s : State) : s.endDrain.downstream.outstanding = s.downstream.outstanding := by
  unfold State.endDrain
  (repeat' split) <;> simp

theorem State.releaseReset_outstanding (s : State) :
    s.releaseReset.downstream.outstanding = s.downstream.outstanding := by
  unfold State.releaseReset
  split <;> simp

/-! ## The lock -/

/-- Entries that stay in the table share no more lines than before. -/
theorem State.locksOk_of_sublist {s t : State} (hs : s.locksOk)
    (h : t.downstream.outstanding.Sublist s.downstream.outstanding) : t.locksOk := List.Pairwise.sublist h hs

theorem State.locksOk_of_same {s t : State} (hs : s.locksOk)
    (h : t.downstream.outstanding = s.downstream.outstanding) : t.locksOk :=
  State.locksOk_of_sublist hs (h ▸ List.Sublist.refl _)

theorem State.locksOk_of_empty {s : State} (h : s.downstream.outstanding = []) : s.locksOk := by
  simp [State.locksOk, h]

/-- An answer takes at most its own entry from the table (R155). -/
theorem State.takeAnswer_outstanding (s : State) (tag : BitVec 4) (answer : Answer) :
    (s.takeAnswer tag answer).downstream.outstanding.Sublist s.downstream.outstanding := by
  have removed : (s.removeOutstanding tag).downstream.outstanding.Sublist s.downstream.outstanding :=
    List.filter_sublist
  unfold State.takeAnswer
  (repeat' split)
  · exact List.Sublist.refl _
  · exact removed
  · rw [State.routeAnswer_outstanding]
    exact removed

/-- None of the lines of the transaction that the arbiter finds is locked (R151, R152). -/
theorem DownstreamPort.unlocked_of_choice {d : DownstreamPort} {r : Requester} {x : Transaction}
    (h : d.choice = some (r, x)) : ∀ o ∈ d.outstanding, shareLine o.lines x.request.lines = false := by
  obtain ⟨u, -, eligible⟩ := List.exists_of_findSome?_eq_some h
  obtain ⟨y, candidate, found⟩ := Option.map_eq_some_iff.1 eligible
  obtain ⟨rfl, rfl⟩ := Prod.mk.inj found
  unfold DownstreamPort.candidate at candidate
  split at candidate
  · cases candidate
  · split at candidate
    · cases candidate
    · next unlocked =>
      obtain rfl := Option.some.inj candidate
      simpa [DownstreamPort.locked] using unlocked

/-- A grant adds an entry that shares no line with those before it, and what the feeding block does leaves the table
alone (R152). -/
theorem State.grant_locksOk {s : State} (hs : s.locksOk) : s.grant.locksOk := by
  unfold State.grant
  (repeat' split)
  · next tag r x _ chosen =>
    have told := congrArg DownstreamPort.outstanding ((s.granted tag r x).told_port x.owner)
    refine State.locksOk_of_same (s := s.granted tag r x) ?_ told
    show (s.downstream.grant tag r x).outstanding.Pairwise _
    rw [(s.downstream.grant_table tag r x).1, List.pairwise_append]
    refine ⟨hs, List.pairwise_singleton _ _, fun o ho e he => ?_⟩
    obtain rfl := List.mem_singleton.1 he
    exact DownstreamPort.unlocked_of_choice chosen o ho
  · exact hs
  · exact hs

/-- Every move keeps the line lock: the arbiter's adds an unlocked transaction, no other adds one. -/
theorem State.Moves.locksOk {s t : State} (hs : s.locksOk) (h : s.Moves t) : t.locksOk := by
  have same : ∀ {u : State}, u.downstream.outstanding = s.downstream.outstanding → u.locksOk := State.locksOk_of_same hs
  cases h with
  | link m o => exact hs
  | command c m o => exact same (runCommand_outstanding s c)
  | powerOn => exact State.locksOk_of_empty rfl
  | releaseReset => exact same s.releaseReset_outstanding
  | assertPfail => exact same (by simp [State.assertPfail])
  | deassertPfail => exact hs
  | volatileReset =>
    unfold State.volatileReset
    split
    · exact State.locksOk_of_empty (by simp [State.softValues, DownstreamPort.reset])
    · exact hs
  | request arrival => exact same (State.takeFromLink_outstanding _)
  | reclassify => exact same s.reclassify_outstanding
  | release => exact same s.release_outstanding
  | captureHanded => exact same s.captureHanded_outstanding
  | grant => exact State.grant_locksOk hs
  | answer tag a => exact State.locksOk_of_sublist hs (s.takeAnswer_outstanding tag a)
  | appendTake => exact same s.appendTake_outstanding
  | reclaim => exact same s.reclaim_outstanding
  | cleanAnchor => exact same s.cleanAnchor_outstanding
  | finalDrainAnchor => exact same s.finalDrainAnchor_outstanding
  | endDrain => exact same s.endDrain_outstanding

/-- Settles O5: the lock is kept at every move, and the queue is no part of it. -/
theorem stepKeepsTheLineLock : Obligations.StepKeepsTheLineLock := fun _ _ hs h =>
  step_invariant (P := State.locksOk) (fun _ _ hq => hq) (fun _ _ hq => State.Moves.locksOk hq) hs h

end Sys2Proof.Machine
end

section
/-! SET of the arbiter's items (R153, R154, R187), and the answers that are discarded (R147, R157, R180). -/

namespace Sys2Proof.Machine

/-! ## SET of the arbiter's items -/

/-- SET(ARB_ORDER) takes the value of an order of the six requesters (R153). -/
theorem State.setOrderItem_of_order (s : State) {order : List Requester}
    (h : order.Perm [.anchor, .append, .capture, .forward, .restore, .scan]) :
    s.setOrderItem (orderValue order) = ({ s with downstream := { s.downstream with order := order } }, .ok) := by
  rw [State.setOrderItem, orderOfValue_orderValue h]

/-- SET(ARB_ORDER) refuses a value that no order of the six requesters has (R153). -/
theorem State.setOrderItem_of_noOrder (s : State) {v : BitVec 64}
    (h : ∀ order : List Requester, order.Perm [.anchor, .append, .capture, .forward, .restore, .scan] →
      v ≠ orderValue order) : s.setOrderItem v = (s, .badRange) := by
  have unpacked : orderOfValue v = none := by
    refine Option.eq_none_iff_forall_not_mem.2 fun order packs => ?_
    obtain ⟨perm, value⟩ := orderOfValue_eq_some packs
    exact h order perm value
  rw [State.setOrderItem, unpacked]

/-- A throttle's range decides between the state it sets and a refusal (R153). -/
theorem throttleItem_eq (n : Nat) (s t : State) :
    (if 255 < n then (s, Reply.badRange) else (t, .ok)) =
      (if n ≤ 255 then t else s, if n ≤ 255 then .ok else .badRange) := by
  by_cases hn : n ≤ 255
  · rw [if_neg (Nat.not_lt.2 hn), if_pos hn, if_pos hn]
  · rw [if_pos (Nat.not_le.1 hn), if_neg hn, if_neg hn]

/-- Settles O14: the shared checks of SET pass, then a value packs one order or none, and a throttle has its range. -/
theorem setArbiterItems : Obligations.SetArbiterItems := by
  intro s index extra hs
  have set {code : Byte} {item : Item} {v : BitVec 64} (hc : itemOfCode code = some item)
      (hi : item.indexOk index = true) (hr : item.readOnly = false) {t : State} {r : Reply}
      (h : s.itemSet item index v = (t, r)) :
      exec (.set code index v extra) s = .next (s.afterFrame (11 + extra) t r) :=
    exec_set_of_run hs.1 extra ((setCommand_of_item v hc hi hr hs.2).trans h)
  exact ⟨fun _ perm => set (item := .arbOrder) rfl rfl rfl (s.setOrderItem_of_order perm),
    fun _ other => set (item := .arbOrder) rfl rfl rfl (s.setOrderItem_of_noOrder other),
    fun v => ⟨set (item := .throttleRestore) rfl rfl rfl (throttleItem_eq v.toNat s _),
      set (item := .throttleScan) rfl rfl rfl (throttleItem_eq v.toNat s _)⟩⟩

/-! ## Answers that are discarded -/

/-- Each row that carries an answer gives it to the same routing (log entry 5). -/
theorem exec_of_answerRow {i : Instr} {tag : BitVec 4} {a : Answer} (h : i ∈ answerRows tag a) (s : State) :
    exec i s = .next (s.takeAnswer tag a) := by
  simp only [answerRows, List.mem_cons, List.not_mem_nil, or_false] at h
  rcases h with rfl | rfl | rfl | rfl | rfl | rfl | rfl | rfl | rfl | rfl <;> rfl

theorem State.outstandingEntry_eq_none_iff (s : State) (tag : BitVec 4) :
    s.outstandingEntry tag = none ↔ ∀ o ∈ s.downstream.outstanding, o.tag ≠ tag := by
  simp [State.outstandingEntry]

/-- Without an entry of the tag there is nothing to remove. -/
theorem State.answered_of_none {s : State} {tag : BitVec 4} (h : ∀ o ∈ s.downstream.outstanding, o.tag ≠ tag) :
    s.answered tag = s := by
  have kept : s.downstream.outstanding.filter (fun e => e.tag ≠ tag) = s.downstream.outstanding :=
    List.filter_eq_self.2 (by simpa using h)
  rw [State.answered, kept]

/-- Settles O43: without an entry nothing is routed; in a soft reset's wait the entry goes, where the tag has one. -/
theorem strayAndWaitingAnswersAreDiscarded : Obligations.StrayAndWaitingAnswersAreDiscarded := by
  intro s tag a i row
  rw [exec_of_answerRow row s]
  have stray (noEntry : ∀ o ∈ s.downstream.outstanding, o.tag ≠ tag) : s.takeAnswer tag a = s :=
    State.takeAnswer_of_none a ((s.outstandingEntry_eq_none_iff tag).2 noEntry)
  refine ⟨fun noEntry => congrArg _ (stray noEntry), fun waiting => congrArg _ ?_⟩
  cases entry : s.outstandingEntry tag with
  | none =>
    have noEntry := (s.outstandingEntry_eq_none_iff tag).1 entry
    exact (stray noEntry).trans (State.answered_of_none noEntry).symm
  | some o => exact State.takeAnswer_of_waiting a entry waiting

end Sys2Proof.Machine
end

section
/-! POP_EVENT, CLEAR_OVERRUN and the overrun flag (R161, R163, R164, R186). -/

namespace Sys2Proof.Machine

/-! ## POP_EVENT (R163) -/

theorem runCommand_popEvent_of_empty {s : State} (h : s.events.records = []) :
    runCommand .popEvent s = (s, .empty s.events.overrun) := by
  rw [runCommand, State.popCommand, h]

theorem runCommand_popEvent_of_cons {s : State} {e : Event} {rest : List Event} (h : s.events.records = e :: rest) :
    runCommand .popEvent s =
      ({ s with events := { s.events with records := rest } }, .okEvent e rest.length s.events.overrun) := by
  rw [runCommand, State.popCommand, h]

/-- A POP_EVENT shows the overrun flag and does not clear it (R163, R164). -/
theorem runCommand_popEvent_overrun (s : State) : (runCommand .popEvent s).1.events.overrun = s.events.overrun := by
  cases h : s.events.records with
  | nil => rw [runCommand_popEvent_of_empty h]
  | cons e rest => rw [runCommand_popEvent_of_cons h]

/-- Settles O23: the reply's layout is that of `Event.layout_eq`, and the frame runs the command, which the queue decides;
neither the journal state nor a soft reset's wait is looked at. -/
theorem popEventTakesTheOldest : Obligations.PopEventTakesTheOldest := by
  refine ⟨fun e left overrun => congrArg _ (e.layout_eq left overrun), fun s extra hs => ⟨fun empty => ?_,
    fun e rest oldest => ?_⟩⟩
  · exact congrArg _ (State.frameOf_of_run hs extra (runCommand_popEvent_of_empty empty))
  · exact congrArg _ (State.frameOf_of_run hs extra (runCommand_popEvent_of_cons oldest))

/-! ## The overrun flag (R164) -/

/-- The soft reset values clear the flag, and the one record of the drain that may follow finds room (R114, R167). -/
theorem State.softValues_drainIfWarned_overrun (s : State) : s.softValues.drainIfWarned.events.overrun = false := by
  rw [State.softValues_drainIfWarned]
  split
  case isTrue => rw [State.softValues_beginDrain]
  case isFalse => rfl

/-- Settles O24: room in the queue decides a drop, both commands are frames, and each reset leaves the event block's reset
values. -/
theorem overrunIsSetByADropAndCleared : Obligations.OverrunIsSetByADropAndCleared := by
  refine ⟨EventBlock.take_of_room, EventBlock.take_of_full, fun s extra hs => ?_, fun s extra hs => ?_,
    fun s => ⟨s.powerOn, rfl, rfl⟩, fun s waiting idle => ?_⟩
  · exact congrArg _ (State.frameOf_of_run hs extra rfl)
  · have popped : (s.frameOf .popEvent extra).events = (runCommand .popEvent s).1.events := by
      rw [State.frameOf_afterFrame hs, State.afterFrame]
    exact ⟨s.frameOf .popEvent extra, rfl, (congrArg _ popped).trans (runCommand_popEvent_overrun s)⟩
  · exact ⟨s.softValues.drainIfWarned, congrArg _ (if_pos ⟨waiting, idle⟩), s.softValues_drainIfWarned_overrun⟩

end Sys2Proof.Machine
end

section
/-! RST_N holds the bridge (R174, R182): while it is asserted a row changes at most what the reset does not reset, the level
of PFAIL_N, the requests on the link, the phase of the frame and what has been sent (log entries 1, 11, 13, 14, 23). -/

namespace Sys2Proof.Machine

/-- `s` with another level of PFAIL_N, other requests on the link, another state of the management link, and other outputs. -/
def State.withOutside (s : State) (pfail : Bool) (link : List UpRequest) (mgmt : ManagementLink) (out : Outputs) : State :=
  { s with
    pins := { s.pins with pfail := pfail }
    upstream := { s.upstream with link := link }
    mgmt := mgmt
    out := out }

theorem FramePhase.cut_cut (f : FramePhase) : f.cut.cut = f.cut := by
  cases f <;> rfl

/-- The power-on values are those of a second power-on: RST_N leaves what it does not reset. -/
theorem State.powerOn_powerOn (s : State) : s.powerOn.powerOn = s.powerOn := by
  have mgmt : s.powerOn.powerOn.mgmt = s.powerOn.mgmt :=
    congrArg (fun f => { ManagementLink.reset with frame := f }) s.mgmt.frame.cut_cut
  exact congrArg (fun m => { s.powerOn with mgmt := m }) mgmt

section
variable {s : State} (h : s.powerOn = s)
include h

/-- A state at its power-on values stays so whatever happens to what RST_N does not reset, while the management link has its
own power-on values and no frame in progress but a cut one. -/
theorem State.powerOn_withOutside (pfail : Bool) (link : List UpRequest) {mgmt : ManagementLink}
    (hm : { ManagementLink.reset with frame := mgmt.frame.cut } = mgmt) (out : Outputs) :
    (s.withOutside pfail link mgmt out).powerOn = s.withOutside pfail link mgmt out := by
  rw [← h]
  exact congrArg (fun m => s.powerOn.withOutside pfail link m out) hm

/-- In reset the link takes a phase of its frame that is none or cut, and nothing is assembled. -/
theorem State.powerOn_framePhase {frame : FramePhase} (hf : frame.cut = frame) :
    { ManagementLink.reset with frame := frame.cut } = { s.mgmt with frame := frame, assembly := [] } := by
  rw [hf, ← h]
  rfl

/-- In reset no block works, no transaction is outstanding, no head and no soft reset waits, and no frame is taken. -/
theorem State.powerOn_rests : s.live = false ∧ s.downstream.outstanding = [] ∧ s.upstream.head = none ∧
    s.mgmt.waiting = false ∧ s.takesNoFrame = true := by
  rw [← h]
  exact ⟨rfl, rfl, rfl, rfl, rfl⟩

/-- In reset a frame, whole or in part, moves the link's frame and MDO alone (R174). -/
theorem State.frame_powerOn (bytes : List Byte) (run : State → State × Reply) :
    (s.frame bytes run).powerOn = s.frame bytes run := by
  obtain ⟨-, -, -, -, cut⟩ := State.powerOn_rests h
  rw [s.frame_of_cut bytes run cut]
  exact State.powerOn_withOutside h s.pins.pfail s.upstream.link (State.powerOn_framePhase h (frame := .none) rfl) _

theorem State.beginFrame_powerOn (bytes : List Byte) : (s.beginFrame bytes).powerOn = s.beginFrame bytes := by
  obtain ⟨-, -, -, -, cut⟩ := State.powerOn_rests h
  rw [State.beginFrame, cut]
  exact State.powerOn_withOutside h s.pins.pfail s.upstream.link (State.powerOn_framePhase h (frame := .discarded) rfl) _

/-- In reset every row keeps the power-on values, but RST_N_RELEASE, which ends the reset. -/
theorem exec_powerOn {i : Instr} {t : State} (he : exec i s = .next t) : t.powerOn = t ∨ t.pins.rst = false := by
  obtain ⟨off, outstanding, head, waiting, -⟩ := State.powerOn_rests h
  have idle (p : Prop) : ¬ (s.live = true ∧ p) := fun hl => absurd hl.1 (Bool.eq_false_iff.1 off)
  have outside (pfail : Bool) (link : List UpRequest) :=
    State.powerOn_withOutside h pfail link (congrArg State.mgmt h) s.out
  have unchanged (same : t = s) : t.powerOn = t ∨ t.pins.rst = false := .inl (same ▸ h)
  cases i
  case malformedFrame part =>
    cases part <;> obtain rfl := Host.Outcome.next.inj he
    · exact .inl (State.frame_powerOn h _ _)
    · exact .inl (State.beginFrame_powerOn h _)
  all_goals obtain rfl := Host.Outcome.next.inj he
  case powerOnReset => exact .inl s.powerOn_powerOn
  case rstRelease =>
    refine .inr ?_
    unfold State.releaseReset
    split
    case isTrue => rw [(State.drainIfWarned_keeps _).pins]
    case isFalse asserted => exact Bool.eq_false_iff.2 asserted
  case pfailAsserted =>
    have held : s.assertPfail = { s with pins := { s.pins with pfail := true } } :=
      if_neg fun ⟨_, on, _⟩ => absurd on (Bool.eq_false_iff.1 off)
    rw [held]
    exact .inl (outside true s.upstream.link)
  case pfailDeasserted => exact .inl (outside false s.upstream.link)
  case volatileReset => exact unchanged (if_neg fun ⟨waits, _⟩ => absurd waits (Bool.eq_false_iff.1 waiting))
  case upstreamRequest arrival =>
    have waits : (s.arrive arrival).takeFromLink = s.arrive arrival := if_neg (idle _)
    rw [waits]
    exact .inl (outside s.pins.pfail (s.upstream.link ++ arrival.toList))
  case headReclassified => exact unchanged (by rw [State.reclassify, head])
  case grant => exact unchanged (if_neg (Bool.eq_false_iff.1 off))
  case captureReadHanded => exact unchanged (if_neg (Bool.eq_false_iff.1 off))
  case release | appendTake | reclamationAnchorWrite | cleanAnchorWrite | finalDrainAnchorWrite | drained =>
    exact unchanged (if_neg (idle _))
  case straightAnswer tag a | forwardedEntryAnswer tag a | captureReadAnswer tag a | appendAnswer tag a |
      anchorWriteAnswer tag a | restoreReadAnswer tag a | restoreWriteAnswer tag a | scanReadAnswer tag a |
      scanWriteAnswer tag a | strayAnswer tag a =>
    exact unchanged (State.takeAnswer_of_none a (by rw [State.outstandingEntry, outstanding]; rfl))
  all_goals exact .inl (State.frame_powerOn h _ _)

end

/-- RST_N is asserted by POWER_ON_RESET alone. -/
theorem exec_asserts {i : Instr} {s t : State} (h : exec i s = .next t) (ht : t.pins.rst = true) :
    i = .powerOnReset ∨ s.pins.rst = true := by
  by_cases levels : i = .powerOnReset ∨ i = .rstRelease ∨ i = .pfailAsserted ∨ i = .pfailDeasserted
  · rcases levels with rfl | rfl | rfl | rfl
    · exact .inl rfl
    all_goals obtain rfl := Host.Outcome.next.inj h
    · unfold State.releaseReset at ht
      split at ht
      case isTrue asserted => exact .inr asserted
      case isFalse => exact .inr ht
    · have pins : s.assertPfail.pins = { s.pins with pfail := true } := (State.drainIfWarned_keeps _).pins
      exact .inr (by rwa [pins] at ht)
    · exact .inr ht
  · simp only [not_or] at levels
    obtain ⟨por, release, warned, cleared⟩ := levels
    exact .inr ((exec_changesOwn h).pins por release warned cleared ▸ ht)

/-- Every row keeps what RST_N holds. -/
theorem exec_resetOk {i : Instr} {s t : State} (hs : s.resetOk) (h : exec i s = .next t) : t.resetOk := by
  intro asserted
  rcases exec_asserts h asserted with rfl | before
  · obtain rfl := Host.Outcome.next.inj h
    exact s.powerOn_powerOn
  · rcases exec_powerOn (hs before) h with kept | released
    · exact kept
    · exact absurd asserted (Bool.eq_false_iff.1 released)

/-- The queue of commands is none of the state that RST_N holds. -/
theorem State.resetOk.dequeue {s : State} (hs : s.resetOk) (rest : List Instr) :
    ({ s with pending := rest } : State).resetOk := by
  intro asserted
  exact congrArg (fun u : State => { u with pending := rest }) (hs asserted)

/-- Settles O8: the step takes the front command off the queue, and its row keeps what RST_N holds. -/
theorem stepHoldsTheBridgeInReset : Obligations.StepHoldsTheBridgeInReset := by
  intro s t hs h
  unfold step at h
  split at h
  · obtain rfl := Host.Outcome.next.inj h
    exact hs
  · next rest _ => exact exec_resetOk (hs.dequeue rest) h

end Sys2Proof.Machine
end

section
/-! Configuration is changed by SET and by RST_N alone (R170, R177, R181, R182). -/

namespace Sys2Proof.Machine

/-- A frame whose bytes name no SET leaves configuration. -/
theorem frameRun_configuration {bytes : List Byte} (s : State)
    (h : ∀ item index v, frameCommand bytes ≠ some (.set item index v)) :
    (frameRun bytes s).1.configuration = s.configuration := by
  unfold frameRun
  cases named : frameCommand bytes with
  | none => rfl
  | some command =>
    exact runCommand_configuration command s fun item index v same => h item index v (same ▸ named)

/-- Settles O9: a frame leaves configuration where no command it can run is a SET, and of the other rows RST_N alone sets
it. -/
theorem onlySetAndResetChangeConfiguration : Obligations.OnlySetAndResetChangeConfiguration := by
  intro i s t wf other rest h
  have frame (bytes : List Byte) (run : State → State × Reply) (whole : frameBytes i = some bytes)
      (kept : (run s).1.configuration = s.configuration) : (s.frame bytes run).configuration = s.configuration :=
    s.frame_configuration bytes run kept fun n released begun => rest n bytes released begun whole
  cases i
  case malformedFrame part =>
    cases part <;> obtain rfl := Host.Outcome.next.inj h
    · have unnamed := Option.isNone_iff_eq_none.1 wf
      exact frame _ _ rfl (frameRun_configuration s fun _ _ _ named => by cases unnamed.symm.trans named)
    · rfl
  case set | setRegion | setQuota | setWatermark | setEventMask | powerOnReset => cases other
  all_goals obtain rfl := Host.Outcome.next.inj h
  case rstRelease =>
    obtain ⟨_, kept⟩ := s.releaseReset_keeps
    exact kept.configuration
  case volatileReset =>
    obtain ⟨_, kept⟩ := s.volatileReset_keeps
    exact kept.configuration
  case pfailAsserted => exact (State.drainIfWarned_keeps { s with pins := { s.pins with pfail := true } }).configuration
  case pfailDeasserted => rfl
  case upstreamRequest arrival => exact s.arrive_keeps_configuration arrival
  case grant => exact s.grant_configuration
  case headReclassified => exact s.reclassify_keeps.configuration
  case release => exact s.release_keeps.configuration
  case captureReadHanded => exact s.captureHanded_keeps.configuration
  case appendTake => exact s.appendTake_keeps.configuration
  case reclamationAnchorWrite => exact s.reclaim_keeps.configuration
  case cleanAnchorWrite => exact s.cleanAnchor_keeps.configuration
  case finalDrainAnchorWrite => exact s.finalDrainAnchor_keeps.configuration
  case drained => exact s.endDrain_keeps.configuration
  case straightAnswer | forwardedEntryAnswer | captureReadAnswer | appendAnswer | anchorWriteAnswer | restoreReadAnswer |
      restoreWriteAnswer | scanReadAnswer | scanWriteAnswer | strayAnswer =>
    exact (s.takeAnswer_keeps _ _).configuration
  all_goals exact frame _ _ rfl (runCommand_configuration _ s nofun)

end Sys2Proof.Machine
end

section
/-! GET (R177, R187): the checks on the code and the index, then the item as it stands. -/

namespace Sys2Proof.Machine

/-- A GET between frames leaves the state and its reply (R170, R171). -/
theorem exec_get_of_run {s : State} {code index : Byte} {r : Reply} (hs : s.takesFrames) (extra : Nat)
    (hr : s.getCommand code index = (s, r)) : exec (.get code index extra) s = .next (s.afterFrame (3 + extra) s r) :=
  congrArg Host.Outcome.next (State.frameOf_of_run hs extra hr)

/-- A GET of an item with an index in its range. -/
theorem State.getCommand_of_item (s : State) {code index : Byte} {item : Item} (hc : itemOfCode code = some item)
    (hi : item.indexOk index = true) : s.getCommand code index = (s, s.itemReply item index) := by
  simp [State.getCommand, hc, hi]

/-- A GET of an item with an index out of its range. -/
theorem State.getCommand_of_badIndex (s : State) {code index : Byte} {item : Item} (hc : itemOfCode code = some item)
    (hi : item.indexOk index = false) : s.getCommand code index = (s, .badRange) := by
  simp [State.getCommand, hc, hi]

/-- A GET whose code names no item. -/
theorem State.getCommand_of_none (s : State) {code : Byte} (index : Byte) (hc : itemOfCode code = none) :
    s.getCommand code index = (s, .badRange) := by
  simp [State.getCommand, hc]

/-- The number of a context is an index in the range of every item (R177). -/
theorem Item.indexOk_ctxByte (item : Item) (c : Ctx) : item.indexOk (ctxByte c) = true := by
  cases item <;> fin_cases c <;> rfl

/-- The byte of an entry's number. -/
theorem byte_toNat_ofFin (n : Fin 16) : (BitVec.ofNat 8 n.val).toNat = n.val := by
  rw [BitVec.toNat_ofNat, Nat.mod_eq_of_lt (by omega)]

/-- The region entry of an index below 16. -/
theorem State.region_ofFin (s : State) (n : Fin 16) : s.region (BitVec.ofNat 8 n.val) = s.regions.get n := by
  simp only [State.region, byte_toNat_ofFin, Nat.mod_eq_of_lt n.isLt]
  rfl

/-- Settles O12: the layouts are those of `Laws/Layouts`; a GET between frames passes its two checks and replies the item, or
fails one and replies BAD_RANGE. -/
theorem getReturnsEachItem : Obligations.GetReturnsEachItem := by
  refine ⟨fun v => ?_, fun r entries => congrArg _ (r.layout_eq entries), RegionEntry.value_layout, orderValue_layout,
    fun s index extra hs => ?_⟩
  · rw [mostFirst_eq, Reply.bytes]
  · have plain {code : Byte} (item : Item) (hc : itemOfCode code = some item) (hi : item.indexOk index = true) :
        exec (.get code index extra) s = .next (s.afterFrame (3 + extra) s (s.itemReply item index)) :=
      exec_get_of_run hs extra (s.getCommand_of_item hc hi)
    have ofContext {code : Byte} {item : Item} (c : Ctx) (hc : itemOfCode code = some item) :
        exec (.get code (ctxByte c) extra) s = .next (s.afterFrame (3 + extra) s (s.itemReply item (ctxByte c))) :=
      exec_get_of_run hs extra (s.getCommand_of_item hc (item.indexOk_ctxByte c))
    have refused {code : Byte} (item : Item) (hc : itemOfCode code = some item) (hi : item.indexOk index = false) :
        exec (.get code index extra) s = .next (s.afterFrame (3 + extra) s .badRange) :=
      exec_get_of_run hs extra (s.getCommand_of_badIndex hc hi)
    refine ⟨fun n => ?_, plain .ringBase rfl rfl, plain .sizeExp rfl rfl, plain .anchorAddr rfl rfl,
      plain .watermark rfl rfl, plain .anchorStep rfl rfl, fun c => ?_, plain .arbOrder rfl rfl,
      plain .throttleRestore rfl rfl, plain .throttleScan rfl rfl, plain .eventMask rfl rfl, plain .logHead rfl rfl,
      plain .logTail rfl rfl, plain .logFree rfl rfl,
      fun c => ?_, fun code unnamed => ?_, fun out => ?_, fun out => ⟨?_, ?_⟩⟩
    · have inRange : Item.region.indexOk (BitVec.ofNat 8 n.val) = true := by
        rw [Item.indexOk, byte_toNat_ofFin]
        exact decide_eq_true n.isLt
      rw [← s.region_ofFin n]
      exact exec_get_of_run hs extra (s.getCommand_of_item rfl inRange)
    · have quota := ofContext c (code := 0x07) rfl
      rwa [State.itemReply, ctxOfIndex_ctxByte] at quota
    · have info := ofContext c (code := 0x0F) rfl
      rwa [State.itemReply, ctxOfIndex_ctxByte] at info
    · exact exec_get_of_run hs extra (s.getCommand_of_none index (itemOfCode_eq_none unnamed))
    · exact refused .region rfl (by simpa [Item.indexOk, BitVec.le_def] using out)
    · exact refused .quota rfl (by simpa [Item.indexOk, BitVec.le_def] using out)
    · exact refused .ctxInfo rfl (by simpa [Item.indexOk, BitVec.le_def] using out)

end Sys2Proof.Machine
end

section
/-! The frames of R186's table, and the command a frame decodes to (R170, R172). -/

namespace Sys2Proof

/-! ## What a frame's bytes name -/

/-- A frame whose first byte is no code names no command (R172). -/
theorem frameCommand_of_noCode {code : Byte} (rest : List Byte) (h : 0x0B ≤ code) (hs : code ≠ 0x5A) :
    frameCommand (code :: rest) = none := by
  have other : ∀ k : Byte, k < 0x0B → code ≠ k := fun k hk he => by
    subst he
    bv_omega
  have reset : code ≠ 0x5A#8 := hs
  simp [frameCommand, other, reset]

/-- A 64-bit value survives its 8 bytes on the link. -/
theorem ofNat_valueMsbFirst_bytes (v : BitVec 64) : BitVec.ofNat 64 (valueMsbFirst (bytesMsbFirst 8 v.toNat)) = v := by
  have fits : v.toNat < 256 ^ 8 := v.isLt
  rw [valueMsbFirst_bytesMsbFirst, Nat.mod_eq_of_lt fits, BitVec.ofNat_toNat, BitVec.setWidth_eq]

/-- A command's frame names the command, whatever bytes are clocked behind it (R172). -/
theorem frameCommand_bytes (command : FrameCommand) (extra : Nat) :
    frameCommand (command.bytes extra) = some command := by
  cases command
  case set item index v =>
    simp [FrameCommand.bytes, frameCommand, ofNat_valueMsbFirst_bytes]
  all_goals rfl

/-- The frame of a command is the row of that command (R170, R172). -/
theorem frameInstr_bytes (command : FrameCommand) (extra : Nat) :
    frameInstr (command.bytes extra) = command.instr extra := by
  rw [frameInstr, frameCommand_bytes]
  simp

/-! ## Frames that are cut short -/

/-- What a chain of tests answers, another chain of the same tests answers if each arm does. -/
theorem ite_eq_some_of_arms {α : Type} {c : Prop} [Decidable c] {a b a' b' : Option α} {x : α}
    (ha : a = some x → a' = some x) (hb : b = some x → b' = some x) :
    (if c then a else b) = some x → (if c then a' else b') = some x := by
  split
  · exact ha
  · exact hb

/-- Bytes past those that name a command change nothing (R172). -/
theorem frameCommand_append {frame : List Byte} {command : FrameCommand} (more : List Byte)
    (h : frameCommand frame = some command) : frameCommand (frame ++ more) = some command := by
  rcases frame with _ | ⟨code, args⟩
  · cases h
  revert h
  rw [List.cons_append]
  delta frameCommand
  refine ite_eq_some_of_arms id <| ite_eq_some_of_arms id <| ite_eq_some_of_arms ?get <| ite_eq_some_of_arms ?set <|
    ite_eq_some_of_arms ?attach <| ite_eq_some_of_arms id <| ite_eq_some_of_arms ?openEpoch <|
    ite_eq_some_of_arms ?commit <| ite_eq_some_of_arms ?abort id
  case get =>
    rcases args with _ | ⟨item, _ | ⟨index, value⟩⟩
    · exact nofun
    · exact nofun
    · exact id
  case set =>
    rcases args with _ | ⟨item, _ | ⟨index, value⟩⟩
    · exact nofun
    · exact nofun
    · intro h
      dsimp only [List.cons_append] at h ⊢
      split at h
      case isTrue enough =>
        rw [if_pos (by simp; omega), List.take_append_of_le_length enough]
        exact h
      case isFalse => cases h
  case attach | openEpoch | commit | abort =>
    cases args
    · exact nofun
    · exact id

/-- A frame cut short of what its command needs names no command: as the beginning of that frame it could name no other
(R172). -/
theorem frameCommand_take (command : FrameCommand) {k : Nat} (h : k < (command.bytes 0).length) :
    frameCommand ((command.bytes 0).take k) = none := by
  refine Option.eq_none_iff_forall_ne_some.2 fun named hn => ?_
  have whole : some command = some named := by
    have extended := frameCommand_append ((command.bytes 0).drop k) hn
    rwa [List.take_append_drop, frameCommand_bytes] at extended
  obtain rfl := Option.some.inj whole
  have needed := bytesNeeded_le hn
  rw [List.length_take, FrameCommand.bytes_length] at needed
  rw [FrameCommand.bytes_length] at h
  omega

/-! ## The rows -/

/-- A row that is a frame is the row of that frame's bytes, where its operands are those of its row. -/
theorem frameInstr_of_frameBytes {i : Instr} {frame : List Byte} (wf : i.wellFormed = true)
    (h : frameBytes i = some frame) : frameInstr frame = i := by
  cases i
  case malformedFrame part =>
    cases part <;> cases h
    have unnamed : frameCommand frame = none := Option.isNone_iff_eq_none.1 wf
    rw [frameInstr, unnamed]
  case set item index v extra =>
    obtain rfl := Option.some.inj h
    simp only [Instr.wellFormed, itemHasNoRow, Bool.and_eq_true, bne_iff_ne] at wf
    obtain ⟨⟨⟨region, watermark⟩, quota⟩, mask⟩ := wf
    rw [frameInstr_bytes, FrameCommand.instr, if_neg region, if_neg quota, if_neg watermark, if_neg mask]
  case attachFormat mode extra =>
    obtain rfl := Option.some.inj h
    rw [frameInstr_bytes, FrameCommand.instr, if_neg (bne_iff_ne.1 wf)]
  all_goals cases h
  all_goals exact frameInstr_bytes _ _

/-- Settles O59: the layouts arm by arm, the frames that name no command, and the rows read back. -/
theorem frameDecodesToItsCommand : Obligations.FrameDecodesToItsCommand := by
  refine ⟨fun a b v n => ?_, fun command k => frameCommand_take command, fun code => frameCommand_of_noCode,
    fun i frame => frameInstr_of_frameBytes⟩
  rw [Machine.mostFirst_eq]
  exact ⟨rfl, rfl, rfl, rfl, rfl, rfl, rfl, rfl, rfl, rfl, rfl, rfl⟩

end Sys2Proof
end

section
/-! Frames by what the link is doing (R170 to R176): NOP, STATUS and frames that name no command; frames while a soft reset
waits, in progress, and while RST_N is asserted. -/

namespace Sys2Proof.Machine

/-! ## Whole frames -/

/-- A frame between frames leaves what it runs, and its reply (R170, R171). -/
theorem State.frame_afterFrame {s : State} (h : s.takesFrames) (bytes : List Byte) (run : State → State × Reply) :
    s.frame bytes run = s.afterFrame bytes.length (run s).1 (run s).2 :=
  s.frame_of_none bytes run h.1 h.2

theorem frameRun_of_none {frame : List Byte} (h : frameCommand frame = none) (s : State) :
    frameRun frame s = (s, .malformed) := by
  rw [frameRun, h]

theorem frameRun_of_some {frame : List Byte} {command : FrameCommand} (h : frameCommand frame = some command) :
    frameRun frame = runCommand command := by
  rw [frameRun, h]

/-- A row that is a frame shifts the frame's bytes. -/
theorem exec_of_frameBytes {i : Instr} {frame : List Byte} (h : frameBytes i = some frame) (s : State) :
    ∃ run, exec i s = .next (s.frame frame run) := by
  cases i
  case malformedFrame part =>
    cases part <;> cases h
    exact ⟨_, rfl⟩
  all_goals cases h
  all_goals exact ⟨_, rfl⟩

/-- Between frames the row that a frame is runs what the frame's bytes say (R170, R172). -/
theorem exec_frameInstr {s : State} (hs : s.takesFrames) (frame : List Byte) : exec (frameInstr frame) s =
    .next (s.afterFrame frame.length (frameRun frame s).1 (frameRun frame s).2) := by
  cases named : frameCommand frame with
  | none =>
    rw [frameInstr, named]
    exact congrArg Host.Outcome.next (State.frame_afterFrame hs _ _)
  | some command =>
    rw [frameInstr, named, frameRun_of_some named]
    refine (exec_instr _ _ s).trans (congrArg Host.Outcome.next ?_)
    rw [State.frameOf_afterFrame hs, Nat.add_sub_cancel' (bytesNeeded_le named)]

/-- Settles O11: the replies' bytes by `Laws/Layouts`, the three frames by what they run. -/
theorem nopStatusAndMalformedReply : Obligations.NopStatusAndMalformedReply := by
  refine ⟨fun reply n => ⟨rfl, ?_⟩, rfl, rfl, rfl, rfl, rfl, rfl, rfl, fun e => ?_, fun r => congrArg _ r.layout_eq,
    fun s extra hs => ⟨?_, ?_, fun frame unnamed => ?_⟩⟩
  · simp [shiftedOut, readBytes]
  · rw [mostFirst_eq, Reply.bytes]
  · exact congrArg _ (State.frameOf_of_run hs extra rfl)
  · exact congrArg _ (State.frameOf_of_run hs extra rfl)
  · have malformed : exec (.malformedFrame (.ended frame)) s = .next (s.frame frame (frameRun frame)) := rfl
    rw [malformed, State.frame_afterFrame hs, frameRun_of_none unnamed]

/-! ## While a soft reset waits (R176) -/

theorem State.unlessWaiting_of_waiting {s : State} (run : State → State × Reply) (hw : s.mgmt.waiting = true) :
    State.unlessWaiting run s = (s, .busy) :=
  if_pos hw

/-- A SET that passes the checks on the code, the index and read-only is refused, but that of EVENT_MASK (R177). -/
theorem setCommand_of_waiting {s : State} {code index : Byte} {item : Item} (v : BitVec 64)
    (hc : itemOfCode code = some item) (hi : item.indexOk index = true) (hr : item.readOnly = false)
    (hm : item ≠ .eventMask) (hw : s.mgmt.waiting = true) : runCommand (.set code index v) s = (s, .busy) := by
  simp [runCommand, State.setCommand, hc, hi, hr, hm, hw]

/-- The codes of the items that have no row of their own, are not indexed and can be set (R177, R187). -/
theorem itemOfCode_of_settable {code : Byte} (h : code = 0x02 ∨ code = 0x03 ∨ code = 0x04 ∨ code = 0x06 ∨ code = 0x08 ∨
    code = 0x09 ∨ code = 0x0A) : ∃ item, itemOfCode code = some item ∧ (∀ index, item.indexOk index = true) ∧
    item.readOnly = false ∧ item ≠ .eventMask := by
  rcases h with rfl | rfl | rfl | rfl | rfl | rfl | rfl
  · exact ⟨.ringBase, rfl, fun _ => rfl, rfl, nofun⟩
  · exact ⟨.sizeExp, rfl, fun _ => rfl, rfl, nofun⟩
  · exact ⟨.anchorAddr, rfl, fun _ => rfl, rfl, nofun⟩
  · exact ⟨.anchorStep, rfl, fun _ => rfl, rfl, nofun⟩
  · exact ⟨.arbOrder, rfl, fun _ => rfl, rfl, nofun⟩
  · exact ⟨.throttleRestore, rfl, fun _ => rfl, rfl, nofun⟩
  · exact ⟨.throttleScan, rfl, fun _ => rfl, rfl, nofun⟩

/-- The commands that a soft reset's wait refuses leave the state, and the reply BUSY. -/
theorem State.frameOf_of_waiting {s : State} (hs : s.takesFrames) (hw : s.mgmt.waiting = true) {command : FrameCommand}
    (run : State → State × Reply) (refusable : runCommand command = State.unlessWaiting run) (extra : Nat) :
    s.frameOf command extra = s.afterFrame (command.bytesNeeded + extra) s .busy :=
  State.frameOf_of_run hs extra (by rw [refusable, State.unlessWaiting_of_waiting run hw])

/-! ## Frames in progress (R170, R174, log entry 14) -/

/-- The first bytes of a frame, or further ones, fill the assembly buffer; the old reply is shifted out on. -/
theorem State.beginFrame_of_taken {s : State} (h : s.takesNoFrame = false) (bytes : List Byte) : s.beginFrame bytes =
    { s with
      mgmt := { s.mgmt with
        frame := .inProgress (s.mgmt.frame.clocked + bytes.length), assembly := (s.mgmt.assembly ++ bytes).take 11 }
      out := { s.out with mdo := s.out.mdo ++
        [(shiftedOut s.mgmt.reply (s.mgmt.frame.clocked + bytes.length)).drop s.mgmt.frame.clocked] } } := by
  rw [State.beginFrame, State.shiftedBytes, h]
  rfl

/-- While RST_N is asserted, and in a frame that it has cut, nothing is assembled and 00H is shifted out. -/
theorem State.beginFrame_of_cut {s : State} (h : s.takesNoFrame = true) (bytes : List Byte) : s.beginFrame bytes =
    { s with
      mgmt := { s.mgmt with frame := .discarded, assembly := [] }
      out := { s.out with mdo := s.out.mdo ++ [List.replicate bytes.length 0] } } := by
  rw [State.beginFrame, State.shiftedBytes, h]
  rfl

/-- POWER_ON_RESET discards a frame in progress and empties the link (R174). -/
theorem State.powerOn_mgmt {s : State} (h : s.mgmt.frame ≠ .none) :
    s.powerOn.mgmt = { frame := .discarded, assembly := [], reply := none, waiting := false } := by
  have cut : s.mgmt.frame.cut = .discarded := by rw [FramePhase.cut_eq, if_neg h]
  exact congrArg (fun f => { ManagementLink.reset with frame := f }) cut

/-- Settles O26: the refusals of a soft reset's wait; whole frames by where the link stands; and the parts of a frame with
what RST_N does to them. -/
theorem framesWhileAResetHolds : Obligations.FramesWhileAResetHolds := by
  refine ⟨fun s extra hs hw => ?_, fun i s frame whole => ?_, fun s bytes => ?_⟩
  · have busy {command : FrameCommand} (run : State → State × Reply)
        (refusable : runCommand command = State.unlessWaiting run) :=
      State.frameOf_of_waiting hs hw run refusable extra
    have set {code index : Byte} {v : BitVec 64} (item : Item) (hc : itemOfCode code = some item)
        (hi : item.indexOk index = true) (hr : item.readOnly = false) (hm : item ≠ .eventMask) :
        exec (.set code index v extra) s = .next (s.afterFrame (11 + extra) s .busy) :=
      exec_set_of_run hs extra (setCommand_of_waiting v hc hi hr hm hw)
    refine ⟨fun mode => congrArg _ (busy (State.attachCommand mode) rfl),
      congrArg _ (busy (State.attachCommand 0x02) rfl), congrArg _ (busy State.detachCommand rfl),
      congrArg _ (busy State.softResetCommand rfl), fun b => ⟨congrArg _ (busy (State.openCommand b) rfl),
      congrArg _ (busy (State.commitCommand b) rfl), congrArg _ (busy (State.abortCommand b) rfl)⟩,
      fun index v => set .watermark rfl rfl rfl nofun, fun index v inRange => set .quota rfl ?_ rfl nofun,
      fun index v inRange => set .region rfl ?_ rfl nofun, fun code index v settable => ?_⟩
    · simpa [Item.indexOk, BitVec.lt_def] using inRange
    · simpa [Item.indexOk, BitVec.lt_def] using inRange
    · obtain ⟨item, named, unindexed, writable, unmasked⟩ := itemOfCode_of_settable settable
      exact set item named (unindexed index) writable unmasked
  · obtain ⟨run, row⟩ := exec_of_frameBytes whole s
    refine ⟨fun cut => ?_, fun hs => exec_frameInstr hs frame, fun n released begun => ?_⟩
    · rw [row, s.frame_of_cut frame run (s.takesNoFrame_eq_true_iff.2 cut)]
    · rw [row, s.frame_of_inProgress frame run n released begun]
  · have part : exec (.malformedFrame (.begun bytes)) s = .next (s.beginFrame bytes) := rfl
    refine ⟨fun hs empty => ?_, fun n released begun => ?_, fun cut => ?_, fun begun => ⟨s.powerOn, rfl, ?_⟩,
      fun unwarned _ => congrArg _ (State.releaseReset_of_pfail unwarned)⟩
    · have taken : s.takesNoFrame = false := s.takesNoFrame_eq_false_iff.2 ⟨hs.1, by simp [hs.2]⟩
      rw [part, State.beginFrame_of_taken taken, hs.2, empty]
      simp [FramePhase.clocked]
    · have taken : s.takesNoFrame = false := s.takesNoFrame_eq_false_iff.2 ⟨released, by simp [begun]⟩
      rw [part, State.beginFrame_of_taken taken, begun]
      rfl
    · rw [part, State.beginFrame_of_cut (s.takesNoFrame_eq_true_iff.2 cut)]
    · exact State.powerOn_mgmt begun

end Sys2Proof.Machine
end

section
/-! One step by what the queue holds: the command at its front is taken off and executed, and an empty queue idles
(log entry 2). -/

namespace Sys2Proof.Machine

/-- A step takes the front command off the queue, so the command's row sees the rest alone. -/
theorem step_of_pending_cons {s : State} {c : Instr} {rest : List Instr} (h : s.pending = c :: rest) :
    step s = exec c { s with pending := rest } := by
  rw [step, h]

theorem step_of_pending_nil {s : State} (h : s.pending = []) : step s = .next s := by
  rw [step, h]

/-- Settles O1, by the two forms of the queue. -/
theorem stepRunsTheFrontCommand : Obligations.StepRunsTheFrontCommand := by
  refine ⟨fun c rest s => ?_, fun s empty => ?_⟩
  · have front : ({ s with pending := c :: rest } : State).pending = c :: rest := rfl
    exact step_of_pending_cons front
  · exact step_of_pending_nil empty

end Sys2Proof.Machine
end
